-- ==== Sys2Proof/Word.lean ====
section
/-! DEFINITION. The words of the machine: bytes on the data lines, the 11-bit bus-cycle word, and the text tokens of a
host command line. -/

namespace Sys2Proof

/-- A byte on DQ7..DQ0 or in a buffer: unsigned, bit 0 least significant (00_scope R11). -/
abbrev Byte := BitVec 8

/-- The bus-cycle word W of 30_encoding R90: bit 10 is K, bit 9 is C (CLE), bit 8 is A (ALE), bits 7..0 are D. -/
abbrev CycleWord := BitVec 11

/-- One argument of a host command line (30_encoding R109): a row of characters. -/
abbrev Token := List Char

end Sys2Proof
end

