-- ==== Sys2Proof/Config.lean ====
section
/-! DEFINITION. What is fixed for the machine: the protocol constants the source states (00_scope R7), the shapes of the
bus lines, the parameters R9 leaves to the operator or board, and the FREE VALUES (opaque, without a body) that stand for
every answer the spec leaves unconstrained. -/

namespace Sys2Proof

/-- PAGE_SIZE, 2112 bytes (00_scope R7). -/
abbrev PAGE_SIZE : Nat := 2112
/-- DATA_SIZE, 2048 bytes (00_scope R7). -/
abbrev DATA_SIZE : Nat := 2048
/-- SPARE_SIZE, 64 bytes (00_scope R7). -/
abbrev SPARE_SIZE : Nat := 64
/-- PAGES_PER_BLOCK, 64 (00_scope R7). -/
abbrev PAGES_PER_BLOCK : Nat := 64
/-- ID_LEN, 5 bytes (00_scope R7). -/
abbrev ID_LEN : Nat := 5
/-- MAX_RETRIES, 5 (00_scope R7). -/
abbrev MAX_RETRIES : Nat := 5

namespace Machine

/-- A line's direction (10_state R21): IN or OUT, seen from the engine. -/
inductive Dir where
  | inp
  | out
deriving DecidableEq, Repr, Inhabited

/-- The 14 lines of the NBPE (10_state R20). -/
inductive Line where
  | dq (i : Fin 8)
  | cle
  | ale
  | we
  | re
  | wp
  | rb
deriving DecidableEq, Repr

/-- The line registers of 10_state R24: DQDIR, the level last driven on every OUT line (`true` is level 1), and the
direction of every line (R21, R130). `dqOut` holds the direction each data line has taken (bit i is 1 for OUT);
`dqDir` is the engine's register DQDIR. R/B# has no level here: the chip drives it (R23). -/
structure Lines where
  dqDir  : Dir
  dqOut  : BitVec 8
  dq     : Byte
  cle    : Bool
  ale    : Bool
  we     : Bool
  re     : Bool
  wp     : Bool
  cleDir : Dir
  aleDir : Dir
  weDir  : Dir
  reDir  : Dir
  wpDir  : Dir
  rbDir  : Dir
deriving DecidableEq, Repr, Inhabited

/-- CTL_MAP (10_state R27): the platform pin of each control line. -/
structure CtlMap where
  wp  : Nat
  rb  : Nat
  ale : Nat
  cle : Nat
  re  : Nat
  we  : Nat
deriving DecidableEq, Repr

/-- The configuration of 10_state R27 and 00_scope R9: parameters, immutable while the machine runs. They stand in State
(and no step changes them) so that a claim holds for every value of them: notes/assumptions/6. -/
structure Cfg where
  busyLimit : Option Nat
  pinMap    : Vector Nat 8
  ctlMap    : CtlMap
  mmioBase  : Nat
  grace     : Nat
  chipPages : Nat
deriving DecidableEq, Repr

end Machine

/-! ## Free values

Each is applied to the counter `env.draws`, which every draw advances, and has no body: nothing is known of any value
(93_implementation_defined I1, I8, I9, I10, I11, I12). notes/assumptions/3. -/

/-- FREE VALUE: the byte a data-in cycle samples (20_memory R77, I1). -/
opaque Config.freeByte : Nat → Byte
/-- FREE VALUE: the level one sample of R/B# reads (20_memory R77, I1). -/
opaque Config.freeLevel : Nat → Bool
/-- FREE VALUE: how many more samples of a busy wait read busy; `none` means every later one does (R77, R146, I16). -/
opaque Config.freeBusy : Nat → Option Nat
/-- FREE VALUE: the host's answer at the gate, `true` for Continue (42_operations R217, I8). -/
opaque Config.freeGate : Nat → Bool
/-- FREE VALUE: whether a host stream operation succeeds (60_exceptions R264). -/
opaque Config.freeIo : Nat → Bool
/-- FREE VALUE: the text of a HostIoError (92_eei_decisions D43, I10). -/
opaque Config.hostMessage : Nat → String
/-- FREE VALUE: the lines an invocation finds before its InitLines (10_state R47, 60_exceptions R275, I11, I12). -/
opaque Config.freeLines : Nat → Machine.Lines
/-- FREE VALUE: the exit code of an aborted run (60_exceptions R270, I9). -/
opaque Config.abortExit : Nat → Int

end Sys2Proof
end

