-- ==== Sys2Proof/Syntax.lean ====
section
/-! DEFINITION. The syntax of the machine: one constructor of `Instr` for every row of spec/opcode_table.json. -/

namespace Sys2Proof

/-- X of `readPage(p, X)`: which page buffer a page read fills (41_transactions R185, R186). -/
inductive Buf where
  | a
  | b
deriving DecidableEq, Repr

/-- The instructions at their three levels: bus cycles (30_encoding R91, R93), transactions (R99) and host commands
(R109). Page and block indices are naturals with no upper bound (20_memory R75). -/
inductive Instr where
  /-- CMD_READ_ID, word 0x290 (R170). -/
  | cmdReadId
  /-- CMD_READ_SETUP, word 0x200 (R171). -/
  | cmdReadSetup
  /-- CMD_READ_CONFIRM, word 0x230 (R172). -/
  | cmdReadConfirm
  /-- CMD_PROG_SETUP, word 0x280 (R173). -/
  | cmdProgSetup
  /-- CMD_PROG_CONFIRM, word 0x210 (R174). -/
  | cmdProgConfirm
  /-- CMD_ERASE_SETUP, word 0x260 (R175). -/
  | cmdEraseSetup
  /-- CMD_ERASE_CONFIRM, word 0x2D0 (R176). -/
  | cmdEraseConfirm
  /-- CMD_READ_STATUS, word 0x270 (R177). -/
  | cmdReadStatus
  /-- ID_ADDR, word 0x100 (R178). -/
  | idAddr
  /-- ADDR, word 0x100 + a (R179). -/
  | addr (a : Byte)
  /-- DATA_W, word 0x000 + d (R140). -/
  | dataW (d : Byte)
  /-- DATA_R, word 0x400 + d, d the byte the chip drives (R141). -/
  | dataR (d : Byte)
  /-- readId (R180). -/
  | readId
  /-- readPage(p, X) (R185). -/
  | readPage (p : Nat) (x : Buf)
  /-- writePage(p), the data in BUF_A (R190). -/
  | writePage (p : Nat)
  /-- eraseBlock(b) (R192). -/
  | eraseBlock (b : Nat)
  /-- readStatus (R195). -/
  | readStatus
  /-- `<delay> read_id` (R218). -/
  | readIdCmd (delay : Nat)
  /-- `<delay> read_full <firstPage> <count> <outputPath>` (R220). -/
  | readFull (delay first count : Nat) (path : Token)
  /-- `<delay> read_data <firstPage> <count> <outputPath>` (R220). -/
  | readData (delay first count : Nat) (path : Token)
  /-- `<delay> write_full <firstPage> <count> <inputPath>` (R238). -/
  | writeFull (delay first count : Nat) (path : Token)
  /-- `<delay> erase_blocks <firstBlock> <count>` (R248). -/
  | eraseBlocks (delay first count : Nat)
deriving DecidableEq, Repr

end Sys2Proof
end

