-- ==== Sys2Proof/WellFormed.lean ====
section
/-! DEFINITION. Which instructions are the canonical spelling of what they encode: every operand is one the encoding
carries whole. `exec` gives every instruction its meaning, well-formed or not (a page index of 2^24 and more is masked on
the bus, 20_memory R62; COUNT = 0 is a UsageError, R212). -/

namespace Sys2Proof

/-- The operands the encodings carry whole.
* `addr 0` is the word 0x100, which alone is ID_ADDR (30_encoding R96, the more fixed row of the table).
* A page index has 24 bits on the bus, a block index 18 (20_memory R62, R64).
* `<count>` is at least 1 (30_encoding R110). -/
def WellFormed : Instr → Bool
  | .addr a => a != 0
  | .readPage p _ => decide (p < 2 ^ 24)
  | .writePage p => decide (p < 2 ^ 24)
  | .eraseBlock b => decide (b < 2 ^ 18)
  | .readFull _ _ count _ => decide (1 ≤ count)
  | .readData _ _ count _ => decide (1 ≤ count)
  | .writeFull _ _ count _ => decide (1 ≤ count)
  | .eraseBlocks _ _ count => decide (1 ≤ count)
  | .cmdReadId | .cmdReadSetup | .cmdReadConfirm | .cmdProgSetup | .cmdProgConfirm | .cmdEraseSetup
  | .cmdEraseConfirm | .cmdReadStatus | .idAddr | .dataW _ | .dataR _ | .readId | .readStatus
  | .readIdCmd _ => true

end Sys2Proof
end

