-- ==== Sys2Proof/Decode.lean ====
section
/-! DEFINITION. Decoding and encoding at the three levels of 30_encoding: the 11-bit bus-cycle word (R90 to R94), a
transaction's whole sequence of words (R95 to R100), and the host command line (R109, R110, 42_operations R212). -/

namespace Sys2Proof

/-- Why a decoder refuses. -/
inductive Reject where
  /-- More than the 11 bits of a bus-cycle word (30_encoding R90). -/
  | notACycleWord
  /-- A reserved pattern: both latches, or a latch in a read strobe (30_encoding R92, I3). -/
  | reservedCycle
  /-- A command cycle with none of the eight command bytes (30_encoding R94, I3). -/
  | unknownCommandByte
  /-- Check 1 of 42_operations R212: no verb, or none of the five. -/
  | unknownVerb
  /-- Check 2 of R212: not exactly the arguments the verb takes. -/
  | wrongArity
  /-- Check 3 of R212: a number that is no unsigned decimal integer. -/
  | notDecimal
  /-- Not the words of one transaction (30_encoding R94, R99). -/
  | notATransaction
deriving DecidableEq, Repr

/-! ## Address operands -/

/-- The 3 row bytes of a page index, low byte first, bits above 23 dropped (20_memory R62, R65). -/
def rowBytes (p : Nat) : List Byte :=
  [BitVec.ofNat 8 p, BitVec.ofNat 8 (p / 256), BitVec.ofNat 8 (p / 65536)]

/-- PageAddr(p): 2 column bytes, always 0, then the row bytes (30_encoding R97, 20_memory R63). -/
def pageAddr (p : Nat) : List Byte := [0x00#8, 0x00#8] ++ rowBytes p

/-- BlockAddr(b): the row bytes of page b * 64 (30_encoding R98, 20_memory R64). -/
def blockAddr (b : Nat) : List Byte := rowBytes (b * PAGES_PER_BLOCK)

/-- The row index that three row bytes carry, the inverse of `rowBytes` below 2^24 (20_memory R62). -/
def rowIndex (lo mid hi : Byte) : Nat := lo.toNat + 256 * mid.toNat + 65536 * hi.toNat

/-! ## The bus-cycle word (30_encoding R90, R91) -/

/-- A command cycle's word, 0x200 + c. -/
def cmdWord (c : Byte) : CycleWord := 0b010#3 ++ c
/-- An address cycle's word, 0x100 + a. -/
def addrWord (a : Byte) : CycleWord := 0b001#3 ++ a
/-- A data-write cycle's word, 0x000 + d. -/
def writeWord (d : Byte) : CycleWord := 0b000#3 ++ d
/-- A data-read cycle's word, 0x400 + d. -/
def readWord (d : Byte) : CycleWord := 0b100#3 ++ d

/-- The fields K, C and A of a word: W[10:8]. -/
def cycleClass (w : CycleWord) : BitVec 3 := w.extractLsb' 8 3
/-- The field D of a word: W[7:0]. -/
def cycleByte (w : CycleWord) : Byte := w.extractLsb' 0 8

/-- The command set of 30_encoding R93; any other byte is refused (R94). -/
def decodeCommandByte (c : Byte) : Except Reject Instr :=
  if c = 0x90#8 then .ok .cmdReadId
  else if c = 0x00#8 then .ok .cmdReadSetup
  else if c = 0x30#8 then .ok .cmdReadConfirm
  else if c = 0x80#8 then .ok .cmdProgSetup
  else if c = 0x10#8 then .ok .cmdProgConfirm
  else if c = 0x60#8 then .ok .cmdEraseSetup
  else if c = 0xD0#8 then .ok .cmdEraseConfirm
  else if c = 0x70#8 then .ok .cmdReadStatus
  else .error .unknownCommandByte

/-- The cycle a word names (30_encoding R91 to R94). The word 0x100 by itself is ID_ADDR: notes/assumptions/8. -/
def decodeWord (w : CycleWord) : Except Reject Instr :=
  if cycleClass w = 0b010#3 then decodeCommandByte (cycleByte w)
  else if cycleClass w = 0b001#3 then
    (if cycleByte w = 0x00#8 then .ok .idAddr else .ok (.addr (cycleByte w)))
  else if cycleClass w = 0b000#3 then .ok (.dataW (cycleByte w))
  else if cycleClass w = 0b100#3 then .ok (.dataR (cycleByte w))
  else .error .reservedCycle

/-- `decodeWord` on a number: one of 2^11 and more is no bus-cycle word. -/
def decodeNat (w : Nat) : Except Reject Instr :=
  if w < 2 ^ 11 then decodeWord (BitVec.ofNat 11 w) else .error .notACycleWord

/-- The instruction the decoder reads from a table row's bits `w`, `nbits` of them: the bus cycle the word names. The
NBPE stores no words (20_memory R85), so the bits are the word itself. -/
def decodeTableWord (_nbits w : Nat) : Option Instr :=
  match decodeNat w with
  | .ok i => some i
  | .error _ => none

/-- The word of a bus-cycle instruction, `none` for the other levels. -/
def encodeWord : Instr → Option CycleWord
  | .cmdReadId => some (cmdWord 0x90#8)
  | .cmdReadSetup => some (cmdWord 0x00#8)
  | .cmdReadConfirm => some (cmdWord 0x30#8)
  | .cmdProgSetup => some (cmdWord 0x80#8)
  | .cmdProgConfirm => some (cmdWord 0x10#8)
  | .cmdEraseSetup => some (cmdWord 0x60#8)
  | .cmdEraseConfirm => some (cmdWord 0xD0#8)
  | .cmdReadStatus => some (cmdWord 0x70#8)
  | .idAddr => some (addrWord 0x00#8)
  | .addr a => some (addrWord a)
  | .dataW d => some (writeWord d)
  | .dataR d => some (readWord d)
  | .readId | .readPage _ _ | .writePage _ | .eraseBlock _ | .readStatus
  | .readIdCmd _ | .readFull _ _ _ _ | .readData _ _ _ _ | .writeFull _ _ _ _ | .eraseBlocks _ _ _ => none

/-! ## Transactions (30_encoding R95, R99, R100) -/

/-- How many data bytes a transaction moves (20_memory R68). -/
def dataLen : Instr → Nat
  | .readId => ID_LEN
  | .readPage _ _ => PAGE_SIZE
  | .writePage _ => PAGE_SIZE
  | .readStatus => 1
  | _ => 0

/-- A transaction's cycle words (30_encoding R99). `data` is what moves in its data cycles: the bytes the chip drives for
readId, readPage and readStatus, the bytes of BUF_A for writePage. `none` for the other levels. -/
def encodeTransaction (i : Instr) (data : List Byte) : Option (List CycleWord) :=
  match i with
  | .readId => some ([cmdWord 0x90#8, addrWord 0x00#8] ++ data.map readWord)
  | .readPage p _ =>
    some ([cmdWord 0x00#8] ++ (pageAddr p).map addrWord ++ [cmdWord 0x30#8] ++ data.map readWord)
  | .writePage p =>
    some ([cmdWord 0x80#8] ++ (pageAddr p).map addrWord ++ data.map writeWord ++ [cmdWord 0x10#8])
  | .eraseBlock b => some ([cmdWord 0x60#8] ++ (blockAddr b).map addrWord ++ [cmdWord 0xD0#8])
  | .readStatus => some ([cmdWord 0x70#8] ++ data.map readWord)
  | _ => none

/-- The bytes of the first `n` words, if all are of the cycle class `cls`, and the words after them. -/
def takeClass (cls : BitVec 3) : Nat → List CycleWord → Option (List Byte × List CycleWord)
  | 0, ws => some ([], ws)
  | _ + 1, [] => none
  | n + 1, w :: ws =>
    if cycleClass w = cls then
      match takeClass cls n ws with
      | some (bs, rest) => some (cycleByte w :: bs, rest)
      | none => none
    else none

/-- One expected word. -/
def takeWord (w : CycleWord) : List CycleWord → Option (List CycleWord)
  | [] => none
  | v :: ws => if v = w then some ws else none

/-- The row index of five address bytes with column 0 (30_encoding R97). -/
def pageOfAddr : List Byte → Option Nat
  | [c0, c1, lo, mid, hi] => if c0 = 0x00#8 ∧ c1 = 0x00#8 then some (rowIndex lo mid hi) else none
  | _ => none

/-- The block of three row bytes: row_lo[5:0] is 0 in a block address (20_memory R64, 30_encoding R98). -/
def blockOfAddr : List Byte → Option Nat
  | [lo, mid, hi] =>
    if rowIndex lo mid hi % PAGES_PER_BLOCK = 0 then some (rowIndex lo mid hi / PAGES_PER_BLOCK) else none
  | _ => none

/-- The transaction at the head of a bus-cycle trace, told by its first word (30_encoding R100), with its data bytes and
the words after it. `x` is the buffer a page read fills: it is on no line (41_transactions R186). That a trace which ends
before the transaction does is refused, as `notATransaction`, is the model's choice (DESIGN CHOICE, notes/assumptions/19). -/
def decodeTransaction (x : Buf) : List CycleWord → Except Reject (Instr × List Byte × List CycleWord)
  | [] => .error .notATransaction
  | w :: ws =>
    if w = cmdWord 0x90#8 then
      match takeWord (addrWord 0x00#8) ws with
      | none => .error .notATransaction
      | some ws1 =>
        match takeClass 0b100#3 ID_LEN ws1 with
        | none => .error .notATransaction
        | some (data, rest) => .ok (.readId, data, rest)
    else if w = cmdWord 0x00#8 then
      match takeClass 0b001#3 5 ws with
      | none => .error .notATransaction
      | some (addr, ws1) =>
        match pageOfAddr addr, takeWord (cmdWord 0x30#8) ws1 with
        | some p, some ws2 =>
          match takeClass 0b100#3 PAGE_SIZE ws2 with
          | none => .error .notATransaction
          | some (data, rest) => .ok (.readPage p x, data, rest)
        | _, _ => .error .notATransaction
    else if w = cmdWord 0x80#8 then
      match takeClass 0b001#3 5 ws with
      | none => .error .notATransaction
      | some (addr, ws1) =>
        match pageOfAddr addr, takeClass 0b000#3 PAGE_SIZE ws1 with
        | some p, some (data, ws2) =>
          match takeWord (cmdWord 0x10#8) ws2 with
          | none => .error .notATransaction
          | some rest => .ok (.writePage p, data, rest)
        | _, _ => .error .notATransaction
    else if w = cmdWord 0x60#8 then
      match takeClass 0b001#3 3 ws with
      | none => .error .notATransaction
      | some (addr, ws1) =>
        match blockOfAddr addr, takeWord (cmdWord 0xD0#8) ws1 with
        | some b, some rest => .ok (.eraseBlock b, [], rest)
        | _, _ => .error .notATransaction
    else if w = cmdWord 0x70#8 then
      match takeClass 0b100#3 1 ws with
      | none => .error .notATransaction
      | some (data, rest) => .ok (.readStatus, data, rest)
    else .error .notATransaction

/-! ## Unsigned decimal integers (30_encoding R110, 20_memory R74) -/

/-- The decimal digits of `n`, most significant first, no leading zeros; `fuel` above `n` is enough. -/
def decimalDigits : Nat → Nat → List Nat
  | 0, _ => []
  | fuel + 1, n => if n < 10 then [n] else decimalDigits fuel (n / 10) ++ [n % 10]

/-- The digits of a natural number. -/
def digitsOf (n : Nat) : List Nat := decimalDigits (n + 1) n

/-- A digit as a character. -/
def digitChar (d : Nat) : Char := Char.ofNat (48 + d)

/-- A number as a token. -/
def decimalToken (n : Nat) : Token := (digitsOf n).map digitChar

/-- Reads digits onto `acc`; `none` at a character that is no digit. -/
def parseDigits : Nat → Token → Option Nat
  | acc, [] => some acc
  | acc, c :: cs =>
    if 48 ≤ c.toNat ∧ c.toNat ≤ 57 then parseDigits (acc * 10 + (c.toNat - 48)) cs else none

/-- An unsigned decimal integer: one or more digits and nothing else (30_encoding R110; leading zeros are taken:
notes/assumptions/11). -/
def parseDecimal (t : Token) : Option Nat :=
  match t with
  | [] => none
  | _ :: _ => parseDigits 0 t

/-! ## The host command line (30_encoding R109) -/

/-- The five verbs. -/
inductive Verb where
  | readId
  | readFull
  | readData
  | writeFull
  | eraseBlocks
deriving DecidableEq, Repr

/-- A verb's spelling (30_encoding R109). -/
def verbToken : Verb → Token
  | .readId => ['r', 'e', 'a', 'd', '_', 'i', 'd']
  | .readFull => ['r', 'e', 'a', 'd', '_', 'f', 'u', 'l', 'l']
  | .readData => ['r', 'e', 'a', 'd', '_', 'd', 'a', 't', 'a']
  | .writeFull => ['w', 'r', 'i', 't', 'e', '_', 'f', 'u', 'l', 'l']
  | .eraseBlocks => ['e', 'r', 'a', 's', 'e', '_', 'b', 'l', 'o', 'c', 'k', 's']

/-- The verb a token spells. -/
def parseVerb (t : Token) : Option Verb :=
  if t = verbToken .readId then some .readId
  else if t = verbToken .readFull then some .readFull
  else if t = verbToken .readData then some .readData
  else if t = verbToken .writeFull then some .writeFull
  else if t = verbToken .eraseBlocks then some .eraseBlocks
  else none

/-- Check 3 of 42_operations R212 for the verbs with a range. -/
def parseRange (delay first count : Token) (k : Nat → Nat → Nat → Instr) : Except Reject Instr :=
  match parseDecimal delay, parseDecimal first, parseDecimal count with
  | some d, some f, some c => .ok (k d f c)
  | _, _, _ => .error .notDecimal

/-- Checks 1 to 3 of 42_operations R212, in order: the verb, the arity, the decimal integers. Check 4 (COUNT ≥ 1) is the
host command's own (`Machine.hostCommand`). -/
def decodeCommand (line : List Token) : Except Reject Instr :=
  match line with
  | [] => .error .unknownVerb
  | [_] => .error .unknownVerb
  | delay :: verb :: args =>
    match parseVerb verb, args with
    | none, _ => .error .unknownVerb
    | some .readId, [] =>
      match parseDecimal delay with
      | some d => .ok (.readIdCmd d)
      | none => .error .notDecimal
    | some .readFull, [f, c, path] => parseRange delay f c fun d f c => .readFull d f c path
    | some .readData, [f, c, path] => parseRange delay f c fun d f c => .readData d f c path
    | some .writeFull, [f, c, path] => parseRange delay f c fun d f c => .writeFull d f c path
    | some .eraseBlocks, [f, c] => parseRange delay f c fun d f c => .eraseBlocks d f c
    | some _, _ => .error .wrongArity

/-- The command line of a host command, `none` for the other levels. -/
def encodeCommand : Instr → Option (List Token)
  | .readIdCmd d => some [decimalToken d, verbToken .readId]
  | .readFull d f c path => some [decimalToken d, verbToken .readFull, decimalToken f, decimalToken c, path]
  | .readData d f c path => some [decimalToken d, verbToken .readData, decimalToken f, decimalToken c, path]
  | .writeFull d f c path => some [decimalToken d, verbToken .writeFull, decimalToken f, decimalToken c, path]
  | .eraseBlocks d f c => some [decimalToken d, verbToken .eraseBlocks, decimalToken f, decimalToken c]
  | _ => none

/-! ## The three levels together -/

/-- What encodes an instruction: one cycle word, a transaction's words, or a command line. -/
inductive Code where
  | cycle (w : CycleWord)
  | trace (ws : List CycleWord)
  | line (ts : List Token)
deriving DecidableEq, Repr

/-- The encoding of an instruction; `data` is what moves in a transaction's data cycles (30_encoding R99). -/
def encode (i : Instr) (data : List Byte) : Code :=
  match encodeWord i with
  | some w => .cycle w
  | none =>
    match encodeCommand i with
    | some ts => .line ts
    | none => .trace ((encodeTransaction i data).getD [])

/-- The decoder of the three levels; a trace must be one transaction and nothing after it. -/
def decode (x : Buf) : Code → Except Reject Instr
  | .cycle w => decodeWord w
  | .line ts => decodeCommand ts
  | .trace ws =>
    match decodeTransaction x ws with
    | .ok (i, _, []) => .ok i
    | .ok (_, _, _ :: _) => .error .notATransaction
    | .error r => .error r

/-- A whole bus-cycle trace as its transactions in order (30_encoding R99, R100); a trace that ends inside a transaction, cut
short by a BusyTimeout or a host interrupt (41_transactions R196), is refused (DESIGN CHOICE, notes/assumptions/19); `fuel` bounds their number (the length
of the trace is enough, as every transaction has a first word). -/
def decodeTrace (x : Buf) : Nat → List CycleWord → Except Reject (List Instr)
  | _, [] => .ok []
  | 0, _ :: _ => .error .notATransaction
  | fuel + 1, w :: ws =>
    match decodeTransaction x (w :: ws) with
    | .error r => .error r
    | .ok (i, _, rest) =>
      match decodeTrace x fuel rest with
      | .error r => .error r
      | .ok is => .ok (i :: is)

end Sys2Proof
end

