-- ==== Sys2Proof/Machine/State.lean ====
section
/-! DEFINITION. The state of the NBPE as plain data: the lines, the configuration, every engine register of 10_state R29
to R44, the host streams of R42, and what a claim may observe (00_scope R19). Fields that are the MODEL's own and not the
spec's stand last and say so. -/

namespace Sys2Proof.Machine

/-- A page buffer's bytes: a list of (offset, byte) pairs in one canonical form, offsets strictly rising and no entry
equal to what an unlisted offset reads as (`Memory.unlisted`). 20_memory R60. -/
abbrev Memory := List Host.Cell

/-- The Device ID: exactly 5 raw bytes in strobe order (30_encoding R106). -/
structure DevId where
  b0 : Byte
  b1 : Byte
  b2 : Byte
  b3 : Byte
  b4 : Byte
deriving DecidableEq, Repr

/-- CMD (10_state R29). -/
inductive Cmd where
  | readId
  | readFull
  | readData
  | writeFull
  | eraseBlocks
deriving DecidableEq, Repr

/-- The kind in Retry and GiveUp events and in FAIL_LOG (10_state R41, 30_encoding R112). -/
inductive Kind where
  | read
  | program
  | erase
deriving DecidableEq, Repr

/-- The fatal faults of 60_exceptions R260. -/
inductive FatalFault where
  | usageError
  | powerOrWiringFault
  | deviceAbsentOrMiswired
  | hostIoError
  | busyTimeout
deriving DecidableEq, Repr

/-- The recovered conditions of 60_exceptions R260; never stored in OUTCOME. -/
inductive Condition where
  | idDrift
  | contentMismatch
  | programOrEraseStatusError
  | unitExhausted
deriving DecidableEq, Repr

/-- The value a fatal fault records (60_exceptions R261 to R265). -/
inductive FaultInfo where
  /-- Nothing but the code. -/
  | none
  /-- DeviceAbsentOrMiswired: the readout ID_RD (R263). -/
  | deviceId (x : DevId)
  /-- HostIoError: the host's message, a free value (R264, D43). -/
  | message (text : String)
  /-- BusyTimeout: the count n of busy samples (R265). -/
  | polls (n : Nat)
deriving DecidableEq, Repr

/-- OUTCOME (10_state R39, 00_scope R18). -/
inductive RunOutcome where
  | running
  | done
  | fatal (f : FatalFault)
  | aborted
deriving DecidableEq, Repr

/-- A report event (30_encoding R112). -/
inductive Report where
  | id (x : DevId)
  | progress (page block pct : Nat)
  | retry (kind : Kind) (index retry : Nat)
  | giveUp (kind : Kind) (index : Nat)
  | fault (code : Nat)
deriving DecidableEq, Repr

/-- A pin event of 00_scope R12, with the value ReadLevel returned (R19). -/
inductive PinEvent where
  | setDir (l : Line) (d : Dir)
  | setHigh (l : Line)
  | setLow (l : Line)
  | readLevel (l : Line) (v : Bool)
  | pause
deriving DecidableEq, Repr

/-- The sequencer's labels of 42_operations R211 after S0. -/
inductive Label where
  | s1 | s2 | s3 | s4 | s5 | s6 | s7
  | p1 | p2 | p3 | p4 | p5 | p6 | p7 | p8 | p9
  | i1 | i2 | i3
  | w1 | w2 | w3 | w4 | w5 | w6 | w7 | w8 | w9
  | e1 | e2 | e3 | e4 | e5 | e6 | e7 | e8
deriving DecidableEq, Repr

/-- The procedures whose statements are PC labels beside those of `Label` (42_operations R211): the phases of
40_bus_cycles and the transactions of 41_transactions. InitLines' statements are no labels: PC stays at S2. -/
inductive Proc where
  | busDir | driveByte | weStrobe | cmd | addr | dataOut | dataIn1 | dataIn | waitReady
  | readId | readPage | writePage | eraseBlock | readStatus
deriving DecidableEq, Repr

/-- A position of PC (10_state R33, 42_operations R211). -/
inductive Pos where
  /-- The entry point S0. -/
  | s0
  /-- A sequencer label. -/
  | lab (l : Label)
  /-- Statement `n` of procedure `q`, counted from 0 in the order of its pseudocode, with the procedure's loop variable `i`:
  the byte index of a data or address phase, the line index of a loop over the data lines, 0 where there is no loop. -/
  | stmt (q : Proc) (n i : Nat)
deriving DecidableEq, Repr

/-- MODEL'S OWN. The environment's answers (20_memory R77, 42_operations R217, 60_exceptions R264): what it is scripted to
answer, and, once a script is used up, free values numbered by `draws`. notes/assumptions/3. -/
structure Env where
  /-- R/B# samples, in order. -/
  rb         : List Bool
  /-- When `rb` is used up, R/B# reads busy for ever. -/
  rbStuckLow : Bool
  /-- Bytes the chip drives, one for each data-in cycle. -/
  dq         : List Byte
  /-- Answers at the gate, `true` for Continue. -/
  gate       : List Bool
  /-- Results of the host stream operations, `true` for success. -/
  io         : List Bool
  /-- How many free values have been drawn. -/
  draws      : Nat
deriving DecidableEq, Repr

/-- MODEL'S OWN. Which of the registers whose reset value is unspecified (10_state R46) this invocation has written;
ID_VALID says it of ID_CACHE. Only Safety.lean reads them: notes/assumptions/1. -/
structure Written where
  idRd   : Bool
  bufA   : Bool
  bufB   : Bool
  status : Bool
  din    : Bool
deriving DecidableEq, Repr

/-- The machine's state. -/
structure State where
  /-- Configuration (R27), immutable. -/
  cfg          : Cfg
  /-- The line registers (R24). -/
  lines        : Lines
  /-- CMD, FIRST, COUNT, INCLUDE_SPARE (R29). -/
  cmd          : Cmd
  first        : Nat
  count        : Nat
  includeSpare : Bool
  /-- DELAY (00_scope R9), written by Validate (42_operations R212). -/
  delay        : Nat
  /-- The path argument (42_operations R210, S0). -/
  path         : Token
  /-- K (R30). -/
  k            : Nat
  /-- RETRY (R31). -/
  retry        : Nat
  /-- ID_CACHE and ID_VALID (R32). -/
  idCache      : DevId
  idValid      : Bool
  /-- ID_RD (R34). -/
  idRd         : DevId
  /-- BUF_A and BUF_B (R35). -/
  bufA         : Memory
  bufB         : Memory
  /-- STATUS (R36). -/
  status       : Byte
  /-- DIN (R44). -/
  din          : Byte
  /-- POLLS (R38). -/
  polls        : Nat
  /-- PC (R33): the active procedures, innermost first. The head is the statement being executed; the loop variables K,
  RETRY and POLLS are the registers of those names. -/
  pc           : List Pos
  /-- The local `r` of WritePages (42_operations R238): what the latest SourceRead returned, `none` for an error. That it is
  `none` before the first SourceRead of an invocation is the model's choice (DESIGN CHOICE, notes/assumptions/1). -/
  record       : Option (List Byte)
  /-- OUTCOME (R39). -/
  outcome      : RunOutcome
  /-- The value the fatal fault recorded (60_exceptions R261 to R265); `none` before any (DESIGN CHOICE,
  notes/assumptions/13). -/
  info         : FaultInfo
  /-- BAD_LOG (R40), FAIL_LOG (R41), REPORTS (R43). -/
  badLog       : List Nat
  failLog      : List (Kind × Nat)
  reports      : List Report
  /-- SINK, SOURCE, BADFILE (R42). -/
  sink         : List Byte
  source       : List Byte
  badFile      : List Byte
  /-- The pin events performed, newest first (00_scope R19). -/
  pinLog       : List PinEvent
  /-- The bus-cycle words performed, newest first (20_memory R78, 40_bus_cycles R144). -/
  cycleLog     : List CycleWord
  /-- MODEL'S OWN: the environment's answers. -/
  env          : Env
  /-- MODEL'S OWN: the host's interrupt (60_exceptions R275), as the number of primitives before it. There is one, whatever
  the number of command lines (DESIGN CHOICE, notes/assumptions/5). -/
  interruptIn  : Option Nat
  /-- MODEL'S OWN: from when on the chip or the platform drives DQ although RE# is 1, which 10_state R25 forbids it, as the
  number of primitives before it; `none` where it keeps to R25 (60_exceptions R277). notes/assumptions/17. -/
  driveIn      : Option Nat
  /-- MODEL'S OWN: the command lines the host has given and the engine has not taken (30_encoding R109). -/
  commands     : List (List Token)
  /-- MODEL'S OWN: a bus-cycle word whose phase procedure the next step runs on its own (30_encoding R90; a number of 2^11
  and more is no word). notes/assumptions/7. -/
  placed       : Option Nat
  /-- MODEL'S OWN: which unspecified registers have been written. -/
  written      : Written
deriving DecidableEq, Repr

/-- The pin events performed, oldest first. -/
def State.events (s : State) : List PinEvent := s.pinLog.reverse

/-- The bus-cycle words performed, oldest first. -/
def State.cycles (s : State) : List CycleWord := s.cycleLog.reverse

/-- The faults of the MODEL (60_exceptions R277): a fatal fault of the engine is no such fault but a next state with
OUTCOME = Fatal (R268). -/
inductive Fault where
  /-- BusContention: a primitive would leave DQ driven by the engine while RE# is 0, or by the chip while RE# is 1, or
  change the data direction while a strobe is 0; or the state is one in which the chip drives DQ while RE# is 1 (10_state
  R25, 60_exceptions R277). Raised by `runRow` and by `step`. Safe: the machine stops. -/
  | busContention
  /-- An access outside a page buffer (20_memory R60: none is possible). Raised by `runRow`. Safe: the machine stops. -/
  | bufferRange
deriving DecidableEq, Repr

/-- Why a step is refused. -/
inductive Refusal where
  /-- An instruction with no meaning yet. Raised by `exec`'s arms. Safe. -/
  | notModelled (mnemonic : String)
  /-- The placed word has more than 11 bits (30_encoding R90). Raised by `step`. Safe. -/
  | notACycleWord
  /-- The placed word is a reserved pattern (30_encoding R92, I3). Raised by `step`. Safe. -/
  | reservedCycle
  /-- The placed word is a command cycle with none of the eight command bytes (30_encoding R94, I3). Raised by `step`.
  Safe. -/
  | unknownCommandByte
deriving DecidableEq, Repr

/-- A primitive statement: the pin primitives of 00_scope R12 and the engine-state primitives of R13. A phase, a
transaction or a sequencer statement is a row of them, run in order by `runRow` (R14). -/
inductive Prim where
  /-- A pin event. -/
  | pin (e : PinEvent)
  /-- A pin event of InitLines before RE# is set, the lines being unspecified (70_reset_and_hazards R301). -/
  | initPin (e : PinEvent)
  /-- `DQDIR <- d` of BusDir (40_bus_cycles R135). -/
  | setDqDir (d : Dir)
  /-- `DQDIR <- IN` of InitLines (70_reset_and_hazards R301). -/
  | initDqDir
  /-- `SetHigh(WE#)` of WeStrobe: the edge at which the chip takes the write cycle (40_bus_cycles R137). -/
  | weRise
  /-- `SetHigh(RE#)` of DataIn1: it ends the read cycle (40_bus_cycles R141, 20_memory R78). -/
  | reRise
  | setDin (v : Byte)
  | setPolls (n : Nat)
  | setIdRd (x : DevId)
  /-- `ID_CACHE <- id` (42_operations R216). -/
  | setIdCache (x : DevId)
  /-- `ID_VALID <- 1` (42_operations R216). -/
  | setIdValid
  | memWrite (x : Buf) (off : Nat) (bytes : List Byte)
  | setStatus (v : Byte)
  | setRetry (n : Nat)
  | setK (n : Nat)
  | setRecord (r : Option (List Byte))
  /-- SINK opened for writing, empty (42_operations R219). -/
  | openSink
  | sinkAppend (bytes : List Byte)
  | logBad (p : Nat)
  | logFail (kind : Kind) (index : Nat)
  | report (e : Report)
  /-- Validate's writes and `pc <- S1` (42_operations R210, R212). That they are ONE primitive, with no interrupt point
  between them, is the model's choice (DESIGN CHOICE, notes/assumptions/5). -/
  | load (cmd : Cmd) (delay first count : Nat) (includeSpare : Bool) (path : Token)
  /-- `pc <- s` of the sequencer (00_scope R13, 10_state R33): it counts like any other primitive. -/
  | setPc (pc : List Pos)
  /-- `raise F(info)` (60_exceptions R268). -/
  | raise (f : FatalFault) (info : FaultInfo)
  /-- `OUTCOME <- Done` (42_operations R210, S7). -/
  | finish
  /-- The gate's Abort: `OUTCOME <- Aborted` (42_operations R217). -/
  | decline
deriving DecidableEq, Repr

/-- The lines in their idle state (10_state R47, R22): the levels the reset state is given, R47 leaving them unspecified
before InitLines (DESIGN CHOICE, notes/assumptions/2). -/
def Lines.idle : Lines :=
  { dqDir := .inp, dqOut := 0x00#8, dq := 0x00#8, cle := false, ale := false, we := true, re := true, wp := true,
    cleDir := .out, aleDir := .out, weDir := .out, reDir := .out, wpDir := .out, rbDir := .inp }

/-- The configuration of the reset state: BUSY_LIMIT = none is the spec's default (00_scope R10); the open parameters are
named values (DESIGN CHOICE, notes/assumptions/6). -/
def Cfg.default : Cfg :=
  { busyLimit := none, pinMap := #v[0, 1, 2, 3, 4, 5, 6, 7],
    ctlMap := { wp := 8, rb := 9, ale := 10, cle := 11, re := 12, we := 13 },
    mmioBase := 0, grace := 0, chipPages := 2 ^ 24 }

/-- No script: every answer is a free value. -/
def Env.unscripted : Env := { rb := [], rbStuckLow := false, dq := [], gate := [], io := [], draws := 0 }

/-- The zero ID (DESIGN CHOICE for the unspecified reset values of ID_CACHE and ID_RD, notes/assumptions/1). -/
def DevId.zero : DevId := ⟨0x00#8, 0x00#8, 0x00#8, 0x00#8, 0x00#8⟩

/-- The machine at the reset point (70_reset_and_hazards R300, 10_state R46): K, RETRY, ID_VALID, POLLS, PC, OUTCOME and
the logs as R46 gives them; the registers R46 leaves unspecified, and WritePages' local `r`, at the values of
notes/assumptions/1, the value a fault records at that of notes/assumptions/13, the lines at those of
notes/assumptions/2. -/
def State.reset : State :=
  { cfg := Cfg.default, lines := Lines.idle,
    cmd := .readId, first := 0, count := 0, includeSpare := false, delay := 0, path := [],
    k := 0, retry := 0, idCache := DevId.zero, idValid := false, idRd := DevId.zero,
    bufA := [], bufB := [], status := 0x00#8, din := 0x00#8, polls := 0,
    pc := [.s0], record := none, outcome := .running, info := .none,
    badLog := [], failLog := [], reports := [], sink := [], source := [], badFile := [],
    pinLog := [], cycleLog := [], env := Env.unscripted, interruptIn := none,
    driveIn := none, commands := [], placed := none,
    written := { idRd := false, bufA := false, bufB := false, status := false, din := false } }

end Sys2Proof.Machine
end

