-- ==== Sys2Proof/Machine/Ops.lean ====
section
/-! DEFINITION. The named operations: the page buffers, the lines, the environment's answers, one primitive statement, a
row of them, the fatal abort, and the start of an invocation. -/

namespace Sys2Proof.Machine

/-! ## Page buffers (20_memory R60) -/

/-- What an unlisted offset of a page buffer reads as: 0 (DESIGN CHOICE, notes/assumptions/4; R46 leaves it unspecified). -/
def Memory.unlisted : Byte := 0x00#8

/-- One byte of a page buffer. -/
def Memory.read : Memory → Nat → Byte
  | [], _ => Memory.unlisted
  | (b, v) :: rest, a => if b = a then v else Memory.read rest a

/-- One byte written, the canonical form kept. -/
def Memory.write : Memory → Nat → Byte → Memory
  | [], a, v => if v = Memory.unlisted then [] else [(a, v)]
  | (b, w) :: rest, a, v =>
    if a < b then (if v = Memory.unlisted then (b, w) :: rest else (a, v) :: (b, w) :: rest)
    else if a = b then (if v = Memory.unlisted then rest else (a, v) :: rest)
    else (b, w) :: Memory.write rest a v

/-- `MemRead(X, i, n)` (00_scope R13). -/
def Memory.readBytes (m : Memory) (i : Nat) : Nat → List Byte
  | 0 => []
  | n + 1 => Memory.read m i :: Memory.readBytes m (i + 1) n

/-- `MemWrite(X, i, |bytes|, bytes)` (00_scope R13). -/
def Memory.writeBytes (m : Memory) (i : Nat) : List Byte → Memory
  | [] => m
  | b :: bs => Memory.write (Memory.writeBytes m (i + 1) bs) i b

/-- The canonical form: offsets strictly rising, all at least `lo` and below PAGE_SIZE, no entry equal to what an unlisted
offset reads as. -/
def Memory.wfFrom (lo : Nat) : Memory → Bool
  | [] => true
  | (a, v) :: rest =>
    decide (lo ≤ a) && decide (a < PAGE_SIZE) && (v != Memory.unlisted) && Memory.wfFrom (a + 1) rest

/-- The canonical form of a page buffer. -/
def Memory.wf (m : Memory) : Bool := Memory.wfFrom 0 m

/-- The whole page of a buffer, PAGE_SIZE bytes. -/
def Memory.page (m : Memory) : List Byte := Memory.readBytes m 0 PAGE_SIZE

/-! ## Lines (10_state R24, 40_bus_cycles R130, R131) -/

/-- Byte `v` with bit `i` set to `b` (20_memory R66). -/
def setBit (v : Byte) (i : Fin 8) (b : Bool) : Byte :=
  if b then v ||| (1#8 <<< i.val) else v &&& ~~~(1#8 <<< i.val)

/-- `SetDir(L, d)` on the lines. The engine's register DQDIR is not written here but by BusDir and InitLines. -/
def Lines.setDir (ls : Lines) (l : Line) (d : Dir) : Lines :=
  match l with
  | .dq i => { ls with dqOut := setBit ls.dqOut i (decide (d = .out)) }
  | .cle => { ls with cleDir := d }
  | .ale => { ls with aleDir := d }
  | .we => { ls with weDir := d }
  | .re => { ls with reDir := d }
  | .wp => { ls with wpDir := d }
  | .rb => { ls with rbDir := d }

/-- `SetHigh(L)` (true) and `SetLow(L)` (false) on the lines. R/B# is driven by the chip and has no level here. -/
def Lines.setLevel (ls : Lines) (l : Line) (v : Bool) : Lines :=
  match l with
  | .dq i => { ls with dq := setBit ls.dq i v }
  | .cle => { ls with cle := v }
  | .ale => { ls with ale := v }
  | .we => { ls with we := v }
  | .re => { ls with re := v }
  | .wp => { ls with wp := v }
  | .rb => ls

/-- A pin event's effect on the lines (00_scope R12): ReadLevel and Pause change nothing (40_bus_cycles R132, R133). -/
def Lines.event (ls : Lines) : PinEvent → Lines
  | .setDir l d => ls.setDir l d
  | .setHigh l => ls.setLevel l true
  | .setLow l => ls.setLevel l false
  | .readLevel _ _ => ls
  | .pause => ls

/-- The byte the engine drives, DOUT (10_state R24). -/
def Lines.dout (ls : Lines) : Byte := ls.dq

/-- Bus contention (10_state R25, 60_exceptions R277): the engine drives DQ while RE# is 0. -/
def Lines.contended (ls : Lines) : Bool := (ls.dqDir == .out) && !ls.re

/-- The direction may change only while both strobes are high (10_state R25, 70_reset_and_hazards R311). -/
def Lines.strobeLow (ls : Lines) : Bool := !(ls.we && ls.re)

/-- The write-cycle word at a WE# edge: `{0, LVL[CLE], LVL[ALE], DOUT}` (40_bus_cycles R137). -/
def Lines.writeCycle (ls : Lines) : CycleWord :=
  0b0#1 ++ BitVec.ofBool ls.cle ++ BitVec.ofBool ls.ale ++ ls.dout

/-- The read-cycle word of a sampled byte: `{1, LVL[CLE], LVL[ALE], v}` (40_bus_cycles R141, 30_encoding R90). -/
def Lines.readCycle (ls : Lines) (v : Byte) : CycleWord :=
  0b1#1 ++ BitVec.ofBool ls.cle ++ BitVec.ofBool ls.ale ++ v

/-- What 10_state R27 and 00_scope R9 ask of the configuration: the 14 pins are distinct, BUSY_LIMIT is none or some n with
n at least 1, CHIP_PAGES is at most 2^24. -/
def Cfg.wf (c : Cfg) : Bool :=
  decide ((c.pinMap.toList ++ [c.ctlMap.wp, c.ctlMap.rb, c.ctlMap.ale, c.ctlMap.cle, c.ctlMap.re, c.ctlMap.we]).Nodup) &&
    (c.busyLimit != some 0) && decide (c.chipPages ≤ 2 ^ 24)

/-- The platform pin of a line (10_state R20, R27). -/
def Cfg.pinOf (c : Cfg) : Line → Nat
  | .dq i => c.pinMap[i]
  | .cle => c.ctlMap.cle
  | .ale => c.ctlMap.ale
  | .we => c.ctlMap.we
  | .re => c.ctlMap.re
  | .wp => c.ctlMap.wp
  | .rb => c.ctlMap.rb

/-! ## The environment's answers (20_memory R77) -/

/-- The byte of one data-in cycle. -/
def drawByte (e : Env) : Byte × Env :=
  match e.dq with
  | v :: rest => (v, { e with dq := rest })
  | [] => (Config.freeByte e.draws, { e with draws := e.draws + 1 })

/-- The bytes of `n` data-in cycles, in strobe order. -/
def drawBytes : Nat → Env → List Byte × Env
  | 0, e => ([], e)
  | n + 1, e =>
    let (v, e1) := drawByte e
    let (vs, e2) := drawBytes n e1
    (v :: vs, e2)

/-- One sample of R/B#, `true` for level 1 (ready). -/
def drawLevel (e : Env) : Bool × Env :=
  match e.rb with
  | v :: rest => (v, { e with rb := rest })
  | [] => if e.rbStuckLow then (false, e) else (Config.freeLevel e.draws, { e with draws := e.draws + 1 })

/-- The operator's answer at the gate, `true` for Continue (42_operations R217). -/
def drawGate (e : Env) : Bool × Env :=
  match e.gate with
  | v :: rest => (v, { e with gate := rest })
  | [] => (Config.freeGate e.draws, { e with draws := e.draws + 1 })

/-- The result of one host stream operation, `true` for success (60_exceptions R264). -/
def drawIo (e : Env) : Bool × Env :=
  match e.io with
  | v :: rest => (v, { e with io := rest })
  | [] => (Config.freeIo e.draws, { e with draws := e.draws + 1 })

/-- How one WaitReady goes on (40_bus_cycles R145 to R147). -/
inductive WaitEnd where
  /-- A sample read ready. -/
  | ready
  /-- BUSY_LIMIT = some n and the n-th sample in a row read busy. -/
  | timeout
  /-- Every sample reads busy, for ever. -/
  | forever
deriving DecidableEq, Repr

/-- The answers of one WaitReady: how many samples read busy, how it ends, and the environment after it. -/
structure Wait where
  busy : Nat
  fin  : WaitEnd
  env  : Env
deriving DecidableEq, Repr

/-- Whether POLLS = n ends the wait in BusyTimeout: `BUSY_LIMIT = some m and POLLS ≥ m` (40_bus_cycles R145). -/
def limitReached (limit : Option Nat) (n : Nat) : Bool :=
  match limit with
  | none => false
  | some m => decide (m ≤ n)

/-- The scripted samples of a wait, `n` busy ones before them. The end is `none` when the script is used up. -/
def waitScript (limit : Option Nat) : Nat → List Bool → Nat × Option WaitEnd × List Bool
  | n, [] => (n, none, [])
  | n, true :: rest => (n, some .ready, rest)
  | n, false :: rest =>
    if limitReached limit (n + 1) then (n + 1, some .timeout, rest) else waitScript limit (n + 1) rest

/-- The samples of a wait after its script: `more` further busy ones (`none`: for ever), cut at BUSY_LIMIT. `n` busy ones
came before and did not reach the limit. -/
def waitFree (limit : Option Nat) (n : Nat) (more : Option Nat) : Nat × WaitEnd :=
  match limit, more with
  | none, some m => (n + m, .ready)
  | none, none => (n, .forever)
  | some l, none => (max l (n + 1), .timeout)
  | some l, some m => if m = 0 ∨ n + m < l then (n + m, .ready) else (max l (n + 1), .timeout)

/-- The answers of one WaitReady. -/
def drawWait (limit : Option Nat) (e : Env) : Wait :=
  match waitScript limit 0 e.rb with
  | (n, some fin, rest) => { busy := n, fin := fin, env := { e with rb := rest } }
  | (n, none, _) =>
    if e.rbStuckLow then
      { busy := (waitFree limit n none).1, fin := (waitFree limit n none).2, env := { e with rb := [] } }
    else
      { busy := (waitFree limit n (Config.freeBusy e.draws)).1, fin := (waitFree limit n (Config.freeBusy e.draws)).2,
        env := { e with rb := [], draws := e.draws + 1 } }

/-! ## Codes (60_exceptions R260, R270) -/

/-- The code of a fatal fault. -/
def FatalFault.code : FatalFault → Nat
  | .usageError => 1
  | .powerOrWiringFault => 2
  | .deviceAbsentOrMiswired => 3
  | .hostIoError => 4
  | .busyTimeout => 5

/-- The code of a recovered condition. -/
def Condition.code : Condition → Nat
  | .idDrift => 0x10
  | .contentMismatch => 0x11
  | .programOrEraseStatusError => 0x12
  | .unitExhausted => 0x13

/-- The exit code of a run: Done 0, Fatal -1, Aborted a free value (60_exceptions R270, I9), none while it runs. -/
def exitCode (s : State) : Option Int :=
  match s.outcome with
  | .running => none
  | .done => some 0
  | .fatal _ => some (-1)
  | .aborted => some (Config.abortExit s.env.draws)

/-! ## Primitive statements -/

/-- TAKING A FATAL FAULT (60_exceptions R268): the Fault event is reported, OUTCOME becomes Fatal, the value recorded is
kept; the lines, the streams and every other register stay as they are. -/
def raiseFault (f : FatalFault) (info : FaultInfo) (s : State) : State :=
  { s with reports := s.reports ++ [.fault f.code], outcome := .fatal f, info := info }

/-- The host interrupt's entry (60_exceptions R275): OUTCOME becomes Aborted and every line keeps its level. There is NO
RETURN, neither from it nor from a fatal fault: the invocation is over (R273). The countdown is cleared and no step sets it
again, so a run has at most one interrupt, however many command lines it takes (DESIGN CHOICE, notes/assumptions/5). -/
def interrupted (s : State) : State := { s with outcome := .aborted, interruptIn := none }

/-- The line of bad.log for a page index: its decimal digits and one line feed (20_memory R74). -/
def badLine (p : Nat) : List Byte := (digitsOf p).map (fun d => BitVec.ofNat 8 (48 + d)) ++ [0x0A#8]

/-- One primitive's effect. -/
def applyPrim (p : Prim) (s : State) : State :=
  match p with
  | .pin e => { s with lines := s.lines.event e, pinLog := e :: s.pinLog }
  | .initPin e => { s with lines := s.lines.event e, pinLog := e :: s.pinLog }
  | .setDqDir d => { s with lines := { s.lines with dqDir := d } }
  | .initDqDir => { s with lines := { s.lines with dqDir := .inp } }
  | .weRise =>
    { s with lines := s.lines.setLevel .we true, pinLog := .setHigh .we :: s.pinLog,
             cycleLog := s.lines.writeCycle :: s.cycleLog }
  | .reRise =>
    { s with lines := s.lines.setLevel .re true, pinLog := .setHigh .re :: s.pinLog,
             cycleLog := s.lines.readCycle s.din :: s.cycleLog }
  | .setDin v => { s with din := v, written := { s.written with din := true } }
  | .setPolls n => { s with polls := n }
  | .setIdRd x => { s with idRd := x, written := { s.written with idRd := true } }
  | .setIdCache x => { s with idCache := x }
  | .setIdValid => { s with idValid := true }
  | .memWrite .a off bs =>
    { s with bufA := s.bufA.writeBytes off bs, written := { s.written with bufA := true } }
  | .memWrite .b off bs =>
    { s with bufB := s.bufB.writeBytes off bs, written := { s.written with bufB := true } }
  | .setStatus v => { s with status := v, written := { s.written with status := true } }
  | .setRetry n => { s with retry := n }
  | .setK n => { s with k := n }
  | .setRecord r => { s with record := r }
  | .openSink => { s with sink := [] }
  | .sinkAppend bs => { s with sink := s.sink ++ bs }
  | .logBad p => { s with badLog := s.badLog ++ [p], badFile := s.badFile ++ badLine p }
  | .logFail kind index => { s with failLog := s.failLog ++ [(kind, index)] }
  | .report e => { s with reports := s.reports ++ [e] }
  | .load cmd delay first count spare path =>
    { s with cmd := cmd, delay := delay, first := first, count := count, includeSpare := spare, path := path,
             pc := [.lab .s1] }
  | .setPc pc => { s with pc := pc }
  | .raise f info => raiseFault f info s
  | .finish => { s with outcome := .done }
  | .decline => { s with outcome := .aborted }

/-- DQ is contended (10_state R25): the engine drives it while RE# is 0, or, with `driven`, the chip or the platform
drives it while RE# is 1. -/
def Lines.contested (ls : Lines) (driven : Bool) : Bool := ls.contended || (driven && ls.re)

/-- The model's guards on a primitive (60_exceptions R277, 20_memory R60): what it would do to the lines, or outside a
buffer, that the spec says never happens. `driven` says that the chip or the platform drives DQ outside a read strobe from
now on. InitLines has none until it sets RE#: the lines are unspecified before (70_reset_and_hazards R301). -/
def primGuard (p : Prim) (ls : Lines) (driven : Bool) : Option Fault :=
  match p with
  | .pin (.setDir (.dq _) _) => if ls.strobeLow || ls.contested driven then some .busContention else none
  | .pin e => if (ls.event e).contested driven then some .busContention else none
  | .setDqDir _ => if ls.strobeLow || ls.contested driven then some .busContention else none
  | .weRise => if ls.contested driven then some .busContention else none
  | .reRise => if ls.contended || driven then some .busContention else none
  | .memWrite _ off bs => if off + bs.length ≤ PAGE_SIZE then none else some .bufferRange
  | _ => none

/-- One primitive less until the host's interrupt (60_exceptions R275) and until the chip's drive (R277). -/
def tick (s : State) : State :=
  { s with interruptIn := s.interruptIn.map (· - 1), driveIn := s.driveIn.map (· - 1) }

/-- RE# has the level the engine last drove (10_state R24): PC is past S2, or the engine has set RE# to 1 in this
invocation already, as InitLines does at S2. Before that the lines are unspecified (10_state R47, 70_reset_and_hazards
R301). -/
def State.linesSet (s : State) : Bool :=
  !decide (s.pc ∈ [[Pos.s0], [.lab .s1], [.lab .s2]]) || s.pinLog.contains (.setHigh .re)

/-- A state that breaks 10_state R25 on the chip's side: the chip or the platform drives DQ while RE# is 1 (60_exceptions
R277). Where the lines are unspecified no state breaks it (notes/assumptions/17). -/
def State.chipContends (s : State) : Bool := decide (s.driveIn = some 0) && s.lines.re && s.linesSet

/-- A state that breaks 10_state R25 on either side, the chip's or the engine's (60_exceptions R277). -/
def State.contends (s : State) : Bool := s.chipContends || (s.lines.contended && s.linesSet)

/-- PC at the statement `inner` of the procedures that the statement at PC has called (10_state R33). -/
def State.standing (s : State) (inner : List Pos) : State := { s with pc := inner ++ s.pc }

/-- A row of primitives, each with the statement it is part of: the positions of the procedures called, innermost first. -/
abbrev Row := List (Prim × List Pos)

/-- Runs primitives in program order (00_scope R14). Nothing happens once OUTCOME has left Running (10_state R39,
60_exceptions R268); the host may interrupt before any of them (R275), also where the state is contended (the order of the
two tests is a DESIGN CHOICE, notes/assumptions/17); a chip that drives DQ against 10_state R25, and a
guarded primitive, stop the model (R277), whether the primitive is a pin event or not. Where the run ends inside the row, PC
stays at the statement that was to be executed, or that ended it (10_state R33). -/
def runRow : Row → State → Host.Outcome State Fault Refusal
  | [], s => .next s
  | (p, inner) :: row, s =>
    if s.outcome = .running then
      if s.interruptIn = some 0 then .next ((interrupted s).standing inner)
      else if s.chipContends then .fault .busContention
      else
        match primGuard p s.lines (decide (s.driveIn = some 0)) with
        | some f => .fault f
        | none =>
          if (applyPrim p (tick s)).outcome = .running then runRow row (applyPrim p (tick s))
          else .next ((applyPrim p (tick s)).standing inner)
    else .next s

/-- A row of primitives that belong to the statement at PC itself. -/
def runPrims (ps : List Prim) (s : State) : Host.Outcome State Fault Refusal := runRow (ps.map fun p => (p, [])) s

/-- Goes on with `f` after a next state in which the run has not ended (10_state R39). -/
def thenRun (o : Host.Outcome State Fault Refusal) (f : State → Host.Outcome State Fault Refusal) :
    Host.Outcome State Fault Refusal :=
  match o with
  | .next s => if s.outcome = .running then f s else .next s
  | .fault r => .fault r
  | .refused r => .refused r

/-- Goes on with `f` once what the statement called has RETURNED to it: the run has not ended, and PC is at `pc`, where the
call was made (00_scope R14). A call that has not returned leaves the state as it is. -/
def onReturn (pc : List Pos) (o : Host.Outcome State Fault Refusal) (f : State → Host.Outcome State Fault Refusal) :
    Host.Outcome State Fault Refusal :=
  thenRun o fun t => if t.pc = pc then f t else .next t

/-- PC at the label `l` of the active procedure. -/
def toLabel (l : Label) (pc : List Pos) : List Pos := .lab l :: pc.tail

/-- PC at the first label `l` of a procedure that returns to the label `r`, which is what PC keeps of the caller (DESIGN
CHOICE, notes/assumptions/20). -/
def toCall (l r : Label) (pc : List Pos) : List Pos := .lab l :: .lab r :: pc.tail

/-- PC where the active procedure returns to. -/
def toCaller (pc : List Pos) : List Pos := pc.tail

/-- The primitives `ps` of the statement at PC, and `pc <- next` as the last one (00_scope R13): a statement of a label that
moves PC ends in a primitive of its own, before which the host may interrupt (60_exceptions R275). S0 is the exception, its
`pc <- S1` being part of the primitive `load` (DESIGN CHOICE, notes/assumptions/5). -/
def doThen (ps : List Prim) (next : List Pos → List Pos) (s : State) : Host.Outcome State Fault Refusal :=
  runPrims (ps ++ [.setPc (next s.pc)]) s

/-- A step with nothing to do. The host may interrupt a run that goes on there too, at any PC (60_exceptions R275). -/
def stayIdle (s : State) : State := if s.outcome = .running ∧ s.interruptIn = some 0 then interrupted s else s

/-- `raise HostIoError()` after the statements `pre`; the message is a free value (60_exceptions R264, D43). -/
def raiseHostIo (pre : List Prim) (s : State) : Host.Outcome State Fault Refusal :=
  runPrims (pre ++ [.raise .hostIoError (.message (Config.hostMessage s.env.draws))])
    { s with env := { s.env with draws := s.env.draws + 1 } }

/-! ## The start of an invocation (70_reset_and_hazards R300) -/

/-- The lines an invocation finds: unconstrained, a free value. No invocation may assume any level or direction before its
own InitLines (10_state R47, 60_exceptions R275, 93_implementation_defined I11, I12). notes/assumptions/9. -/
def State.linesFound (s : State) : Lines := Config.freeLines s.env.draws

/-- The reset point of an invocation (70_reset_and_hazards R300): every engine register at its reset value, no engine
state kept from an earlier invocation; BADFILE's contents stay, and so do the configuration and what the host and the chip
are to answer. SOURCE stays too: ONE input file for every path and every invocation, which no write to SINK changes, is the
model's choice (DESIGN CHOICE, notes/assumptions/18), 20_memory R73 saying nothing of what another invocation's file
holds. -/
def startInvocation (s : State) : State :=
  { State.reset with
    cfg := s.cfg, lines := s.linesFound, source := s.source, badFile := s.badFile,
    env := { s.env with draws := s.env.draws + 1 },
    interruptIn := s.interruptIn, driveIn := s.driveIn, commands := s.commands }

end Sys2Proof.Machine
end

