-- ==== Sys2Proof/Machine/Operands.lean ====
section
/-! DEFINITION. The operand forms: Device IDs, the unit an operation works on, record lengths. The address operands
(PageAddr, BlockAddr) stand in Decode.lean, where the encodings use them too. -/

namespace Sys2Proof.Machine

/-- The Device ID of 5 bytes in strobe order (30_encoding R106). -/
def DevId.ofBytes (bs : List Byte) : DevId :=
  ⟨bs.getD 0 0x00#8, bs.getD 1 0x00#8, bs.getD 2 0x00#8, bs.getD 3 0x00#8, bs.getD 4 0x00#8⟩

/-- The 5 bytes of a Device ID. -/
def DevId.bytes (x : DevId) : List Byte := [x.b0, x.b1, x.b2, x.b3, x.b4]

/-- The page or block of unit K: FIRST + K (10_state R30). -/
def State.unit (s : State) : Nat := s.first + s.k

/-- A page buffer by name. -/
def State.buf (s : State) : Buf → Memory
  | .a => s.bufA
  | .b => s.bufB

/-- The length of one output record (20_memory R71). -/
def recordLen (includeSpare : Bool) : Nat := if includeSpare then PAGE_SIZE else DATA_SIZE

/-- `SourceRead(off, n)`: the bytes of the input stream from `off`, at most `n`; fewer where it is short (00_scope R13). -/
def sourceRead (source : List Byte) (off n : Nat) : List Byte := (source.drop off).take n

/-- CMD of a range operation's kind: what the Retry and GiveUp events and FAIL_LOG name (30_encoding R112). -/
def Cmd.kind : Cmd → Kind
  | .readId => .read
  | .readFull => .read
  | .readData => .read
  | .writeFull => .program
  | .eraseBlocks => .erase

end Sys2Proof.Machine
end

