-- ==== Sys2Proof/Machine/Flags.lean ====
section
/-! DEFINITION. The flags of 10_state R37, all derived values and none stored, and the progress percentage. -/

namespace Sys2Proof.Machine

/-- FAIL = STATUS[0]: true is error (10_state R37, 30_encoding R104). Bits 7..1 are not read (R105). -/
def State.fail (s : State) : Bool := s.status.getLsbD 0

/-- ID_SAME(x): all 5 bytes identical (10_state R37, 30_encoding R107). -/
def idSame (x : DevId) : Bool := (x.b0 == x.b1) && (x.b1 == x.b2) && (x.b2 == x.b3) && (x.b3 == x.b4)

/-- DRIFT: ID_RD differs from ID_CACHE in some byte (10_state R37, 30_encoding R108). -/
def State.drift (s : State) : Bool := s.idRd != s.idCache

/-- MATCH: BUF_A equals BUF_B over all PAGE_SIZE bytes (10_state R37, 42_operations R224). -/
def State.pagesMatch (s : State) : Bool := s.bufA.page == s.bufB.page

/-- pct = ((K + 1) * 100) div COUNT, with K the unit just finished (42_operations R229). -/
def State.percent (s : State) : Nat := ((s.k + 1) * 100) / s.count

/-- The recovered condition that the statement at label `l` finds (60_exceptions R260, R266, R267), in the state in which it
makes its test: at W7 and E6 that is the state after their readStatus. The sequencer takes its branches by it. -/
def conditionAt (l : Label) (s : State) : Option Condition :=
  match l with
  | .i3 => if s.drift then some .idDrift else none
  | .p6 => if s.pagesMatch then none else some .contentMismatch
  | .w7 | .e6 => if s.fail then some .programOrEraseStatusError else none
  | .p7 | .w8 | .e7 => if s.retry < MAX_RETRIES then none else some .unitExhausted
  | _ => none

end Sys2Proof.Machine
end

