-- ==== Sys2Proof/Machine/Phases.lean ====
section
/-! DEFINITION. The phase procedures of 40_bus_cycles as rows of primitives, each with its position. `cur` is DQDIR where the
phase begins. -/

namespace Sys2Proof.Machine

/-- The data lines in the order the phases name them (40_bus_cycles R135, R136). -/
def dqLines : List (Fin 8) := [0, 1, 2, 3, 4, 5, 6, 7]

/-- `Pause()` (40_bus_cycles R133). -/
abbrev pausePrim : Prim := .pin .pause

/-! ## Statements and their positions (10_state R33) -/

/-- Statement `n` of procedure `q`, loop variable 0. -/
def stmt (q : Proc) (n : Nat) (p : Prim) : Row := [(p, [.stmt q n 0])]

/-- Statement `n` of `q`, a loop over the data lines. -/
def lineLoop (q : Proc) (n : Nat) (f : Fin 8 → Prim) : Row := dqLines.map fun i => (f i, [.stmt q n i.val])

/-- Statement `n` of `q`, loop variable `i`, a call of the procedure whose row is `row`. -/
def calls (q : Proc) (n i : Nat) (row : Row) : Row := row.map fun e => (e.1, e.2 ++ [.stmt q n i])

/-- A loop over the bytes `vs`: the body's row for each byte and its index. -/
def byteLoop (body : Byte → Nat → Row) : List Byte → Nat → Row
  | [], _ => []
  | v :: vs, i => body v i ++ byteLoop body vs (i + 1)

/-! ## Building blocks -/

/-- `BusDir(d)` (40_bus_cycles R135): nothing where DQDIR is `d` already. -/
def busDir (cur d : Dir) : Row :=
  if cur = d then []
  else lineLoop .busDir 0 (fun i => .pin (.setDir (.dq i) d)) ++ stmt .busDir 1 (.setDqDir d) ++
    stmt .busDir 2 pausePrim

/-- `SetHigh(DQi)` or `SetLow(DQi)` for bit i of `v`. -/
def driveLine (v : Byte) (i : Fin 8) : Prim :=
  if v.getLsbD i.val then .pin (.setHigh (.dq i)) else .pin (.setLow (.dq i))

/-- `DriveByte(v)` (40_bus_cycles R136). -/
def driveByte (v : Byte) : Row := lineLoop .driveByte 0 (driveLine v) ++ stmt .driveByte 1 pausePrim

/-- `WeStrobe()` (40_bus_cycles R137). -/
def weStrobe : Row :=
  stmt .weStrobe 0 (.pin (.setLow .we)) ++ stmt .weStrobe 1 pausePrim ++ stmt .weStrobe 2 .weRise ++
    stmt .weStrobe 3 pausePrim

/-! ## Phases -/

/-- `Cmd(c)` (40_bus_cycles R138). -/
def cmdPhase (cur : Dir) (c : Byte) : Row :=
  calls .cmd 0 0 (busDir cur .out) ++ stmt .cmd 1 (.pin (.setHigh .cle)) ++ stmt .cmd 2 pausePrim ++
    calls .cmd 3 0 (driveByte c) ++ calls .cmd 4 0 weStrobe ++ stmt .cmd 5 (.pin (.setLow .cle)) ++ stmt .cmd 6 pausePrim

/-- One byte driven and strobed by statements `n` and `n + 1` of `q`, byte index `i`: the body of the loops of Addr and
DataOut. -/
def writeByte (q : Proc) (n : Nat) (v : Byte) (i : Nat) : Row :=
  calls q n i (driveByte v) ++ calls q (n + 1) i weStrobe

/-- `Addr(a)` (40_bus_cycles R139): ALE stays asserted across all the bytes. -/
def addrPhase (cur : Dir) (a : List Byte) : Row :=
  calls .addr 0 0 (busDir cur .out) ++ stmt .addr 1 (.pin (.setHigh .ale)) ++ stmt .addr 2 pausePrim ++
    byteLoop (writeByte .addr 3) a 0 ++ stmt .addr 5 (.pin (.setLow .ale)) ++ stmt .addr 6 pausePrim

/-- `DataOut` of the bytes `ds` (40_bus_cycles R140). -/
def dataOutPhase (cur : Dir) (ds : List Byte) : Row :=
  calls .dataOut 0 0 (busDir cur .out) ++ byteLoop (writeByte .dataOut 1) ds 0

/-- `DataIn1()` when the chip drives `v` (40_bus_cycles R141). Its statement 2, `v <- 0`, writes no state. -/
def dataIn1 (v : Byte) : Row :=
  stmt .dataIn1 0 (.pin (.setLow .re)) ++ stmt .dataIn1 1 pausePrim ++
    lineLoop .dataIn1 3 (fun i => .pin (.readLevel (.dq i) (v.getLsbD i.val))) ++ stmt .dataIn1 4 (.setDin v) ++
    stmt .dataIn1 5 .reRise ++ stmt .dataIn1 6 pausePrim

/-- `DataIn` of the bytes `vs` the chip drives (40_bus_cycles R142). -/
def dataInPhase (cur : Dir) (vs : List Byte) : Row :=
  calls .dataIn 0 0 (busDir cur .inp) ++ byteLoop (fun v i => calls .dataIn 1 i (dataIn1 v)) vs 0

/-! ## WaitReady (40_bus_cycles R145): 0 `POLLS <- 0`, 1 the sample, 2 `POLLS <- POLLS + 1`, 3 the limit, 4 `Pause()` -/

/-- One busy sample of WaitReady after which the loop goes on; POLLS is `n` after it. -/
def busySample (n : Nat) : Row :=
  stmt .waitReady 1 (.pin (.readLevel .rb false)) ++ stmt .waitReady 2 (.setPolls n) ++ stmt .waitReady 4 pausePrim

/-- `n` busy samples from POLLS = `start`. -/
def busySamples (start : Nat) : Nat → Row
  | 0 => []
  | n + 1 => busySample (start + 1) ++ busySamples (start + 1) n

/-- The last busy sample, which raises BusyTimeout with no Pause (60_exceptions R265). -/
def timeoutSample (n : Nat) : Row :=
  stmt .waitReady 1 (.pin (.readLevel .rb false)) ++ stmt .waitReady 2 (.setPolls n) ++
    stmt .waitReady 3 (.raise .busyTimeout (.polls n))

/-- `WaitReady()` with the answers `w`. The row of a wait that never ends stops where its loop goes on for ever. -/
def waitReady (w : Wait) : Row :=
  match w.fin with
  | .ready => stmt .waitReady 0 (.setPolls 0) ++ busySamples 0 w.busy ++ stmt .waitReady 1 (.pin (.readLevel .rb true))
  | .timeout => stmt .waitReady 0 (.setPolls 0) ++ busySamples 0 (w.busy - 1) ++ timeoutSample w.busy
  | .forever => stmt .waitReady 0 (.setPolls 0) ++ busySamples 0 w.busy

/-- The statement of WaitReady at which its loop goes on. -/
def waitLoop : Pos := .stmt .waitReady 1 0

/-- `InitLines()` (70_reset_and_hazards R301), all of it part of the statement at S2. From `SetHigh(RE#)` on its pin events are
guarded like any other. -/
def initLines : List Prim :=
  [.initPin (.setDir .rb .inp)] ++ dqLines.map (fun i => .initPin (.setDir (.dq i) .inp)) ++
    [.initDqDir, .initPin .pause,
     .initPin (.setDir .cle .out), .initPin (.setLow .cle), .initPin (.setDir .ale .out), .initPin (.setLow .ale),
     .initPin (.setDir .we .out), .initPin (.setHigh .we), .initPin (.setDir .re .out), .pin (.setHigh .re),
     .pin (.setDir .wp .out), .pin (.setHigh .wp), pausePrim]

end Sys2Proof.Machine
end

