-- ==== Sys2Proof/Machine/Cycles.lean ====
section
/-! DEFINITION. The meanings of the twelve bus cycles: the phases of 40_bus_cycles R138 to R142, one byte each. -/

namespace Sys2Proof.Machine

/-- One command cycle: the phase Cmd(c) (40_bus_cycles R138). -/
def runCmd (c : Byte) (s : State) : Host.Outcome State Fault Refusal := runRow (cmdPhase s.lines.dqDir c) s

/-- One address cycle: the phase Addr with one byte (40_bus_cycles R139, 1 ≤ n). That an address cycle on its own is the
phase with n = 1, ALE asserted and released around its byte, is the model's reading: notes/assumptions/8. -/
def runAddr (a : Byte) (s : State) : Host.Outcome State Fault Refusal := runRow (addrPhase s.lines.dqDir [a]) s

/-- CMD_READ_ID (41_transactions R170). -/
def execCmdReadId (s : State) : Host.Outcome State Fault Refusal := runCmd 0x90#8 s
/-- CMD_READ_SETUP (41_transactions R171). -/
def execCmdReadSetup (s : State) : Host.Outcome State Fault Refusal := runCmd 0x00#8 s
/-- CMD_READ_CONFIRM (41_transactions R172). -/
def execCmdReadConfirm (s : State) : Host.Outcome State Fault Refusal := runCmd 0x30#8 s
/-- CMD_PROG_SETUP (41_transactions R173). -/
def execCmdProgSetup (s : State) : Host.Outcome State Fault Refusal := runCmd 0x80#8 s
/-- CMD_PROG_CONFIRM (41_transactions R174). -/
def execCmdProgConfirm (s : State) : Host.Outcome State Fault Refusal := runCmd 0x10#8 s
/-- CMD_ERASE_SETUP (41_transactions R175). -/
def execCmdEraseSetup (s : State) : Host.Outcome State Fault Refusal := runCmd 0x60#8 s
/-- CMD_ERASE_CONFIRM (41_transactions R176). -/
def execCmdEraseConfirm (s : State) : Host.Outcome State Fault Refusal := runCmd 0xD0#8 s
/-- CMD_READ_STATUS (41_transactions R177). -/
def execCmdReadStatus (s : State) : Host.Outcome State Fault Refusal := runCmd 0x70#8 s
/-- ID_ADDR: the ID address qualifier 0x00 (41_transactions R178, 30_encoding R96). -/
def execIdAddr (s : State) : Host.Outcome State Fault Refusal := runAddr 0x00#8 s
/-- ADDR (41_transactions R179). -/
def execAddr (a : Byte) (s : State) : Host.Outcome State Fault Refusal := runAddr a s
/-- DATA_W (40_bus_cycles R140). -/
def execDataW (d : Byte) (s : State) : Host.Outcome State Fault Refusal :=
  runRow (dataOutPhase s.lines.dqDir [d]) s
/-- DATA_R: the read cycle in which the chip drives `d` (40_bus_cycles R141, R142). -/
def execDataR (d : Byte) (s : State) : Host.Outcome State Fault Refusal :=
  runRow (dataInPhase s.lines.dqDir [d]) s

end Sys2Proof.Machine
end

