-- ==== Sys2Proof/Machine/Transactions.lean ====
section
/-! DEFINITION. The meanings of the five transactions of 41_transactions, each run whole (R196), and WaitReady as the
operations call it. -/

namespace Sys2Proof.Machine

/-- readId when the chip drives `bs` (41_transactions R180). -/
def readIdRow (cur : Dir) (bs : List Byte) : Row :=
  calls .readId 0 0 (cmdPhase cur 0x90#8) ++ calls .readId 1 0 (addrPhase .out [0x00#8]) ++
    calls .readId 2 0 (dataInPhase .out bs) ++ stmt .readId 2 (.setIdRd (DevId.ofBytes bs))

/-- readId (41_transactions R180). -/
def execReadId (s : State) : Host.Outcome State Fault Refusal :=
  let d := drawBytes ID_LEN s.env
  runRow (readIdRow s.lines.dqDir d.1) { s with env := d.2 }

/-- readPage up to the read-confirm (41_transactions R185). -/
def readPageOpen (cur : Dir) (p : Nat) : Row :=
  calls .readPage 0 0 (cmdPhase cur 0x00#8) ++ calls .readPage 1 0 (addrPhase .out (pageAddr p)) ++
    calls .readPage 2 0 (cmdPhase .out 0x30#8)

/-- readPage up to its wait's end, the wait's answers being `w`. -/
def readPageWait (cur : Dir) (p : Nat) (w : Wait) : Row := readPageOpen cur p ++ calls .readPage 3 0 (waitReady w)

/-- readPage after WaitReady when the chip drives `bs` (41_transactions R185). -/
def readPageData (x : Buf) (bs : List Byte) : Row :=
  calls .readPage 4 0 (dataInPhase .out bs) ++ stmt .readPage 5 (.memWrite x 0 bs)

/-- readPage(p, X) (41_transactions R185). Its WaitReady may raise BusyTimeout, X not being written then, or never end, PC
then standing in the wait's loop. -/
def execReadPage (p : Nat) (x : Buf) (s : State) : Host.Outcome State Fault Refusal :=
  let w := drawWait s.cfg.busyLimit s.env
  match w.fin with
  | .ready =>
    let d := drawBytes PAGE_SIZE w.env
    runRow (readPageWait s.lines.dqDir p w ++ readPageData x d.1) { s with env := d.2 }
  | .timeout => runRow (readPageWait s.lines.dqDir p w) { s with env := w.env }
  | .forever =>
    onReturn s.pc (runRow (readPageWait s.lines.dqDir p w) { s with env := w.env }) fun t =>
      .next (t.standing [waitLoop, .stmt .readPage 3 0])

/-- writePage with the data `bs` (41_transactions R190). -/
def writePageRow (cur : Dir) (p : Nat) (bs : List Byte) : Row :=
  calls .writePage 0 0 (cmdPhase cur 0x80#8) ++ calls .writePage 1 0 (addrPhase .out (pageAddr p)) ++
    calls .writePage 2 0 (dataOutPhase .out bs) ++ calls .writePage 3 0 (cmdPhase .out 0x10#8)

/-- writePage(p), the data in BUF_A (41_transactions R190). -/
def execWritePage (p : Nat) (s : State) : Host.Outcome State Fault Refusal :=
  runRow (writePageRow s.lines.dqDir p s.bufA.page) s

/-- eraseBlock (41_transactions R192). -/
def eraseBlockRow (cur : Dir) (b : Nat) : Row :=
  calls .eraseBlock 0 0 (cmdPhase cur 0x60#8) ++ calls .eraseBlock 1 0 (addrPhase .out (blockAddr b)) ++
    calls .eraseBlock 2 0 (cmdPhase .out 0xD0#8)

/-- eraseBlock(b) (41_transactions R192). -/
def execEraseBlock (b : Nat) (s : State) : Host.Outcome State Fault Refusal :=
  runRow (eraseBlockRow s.lines.dqDir b) s

/-- readStatus when the chip drives `v` (41_transactions R195). -/
def readStatusRow (cur : Dir) (v : Byte) : Row :=
  calls .readStatus 0 0 (cmdPhase cur 0x70#8) ++ calls .readStatus 1 0 (dataInPhase .out [v]) ++
    stmt .readStatus 1 (.setStatus v)

/-- readStatus (41_transactions R195). -/
def execReadStatus (s : State) : Host.Outcome State Fault Refusal :=
  let d := drawByte s.env
  runRow (readStatusRow s.lines.dqDir d.1) { s with env := d.2 }

/-- `WaitReady()` as a statement of an operation (42_operations R241, R251); one that never ends leaves PC in its loop. -/
def runWaitReady (s : State) : Host.Outcome State Fault Refusal :=
  let w := drawWait s.cfg.busyLimit s.env
  match w.fin with
  | .ready | .timeout => runRow (waitReady w) { s with env := w.env }
  | .forever => onReturn s.pc (runRow (waitReady w) { s with env := w.env }) fun t => .next (t.standing [waitLoop])

/-- One more turn of a WaitReady loop whose every sample reads busy (40_bus_cycles R145, R146), PC being that of the
statement that called it: the loop's statements, and PC in the loop again unless BUSY_LIMIT ends it. -/
def runWaitLoop (s : State) : Host.Outcome State Fault Refusal :=
  if limitReached s.cfg.busyLimit (s.polls + 1) then runRow (timeoutSample (s.polls + 1)) s
  else onReturn s.pc (runRow (busySample (s.polls + 1)) s) fun t => .next (t.standing [waitLoop])

end Sys2Proof.Machine
end

