-- ==== Sys2Proof/Machine/Commands.lean ====
section
/-! DEFINITION. The meanings of the five host commands: each starts one invocation (42_operations R210) and does its
statement S0, Validate (R212); the sequencer (Sequencer.lean) then runs the labels from S1 on, one a step. -/

namespace Sys2Proof.Machine

/-- S0 for a command line whose checks 1 to 3 have passed (42_operations R210, R212): the engine is reset
(70_reset_and_hazards R300), check 4 (COUNT ≥ 1) is made where the verb takes a count, and CMD, FIRST, COUNT, INCLUDE_SPARE,
DELAY and the path are written; PC is then S1. A failed check raises UsageError before any file or line is touched. That the
writes and `pc <- S1` are one primitive, with no interrupt point between them, is the model's choice (DESIGN CHOICE,
notes/assumptions/5). -/
def hostCommand (cmd : Cmd) (delay first count : Nat) (spare : Bool) (path : Token) (s : State) :
    Host.Outcome State Fault Refusal :=
  if cmd ≠ .readId ∧ count = 0 then runPrims [.raise .usageError .none] (startInvocation s)
  else runPrims [.load cmd delay first count spare path] (startInvocation s)

/-- A command line that a check refuses: UsageError (42_operations R212, 60_exceptions R261). -/
def rejectCommand (s : State) : Host.Outcome State Fault Refusal :=
  runPrims [.raise .usageError .none] (startInvocation s)

/-- `<delay> read_id` (42_operations R218): no FIRST, no COUNT, no path (10_state R29). That FIRST, COUNT and INCLUDE_SPARE
are 0 and the path empty then is the model's choice (DESIGN CHOICE, notes/assumptions/1). -/
def execReadIdCmd (delay : Nat) (s : State) : Host.Outcome State Fault Refusal :=
  hostCommand .readId delay 0 0 false [] s
/-- `<delay> read_full <firstPage> <count> <outputPath>`: INCLUDE_SPARE = 1 (42_operations R212, R220). -/
def execReadFull (delay first count : Nat) (path : Token) (s : State) : Host.Outcome State Fault Refusal :=
  hostCommand .readFull delay first count true path s
/-- `<delay> read_data <firstPage> <count> <outputPath>`: INCLUDE_SPARE = 0 (42_operations R212, R220). -/
def execReadData (delay first count : Nat) (path : Token) (s : State) : Host.Outcome State Fault Refusal :=
  hostCommand .readData delay first count false path s
/-- `<delay> write_full <firstPage> <count> <inputPath>` (42_operations R212, R238). That INCLUDE_SPARE is 0 then is the
model's choice (DESIGN CHOICE, notes/assumptions/1): R212 gives it for the two reads only. -/
def execWriteFull (delay first count : Nat) (path : Token) (s : State) : Host.Outcome State Fault Refusal :=
  hostCommand .writeFull delay first count false path s
/-- `<delay> erase_blocks <firstBlock> <count>` (42_operations R212, R248). That INCLUDE_SPARE is 0 and the path empty then
is the model's choice (DESIGN CHOICE, notes/assumptions/1): R212 gives INCLUDE_SPARE for the two reads only. -/
def execEraseBlocks (delay first count : Nat) (s : State) : Host.Outcome State Fault Refusal :=
  hostCommand .eraseBlocks delay first count false [] s

end Sys2Proof.Machine
end

