-- ==== Sys2Proof/Machine/Sequencer.lean ====
section
/-! DEFINITION. The operation sequencer: what each label of 42_operations R211 does. A label's function is given the state
with PC at the label, runs the label's statement and, once what it called has returned, sets PC to the procedure's next
label, a primitive itself (00_scope R13); where the run ends inside the statement, PC stays at it (10_state R33). The line
`for K in [0, COUNT)` has no label: that K < COUNT is tested at P1, W1 and E1, where PC stands with K = COUNT after the last
unit, and that K is incremented last in P9, W9 and E8, is the model's choice (DESIGN CHOICE, notes/assumptions/20). -/

namespace Sys2Proof.Machine

/-! ## The top level (42_operations R210) -/

/-- S1, OpenStreams (R219). That the output is opened before bad.log, and SINK is empty already where only bad.log fails to
open, is the model's reading of R219's order: notes/assumptions/14. -/
def runS1 (s : State) : Host.Outcome State Fault Refusal :=
  match s.cmd with
  | .readFull | .readData =>
    let o := drawIo s.env
    if o.1 then
      let b := drawIo o.2
      if b.1 then doThen [.openSink] (toLabel .s2) { s with env := b.2 }
      else raiseHostIo [.openSink] { s with env := b.2 }
    else raiseHostIo [] { s with env := o.2 }
  | .writeFull =>
    let o := drawIo s.env
    if o.1 then doThen [] (toLabel .s2) { s with env := o.2 } else raiseHostIo [] { s with env := o.2 }
  | .readId | .eraseBlocks => doThen [] (toLabel .s2) s

/-- S2, InitLines (70_reset_and_hazards R301). -/
def runS2 (s : State) : Host.Outcome State Fault Refusal :=
  doThen initLines (toLabel .s3) s

/-- S3, the ready check: one sample of R/B# (R215). -/
def runS3 (s : State) : Host.Outcome State Fault Refusal :=
  let r := drawLevel s.env
  if r.1 then doThen [.pin (.readLevel .rb true)] (toLabel .s4) { s with env := r.2 }
  else runPrims [.pin (.readLevel .rb false), .raise .powerOrWiringFault .none] { s with env := r.2 }

/-- S4, CaptureId (R216): readId, then the validity test of 41_transactions R181. -/
def runS4 (s : State) : Host.Outcome State Fault Refusal :=
  onReturn s.pc (execReadId s) fun t =>
    if idSame t.idRd then runPrims [.raise .deviceAbsentOrMiswired (.deviceId t.idRd)] t
    else doThen [.setIdCache t.idRd, .setIdValid, .report (.id t.idRd)] (toLabel .s5) t

/-- S5, the gate: not for read_id; one host choice (R217). -/
def runS5 (s : State) : Host.Outcome State Fault Refusal :=
  if s.cmd = .readId then doThen [] (toLabel .s6) s
  else
    let g := drawGate s.env
    if g.1 then doThen [] (toLabel .s6) { s with env := g.2 } else runPrims [.decline] { s with env := g.2 }

/-- S6: the operation of CMD is called; S7 comes after it (R210). -/
def runS6 (s : State) : Host.Outcome State Fault Refusal :=
  match s.cmd with
  | .readId => doThen [] (toLabel .s7) s
  | .readFull | .readData => doThen [] (toCall .p1 .s7) s
  | .writeFull => doThen [] (toCall .w1 .s7) s
  | .eraseBlocks => doThen [] (toCall .e1 .s7) s

/-- S7: OUTCOME <- Done (R210). -/
def runS7 (s : State) : Host.Outcome State Fault Refusal := runPrims [.finish] s

/-! ## IdCheck (42_operations R231) -/

/-- I1: the head of the loop. -/
def runI1 (s : State) : Host.Outcome State Fault Refusal := doThen [] (toLabel .i2) s
/-- I2: readId. -/
def runI2 (s : State) : Host.Outcome State Fault Refusal := onReturn s.pc (execReadId s) (doThen [] (toLabel .i3))
/-- I3: no drift ends the procedure; an IdDrift reads the ID again, with nothing counted or reported (R233). -/
def runI3 (s : State) : Host.Outcome State Fault Refusal :=
  match conditionAt .i3 s with
  | some _ => doThen [] (toLabel .i1) s
  | none => doThen [] toCaller s

/-! ## ReadPages (42_operations R220) -/

/-- P1: the head of the loop over units (the test K < COUNT here: DESIGN CHOICE, notes/assumptions/20), and RETRY <- 0 (R221,
R230). -/
def runP1 (s : State) : Host.Outcome State Fault Refusal :=
  if s.k < s.count then doThen [.setRetry 0] (toLabel .p2) s else doThen [] toCaller s
/-- P2: the head of the loop over attempts (R222). -/
def runP2 (s : State) : Host.Outcome State Fault Refusal := doThen [] (toLabel .p3) s
/-- P3: IdCheck on a retry (R232). -/
def runP3 (s : State) : Host.Outcome State Fault Refusal :=
  if 1 ≤ s.retry then doThen [] (toCall .i1 .p4) s else doThen [] (toLabel .p4) s
/-- P4: the first read, into BUF_A (R223). -/
def runP4 (s : State) : Host.Outcome State Fault Refusal :=
  onReturn s.pc (execReadPage s.unit .a s) (doThen [] (toLabel .p5))
/-- P5: the second read, into BUF_B (R223). -/
def runP5 (s : State) : Host.Outcome State Fault Refusal :=
  onReturn s.pc (execReadPage s.unit .b s) (doThen [] (toLabel .p6))
/-- P6: MATCH accepts the page (R224, R225); a ContentMismatch goes to P7. -/
def runP6 (s : State) : Host.Outcome State Fault Refusal :=
  match conditionAt .p6 s with
  | some _ => doThen [] (toLabel .p7) s
  | none => doThen [] (toLabel .p8) s
/-- P7: retry (R226), or UnitExhausted with LogBad (R227). -/
def runP7 (s : State) : Host.Outcome State Fault Refusal :=
  match conditionAt .p7 s with
  | none => doThen [.setRetry (s.retry + 1), .report (.retry .read s.unit (s.retry + 1))] (toLabel .p2) s
  | some _ =>
    let o := drawIo s.env
    if o.1 then doThen [.logBad s.unit, .report (.giveUp .read s.unit)] (toLabel .p8) { s with env := o.2 }
    else raiseHostIo [] { s with env := o.2 }
/-- P8: the one record of the page, from BUF_A (R228, 20_memory R71). -/
def runP8 (s : State) : Host.Outcome State Fault Refusal :=
  let o := drawIo s.env
  if o.1 then
    doThen [.sinkAppend (s.bufA.readBytes 0 (recordLen s.includeSpare))] (toLabel .p9) { s with env := o.2 }
  else raiseHostIo [] { s with env := o.2 }
/-- P9: progress, RETRY <- 0, the next unit (R229, R230, 10_state R30). That K is incremented here, last before `pc <- P1`, is
the model's choice (DESIGN CHOICE, notes/assumptions/20). -/
def runP9 (s : State) : Host.Outcome State Fault Refusal :=
  doThen [.report (.progress s.unit (s.unit / PAGES_PER_BLOCK) s.percent), .setRetry 0, .setK (s.k + 1)] (toLabel .p1) s

/-! ## What WritePages and EraseBlocks share (42_operations R241, R242, R251, R252) -/

/-- The statement at `here`: readStatus, then `pass` where it finds no error and `retry` on a ProgramOrEraseStatusError. -/
def checkStatus (here pass retry : Label) (s : State) : Host.Outcome State Fault Refusal :=
  onReturn s.pc (execReadStatus s) fun t =>
    match conditionAt here t with
    | some _ => doThen [] (toLabel retry) t
    | none => doThen [] (toLabel pass) t

/-- The statement at `here` after a status error: one more attempt, or FAIL_LOG and GiveUp on UnitExhausted. -/
def statusError (here : Label) (kind : Kind) (again done : Label) (s : State) : Host.Outcome State Fault Refusal :=
  match conditionAt here s with
  | none => doThen [.setRetry (s.retry + 1), .report (.retry kind s.unit (s.retry + 1))] (toLabel again) s
  | some _ => doThen [.logFail kind s.unit, .report (.giveUp kind s.unit)] (toLabel done) s

/-! ## WritePages (42_operations R238) -/

/-- W1: the head of the loop over units (the test K < COUNT here: DESIGN CHOICE, notes/assumptions/20), and SourceRead (R239,
20_memory R73). -/
def runW1 (s : State) : Host.Outcome State Fault Refusal :=
  if s.k < s.count then
    let o := drawIo s.env
    doThen [.setRecord (if o.1 then some (sourceRead s.source (s.k * PAGE_SIZE) PAGE_SIZE) else none)] (toLabel .w2)
      { s with env := o.2 }
  else doThen [] toCaller s
/-- W2: a short or failed read is a HostIoError; else the record goes to BUF_A and RETRY <- 0 (R239). -/
def runW2 (s : State) : Host.Outcome State Fault Refusal :=
  match s.record with
  | none => raiseHostIo [] s
  | some r =>
    if r.length < PAGE_SIZE then raiseHostIo [] s
    else doThen [.memWrite .a 0 r, .setRetry 0] (toLabel .w3) s
/-- W3: the head of the loop over attempts. -/
def runW3 (s : State) : Host.Outcome State Fault Refusal := doThen [] (toLabel .w4) s
/-- W4: IdCheck, every attempt (R232). -/
def runW4 (s : State) : Host.Outcome State Fault Refusal := doThen [] (toCall .i1 .w5) s
/-- W5: writePage (R240). -/
def runW5 (s : State) : Host.Outcome State Fault Refusal :=
  onReturn s.pc (execWritePage s.unit s) (doThen [] (toLabel .w6))
/-- W6: WaitReady (R241). -/
def runW6 (s : State) : Host.Outcome State Fault Refusal := onReturn s.pc (runWaitReady s) (doThen [] (toLabel .w7))
/-- W7: readStatus; FAIL = 0 passes the page (R241). -/
def runW7 (s : State) : Host.Outcome State Fault Refusal := checkStatus .w7 .w9 .w8 s
/-- W8: retry with the same BUF_A, or give up (R242, R243). -/
def runW8 (s : State) : Host.Outcome State Fault Refusal := statusError .w8 .program .w3 .w9 s
/-- W9: progress, RETRY <- 0, the next unit (R229, R230). K's increment here, last before `pc <- W1`: DESIGN CHOICE,
notes/assumptions/20. -/
def runW9 (s : State) : Host.Outcome State Fault Refusal :=
  doThen [.report (.progress s.unit (s.unit / PAGES_PER_BLOCK) s.percent), .setRetry 0, .setK (s.k + 1)] (toLabel .w1) s

/-! ## EraseBlocks (42_operations R248) -/

/-- E1: the head of the loop over units (the test K < COUNT here: DESIGN CHOICE, notes/assumptions/20), and RETRY <- 0
(R249). -/
def runE1 (s : State) : Host.Outcome State Fault Refusal :=
  if s.k < s.count then doThen [.setRetry 0] (toLabel .e2) s else doThen [] toCaller s
/-- E2: the head of the loop over attempts. -/
def runE2 (s : State) : Host.Outcome State Fault Refusal := doThen [] (toLabel .e3) s
/-- E3: IdCheck, every attempt (R249). -/
def runE3 (s : State) : Host.Outcome State Fault Refusal := doThen [] (toCall .i1 .e4) s
/-- E4: eraseBlock (R250). -/
def runE4 (s : State) : Host.Outcome State Fault Refusal :=
  onReturn s.pc (execEraseBlock s.unit s) (doThen [] (toLabel .e5))
/-- E5: WaitReady (R251). -/
def runE5 (s : State) : Host.Outcome State Fault Refusal := onReturn s.pc (runWaitReady s) (doThen [] (toLabel .e6))
/-- E6: readStatus; FAIL = 0 passes the block (R251). -/
def runE6 (s : State) : Host.Outcome State Fault Refusal := checkStatus .e6 .e8 .e7 s
/-- E7: retry or give up (R252). -/
def runE7 (s : State) : Host.Outcome State Fault Refusal := statusError .e7 .erase .e2 .e8 s
/-- E8: progress (the block's first page and the block), RETRY <- 0, the next unit (R229, R230). K's increment here, last
before `pc <- E1`: DESIGN CHOICE, notes/assumptions/20. -/
def runE8 (s : State) : Host.Outcome State Fault Refusal :=
  doThen [.report (.progress (s.unit * PAGES_PER_BLOCK) s.unit s.percent), .setRetry 0, .setK (s.k + 1)] (toLabel .e1) s

/-- The statement of a label. -/
def runLabel (l : Label) (s : State) : Host.Outcome State Fault Refusal :=
  match l with
  | .s1 => runS1 s
  | .s2 => runS2 s
  | .s3 => runS3 s
  | .s4 => runS4 s
  | .s5 => runS5 s
  | .s6 => runS6 s
  | .s7 => runS7 s
  | .p1 => runP1 s
  | .p2 => runP2 s
  | .p3 => runP3 s
  | .p4 => runP4 s
  | .p5 => runP5 s
  | .p6 => runP6 s
  | .p7 => runP7 s
  | .p8 => runP8 s
  | .p9 => runP9 s
  | .i1 => runI1 s
  | .i2 => runI2 s
  | .i3 => runI3 s
  | .w1 => runW1 s
  | .w2 => runW2 s
  | .w3 => runW3 s
  | .w4 => runW4 s
  | .w5 => runW5 s
  | .w6 => runW6 s
  | .w7 => runW7 s
  | .w8 => runW8 s
  | .w9 => runW9 s
  | .e1 => runE1 s
  | .e2 => runE2 s
  | .e3 => runE3 s
  | .e4 => runE4 s
  | .e5 => runE5 s
  | .e6 => runE6 s
  | .e7 => runE7 s
  | .e8 => runE8 s

end Sys2Proof.Machine
end

