-- ==== Sys2Proof/Machine/Fetch.lean ====
section
/-! DEFINITION. How the machine selects what it does next. The NBPE fetches no instructions (20_memory R85): its sequencer
stands at a label, in a wait's loop, or at the entry point S0, where a host command line is taken. -/

namespace Sys2Proof.Machine

/-- What a step is to do, with the state it does it in. -/
inductive Work where
  /-- Nothing: no command line to take. -/
  | idle
  /-- The command line fails a check of 42_operations R212. -/
  | usage (s : State)
  /-- A decoded instruction. -/
  | instr (i : Instr) (s : State)
  /-- The placed word is no cycle of the NBPE (30_encoding R92, R94). -/
  | reject (r : Reject)
  /-- A sequencer statement. -/
  | label (l : Label) (s : State)
  /-- Nothing: the state breaks 10_state R25 (60_exceptions R277). -/
  | contention
  /-- The loop of a WaitReady whose every sample reads busy, with PC at the statement that called it. -/
  | wait (s : State)

/-- The next host command line, decoded (30_encoding R109, 42_operations R212). -/
def hostWork (s : State) : Work :=
  match s.commands with
  | [] => .idle
  | line :: rest =>
    match decodeCommand line with
    | .ok i => .instr i { s with commands := rest }
    | .error _ => .usage { s with commands := rest }

/-- What the sequencer does at PC. -/
def seqWork (s : State) : Work :=
  match s.pc with
  | [] => .idle
  | .s0 :: _ => hostWork s
  | .lab l :: _ => .label l s
  | .stmt q n i :: rest => if Pos.stmt q n i = waitLoop then .wait { s with pc := rest } else .idle

/-- What the step at `s` does. A run that has ended takes the next command line: one command, one invocation
(42_operations R210). A placed word comes before what PC names (notes/assumptions/7). A state that breaks 10_state
R25 is a fault of the model at whatever label it stands, and also once the run has ended (60_exceptions R277). Where a host
interrupt is due at the start of a step as well, the fault comes first (DESIGN CHOICE, notes/assumptions/17). -/
def nextWork (s : State) : Work :=
  if s.contends then .contention
  else if s.outcome = .running then
    match s.placed with
    | some w =>
      match decodeNat w with
      | .ok i => .instr i { s with placed := none }
      | .error r => .reject r
    | none => seqWork s
  else hostWork s

/-- The refusal of a word that no decoder of NBPE traces takes. -/
def rejectWord (r : Reject) : Refusal :=
  match r with
  | .notACycleWord => .notACycleWord
  | .unknownCommandByte => .unknownCommandByte
  | .reservedCycle => .reservedCycle
  | .unknownVerb => .reservedCycle
  | .wrongArity => .reservedCycle
  | .notDecimal => .reservedCycle
  | .notATransaction => .reservedCycle

/-- The phase procedure of the cycle word `w` is what the next step runs. -/
def placeCycle (w : Nat) (s : State) : State := { s with placed := some w }

end Sys2Proof.Machine
end

