-- ==== Sys2Proof/Machine/Dispatch.lean ====
section
/-! DEFINITION. `exec`: one arm for every constructor of `Instr`, each one call of its meaning. -/

namespace Sys2Proof.Machine

def exec (i : Instr) (s : State) : Host.Outcome State Fault Refusal :=
  match i with
  | .cmdReadId => Sys2Proof.Machine.execCmdReadId s
  | .cmdReadSetup => Sys2Proof.Machine.execCmdReadSetup s
  | .cmdReadConfirm => Sys2Proof.Machine.execCmdReadConfirm s
  | .cmdProgSetup => Sys2Proof.Machine.execCmdProgSetup s
  | .cmdProgConfirm => Sys2Proof.Machine.execCmdProgConfirm s
  | .cmdEraseSetup => Sys2Proof.Machine.execCmdEraseSetup s
  | .cmdEraseConfirm => Sys2Proof.Machine.execCmdEraseConfirm s
  | .cmdReadStatus => Sys2Proof.Machine.execCmdReadStatus s
  | .idAddr => Sys2Proof.Machine.execIdAddr s
  | .addr a => Sys2Proof.Machine.execAddr a s
  | .dataW d => Sys2Proof.Machine.execDataW d s
  | .dataR d => Sys2Proof.Machine.execDataR d s
  | .readId => Sys2Proof.Machine.execReadId s
  | .readPage p x => Sys2Proof.Machine.execReadPage p x s
  | .writePage p => Sys2Proof.Machine.execWritePage p s
  | .eraseBlock b => Sys2Proof.Machine.execEraseBlock b s
  | .readStatus => Sys2Proof.Machine.execReadStatus s
  | .readIdCmd delay => Sys2Proof.Machine.execReadIdCmd delay s
  | .readFull delay first count path => Sys2Proof.Machine.execReadFull delay first count path s
  | .readData delay first count path => Sys2Proof.Machine.execReadData delay first count path s
  | .writeFull delay first count path => Sys2Proof.Machine.execWriteFull delay first count path s
  | .eraseBlocks delay first count => Sys2Proof.Machine.execEraseBlocks delay first count s

end Sys2Proof.Machine
end

