-- ==== Sys2Proof/Machine/Step.lean ====
section
/-! DEFINITION. One step of the machine: what Fetch.lean selects, run. -/

namespace Sys2Proof.Machine

/-- One step: a decoded instruction is `exec`uted, a label's statement is run, a command line that fails a check raises
UsageError, a word that is no cycle of the NBPE is refused, a state of bus contention is a fault; with nothing to do the machine stays
as it is, interrupted or not (10_state R39: an outcome never changes again within its invocation). -/
def step (s : State) : Host.Outcome State Fault Refusal :=
  match nextWork s with
  | .idle => .next (stayIdle s)
  | .usage t => rejectCommand t
  | .instr i t => exec i t
  | .reject r => .refused (rejectWord r)
  | .contention => .fault .busContention
  | .label l t => runLabel l t
  | .wait t => runWaitLoop t

/-- `s` with the cycle word `w` where the next step finds the word it runs. The NBPE fetches nothing (20_memory R85); how a
program comes to run from reset: notes/assumptions/7. -/
def State.withFetchWord (s : State) (_nbits w : Nat) : State := placeCycle w s

end Sys2Proof.Machine
end

