-- ==== Sys2Proof/Safety.lean ====
section
/-! DEFINITION. What a good state of the machine is, in the terms the statements use: the lines at rest and exclusive, PC
well-shaped, no register read that was not written, and the invariant `Inv` that every step keeps. -/

namespace Sys2Proof.Machine

/-- The lines between transactions (10_state R48, R21): both latches 0, both strobes and WP# 1, every control line an
output, R/B# an input, and the data lines all in DQDIR's direction. -/
def Lines.atRest (ls : Lines) : Bool :=
  !ls.cle && !ls.ale && ls.we && ls.re && ls.wp && (ls.cleDir == .out) && (ls.aleDir == .out) && (ls.weDir == .out) &&
    (ls.reDir == .out) && (ls.wpDir == .out) && (ls.rbDir == .inp) &&
    (ls.dqOut == if ls.dqDir = .out then 0xFF#8 else 0x00#8)

/-- Latch and strobe exclusion (40_bus_cycles R143) and no contention (10_state R25): what holds of the lines at every
primitive of a phase. -/
def Lines.exclusive (ls : Lines) : Bool :=
  !(ls.cle && ls.ale) && (ls.we || ls.re) && (ls.re || !(ls.cle || ls.ale)) && !ls.contended

/-- The lines with the data bus turned to `d` by BusDir (40_bus_cycles R135). -/
def Lines.turned (ls : Lines) (d : Dir) : Lines :=
  if ls.dqDir = d then ls else { ls with dqDir := d, dqOut := if d = .out then 0xFF#8 else 0x00#8 }

/-! ## Pin events of the phases, written out -/

/-- The events of BusDir from DQDIR = `cur` (40_bus_cycles R135). -/
def turnEvents (cur d : Dir) : List PinEvent :=
  if cur = d then [] else dqLines.map (fun i => .setDir (.dq i) d) ++ [.pause]

/-- The events of DriveByte (40_bus_cycles R136). -/
def driveEvents (v : Byte) : List PinEvent :=
  dqLines.map (fun i => if v.getLsbD i.val then .setHigh (.dq i) else .setLow (.dq i)) ++ [.pause]

/-- The events of WeStrobe (40_bus_cycles R137). -/
def strobeEvents : List PinEvent := [.setLow .we, .pause, .setHigh .we, .pause]

/-- The events of one byte driven and strobed. -/
def writeEvents (v : Byte) : List PinEvent := driveEvents v ++ strobeEvents

/-- The events of Cmd(c) (40_bus_cycles R138). -/
def cmdEvents (cur : Dir) (c : Byte) : List PinEvent :=
  turnEvents cur .out ++ [.setHigh .cle, .pause] ++ writeEvents c ++ [.setLow .cle, .pause]

/-- The events of Addr(a) (40_bus_cycles R139). -/
def addrEvents (cur : Dir) (a : List Byte) : List PinEvent :=
  turnEvents cur .out ++ [.setHigh .ale, .pause] ++ a.flatMap writeEvents ++ [.setLow .ale, .pause]

/-- The events of DataOut (40_bus_cycles R140). -/
def dataOutEvents (cur : Dir) (ds : List Byte) : List PinEvent := turnEvents cur .out ++ ds.flatMap writeEvents

/-- The events of DataIn1 (40_bus_cycles R141). -/
def dataIn1Events (v : Byte) : List PinEvent :=
  [.setLow .re, .pause] ++ dqLines.map (fun i => .readLevel (.dq i) (v.getLsbD i.val)) ++ [.setHigh .re, .pause]

/-- The events of DataIn (40_bus_cycles R142). -/
def dataInEvents (cur : Dir) (vs : List Byte) : List PinEvent := turnEvents cur .inp ++ vs.flatMap dataIn1Events

/-- The events of `n` busy samples (40_bus_cycles R145). -/
def busyEvents (n : Nat) : List PinEvent := (List.replicate n [PinEvent.readLevel .rb false, .pause]).flatten

/-! ## Good states -/

/-- A state in which a phase runs undisturbed: the run goes on, no interrupt comes, the chip keeps to its read strobes
(10_state R25), and the latches and strobes are idle. -/
structure Ready (s : State) : Prop where
  running : s.outcome = .running
  calm : s.interruptIn = none
  undriven : s.driveIn = none
  cle : s.lines.cle = false
  ale : s.lines.ale = false
  we : s.lines.we = true
  re : s.lines.re = true

/-- The labels of the procedure that CMD calls at S6 (42_operations R210, R211). -/
def procLabels : Cmd → List Label
  | .readId => []
  | .readFull => [.p1, .p2, .p3, .p4, .p5, .p6, .p7, .p8, .p9]
  | .readData => [.p1, .p2, .p3, .p4, .p5, .p6, .p7, .p8, .p9]
  | .writeFull => [.w1, .w2, .w3, .w4, .w5, .w6, .w7, .w8, .w9]
  | .eraseBlocks => [.e1, .e2, .e3, .e4, .e5, .e6, .e7, .e8]

/-- The label IdCheck returns to (42_operations R220, R238, R248). -/
def idCheckReturn : Cmd → List Label
  | .readId => []
  | .readFull => [.p4]
  | .readData => [.p4]
  | .writeFull => [.w5]
  | .eraseBlocks => [.e4]

/-- The labels that call readPage, and with it a WaitReady (40_bus_cycles R148). -/
def readPageLabels : Cmd → List Label
  | .readFull | .readData => [.p4, .p5]
  | .readId | .writeFull | .eraseBlocks => []

/-- The labels that call WaitReady themselves (40_bus_cycles R148). -/
def waitLabels : Cmd → List Label
  | .writeFull => [.w6]
  | .eraseBlocks => [.e5]
  | .readId | .readFull | .readData => []

/-- The positions PC can have while CMD's invocation runs (42_operations R211). -/
def shapeOk (cmd : Cmd) : List Pos → Bool
  | [.s0] => true
  | [.lab l] => decide (l ∈ [Label.s1, .s2, .s3, .s4, .s5, .s6, .s7])
  | [.lab l, .lab .s7] => decide (l ∈ procLabels cmd)
  | [.lab l, .lab r, .lab .s7] => decide (l ∈ [Label.i1, .i2, .i3]) && decide (r ∈ idCheckReturn cmd)
  | [.stmt q n i, .lab l, .lab .s7] => decide (Pos.stmt q n i = waitLoop) && decide (l ∈ waitLabels cmd)
  | [.stmt q n i, .stmt r m j, .lab l, .lab .s7] =>
    decide (Pos.stmt q n i = waitLoop) && decide (Pos.stmt r m j = .stmt .readPage 3 0) && decide (l ∈ readPageLabels cmd)
  | _ => false

/-- Whether a position is a statement of a phase procedure or a transaction. -/
def Pos.isStmt : Pos → Bool
  | .stmt _ _ _ => true
  | .s0 => false
  | .lab _ => false

/-- The innermost label of PC, `none` at S0: the sequencer's statement, whatever it has called. -/
def State.atLabel (s : State) : Option Label :=
  match s.pc.dropWhile Pos.isStmt with
  | .lab l :: _ => some l
  | _ => none

/-- InitLines has not run in this invocation (S0, S1, S2), and no bus cycle is placed: the lines may be at any level
(10_state R47, 70_reset_and_hazards R301). -/
def State.beforeInit (s : State) : Bool :=
  (decide (s.pc = [.s0]) || decide (s.pc = [.lab .s1]) || decide (s.pc = [.lab .s2])) && s.placed.isNone

/-- The labels at which a unit is in progress: K < COUNT there (10_state R30). -/
def inUnit : Label → Bool
  | .p2 | .p3 | .p4 | .p5 | .p6 | .p7 | .p8 | .p9 => true
  | .w2 | .w3 | .w4 | .w5 | .w6 | .w7 | .w8 | .w9 => true
  | .e2 | .e3 | .e4 | .e5 | .e6 | .e7 | .e8 => true
  | .i1 | .i2 | .i3 => true
  | .s1 | .s2 | .s3 | .s4 | .s5 | .s6 | .s7 | .p1 | .w1 | .e1 => false

/-- The labels of the preflight and of the operation's call: K = 0 there. -/
def beforeUnits : Label → Bool
  | .s1 | .s2 | .s3 | .s4 | .s5 | .s6 => true
  | _ => false

/-- Records in SINK when the innermost label is `l`: one for each unit completed, and unit K's own at P9 (20_memory R72). -/
def recordsDone (k : Nat) (l : Label) : Nat := if l = .p9 then k + 1 else k

/-- The most entries BAD_LOG can have when the innermost label is `l`: one for each unit completed, and unit K's own after
P7 (42_operations R227). -/
def badLogBound (k : Nat) (l : Label) : Nat := if l = .p8 ∨ l = .p9 then k + 1 else k

/-- The most entries FAIL_LOG can have when the innermost label is `l` (42_operations R242, R252). -/
def failLogBound (k : Nat) (l : Label) : Nat := if l = .w9 ∨ l = .e8 then k + 1 else k

/-- The registers with an unspecified reset value that the statement at `l` reads, or that a later statement of the same
attempt reads before writing, have been written (10_state R46, 93_implementation_defined I5). -/
def readsWritten (cmd : Cmd) (w : Written) (idValid : Bool) (l : Label) : Bool :=
  match l with
  | .i3 => w.idRd && idValid && (w.bufA || !(decide (cmd = .writeFull)))
  | .p5 => w.bufA
  | .p6 | .p7 => w.bufA && w.bufB
  | .p8 | .w3 | .w4 | .w5 | .w6 | .w7 => w.bufA
  | .i1 | .i2 => w.bufA || !(decide (cmd = .writeFull))
  | .w8 => w.bufA && w.status
  | .e7 => w.status
  | _ => true

/-- A cycle word the NBPE may emit (30_encoding R92, R94): its decoder takes it. -/
def legalWord (w : CycleWord) : Prop := ∃ i, decodeWord w = .ok i

/-- THE INVARIANT. The first six clauses and `owned` hold of every state; the others while the run goes on. -/
structure Inv (s : State) : Prop where
  /-- The configuration is one that 10_state R27 and 00_scope R9 allow. -/
  config : s.cfg.wf = true
  /-- The page buffers keep their canonical form, offsets 0..2111 (20_memory R60). -/
  memA : s.bufA.wf = true
  memB : s.bufB.wf = true
  /-- What SourceRead returned is at most a page (20_memory R73). -/
  recordFits : ∀ r, s.record = some r → r.length ≤ PAGE_SIZE
  /-- RETRY is 0..MAX_RETRIES (10_state R31). -/
  retryBound : s.retry ≤ MAX_RETRIES
  /-- No reserved cycle and no unknown command byte was sent (30_encoding R92, R94, 40_bus_cycles R143). -/
  words : ∀ w ∈ s.cycleLog, legalWord w
  /-- PC has a position of 42_operations R211. -/
  shape : s.outcome = .running → shapeOk s.cmd s.pc = true
  /-- Once InitLines has run, the lines are at rest between steps (10_state R48). -/
  rest : s.outcome = .running → s.beforeInit = false → s.lines.atRest = true
  /-- Once InitLines has set RE#, the engine never drives DQ while RE# is 0, be the run ended or not (10_state R25). -/
  owned : s.linesSet = true → s.lines.contended = false
  /-- K is in [0, COUNT], below COUNT while a unit is in progress, 0 before the operation (10_state R30); that PC stands at P1,
  W1 or E1 with K = COUNT after the last unit is the model's choice (DESIGN CHOICE, notes/assumptions/20). -/
  unitIndex : s.outcome = .running → ∀ l, s.atLabel = some l →
    s.k ≤ s.count ∧ (inUnit l = true → s.k < s.count) ∧ (beforeUnits l = true → s.k = 0)
  /-- INCLUDE_SPARE is 1 for READ_FULL and 0 for READ_DATA (10_state R29); that it is 0 for the other commands is the model's
  choice (DESIGN CHOICE, notes/assumptions/1). -/
  spare : s.outcome = .running → ∀ l, s.atLabel = some l → s.includeSpare = decide (s.cmd = .readFull)
  /-- One record for each unit completed (20_memory R72); only reads write SINK (R71). -/
  sinkLen : s.outcome = .running → ∀ l, s.atLabel = some l →
    s.sink.length = if s.cmd = .readFull ∨ s.cmd = .readData then recordsDone s.k l * recordLen s.includeSpare else 0
  /-- BAD_LOG grows at most once for each page, in reads only (10_state R40, 42_operations R227). -/
  badBound : s.outcome = .running → ∀ l, s.atLabel = some l → s.badLog.length ≤ badLogBound s.k l ∧
    (s.cmd ≠ .readFull → s.cmd ≠ .readData → s.badLog = [])
  /-- FAIL_LOG grows at most once for each unit, in writes and erases only (10_state R41). -/
  failBound : s.outcome = .running → ∀ l, s.atLabel = some l → s.failLog.length ≤ failLogBound s.k l ∧
    (s.cmd ≠ .writeFull → s.cmd ≠ .eraseBlocks → s.failLog = [])
  /-- After S4, ID_CACHE holds a readout that is not all-identical (10_state R32, 42_operations R216). -/
  cached : s.outcome = .running → ∀ l, s.atLabel = some l → l ∉ [Label.s1, .s2, .s3, .s4] →
    s.idValid = true ∧ idSame s.idCache = false
  /-- No register is read before it is written (10_state R46). -/
  reads : s.outcome = .running → ∀ l, s.atLabel = some l → readsWritten s.cmd s.written s.idValid l = true

/-- `s` runs to a state with `P`, in some number of steps. -/
def RunsTo (s : State) (P : State → Prop) : Prop := ∃ n t, Host.Core.run Sys2Proof.core n s = .next t ∧ P t

end Sys2Proof.Machine
end

