-- ==== Sys2Proof/Certificates/Slice0/Obligations.lean ====
section
/-! DEFINITION. The statements for the provers. A helper named `after…` is the state an instruction leaves by the spec's
rules, written as the state before with the fields that change; every other field is then unchanged. -/

namespace Sys2Proof.Statements

open Sys2Proof.Machine

/-! ## What the bus cycles leave (40_bus_cycles R138 to R142) -/

/-- After Cmd(c): DQDIR = OUT, the data lines carry `c`, CLE is 0, one word 0x200 + c. -/
def afterCmd (c : Byte) (s : State) : State :=
  { s with lines := { s.lines.turned .out with dq := c, cle := false },
           pinLog := (cmdEvents s.lines.dqDir c).reverse ++ s.pinLog, cycleLog := cmdWord c :: s.cycleLog }

/-- After Addr([a]): DQDIR = OUT, the data lines carry `a`, ALE is 0, one word 0x100 + a. -/
def afterAddr (a : Byte) (s : State) : State :=
  { s with lines := { s.lines.turned .out with dq := a, ale := false },
           pinLog := (addrEvents s.lines.dqDir [a]).reverse ++ s.pinLog, cycleLog := addrWord a :: s.cycleLog }

/-- After one data-write cycle: DQDIR = OUT, the data lines carry `d`, one word 0x000 + d. -/
def afterDataW (d : Byte) (s : State) : State :=
  { s with lines := { s.lines.turned .out with dq := d },
           pinLog := (dataOutEvents s.lines.dqDir [d]).reverse ++ s.pinLog, cycleLog := writeWord d :: s.cycleLog }

/-- After one data-read cycle in which the chip drives `d`: DQDIR = IN, DIN = d, one word 0x400 + d. -/
def afterDataR (d : Byte) (s : State) : State :=
  { s with lines := s.lines.turned .inp, din := d, written := { s.written with din := true },
           pinLog := (dataInEvents s.lines.dqDir [d]).reverse ++ s.pinLog, cycleLog := readWord d :: s.cycleLog }

/-! ## What the transactions leave (41_transactions R180 to R195) -/

/-- readId's pin events: Cmd(0x90), Addr([0x00]), DataIn(5). -/
def readIdEvents (cur : Dir) (bs : List Byte) : List PinEvent :=
  cmdEvents cur 0x90#8 ++ addrEvents .out [0x00#8] ++ dataInEvents .out bs

/-- readId's cycle words (30_encoding R99). -/
def readIdWords (bs : List Byte) : List CycleWord := [cmdWord 0x90#8, addrWord 0x00#8] ++ bs.map readWord

/-- After readId when the chip drives `bs`. -/
def afterReadId (bs : List Byte) (s : State) : State :=
  { s with lines := ({ s.lines.turned .out with dq := 0x00#8 } : Lines).turned .inp,
           idRd := ⟨bs.getD 0 0, bs.getD 1 0, bs.getD 2 0, bs.getD 3 0, bs.getD 4 0⟩, din := bs.getD 4 0,
           written := { s.written with idRd := true, din := true },
           pinLog := (readIdEvents s.lines.dqDir bs).reverse ++ s.pinLog,
           cycleLog := (readIdWords bs).reverse ++ s.cycleLog }

/-- readPage's pin events up to the read-confirm. -/
def readPageOpenEvents (cur : Dir) (p : Nat) : List PinEvent :=
  cmdEvents cur 0x00#8 ++ addrEvents .out (pageAddr p) ++ cmdEvents .out 0x30#8

/-- readPage's cycle words up to the read-confirm: 0x200, 5 address words, 0x230. -/
def readPageOpenWords (p : Nat) : List CycleWord :=
  [cmdWord 0x00#8] ++ (pageAddr p).map addrWord ++ [cmdWord 0x30#8]

/-- A page buffer replaced whole. -/
def withPage (x : Buf) (bs : List Byte) (s : State) : State :=
  match x with
  | .a => { s with bufA := s.bufA.writeBytes 0 bs, written := { s.written with bufA := true } }
  | .b => { s with bufB := s.bufB.writeBytes 0 bs, written := { s.written with bufB := true } }

/-- After readPage(p, X) whose wait saw `busy` busy samples and then ready, the chip driving `bs`. -/
def afterReadPage (p : Nat) (x : Buf) (busy : Nat) (bs : List Byte) (s : State) : State :=
  withPage x bs
    { s with lines := ({ s.lines.turned .out with dq := 0x30#8 } : Lines).turned .inp, polls := busy,
             din := bs.getLastD s.din, written := { s.written with din := true },
             pinLog := (readPageOpenEvents s.lines.dqDir p ++ busyEvents busy ++ [PinEvent.readLevel .rb true] ++
               dataInEvents .out bs).reverse ++ s.pinLog,
             cycleLog := (readPageOpenWords p ++ bs.map readWord).reverse ++ s.cycleLog }

/-- After readPage(p, X) whose wait saw BUSY_LIMIT = `busy` busy samples: BusyTimeout, no data cycle, no buffer written, PC
at WaitReady's statement that raised it. -/
def afterReadPageTimeout (p : Nat) (busy : Nat) (s : State) : State :=
  { s with lines := { s.lines.turned .out with dq := 0x30#8 }, polls := busy,
           outcome := .fatal .busyTimeout, info := .polls busy, reports := s.reports ++ [.fault 5],
           pc := .stmt .waitReady 3 0 :: .stmt .readPage 3 0 :: s.pc,
           pinLog := (readPageOpenEvents s.lines.dqDir p ++ busyEvents (busy - 1) ++
             [PinEvent.readLevel .rb false]).reverse ++
             s.pinLog,
           cycleLog := (readPageOpenWords p).reverse ++ s.cycleLog }

/-- readPage(p, X) in a wait whose every sample reads busy: PC at the wait's loop. -/
def inReadPageWait (p : Nat) (busy : Nat) (s : State) : State :=
  { s with lines := { s.lines.turned .out with dq := 0x30#8 }, polls := busy,
           pc := .stmt .waitReady 1 0 :: .stmt .readPage 3 0 :: s.pc,
           pinLog := (readPageOpenEvents s.lines.dqDir p ++ busyEvents busy).reverse ++ s.pinLog,
           cycleLog := (readPageOpenWords p).reverse ++ s.cycleLog }

/-- writePage's cycle words (30_encoding R99). -/
def writePageWords (p : Nat) (bs : List Byte) : List CycleWord :=
  [cmdWord 0x80#8] ++ (pageAddr p).map addrWord ++ bs.map writeWord ++ [cmdWord 0x10#8]

/-- After writePage(p): only the lines and the two traces. -/
def afterWritePage (p : Nat) (s : State) : State :=
  { s with lines := { s.lines.turned .out with dq := 0x10#8 },
           pinLog := (cmdEvents s.lines.dqDir 0x80#8 ++ addrEvents .out (pageAddr p) ++ dataOutEvents .out s.bufA.page ++
             cmdEvents .out 0x10#8).reverse ++ s.pinLog,
           cycleLog := (writePageWords p s.bufA.page).reverse ++ s.cycleLog }

/-- After eraseBlock(b): only the lines and the two traces. -/
def afterEraseBlock (b : Nat) (s : State) : State :=
  { s with lines := { s.lines.turned .out with dq := 0xD0#8 },
           pinLog := (cmdEvents s.lines.dqDir 0x60#8 ++ addrEvents .out (blockAddr b) ++ cmdEvents .out 0xD0#8).reverse ++
             s.pinLog,
           cycleLog := ([cmdWord 0x60#8] ++ (blockAddr b).map addrWord ++ [cmdWord 0xD0#8]).reverse ++ s.cycleLog }

/-- After readStatus when the chip drives `v`. -/
def afterReadStatus (v : Byte) (s : State) : State :=
  { s with lines := ({ s.lines.turned .out with dq := 0x70#8 } : Lines).turned .inp, status := v, din := v,
           written := { s.written with status := true, din := true },
           pinLog := (cmdEvents s.lines.dqDir 0x70#8 ++ dataInEvents .out [v]).reverse ++ s.pinLog,
           cycleLog := [readWord v, cmdWord 0x70#8] ++ s.cycleLog }

/-! ## Invocations and faults -/

/-- The fatal abort (60_exceptions R268). -/
def afterRaise (f : FatalFault) (info : FaultInfo) (code : Nat) (s : State) : State :=
  { s with reports := s.reports ++ [.fault code], outcome := .fatal f, info := info }

/-- A HostIoError (60_exceptions R264): its message is a free value. -/
def afterHostIoError (text : String) (s : State) : State :=
  { s with reports := s.reports ++ [.fault 4], outcome := .fatal .hostIoError, info := .message text,
           env := { s.env with draws := s.env.draws + 1 } }

/-- An invocation started by a command of `s` (70_reset_and_hazards R300, 10_state R46, 42_operations R212): what Validate
loads, every register R46 gives a reset value at it, PC at S1, the host's and the environment's state kept. -/
structure Started (s : State) (cmd : Cmd) (delay first count : Nat) (spare : Bool) (path : Token) (t : State) : Prop where
  command : t.cmd = cmd ∧ t.delay = delay ∧ t.first = first ∧ t.count = count ∧ t.includeSpare = spare ∧ t.path = path
  registers : t.k = 0 ∧ t.retry = 0 ∧ t.idValid = false ∧ t.polls = 0
  sequencer : t.pc = [.lab .s1] ∧ t.placed = none ∧ t.outcome = .running
  logs : t.badLog = [] ∧ t.failLog = [] ∧ t.reports = []
  silent : t.pinLog = [] ∧ t.cycleLog = [] ∧ t.sink = []
  kept : t.cfg = s.cfg ∧ t.badFile = s.badFile ∧ t.source = s.source ∧ t.commands = s.commands ∧
    t.interruptIn = s.interruptIn ∧ t.driveIn = s.driveIn
  answers : t.env.rb = s.env.rb ∧ t.env.rbStuckLow = s.env.rbStuckLow ∧ t.env.dq = s.env.dq ∧ t.env.gate = s.env.gate ∧
    t.env.io = s.env.io
  lines : t.lines = s.linesFound

/-- An invocation that a UsageError ends at S0 (60_exceptions R261, R268): nothing but the Fault event, no file and no line
touched. -/
structure UsageFault (s t : State) : Prop where
  outcome : t.outcome = .fatal .usageError ∧ t.info = .none
  reported : t.reports = [.fault 1]
  exit : exitCode t = some (-1)
  silent : t.pinLog = [] ∧ t.cycleLog = [] ∧ t.sink = []
  kept : t.cfg = s.cfg ∧ t.badFile = s.badFile ∧ t.source = s.source
  lines : t.lines = s.linesFound

/-- The registers and streams that no bus cycle writes: everything but the lines, DIN, the traces, the countdowns, and, where
an interrupt comes, OUTCOME and PC, which then stands at a statement inside the phase. -/
structure CycleFrame (s t : State) : Prop where
  config : t.cfg = s.cfg
  invocation : t.cmd = s.cmd ∧ t.first = s.first ∧ t.count = s.count ∧ t.includeSpare = s.includeSpare ∧
    t.delay = s.delay ∧ t.path = s.path
  registers : t.k = s.k ∧ t.retry = s.retry ∧ t.idCache = s.idCache ∧ t.idValid = s.idValid ∧ t.idRd = s.idRd ∧
    t.status = s.status ∧ t.polls = s.polls ∧ t.record = s.record
  sequencer : t.info = s.info ∧ t.placed = s.placed ∧ (t.outcome = s.outcome → t.pc = s.pc) ∧
    ∃ inner : List Pos, t.pc = inner ++ s.pc ∧ ∀ q ∈ inner, q.isStmt = true
  memory : ∀ a, Memory.read t.bufA a = Memory.read s.bufA a ∧ Memory.read t.bufB a = Memory.read s.bufB a
  logs : t.badLog = s.badLog ∧ t.failLog = s.failLog ∧ t.reports = s.reports
  streams : t.sink = s.sink ∧ t.source = s.source ∧ t.badFile = s.badFile
  environment : t.env = s.env ∧ t.commands = s.commands

/-- No interrupt is to come, and the chip keeps to its read strobes (10_state R25, 60_exceptions R275). -/
structure Undisturbed (s : State) : Prop where
  calm : s.interruptIn = none
  undriven : s.driveIn = none

/-- The engine stands at the label `l`, `rest` being what the label's procedure returns to, no bus cycle is placed, and the
state keeps 10_state R25 (one that breaks it is a fault: ContentionIsAFault). -/
structure At (l : Label) (rest : List Pos) (s : State) : Prop where
  running : s.outcome = .running
  unplaced : s.placed = none
  pc : s.pc = .lab l :: rest
  owned : s.contends = false

/-- The step at `s` is the procedure whose outcome is `o`; once it has returned, `pc <- l` is one primitive more (00_scope
R13): the host may interrupt before it (60_exceptions R275), a chip that drives DQ with RE# at 1 stops it (R277), and
otherwise PC goes to `l`. That the interrupt comes first where both are due is the model's choice (notes/assumptions/17). -/
def StepCalls (s : State) (o : Host.Outcome State Fault Refusal) (l : Label) (rest : List Pos) : Prop :=
  (∀ t, o = .next t →
    (¬(t.outcome = .running ∧ t.pc = s.pc) → step s = .next t) ∧
    (t.outcome = .running → t.pc = s.pc →
      (t.interruptIn = some 0 → step s = .next { t with outcome := .aborted, interruptIn := none }) ∧
      (t.interruptIn ≠ some 0 → t.chipContends = true → step s = .fault .busContention) ∧
      (t.interruptIn ≠ some 0 → t.chipContends = false → step s = .next { tick t with pc := .lab l :: rest }))) ∧
  ∀ f, o = .fault f → step s = .fault f

/-- The pin events of InitLines, in its order (70_reset_and_hazards R301). -/
def initEvents : List PinEvent :=
  [.setDir .rb .inp, .setDir (.dq 0) .inp, .setDir (.dq 1) .inp, .setDir (.dq 2) .inp, .setDir (.dq 3) .inp,
   .setDir (.dq 4) .inp, .setDir (.dq 5) .inp, .setDir (.dq 6) .inp, .setDir (.dq 7) .inp, .pause,
   .setDir .cle .out, .setLow .cle, .setDir .ale .out, .setLow .ale, .setDir .we .out, .setHigh .we,
   .setDir .re .out, .setHigh .re, .setDir .wp .out, .setHigh .wp, .pause]

/-- The decimal digits of a number, most significant first: no leading zero, and 0 has one digit. -/
def decimal (n : Nat) : List Nat := if n = 0 then [0] else (Nat.digits 10 n).reverse

/-- The cycle words of one page program that passes: an ID check, the program, the status (42_operations R245). -/
def programWords (x : DevId) (p : Nat) (bs : List Byte) (st : Byte) : List CycleWord :=
  readIdWords x.bytes ++ writePageWords p bs ++ [cmdWord 0x70#8, readWord st]

/-- The cycle words of one block erase that passes: an ID check, the erase, the status (42_operations R253). -/
def eraseWords (x : DevId) (b : Nat) (st : Byte) : List CycleWord :=
  readIdWords x.bytes ++ ([cmdWord 0x60#8] ++ (blockAddr b).map addrWord ++ [cmdWord 0xD0#8]) ++
    [cmdWord 0x70#8, readWord st]

/-- A page of a read operation: what the chip drives for it. -/
def pageBytes (pg : List Byte) : Prop := pg.length = PAGE_SIZE

end Sys2Proof.Statements

open Sys2Proof Sys2Proof.Machine Sys2Proof.Statements

/-! ## Encoding (30_encoding) -/

/-- Decoding an encoded well-formed instruction gives it back, with every operand the encoding carries. `x` is the buffer
of a page read, which is on no line. -/
def Obligations.DecodeOfEncodeIsTheInstruction : Prop :=
  ∀ (x : Buf) (i : Instr) (data : List Byte), WellFormed i = true → data.length = dataLen i →
    (∀ p y, i = .readPage p y → y = x) → decode x (encode i data) = .ok i

/-- A word has one meaning: encoding what it decodes to gives the word back. -/
def Obligations.EncodeOfDecodedWordIsTheWord : Prop :=
  ∀ (w : CycleWord) (i : Instr), decodeWord w = .ok i → encodeWord i = some w ∧ WellFormed i = true

/-- A decoder of NBPE traces refuses the reserved patterns and the other 248 command bytes, and nothing else among the
11-bit words. The last two clauses are the model's choice, the NBPE itself decoding nothing (30_encoding R94): that a step
decodes a placed word, before what PC names, and refuses one that the decoder does not take (notes/assumptions/7), and that a
placed number of more than 11 bits is refused as no cycle word (notes/assumptions/8). -/
def Obligations.WordsOutsideTheTableAreRefused : Prop :=
  (∀ w : CycleWord, decodeWord w = .error .reservedCycle ↔
    ((w.getLsbD 9 && w.getLsbD 8) || (w.getLsbD 10 && (w.getLsbD 9 || w.getLsbD 8))) = true) ∧
  (∀ w : CycleWord, decodeWord w = .error .unknownCommandByte ↔
    ∃ c : Byte, w = cmdWord c ∧ c ∉ [0x90#8, 0x00#8, 0x30#8, 0x80#8, 0x10#8, 0x60#8, 0xD0#8, 0x70#8]) ∧
  (∀ (w : CycleWord) (r : Reject), decodeWord w = .error r → r = .reservedCycle ∨ r = .unknownCommandByte) ∧
  (∀ (s : State) (w : CycleWord), s.outcome = .running → s.contends = false → s.placed = some w.toNat →
    (decodeWord w = .error .reservedCycle → step s = .refused .reservedCycle) ∧
    (decodeWord w = .error .unknownCommandByte → step s = .refused .unknownCommandByte)) ∧
  ∀ (s : State) (w : Nat), s.outcome = .running → s.contends = false → s.placed = some w → 2 ^ 11 ≤ w →
    step s = .refused .notACycleWord

/-- A transaction is told by its words, whatever follows them. -/
def Obligations.TransactionToldByItsWords : Prop :=
  ∀ (x : Buf) (i : Instr) (data : List Byte) (ws rest : List CycleWord), encodeTransaction i data = some ws →
    WellFormed i = true → data.length = dataLen i → (∀ p y, i = .readPage p y → y = x) →
    decodeTransaction x (ws ++ rest) = .ok (i, data, rest)

/-- Seven words written out from the opcode table, and one that is none of its rows. That 0x100 alone is ID_ADDR and not ADDR
with byte 0 is the model's choice (notes/assumptions/8). -/
def Obligations.TableWordsDecode : Prop :=
  decodeTableWord 16 0x290 = some .cmdReadId ∧ decodeTableWord 16 0x230 = some .cmdReadConfirm ∧
  decodeTableWord 16 0x2D0 = some .cmdEraseConfirm ∧ decodeTableWord 16 0x100 = some .idAddr ∧
  decodeTableWord 16 0x1C0 = some (.addr 0xC0#8) ∧ decodeTableWord 16 0x0A5 = some (.dataW 0xA5#8) ∧
  decodeTableWord 16 0x4E1 = some (.dataR 0xE1#8) ∧ decodeTableWord 16 0x300 = none

/-- The row bytes of a page index, and which indices put the same bytes on the bus. -/
def Obligations.PageIndexOnTheBus : Prop :=
  (∀ p, (rowBytes p).map BitVec.toNat = [p % 256, p / 256 % 256, p / 65536 % 256]) ∧
  (∀ p, pageAddr p = [0x00#8, 0x00#8] ++ rowBytes p) ∧
  ∀ p j, pageAddr (p + 2 ^ 24 * j) = pageAddr p

/-- A block's row bytes are those of page b * 64; its low 6 row bits are 0; blocks 2^18 apart share them. -/
def Obligations.BlockIndexOnTheBus : Prop :=
  (∀ b, blockAddr b = rowBytes (b * 64) ∧
    (blockAddr b).map BitVec.toNat = [b * 64 % 256, b * 64 / 256 % 256, b * 64 / 65536 % 256]) ∧
  (∀ b, ∃ lo mid hi : Byte, blockAddr b = [lo, mid, hi] ∧ lo.toNat % 64 = 0) ∧
  ∀ b j, blockAddr (b + 2 ^ 18 * j) = blockAddr b

/-- The command lines that pass checks 1 to 3 of Validate, and what each stands for; and the tokens that are numbers: one or
more of the digits 0 to 9 and nothing else, read in base ten. That leading zeros are among them is the model's choice
(notes/assumptions/11). -/
def Obligations.AcceptedCommandLines : Prop :=
  (∀ (t : Token) (n : Nat), parseDecimal t = some n ↔
    ∃ ds : List Nat, ds ≠ [] ∧ (∀ d ∈ ds, d < 10) ∧ t = ds.map (fun d => Char.ofNat (48 + d)) ∧
      n = Nat.ofDigits 10 ds.reverse) ∧
  ∀ (line : List Token) (i : Instr), decodeCommand line = .ok i ↔
    ∃ td d, parseDecimal td = some d ∧
      ((line = [td, verbToken .readId] ∧ i = .readIdCmd d) ∨
       ∃ tf f tc c, parseDecimal tf = some f ∧ parseDecimal tc = some c ∧
        ((∃ path, line = [td, verbToken .readFull, tf, tc, path] ∧ i = .readFull d f c path) ∨
         (∃ path, line = [td, verbToken .readData, tf, tc, path] ∧ i = .readData d f c path) ∨
         (∃ path, line = [td, verbToken .writeFull, tf, tc, path] ∧ i = .writeFull d f c path) ∨
         (line = [td, verbToken .eraseBlocks, tf, tc] ∧ i = .eraseBlocks d f c)))

/-! ## Bus cycles (40_bus_cycles, 41_transactions R170 to R179) -/

/-- Each command cycle is Cmd of its byte, and changes nothing else. -/
def Obligations.CommandCyclesSendTheirByte : Prop :=
  ∀ s : State, Ready s →
    exec .cmdReadId s = .next (afterCmd 0x90#8 s) ∧ exec .cmdReadSetup s = .next (afterCmd 0x00#8 s) ∧
    exec .cmdReadConfirm s = .next (afterCmd 0x30#8 s) ∧ exec .cmdProgSetup s = .next (afterCmd 0x80#8 s) ∧
    exec .cmdProgConfirm s = .next (afterCmd 0x10#8 s) ∧ exec .cmdEraseSetup s = .next (afterCmd 0x60#8 s) ∧
    exec .cmdEraseConfirm s = .next (afterCmd 0xD0#8 s) ∧ exec .cmdReadStatus s = .next (afterCmd 0x70#8 s)

/-- An address cycle is Addr of its byte, ID_ADDR's byte being 0x00, and a data-write cycle drives and strobes its byte;
neither changes anything else. That a cycle on its own is its phase with one byte, ALE asserted and released around it, is
the model's reading (notes/assumptions/8); inside a transaction ALE stays asserted across all address bytes. -/
def Obligations.AddressAndDataCyclesSendTheirByte : Prop :=
  ∀ (s : State) (a d : Byte), Ready s →
    exec (.addr a) s = .next (afterAddr a s) ∧ exec .idAddr s = .next (afterAddr 0x00#8 s) ∧
    exec (.dataW d) s = .next (afterDataW d s)

/-- A data-read cycle samples the byte the chip drives into DIN. -/
def Obligations.DataReadCycleSamplesItsByte : Prop :=
  ∀ (s : State) (d : Byte), Ready s → exec (.dataR d) s = .next (afterDataR d s)

/-- The frame of every bus cycle, interrupted or not: nothing but the lines, DIN, the traces, the countdowns, and with an
interrupt OUTCOME and PC changes, and DIN only in a data-read cycle. -/
def Obligations.BusCyclesKeepTheRest : Prop :=
  ∀ (i : Instr) (s t : State), (encodeWord i).isSome = true → exec i s = .next t →
    CycleFrame s t ∧ ((∀ d, i ≠ .dataR d) → t.din = s.din ∧ t.written = s.written) ∧
    (t.outcome = s.outcome ∨ t.outcome = .aborted)

/-- The model stops with BusContention: where a phase would leave the engine driving DQ while RE# is 0, would turn the bus
while WE# or RE# is 0, or runs while the chip drives DQ outside its read strobes; at any statement, be it a pin event or not,
that the chip's drive precedes; and at any step from a state in which the engine drives DQ while RE# is 0 or the chip does
while RE# is 1, whatever PC names and also once the run has ended. When the chip drives is an input of the model; and that no
state is contended while PC is S0, S1 or S2 and the engine has not set RE# to 1 in this invocation, the lines being
unspecified there (10_state R47), and that a step from a contended state is the fault although a host interrupt is due, are
the model's choices (notes/assumptions/17). -/
def Obligations.ContentionIsAFault : Prop :=
  (∀ s : State, s.pc ∉ [[.s0], [.lab .s1], [.lab .s2]] ∨ PinEvent.setHigh .re ∈ s.pinLog →
    (s.lines.dqDir = .out ∧ s.lines.re = false → step s = .fault .busContention) ∧
    (s.driveIn = some 0 → s.lines.re = true → step s = .fault .busContention ∧
      ∀ (e : Prim × List Pos) (row : Row), s.outcome = .running → s.interruptIn = none →
        runRow (e :: row) s = .fault .busContention)) ∧
  ∀ s : State, s.outcome = .running → s.interruptIn = none →
    (s.lines.re = false →
      (∀ i : Instr, (encodeWord i).isSome = true → (∀ d, i ≠ .dataR d) → exec i s = .fault .busContention) ∧
      (∀ d, s.lines.dqDir = .out → exec (.dataR d) s = .fault .busContention)) ∧
    (s.lines.we = false →
      (∀ i : Instr, (encodeWord i).isSome = true → (∀ d, i ≠ .dataR d) → s.lines.dqDir = .inp →
        exec i s = .fault .busContention) ∧
      (∀ d, s.lines.dqDir = .out → exec (.dataR d) s = .fault .busContention)) ∧
    (s.driveIn = some 0 → ∀ i : Instr, (encodeWord i).isSome = true → exec i s = .fault .busContention)

/-! ## Transactions (41_transactions R180 to R195, 70_reset_and_hazards R321) -/

/-- readId samples the 5 bytes the chip drives into ID_RD. -/
def Obligations.ReadIdSamplesFiveBytes : Prop :=
  ∀ s : State, Ready s →
    exec .readId s =
      .next (afterReadId (drawBytes ID_LEN s.env).1 { s with env := (drawBytes ID_LEN s.env).2 })

/-- readPage(p, X): the cycles up to the read-confirm, then the wait; a wait that reads ready is followed by the page the
chip drives, all of it in X; one that reaches BUSY_LIMIT raises BusyTimeout with no data cycle and X unwritten; one whose
every sample reads busy leaves PC in the wait's loop, which is the model's way of a hang (notes/assumptions/12). Indices 2^24
apart do the same. -/
def Obligations.ReadPageFillsItsBuffer : Prop :=
  ∀ (s : State) (p : Nat) (x : Buf), Ready s →
    ((drawWait s.cfg.busyLimit s.env).fin = .ready → exec (.readPage p x) s =
      .next (afterReadPage p x (drawWait s.cfg.busyLimit s.env).busy
        (drawBytes PAGE_SIZE (drawWait s.cfg.busyLimit s.env).env).1
        { s with env := (drawBytes PAGE_SIZE (drawWait s.cfg.busyLimit s.env).env).2 })) ∧
    ((drawWait s.cfg.busyLimit s.env).fin = .timeout → exec (.readPage p x) s =
      .next (afterReadPageTimeout p (drawWait s.cfg.busyLimit s.env).busy
        { s with env := (drawWait s.cfg.busyLimit s.env).env })) ∧
    ((drawWait s.cfg.busyLimit s.env).fin = .forever → exec (.readPage p x) s =
      .next (inReadPageWait p (drawWait s.cfg.busyLimit s.env).busy
        { s with env := (drawWait s.cfg.busyLimit s.env).env })) ∧
    ∀ j, exec (.readPage (p + 2 ^ 24 * j) x) s = exec (.readPage p x) s

/-- A wait whose every sample reads busy, with BUSY_LIMIT = none: each step polls once more and stays in the loop. The
engine hangs; it neither stops nor faults. -/
def Obligations.EndlessWaitPollsForEver : Prop :=
  ∀ (s : State) (rest : List Pos) (n : Nat), Ready s → s.cfg.busyLimit = none → s.placed = none →
    s.pc = .stmt .waitReady 1 0 :: rest →
    Host.Core.run Sys2Proof.core n s =
      .next { s with polls := s.polls + n, pinLog := (busyEvents n).reverse ++ s.pinLog }

/-- The bytes of a page buffer after a whole page is written to it: byte i is the (i + 1)-th byte strobed, and the other
buffer is untouched. -/
def Obligations.PageReadIsReadBack : Prop :=
  ∀ (s t : State) (p : Nat) (x : Buf), Ready s → s.bufA.wf = true → s.bufB.wf = true →
    (drawWait s.cfg.busyLimit s.env).fin = .ready → exec (.readPage p x) s = .next t →
    (∀ a, a < PAGE_SIZE → Memory.read (t.buf x) a =
      ((drawBytes PAGE_SIZE (drawWait s.cfg.busyLimit s.env).env).1).getD a 0x00#8) ∧
    (∀ a, PAGE_SIZE ≤ a → Memory.read (t.buf x) a = Memory.read (s.buf x) a) ∧
    ∀ y, y ≠ x → ∀ a, Memory.read (t.buf y) a = Memory.read (s.buf y) a

/-- writePage sends BUF_A whole, from column 0, and changes no register: the (i + 1)-th data cycle carries byte i. -/
def Obligations.WritePageSendsBufA : Prop :=
  ∀ (s : State) (p : Nat), Ready s → exec (.writePage p) s = .next (afterWritePage p s) ∧
    s.bufA.page.length = 2112 ∧ (pageAddr p).take 2 = [0x00#8, 0x00#8] ∧
    ∀ i, i < 2112 → (writePageWords p s.bufA.page)[6 + i]? = some (writeWord (Memory.read s.bufA i))

/-- eraseBlock sends its 5 cycles and changes no register; block indices 2^18 apart do the same. -/
def Obligations.EraseBlockSendsFiveCycles : Prop :=
  ∀ (s : State) (b : Nat), Ready s → exec (.eraseBlock b) s = .next (afterEraseBlock b s) ∧
    ∀ j, exec (.eraseBlock (b + 2 ^ 18 * j)) s = exec (.eraseBlock b) s

/-- readStatus samples the status byte; FAIL is its bit 0 and no other bit matters. -/
def Obligations.ReadStatusSamplesOneByte : Prop :=
  ∀ s : State, Ready s →
    exec .readStatus s = .next (afterReadStatus (drawByte s.env).1 { s with env := (drawByte s.env).2 }) ∧
    (afterReadStatus (drawByte s.env).1 { s with env := (drawByte s.env).2 }).fail = (drawByte s.env).1.getLsbD 0

/-- The pin-event counts of the transactions from DQDIR = IN and from DQDIR = OUT. -/
def Obligations.TransactionPinEventCounts : Prop :=
  ∀ (s : State) (p : Nat) (x : Buf), Ready s →
    (∃ t, exec .readId s = .next t ∧
      t.events.length = s.events.length + if s.lines.dqDir = .inp then 112 else 103) ∧
    ((drawWait s.cfg.busyLimit s.env).fin = .ready → ∃ t, exec (.readPage p x) s = .next t ∧
      t.events.length = s.events.length + (if s.lines.dqDir = .inp then 25465 else 25456) +
        (2 * (drawWait s.cfg.busyLimit s.env).busy + 1)) ∧
    (∃ t, exec (.writePage p) s = .next t ∧
      t.events.length = s.events.length + if s.lines.dqDir = .inp then 27568 else 27559) ∧
    (∃ t, exec (.eraseBlock p) s = .next t ∧
      t.events.length = s.events.length + if s.lines.dqDir = .inp then 86 else 77) ∧
    (∃ t, exec .readStatus s = .next t ∧
      t.events.length = s.events.length + if s.lines.dqDir = .inp then 47 else 38)

/-- WaitReady returns at the first sample that reads ready, if fewer busy ones than BUSY_LIMIT came before it; POLLS counts
the busy ones. -/
def Obligations.WaitReadyReturnsWhenReady : Prop :=
  ∀ (s : State) (k : Nat) (rest : List Bool), Ready s → s.env.rb = List.replicate k false ++ true :: rest →
    (∀ n, s.cfg.busyLimit = some n → k = 0 ∨ k < n) →
    runWaitReady s =
      .next { s with polls := k, env := { s.env with rb := rest },
                     pinLog := (busyEvents k ++ [PinEvent.readLevel .rb true]).reverse ++ s.pinLog }

/-- With BUSY_LIMIT = some n (n ≥ 1), n busy samples in a row raise BusyTimeout, with no Pause after the last, PC at the
statement that raised it. -/
def Obligations.WaitReadyTimesOut : Prop :=
  ∀ (s : State) (n : Nat) (rest : List Bool), Ready s → s.cfg.busyLimit = some (n + 1) →
    s.env.rb = List.replicate (n + 1) false ++ rest →
    runWaitReady s =
      .next { s with polls := n + 1, env := { s.env with rb := rest }, outcome := .fatal .busyTimeout,
                     info := .polls (n + 1), reports := s.reports ++ [.fault 5],
                     pc := .stmt .waitReady 3 0 :: s.pc,
                     pinLog := (busyEvents n ++ [PinEvent.readLevel .rb false]).reverse ++ s.pinLog }

/-! ## Host commands (42_operations R210 to R219) -/

/-- Each host command starts one invocation, loads its arguments and leaves PC at S1; its count is at least 1 where it
takes one. The model's choices in what is loaded: FIRST and COUNT 0 and an empty path for read_id, INCLUDE_SPARE 0 for
read_id, write_full and erase_blocks (notes/assumptions/1); the traces and SINK empty (notes/assumptions/14); the lines a
free value (notes/assumptions/9); the input file kept (notes/assumptions/18). -/
def Obligations.HostCommandsStartAnInvocation : Prop :=
  ∀ (s : State) (d f c : Nat) (path : Token), Undisturbed s →
    (∃ t, exec (.readIdCmd d) s = .next t ∧ Started s .readId d 0 0 false [] t) ∧
    (1 ≤ c →
      (∃ t, exec (.readFull d f c path) s = .next t ∧ Started s .readFull d f c true path t) ∧
      (∃ t, exec (.readData d f c path) s = .next t ∧ Started s .readData d f c false path t) ∧
      (∃ t, exec (.writeFull d f c path) s = .next t ∧ Started s .writeFull d f c false path t) ∧
      (∃ t, exec (.eraseBlocks d f c) s = .next t ∧ Started s .eraseBlocks d f c false [] t))

/-- A check that fails is a UsageError: a command line that fails check 1, 2 or 3, and a count of 0. The model's choices: the
lines are those the invocation finds, a free value (notes/assumptions/9), SINK and the traces are empty
(notes/assumptions/14), and a line is taken at S0 or once a run has ended (notes/assumptions/7). -/
def Obligations.FailedChecksAreUsageErrors : Prop :=
  (∀ (s : State) (line : List Token) (rest : List (List Token)) (r : Reject), s.interruptIn = none →
    s.contends = false → s.outcome ≠ .running ∨ (s.pc = [.s0] ∧ s.placed = none) → s.commands = line :: rest →
    decodeCommand line = .error r →
    ∃ t, step s = .next t ∧ UsageFault s t ∧ t.commands = rest) ∧
  ∀ (s : State) (d f : Nat) (path : Token) (i : Instr), s.interruptIn = none →
    i ∈ [Instr.readFull d f 0 path, .readData d f 0 path, .writeFull d f 0 path, .eraseBlocks d f 0] →
    ∃ t, exec i s = .next t ∧ UsageFault s t

/-- A STEP RUNS THE DECODED INSTRUCTION, in a state that keeps 10_state R25: the cycle that a placed word decodes to, the
word taken; and, at S0 or once a run has ended, what the next command line decodes to, the line taken. The NBPE itself
fetches nothing: the placed word and the queue of command lines, which an ended run goes on to, are the model's choice
(notes/assumptions/7). -/
def Obligations.StepRunsTheDecodedInstruction : Prop :=
  (∀ (s : State) (w : Nat) (i : Instr), s.outcome = .running → s.contends = false → s.placed = some w →
    decodeNat w = .ok i → step s = exec i { s with placed := none }) ∧
  ∀ (s : State) (line : List Token) (rest : List (List Token)) (i : Instr), s.contends = false →
    s.outcome ≠ .running ∨ (s.pc = [.s0] ∧ s.placed = none) → s.commands = line :: rest → decodeCommand line = .ok i →
    step s = exec i { s with commands := rest }

/-- The sequencer's transaction statements execute their transaction and, once it has returned, go to the next label, which
is one primitive more; a transaction that the run's end stops leaves PC inside it. That before that primitive a due interrupt
is taken also where the chip contends, and that the contention stops the step otherwise, is the model's choice of an order
(notes/assumptions/17). -/
def Obligations.StepRunsTheTransactions : Prop :=
  ∀ (s : State) (rest : List Pos),
    (At .i2 rest s → StepCalls s (exec .readId s) .i3 rest) ∧
    (At .p4 rest s → StepCalls s (exec (.readPage (s.first + s.k) .a) s) .p5 rest) ∧
    (At .p5 rest s → StepCalls s (exec (.readPage (s.first + s.k) .b) s) .p6 rest) ∧
    (At .w5 rest s → StepCalls s (exec (.writePage (s.first + s.k)) s) .w6 rest) ∧
    (At .e4 rest s → StepCalls s (exec (.eraseBlock (s.first + s.k)) s) .e5 rest)

/-- S1: a read opens SINK empty and bad.log, a write opens its input, the others nothing; an open that fails is a
HostIoError. That the output is opened first, and is empty already where only bad.log fails to open, is the model's reading
(notes/assumptions/14). -/
def Obligations.OpenStreamsByCommand : Prop :=
  ∀ (s : State) (rest : List Pos), At .s1 rest s → Undisturbed s →
    (s.cmd = .readId ∨ s.cmd = .eraseBlocks → step s = .next { s with pc := .lab .s2 :: rest }) ∧
    (s.cmd = .writeFull →
      ((drawIo s.env).1 = true → step s = .next { s with pc := .lab .s2 :: rest, env := (drawIo s.env).2 }) ∧
      ((drawIo s.env).1 = false → ∃ text,
        step s = .next (afterHostIoError text { s with env := (drawIo s.env).2 }))) ∧
    (s.cmd = .readFull ∨ s.cmd = .readData →
      ((drawIo s.env).1 = false → ∃ text,
        step s = .next (afterHostIoError text { s with env := (drawIo s.env).2 })) ∧
      ((drawIo s.env).1 = true → (drawIo (drawIo s.env).2).1 = false → ∃ text,
        step s = .next (afterHostIoError text { s with env := (drawIo (drawIo s.env).2).2, sink := [] })) ∧
      ((drawIo s.env).1 = true → (drawIo (drawIo s.env).2).1 = true →
        step s = .next { s with pc := .lab .s2 :: rest, env := (drawIo (drawIo s.env).2).2, sink := [] }))

/-- S2: from any lines whatever, InitLines performs its 21 pin events in order, leaves the lines at rest with DQDIR = IN, and
sends no bus cycle. -/
def Obligations.InitLinesFromAnyLines : Prop :=
  ∀ (s : State) (rest : List Pos), At .s2 rest s → Undisturbed s →
    ∃ ls, step s = .next { s with pc := .lab .s3 :: rest, lines := ls, pinLog := initEvents.reverse ++ s.pinLog } ∧
      ls.atRest = true ∧ ls.dqDir = .inp ∧ ls.dq = s.lines.dq

/-- S3: one sample of R/B#; busy is PowerOrWiringFault, ready goes on; no other statement raises that fault. -/
def Obligations.ReadyCheckAtRest : Prop :=
  (∀ (s : State) (rest : List Pos), Ready s → At .s3 rest s →
    ((drawLevel s.env).1 = true → step s =
      .next { s with pc := .lab .s4 :: rest, env := (drawLevel s.env).2, pinLog := .readLevel .rb true :: s.pinLog }) ∧
    ((drawLevel s.env).1 = false → ∃ t, step s = .next t ∧ exitCode t = some (-1) ∧ t =
      afterRaise .powerOrWiringFault .none 2
        { s with env := (drawLevel s.env).2, pinLog := .readLevel .rb false :: s.pinLog })) ∧
  ∀ s t : State, s.outcome = .running → step s = .next t → t.outcome = .fatal .powerOrWiringFault →
    ∃ rest, s.pc = .lab .s3 :: rest

/-- S4: readId, and then an all-identical readout is DeviceAbsentOrMiswired; any other is cached and reported. That the
recorded ID_RD stands in `info`, REPORTS getting the Fault event alone, is the model's reading (notes/assumptions/13). -/
def Obligations.CaptureIdOrFault : Prop :=
  ∀ (s : State) (rest : List Pos), Ready s → At .s4 rest s →
    ∃ t, exec .readId s = .next t ∧
      (idSame t.idRd = true → step s = .next (afterRaise .deviceAbsentOrMiswired (.deviceId t.idRd) 3 t)) ∧
      (idSame t.idRd = false → step s =
        .next { t with pc := .lab .s5 :: rest, idCache := t.idRd, idValid := true,
                       reports := t.reports ++ [.id t.idRd] })

/-- An ID is invalid when all 5 bytes are identical, and only then; DRIFT is that ID_RD and ID_CACHE differ at some
position. -/
def Obligations.IdValidityAndEquality : Prop :=
  (∀ x : DevId, idSame x = true ↔ ∃ b, x.bytes = [b, b, b, b, b]) ∧
  ∀ s : State, s.drift = false ↔ ∀ j, j < 5 → s.idRd.bytes.getD j 0x00#8 = s.idCache.bytes.getD j 0x00#8

/-- S5: no gate for read_id; for the others Continue goes on and Abort ends the run, no fault reported. -/
def Obligations.GateBeforeRangeCommands : Prop :=
  ∀ (s : State) (rest : List Pos), At .s5 rest s → Undisturbed s →
    (s.cmd = .readId → step s = .next { s with pc := .lab .s6 :: rest }) ∧
    (s.cmd ≠ .readId → (drawGate s.env).1 = true → step s =
      .next { s with pc := .lab .s6 :: rest, env := (drawGate s.env).2 }) ∧
    (s.cmd ≠ .readId → (drawGate s.env).1 = false → step s =
      .next { s with env := (drawGate s.env).2, outcome := .aborted })

/-! ## The retry engine (42_operations R220 to R256) -/

/-- I3: a drift reads the ID again, with no counter, log or report changed; no drift returns. -/
def Obligations.DriftRestartsUncounted : Prop :=
  ∀ (s : State) (rest : List Pos), At .i3 rest s → Undisturbed s →
    (s.idRd ≠ s.idCache → step s = .next { s with pc := .lab .i1 :: rest }) ∧
    (s.idRd = s.idCache → step s = .next { s with pc := rest })

/-- P6: a page whose two reads agree in every byte, spare area included, is accepted with nothing counted, logged or
reported; one that differs somewhere goes to P7. -/
def Obligations.MatchAcceptsThePage : Prop :=
  ∀ (s : State) (rest : List Pos), At .p6 rest s → Undisturbed s →
    ((∀ a, a < 2112 → Memory.read s.bufA a = Memory.read s.bufB a) → step s = .next { s with pc := .lab .p8 :: rest }) ∧
    ((∃ a, a < 2112 ∧ Memory.read s.bufA a ≠ Memory.read s.bufB a) → step s = .next { s with pc := .lab .p7 :: rest })

/-- P7 with RETRY below 5: one more retry, reported; then the attempt starts with IdCheck. That PC keeps P4, the label IdCheck
returns to, is the model's choice (notes/assumptions/20). -/
def Obligations.MismatchIsRetried : Prop :=
  ∀ (s : State) (rest : List Pos), At .p7 rest s → Undisturbed s → s.retry < 5 →
    Host.Core.run Sys2Proof.core 3 s =
      .next { s with pc := .lab .i1 :: .lab .p4 :: rest, retry := s.retry + 1,
                     reports := s.reports ++ [.retry .read (s.first + s.k) (s.retry + 1)] }

/-- P7 with RETRY = 5: the page is logged in BAD_LOG and bad.log and given up, and the operation goes on to the append. The
line of bad.log is the page's decimal digits, no leading zero, and a line feed. BAD_LOG grows nowhere else, and the page is
not returned to P7: P8 and P9 follow. That K's increment is part of P9 is the model's choice (notes/assumptions/20). That a
write to bad.log that fails logs nothing and reports no GiveUp is the model's reading (notes/assumptions/14). -/
def Obligations.ExhaustedPageIsLogged : Prop :=
  (∀ p, badLine p = (decimal p).map (fun d => BitVec.ofNat 8 (48 + d)) ++ [0x0A#8]) ∧
  (∀ (s t : State) (l : Label) (rest : List Pos), At l rest s → step s = .next t →
    t.badLog ≠ s.badLog → l = .p7 ∧ t.badLog = s.badLog ++ [s.first + s.k] ∧
      (t.outcome = .running → t.pc = .lab .p8 :: rest)) ∧
  (∀ (s t : State) (rest : List Pos), At .p8 rest s → step s = .next t → t.outcome = .running →
    t.pc = .lab .p9 :: rest) ∧
  (∀ (s t : State) (rest : List Pos), At .p9 rest s → step s = .next t → t.outcome = .running →
    t.pc = .lab .p1 :: rest ∧ t.k = s.k + 1) ∧
  ∀ (s : State) (rest : List Pos), At .p7 rest s → Undisturbed s → s.retry = 5 →
    ((drawIo s.env).1 = true → step s =
      .next { s with pc := .lab .p8 :: rest, env := (drawIo s.env).2, badLog := s.badLog ++ [s.first + s.k],
                     badFile := s.badFile ++ badLine (s.first + s.k),
                     reports := s.reports ++ [.giveUp .read (s.first + s.k)] }) ∧
    ((drawIo s.env).1 = false → ∃ text,
      step s = .next (afterHostIoError text { s with env := (drawIo s.env).2 }))

/-- P8: one record is appended, the first 2112 or 2048 bytes of BUF_A; an append that fails leaves the record out of SINK
(42_operations R256). -/
def Obligations.OneRecordIsAppended : Prop :=
  ∀ (s : State) (rest : List Pos), At .p8 rest s → Undisturbed s →
    ((drawIo s.env).1 = true → ∃ bytes, step s =
      .next { s with pc := .lab .p9 :: rest, env := (drawIo s.env).2, sink := s.sink ++ bytes } ∧
      bytes.length = (if s.includeSpare then 2112 else 2048) ∧
      ∀ a, a < bytes.length → bytes.getD a 0x00#8 = Memory.read s.bufA a) ∧
    ((drawIo s.env).1 = false → ∃ text,
      step s = .next (afterHostIoError text { s with env := (drawIo s.env).2 }))

/-- P9, W9, E8: progress with the truncated percentage, RETRY 0, the next unit. That K's increment is part of these
statements, and that PC goes to P1, W1, E1 also after the last unit, is the model's choice (notes/assumptions/20). -/
def Obligations.UnitEndsWithProgress : Prop :=
  ∀ (s : State) (rest : List Pos), Undisturbed s →
    (At .p9 rest s → step s =
      .next { s with pc := .lab .p1 :: rest, k := s.k + 1, retry := 0,
                     reports := s.reports ++
                       [.progress (s.first + s.k) ((s.first + s.k) / 64) ((s.k + 1) * 100 / s.count)] }) ∧
    (At .w9 rest s → step s =
      .next { s with pc := .lab .w1 :: rest, k := s.k + 1, retry := 0,
                     reports := s.reports ++
                       [.progress (s.first + s.k) ((s.first + s.k) / 64) ((s.k + 1) * 100 / s.count)] }) ∧
    (At .e8 rest s → step s =
      .next { s with pc := .lab .e1 :: rest, k := s.k + 1, retry := 0,
                     reports := s.reports ++
                       [.progress ((s.first + s.k) * 64) (s.first + s.k) ((s.k + 1) * 100 / s.count)] })

/-- RETRY is 0 at the start of each unit (P1, W2, E1) and after each unit (P9, W9, E8), whatever it was before; with
K = COUNT the operation returns. That K is tested at P1, W1 and E1 and incremented in P9, W9 and E8 is the model's choice
(notes/assumptions/20). -/
def Obligations.UnitsStartAndEndWithRetryZero : Prop :=
  ∀ (s : State) (rest : List Pos), Undisturbed s →
    (At .p1 rest s → s.k < s.count → step s = .next { s with pc := .lab .p2 :: rest, retry := 0 }) ∧
    (At .e1 rest s → s.k < s.count → step s = .next { s with pc := .lab .e2 :: rest, retry := 0 }) ∧
    (∀ t r, At .w2 rest s → s.record = some r → r.length = 2112 → step s = .next t →
      t.pc = .lab .w3 :: rest ∧ t.retry = 0) ∧
    (∀ l, l ∈ [Label.p9, .w9, .e8] → At l rest s → ∃ t, step s = .next t ∧ t.retry = 0 ∧ t.k = s.k + 1) ∧
    (∀ l, l ∈ [Label.p1, .w1, .e1] → At l rest s → ¬s.k < s.count → step s = .next { s with pc := rest })

/-- After writePage (W5) or eraseBlock (E4), WaitReady, then readStatus; FAIL = 0 passes the unit (W9, E8), and FAIL = 1 is
a ProgramOrEraseStatusError, which goes to W8 or E7 and is retried while RETRY is below 5. That the condition is a function
of the state and of the label that finds it is the model's form (notes/assumptions/13). The clauses of `StepCalls` for a due
interrupt and for a chip that contends, whose order is the model's choice (notes/assumptions/17), do not arise from a state
that is `Ready`. -/
def Obligations.StatusDecidesTheAttempt : Prop :=
  ∀ (s : State) (rest : List Pos), Ready s →
    (At .w5 rest s → StepCalls s (exec (.writePage (s.first + s.k)) s) .w6 rest) ∧
    (At .e4 rest s → StepCalls s (exec (.eraseBlock (s.first + s.k)) s) .e5 rest) ∧
    (At .w6 rest s → StepCalls s (runWaitReady s) .w7 rest) ∧
    (At .e5 rest s → StepCalls s (runWaitReady s) .e6 rest) ∧
    (At .w8 rest s ∨ At .e7 rest s → s.retry < 5 → ∃ t, step s = .next t ∧ t.retry = s.retry + 1) ∧
    (At .w7 rest s → ∃ t, exec .readStatus s = .next t ∧
      (conditionAt .w7 t = some .programOrEraseStatusError ↔ t.status.getLsbD 0 = true) ∧
      step s = .next { t with pc := .lab (if t.status.getLsbD 0 then .w8 else .w9) :: rest }) ∧
    (At .e6 rest s → ∃ t, exec .readStatus s = .next t ∧
      (conditionAt .e6 t = some .programOrEraseStatusError ↔ t.status.getLsbD 0 = true) ∧
      step s = .next { t with pc := .lab (if t.status.getLsbD 0 then .e7 else .e8) :: rest })

/-- W8, E7: a status error is retried while RETRY is below 5; at 5 the unit goes to FAIL_LOG and is given up; bad.log and
BUF_A are not written. -/
def Obligations.StatusErrorIsRetriedOrGivenUp : Prop :=
  ∀ (s : State) (rest : List Pos) (again done here : Label) (kind : Kind), Undisturbed s →
    (here = .w8 ∧ again = .w3 ∧ done = .w9 ∧ kind = .program) ∨ (here = .e7 ∧ again = .e2 ∧ done = .e8 ∧ kind = .erase) →
    At here rest s →
    (s.retry < 5 → step s =
      .next { s with pc := .lab again :: rest, retry := s.retry + 1,
                     reports := s.reports ++ [.retry kind (s.first + s.k) (s.retry + 1)] }) ∧
    (s.retry = 5 → step s =
      .next { s with pc := .lab done :: rest, failLog := s.failLog ++ [(kind, s.first + s.k)],
                     reports := s.reports ++ [.giveUp kind (s.first + s.k)] })

/-- The recovered conditions: their codes; which statement finds which, in which states; and that finding one ends no run:
an IdDrift goes back to I1, a ContentMismatch to P7, a status error to W8 or E7 (StatusDecidesTheAttempt), and UnitExhausted
is found instead of one more retry exactly when RETRY is 5. That a condition is a function of the state and of the label that
finds it, and is stored nowhere, is the model's form (notes/assumptions/13). -/
def Obligations.RecoveredConditions : Prop :=
  (Condition.idDrift.code = 0x10 ∧ Condition.contentMismatch.code = 0x11 ∧
    Condition.programOrEraseStatusError.code = 0x12 ∧ Condition.unitExhausted.code = 0x13) ∧
  (∀ (l : Label) (s : State) (c : Condition), conditionAt l s = some c ↔
    (c = .idDrift ∧ l = .i3 ∧ s.idRd ≠ s.idCache) ∨
    (c = .contentMismatch ∧ l = .p6 ∧ ∃ a, a < 2112 ∧ Memory.read s.bufA a ≠ Memory.read s.bufB a) ∨
    (c = .programOrEraseStatusError ∧ l ∈ [Label.w7, .e6] ∧ s.status.getLsbD 0 = true) ∨
    (c = .unitExhausted ∧ l ∈ [Label.p7, .w8, .e7] ∧ 5 ≤ s.retry)) ∧
  ∀ (s : State) (l : Label) (rest : List Pos), At l rest s → Undisturbed s →
    (conditionAt l s = some .idDrift → step s = .next { s with pc := .lab .i1 :: rest }) ∧
    (conditionAt l s = some .contentMismatch → step s = .next { s with pc := .lab .p7 :: rest }) ∧
    (l ∈ [Label.p7, .w8, .e7] → conditionAt l s = none → ∃ t, step s = .next t ∧ t.outcome = .running ∧
      t.retry = s.retry + 1 ∧ t.badLog = s.badLog ∧ t.failLog = s.failLog) ∧
    (l ∈ [Label.w8, .e7] → conditionAt l s = some .unitExhausted → ∃ t, step s = .next t ∧ t.outcome = .running ∧
      t.retry = s.retry ∧ t.failLog.length = s.failLog.length + 1)

/-- W1 and W2: the record of unit K is the PAGE_SIZE bytes of SOURCE from K * PAGE_SIZE and fills BUF_A; a short or failed
read is a HostIoError, with no bus event and BUF_A unwritten. That W1 reads under the test K < COUNT, the loop over units
having no label, is the model's choice (notes/assumptions/20). -/
def Obligations.SourceRecordFillsBufA : Prop :=
  ∀ (s : State) (rest : List Pos), At .w1 rest s → Undisturbed s → s.k < s.count →
    ((drawIo s.env).1 = true → (s.k + 1) * 2112 ≤ s.source.length →
      Host.Core.run Sys2Proof.core 2 s =
        .next { s with pc := .lab .w3 :: rest, env := (drawIo s.env).2, retry := 0,
                       record := some ((s.source.drop (s.k * 2112)).take 2112),
                       bufA := s.bufA.writeBytes 0 ((s.source.drop (s.k * 2112)).take 2112),
                       written := { s.written with bufA := true } }) ∧
    ((drawIo s.env).1 = true → s.source.length < (s.k + 1) * 2112 → ∃ text r,
      Host.Core.run Sys2Proof.core 2 s =
        .next (afterHostIoError text { s with pc := .lab .w2 :: rest, env := (drawIo s.env).2, record := some r })) ∧
    ((drawIo s.env).1 = false → ∃ text,
      Host.Core.run Sys2Proof.core 2 s =
        .next (afterHostIoError text { s with pc := .lab .w2 :: rest, env := (drawIo s.env).2, record := none }))

/-- The attempts of writes and erases begin with IdCheck, those of reads from the first retry on; IdCheck returns to the
transaction. That PC keeps for the caller the label returned to is the model's choice (notes/assumptions/20). -/
def Obligations.AttemptsCheckTheId : Prop :=
  ∀ (s : State) (rest : List Pos), Undisturbed s →
    (At .w4 rest s → step s = .next { s with pc := .lab .i1 :: .lab .w5 :: rest }) ∧
    (At .e3 rest s → step s = .next { s with pc := .lab .i1 :: .lab .e4 :: rest }) ∧
    (At .p3 rest s → 1 ≤ s.retry → step s = .next { s with pc := .lab .i1 :: .lab .p4 :: rest }) ∧
    (At .p3 rest s → s.retry = 0 → step s = .next { s with pc := .lab .p4 :: rest })

/-! ## Faults and interrupts (60_exceptions) -/

/-- A fatal fault reports its code, ends the run with exit code -1 and changes nothing else; no statement after it begins,
and the codes are those of the fault table. -/
def Obligations.FatalFaultEndsTheRun : Prop :=
  (∀ (s : State) (f : FatalFault) (info : FaultInfo) (ps : List Prim), s.outcome = .running → Undisturbed s →
    runPrims (.raise f info :: ps) s = .next (afterRaise f info f.code s) ∧
    exitCode (afterRaise f info f.code s) = some (-1)) ∧
  FatalFault.usageError.code = 1 ∧ FatalFault.powerOrWiringFault.code = 2 ∧ FatalFault.deviceAbsentOrMiswired.code = 3 ∧
  FatalFault.hostIoError.code = 4 ∧ FatalFault.busyTimeout.code = 5

/-- A host interrupt before the (n + 1)-th primitive of a row stops it there: what the first n did stands, every line keeps
its level, OUTCOME is Aborted, and PC is at the statement that primitive is part of. A step takes a due interrupt at any PC
of a run that goes on, at a label whatever it does, in a wait's loop or with nothing to do: nothing but OUTCOME changes, PC
staying or going to the first statement called; and with a command line to take, its invocation is aborted at S0 with no pin
event. In a data phase the statement carries the byte index: DataOut's bytes take 13 primitives each, and so do DataIn's.
The countdown `interruptIn`, that a step takes its first primitive's answers before it, that a due interrupt goes to the
invocation a command line starts, and that S0's writes and `pc <- S1` are one primitive, are the model's choices
(notes/assumptions/5). Where an interrupt is due and the state breaks 10_state R25, the spec gives no order and the model
chooses (notes/assumptions/17): inside a row, in the first clause, the interrupt is taken first, and at the start of a step
the contention is, so that the clauses about steps exclude such a state. -/
def Obligations.InterruptStopsBetweenPrimitives : Prop :=
  (∀ (row : Row) (s t : State) (n : Nat) (h : n < row.length),
    runRow (row.take n) { s with interruptIn := none } = .next t → t.outcome = .running →
    runRow row { s with interruptIn := some n } = .next { t with outcome := .aborted, pc := row[n].2 ++ t.pc }) ∧
  (∀ s : State, s.outcome = .running → s.placed = none → s.contends = false → s.interruptIn = some 0 →
    (s.pc.head? = some .s0 → s.commands = []) → ∃ (inner : List Pos) (env : Env),
      step s = .next { s with outcome := .aborted, interruptIn := none, env := env, pc := inner ++ s.pc } ∧
      ∀ q ∈ inner, q.isStmt = true) ∧
  (∀ (s : State) (line : List Token) (rest : List (List Token)), s.outcome = .running → s.placed = none →
    s.contends = false → s.interruptIn = some 0 → s.pc = [.s0] → s.commands = line :: rest →
    ∃ t, step s = .next t ∧ t.outcome = .aborted ∧ t.interruptIn = none ∧ t.pc = [.s0] ∧ t.pinLog = [] ∧ t.reports = [] ∧
      t.badFile = s.badFile ∧ t.commands = rest) ∧
  (∀ (ds : List Byte) (i j : Nat), i < ds.length → j < 13 →
    ((dataOutPhase .out ds)[13 * i + j]?).map (·.2) = some
      (if j < 8 then [.stmt .driveByte 0 j, .stmt .dataOut 1 i]
       else if j = 8 then [.stmt .driveByte 1 0, .stmt .dataOut 1 i]
       else [.stmt .weStrobe (j - 9) 0, .stmt .dataOut 2 i])) ∧
  ∀ (vs : List Byte) (i j : Nat), i < vs.length → j < 13 →
    ((dataInPhase .inp vs)[13 * i + j]?).map (·.2) = some
      (if j < 2 then [.stmt .dataIn1 j 0, .stmt .dataIn 1 i]
       else if j < 10 then [.stmt .dataIn1 3 (j - 2), .stmt .dataIn 1 i]
       else [.stmt .dataIn1 (j - 6) 0, .stmt .dataIn 1 i])

/-- Once OUTCOME has left Running nothing changes: no bus cycle and no transaction has an event or writes a register, and
with no command line to take a step changes nothing at all, the state keeping 10_state R25. -/
def Obligations.EndedRunDoesNothing : Prop :=
  ∀ s : State, s.outcome ≠ .running →
    (∀ (i : Instr) (t : State), encodeCommand i = none → exec i s = .next t → t = { s with env := t.env }) ∧
    (∀ i : Instr, encodeCommand i = none → ∃ t, exec i s = .next t) ∧
    (s.commands = [] → s.contends = false → step s = .next s)

/-! ## Invariants -/

/-- The invariant holds at reset. Some clauses hold there by the model's choice: the page buffers list nothing
(notes/assumptions/1 and 4), WritePages' local `r` is none (notes/assumptions/1), and the configuration is the named PIN_MAP,
CTL_MAP and CHIP_PAGES, which 10_state R27 and 00_scope R9 allow but do not give (notes/assumptions/6). -/
def Obligations.InvariantAtReset : Prop := Inv State.reset

/-- Every step keeps the invariant, from every state that has it. Its clauses about K at a label, and the bounds that count
by K, use the model's places for K's test and increment (notes/assumptions/20). -/
def Obligations.StepKeepsTheInvariant : Prop := ∀ s t : State, Inv s → step s = .next t → Inv t

/-- From a state with the invariant, the chip driving DQ in its read strobes only (10_state R25), no step ends in a fault of
the model: no bus contention and no access outside a page buffer is ever reached. -/
def Obligations.NoBusContentionIsReached : Prop :=
  ∀ (s : State) (f : Fault), Inv s → s.driveIn = none → step s ≠ .fault f

/-- Wherever a phase or a transaction is interrupted, the latches and strobes are exclusive and the bus is not contended:
this holds after every primitive of it. -/
def Obligations.LinesStayExclusive : Prop :=
  ∀ (i : Instr) (s t : State), encodeCommand i = none → s.outcome = .running → s.lines.atRest = true →
    exec i s = .next t → t.lines.exclusive = true

/-- The page buffers keep their canonical form, whatever else the state is. -/
def Obligations.StepKeepsMemoryCanonical : Prop :=
  ∀ s t : State, s.bufA.wf = true → s.bufB.wf = true → step s = .next t → t.bufA.wf = true ∧ t.bufB.wf = true

/-- No step changes the configuration or the input file, and bad.log only grows; and in a configuration of R27 each line has
a pin of its own and BUSY_LIMIT is none or at least 1. -/
def Obligations.ConfigurationAndFilesAreKept : Prop :=
  (∀ s t : State, step s = .next t → t.cfg = s.cfg ∧ t.source = s.source ∧ s.badFile <+: t.badFile) ∧
  ∀ c : Cfg, c.wf = true →
    (∀ l m : Line, c.pinOf l = c.pinOf m → l = m) ∧ (∀ n, c.busyLimit = some n → 1 ≤ n) ∧ c.chipPages ≤ 2 ^ 24

/-- Within an invocation only S4 writes ID_CACHE, and only the ends of units write K. That these are P9, W9 and E8, the loop
over units having no label, is the model's choice (notes/assumptions/20). -/
def Obligations.IdCacheAndUnitIndexWriters : Prop :=
  ∀ (s t : State) (l : Label) (rest : List Pos), At l rest s → step s = .next t →
    (l ≠ .s4 → t.idCache = s.idCache ∧ t.idValid = s.idValid) ∧
    (l ∉ [Label.p9, .w9, .e8] → t.k = s.k) ∧ (t.k = s.k ∨ t.k = s.k + 1)

/-! ## Whole invocations -/

/-- read_id of a chip that is ready and answers a valid ID runs to Done, with the 7 cycles of one readId and 134 pin
events. -/
def Obligations.ReadIdCommandRunsToDone : Prop :=
  ∀ (s : State) (d : Nat) (x : DevId) (rb : List Bool) (dq : List Byte), Undisturbed s → s.env.rb = true :: rb →
    s.env.dq = x.bytes ++ dq → idSame x = false →
    ∃ t0, exec (.readIdCmd d) s = .next t0 ∧ RunsTo t0 fun t =>
      t.outcome = .done ∧ exitCode t = some 0 ∧ t.reports = [.id x] ∧ t.idCache = x ∧ t.idValid = true ∧ t.idRd = x ∧
      t.cycles = [cmdWord 0x90#8, addrWord 0x00#8] ++ x.bytes.map readWord ∧ t.events.length = 134 ∧
      t.lines.atRest = true ∧ t.lines.dqDir = .inp

/-- read_full and read_data of pages that read the same twice run to Done: SINK is the records of the pages in order, no
page is logged, and progress is reported for each. -/
def Obligations.ReadCommandsRunToDone : Prop :=
  ∀ (s : State) (d f : Nat) (path : Token) (x : DevId) (pages : List (List Byte)) (rb gate io : List Bool)
    (dq : List Byte) (spare : Bool), Undisturbed s → idSame x = false → pages ≠ [] →
    (∀ pg ∈ pages, pageBytes pg) →
    s.env.rb = true :: List.replicate (2 * pages.length) true ++ rb →
    s.env.dq = x.bytes ++ pages.flatMap (fun pg => pg ++ pg) ++ dq → s.env.gate = true :: gate →
    s.env.io = true :: true :: List.replicate pages.length true ++ io →
    ∃ t0, exec (if spare then .readFull d f pages.length path else .readData d f pages.length path) s = .next t0 ∧
      RunsTo t0 fun t =>
        t.outcome = .done ∧ exitCode t = some 0 ∧ t.sink = pages.flatMap (·.take (if spare then 2112 else 2048)) ∧
        t.badLog = [] ∧ t.badFile = s.badFile ∧
        t.reports = .id x :: (List.range pages.length).map
          (fun k => Report.progress (f + k) ((f + k) / 64) ((k + 1) * 100 / pages.length)) ∧
        t.cycleLog.length = 7 + pages.length * 4238

/-- write_full of an input file long enough, to a chip that passes every program, runs to Done: page k costs one IdCheck, one
writePage of the file's record k and one readStatus, in this order and nothing else, and nothing is logged as failed. -/
def Obligations.WriteFullRunsToDone : Prop :=
  ∀ (s : State) (d f c : Nat) (path : Token) (x : DevId) (sts : List Byte) (rb gate io : List Bool) (dq : List Byte),
    Undisturbed s → idSame x = false → 1 ≤ c → sts.length = c →
    (∀ v ∈ sts, v.getLsbD 0 = false) → c * 2112 ≤ s.source.length →
    s.env.rb = true :: List.replicate c true ++ rb →
    s.env.dq = x.bytes ++ sts.flatMap (fun v => x.bytes ++ [v]) ++ dq → s.env.gate = true :: gate →
    s.env.io = true :: List.replicate c true ++ io →
    ∃ t0, exec (.writeFull d f c path) s = .next t0 ∧ RunsTo t0 fun t =>
      t.outcome = .done ∧ exitCode t = some 0 ∧ t.failLog = [] ∧ t.badFile = s.badFile ∧
      t.reports = .id x :: (List.range c).map (fun k => Report.progress (f + k) ((f + k) / 64) ((k + 1) * 100 / c)) ∧
      t.cycles = readIdWords x.bytes ++ (List.range c).flatMap fun k =>
        programWords x (f + k) ((s.source.drop (k * 2112)).take 2112) (sts.getD k 0x00#8)

/-- erase_blocks of a chip that passes every erase runs to Done: block k costs one IdCheck, one eraseBlock and one
readStatus, in this order and nothing else. -/
def Obligations.EraseBlocksRunsToDone : Prop :=
  ∀ (s : State) (d f c : Nat) (x : DevId) (sts : List Byte) (rb gate : List Bool) (dq : List Byte),
    Undisturbed s → idSame x = false → 1 ≤ c → sts.length = c →
    (∀ v ∈ sts, v.getLsbD 0 = false) → s.env.rb = true :: List.replicate c true ++ rb →
    s.env.dq = x.bytes ++ sts.flatMap (fun v => x.bytes ++ [v]) ++ dq → s.env.gate = true :: gate →
    ∃ t0, exec (.eraseBlocks d f c) s = .next t0 ∧ RunsTo t0 fun t =>
      t.outcome = .done ∧ exitCode t = some 0 ∧ t.failLog = [] ∧ t.badFile = s.badFile ∧
      t.reports = .id x :: (List.range c).map (fun k => Report.progress ((f + k) * 64) (f + k) ((k + 1) * 100 / c)) ∧
      t.cycles = readIdWords x.bytes ++ (List.range c).flatMap fun k => eraseWords x (f + k) (sts.getD k 0x00#8)

/-- A page that mismatches on every attempt is retried exactly 5 times, then logged once, its last first read is written,
and the next unit follows. That PC is at P1, with K one higher, between two units is the model's choice
(notes/assumptions/20). -/
def Obligations.UnreadablePageIsRetriedFiveTimes : Prop :=
  ∀ (s : State) (a0 b0 a1 b1 a2 b2 a3 b3 a4 b4 a5 b5 dq : List Byte) (rb io : List Bool), Ready s →
    s.lines.atRest = true → s.bufA.wf = true → s.bufB.wf = true →
    At .p1 [.lab .s7] s → s.k < s.count →
    (∀ pg ∈ [a0, b0, a1, b1, a2, b2, a3, b3, a4, b4, a5, b5], pageBytes pg) →
    a0 ≠ b0 → a1 ≠ b1 → a2 ≠ b2 → a3 ≠ b3 → a4 ≠ b4 → a5 ≠ b5 →
    s.env.dq = a0 ++ b0 ++ s.idCache.bytes ++ a1 ++ b1 ++ s.idCache.bytes ++ a2 ++ b2 ++ s.idCache.bytes ++ a3 ++ b3 ++
      s.idCache.bytes ++ a4 ++ b4 ++ s.idCache.bytes ++ a5 ++ b5 ++ dq →
    s.env.rb = List.replicate 12 true ++ rb → s.env.io = true :: true :: io →
    RunsTo s fun t =>
      t.pc = [.lab .p1, .lab .s7] ∧ t.outcome = .running ∧ t.k = s.k + 1 ∧ t.retry = 0 ∧
      t.badLog = s.badLog ++ [s.first + s.k] ∧ t.badFile = s.badFile ++ badLine (s.first + s.k) ∧
      t.sink = s.sink ++ a5.take (recordLen s.includeSpare) ∧
      t.reports = s.reports ++ (List.range 5).map (fun j => Report.retry .read (s.first + s.k) (j + 1)) ++
        [.giveUp .read (s.first + s.k),
         .progress (s.first + s.k) ((s.first + s.k) / 64) ((s.k + 1) * 100 / s.count)] ∧
      t.cycleLog.length = s.cycleLog.length + (12 * 2119 + 5 * 7)
end

