-- ==== Sys2Proof/Laws/Decode.lean ====
section
/-! SUPPORT. The fields of the bus-cycle words. -/

namespace Sys2Proof

@[simp] theorem cycleClass_cmdWord (c : Byte) : cycleClass (cmdWord c) = 0b010#3 := by
  revert c; decide
@[simp] theorem cycleClass_addrWord (c : Byte) : cycleClass (addrWord c) = 0b001#3 := by
  revert c; decide
@[simp] theorem cycleClass_writeWord (c : Byte) : cycleClass (writeWord c) = 0b000#3 := by
  revert c; decide
@[simp] theorem cycleClass_readWord (c : Byte) : cycleClass (readWord c) = 0b100#3 := by
  revert c; decide
@[simp] theorem cycleByte_cmdWord (c : Byte) : cycleByte (cmdWord c) = c := by
  revert c; decide
@[simp] theorem cycleByte_addrWord (c : Byte) : cycleByte (addrWord c) = c := by
  revert c; decide
@[simp] theorem cycleByte_writeWord (c : Byte) : cycleByte (writeWord c) = c := by
  revert c; decide
@[simp] theorem cycleByte_readWord (c : Byte) : cycleByte (readWord c) = c := by
  revert c; decide

@[simp] theorem rowBytes_length (p : Nat) : (rowBytes p).length = 3 := rfl
@[simp] theorem pageAddr_length (p : Nat) : (pageAddr p).length = 5 := rfl
@[simp] theorem blockAddr_length (b : Nat) : (blockAddr b).length = 3 := rfl

/-- The bytes of `n` words of one class. -/
theorem takeClass_map {cls : BitVec 3} {f : Byte → CycleWord} (hc : ∀ b, cycleClass (f b) = cls)
    (hb : ∀ b, cycleByte (f b) = b) : ∀ (bs : List Byte) (rest : List CycleWord),
    takeClass cls bs.length (bs.map f ++ rest) = some (bs, rest)
  | [], _ => by simp [takeClass]
  | b :: bs, rest => by simp [takeClass, hc, hb, takeClass_map hc hb bs rest]

theorem rowIndex_rowBytes {p : Nat} (h : p < 2 ^ 24) :
    rowIndex (BitVec.ofNat 8 p) (BitVec.ofNat 8 (p / 256)) (BitVec.ofNat 8 (p / 65536)) = p := by
  simp only [rowIndex, BitVec.toNat_ofNat]
  omega

end Sys2Proof
end

