-- ==== Sys2Proof/Laws/Env.lean ====
section
/-! SUPPORT. The environment's answers: what a script gives. -/

namespace Sys2Proof.Machine

@[simp] theorem drawBytes_length : ∀ (n : Nat) (e : Env), (drawBytes n e).1.length = n
  | 0, _ => rfl
  | n + 1, e => by simp [drawBytes, drawBytes_length n]

/-- Scripted bytes are what the data-in cycles sample. -/
theorem drawBytes_script : ∀ (bs rest : List Byte) (e : Env), e.dq = bs ++ rest →
    drawBytes bs.length e = (bs, { e with dq := rest })
  | [], rest, e, h => by
    cases e; simp only [List.nil_append] at h; subst h; rfl
  | b :: bs, rest, e, h => by
    have h1 : drawByte e = (b, { e with dq := bs ++ rest }) := by simp [drawByte, h]
    simp only [List.length_cons, drawBytes, h1]
    rw [drawBytes_script bs rest _ rfl]

theorem drawByte_script {e : Env} {b : Byte} {rest : List Byte} (h : e.dq = b :: rest) :
    drawByte e = (b, { e with dq := rest }) := by simp [drawByte, h]

theorem drawLevel_script {e : Env} {b : Bool} {rest : List Bool} (h : e.rb = b :: rest) :
    drawLevel e = (b, { e with rb := rest }) := by simp [drawLevel, h]

theorem drawGate_script {e : Env} {b : Bool} {rest : List Bool} (h : e.gate = b :: rest) :
    drawGate e = (b, { e with gate := rest }) := by simp [drawGate, h]

theorem drawIo_script {e : Env} {b : Bool} {rest : List Bool} (h : e.io = b :: rest) :
    drawIo e = (b, { e with io := rest }) := by simp [drawIo, h]

/-- A first sample that reads ready ends the wait at once, whatever BUSY_LIMIT is (40_bus_cycles R145). -/
theorem drawWait_at_once (limit : Option Nat) {e : Env} {rest : List Bool} (h : e.rb = true :: rest) :
    drawWait limit e = { busy := 0, fin := .ready, env := { e with rb := rest } } := by
  simp [drawWait, waitScript, h]

theorem waitScript_ready (limit : Option Nat) (rest : List Bool) : ∀ (k n : Nat),
    (∀ j, n < j → j ≤ n + k → limitReached limit j = false) →
    waitScript limit n (List.replicate k false ++ true :: rest) = (n + k, some .ready, rest)
  | 0, _, _ => rfl
  | k + 1, n, h => by
    simp only [List.replicate_succ, List.cons_append, waitScript, h (n + 1) (by omega) (by omega), Bool.false_eq_true,
      if_false]
    rw [waitScript_ready limit rest k (n + 1) fun j h1 h2 => h j (by omega) (by omega)]
    congr 1; omega

theorem waitScript_timeout (limit : Option Nat) (rest : List Bool) : ∀ (k n : Nat),
    (∀ j, n < j → j ≤ n + k → limitReached limit j = false) → limitReached limit (n + k + 1) = true →
    waitScript limit n (List.replicate (k + 1) false ++ rest) = (n + k + 1, some .timeout, rest)
  | 0, n, _, h => by simp only [Nat.add_zero] at h; simp [waitScript, h]
  | k + 1, n, h, h' => by
    rw [List.replicate_succ]
    simp only [List.cons_append, waitScript, h (n + 1) (by omega) (by omega), Bool.false_eq_true, if_false]
    rw [waitScript_timeout limit rest k (n + 1) (fun j h1 h2 => h j (by omega) (by omega))
      (by rw [← h']; congr 1; omega)]
    congr 1; omega

end Sys2Proof.Machine
end

