-- ==== Sys2Proof/Laws/Memory.lean ====
section
/-! SUPPORT. The page buffers: a byte read after a write, bytes read after a row of bytes is written, and the canonical form
kept by both. -/

namespace Sys2Proof.Machine

theorem wfFrom_mono {lo lo' : Nat} (h : lo' ≤ lo) : ∀ m : Memory, Memory.wfFrom lo m = true → Memory.wfFrom lo' m = true
  | [], _ => rfl
  | (a, v) :: rest, hm => by
    simp only [Memory.wfFrom, Bool.and_eq_true, decide_eq_true_eq] at hm ⊢
    exact ⟨⟨⟨by omega, hm.1.1.2⟩, hm.1.2⟩, hm.2⟩

/-- An offset below every listed one reads as unlisted. -/
theorem read_below {a : Nat} : ∀ {lo : Nat} (m : Memory), Memory.wfFrom lo m = true → a < lo →
    Memory.read m a = Memory.unlisted
  | _, [], _, _ => rfl
  | lo, (b, v) :: rest, hm, ha => by
    simp only [Memory.wfFrom, Bool.and_eq_true, decide_eq_true_eq] at hm
    have hb : b ≠ a := by omega
    simp only [Memory.read, hb, if_false]
    exact read_below rest hm.2 (by omega)

/-- A write inside the page keeps the canonical form. -/
theorem wfFrom_write {a : Nat} {v : Byte} (ha : a < PAGE_SIZE) : ∀ {lo : Nat} (m : Memory), lo ≤ a →
    Memory.wfFrom lo m = true → Memory.wfFrom lo (Memory.write m a v) = true
  | lo, [], hlo, _ => by
    by_cases hv : v = Memory.unlisted
    · simp [Memory.write, hv, Memory.wfFrom]
    · simp [Memory.write, hv, Memory.wfFrom, hlo, ha]
  | lo, (b, w) :: rest, hlo, hm => by
    simp only [Memory.wfFrom, Bool.and_eq_true, decide_eq_true_eq] at hm
    obtain ⟨⟨⟨h1, h2⟩, h3⟩, h4⟩ := hm
    unfold Memory.write
    split
    · split
      · simp [Memory.wfFrom, h1, h2, h4]
        simpa using h3
      · rename_i hv
        have : a + 1 ≤ b := by omega
        simp [Memory.wfFrom, hlo, ha, hv, this, h2, h4]
        simpa using h3
    · split
      · rename_i hab
        subst hab
        split
        · exact wfFrom_mono (by omega) rest h4
        · rename_i hv
          simp [Memory.wfFrom, hlo, ha, hv, h4]
      · have := wfFrom_write ha rest (lo := b + 1) (v := v) (by omega) h4
        simp [Memory.wfFrom, h1, h2, this]
        simpa using h3

theorem wf_write {m : Memory} {a : Nat} {v : Byte} (ha : a < PAGE_SIZE) (hm : m.wf = true) :
    (Memory.write m a v).wf = true :=
  wfFrom_write ha m (Nat.zero_le a) hm

/-- Reading after a write in a canonical buffer: the byte written, or what was there. -/
theorem read_write_from {a c : Nat} {v : Byte} : ∀ {lo : Nat} (m : Memory), Memory.wfFrom lo m = true →
    Memory.read (Memory.write m a v) c = if c = a then v else Memory.read m c
  | _, [], _ => by
    by_cases hv : v = Memory.unlisted
    · simp [Memory.write, hv, Memory.read]
    · simp only [Memory.write, hv, if_false, Memory.read]
      by_cases h : a = c
      · simp [h]
      · simp [h, Ne.symm h]
  | lo, (b, w) :: rest, hm => by
    simp only [Memory.wfFrom, Bool.and_eq_true, decide_eq_true_eq] at hm
    obtain ⟨⟨⟨h1, h2⟩, h3⟩, h4⟩ := hm
    unfold Memory.write
    split
    · rename_i hab
      split
      · rename_i hv
        by_cases hc : c = a
        · subst hc
          have hb : b ≠ c := by omega
          simp only [Memory.read, hb, if_false, if_true]
          rw [read_below rest h4 (by omega), hv]
        · simp [hc]
      · by_cases hc : a = c
        · simp [Memory.read, hc]
        · simp [Memory.read, hc, Ne.symm hc]
    · split
      · rename_i hab
        subst hab
        split
        · rename_i hv
          by_cases hc : c = a
          · subst hc
            simp only [if_true]
            rw [read_below rest h4 (by omega), hv]
          · simp [Memory.read, hc, Ne.symm hc]
        · by_cases hc : a = c
          · simp [Memory.read, hc]
          · simp [Memory.read, hc, Ne.symm hc]
      · rename_i hlt hne
        have ih := read_write_from (a := a) (c := c) (v := v) rest h4
        by_cases hc : b = c
        · subst hc
          simp [Memory.read, Ne.symm hne]
        · simp only [Memory.read, hc, if_false]
          exact ih

/-- Reading after a write in a canonical buffer. -/
theorem read_write {m : Memory} (hm : m.wf = true) (a c : Nat) (v : Byte) :
    Memory.read (Memory.write m a v) c = if c = a then v else Memory.read m c :=
  read_write_from m hm

/-- A row of bytes inside the page keeps the canonical form. -/
theorem wf_writeBytes : ∀ {m : Memory} {i : Nat} (bs : List Byte), i + bs.length ≤ PAGE_SIZE → m.wf = true →
    (Memory.writeBytes m i bs).wf = true
  | _, _, [], _, hm => hm
  | m, i, b :: bs, h, hm => by
    simp only [List.length_cons] at h
    exact wf_write (by omega) (wf_writeBytes bs (by omega) hm)

/-- Reading after a row of bytes was written inside the page: the byte written there, or what was there. -/
theorem read_writeBytes : ∀ {m : Memory} {i : Nat} (bs : List Byte), i + bs.length ≤ PAGE_SIZE → m.wf = true →
    ∀ c, Memory.read (Memory.writeBytes m i bs) c =
      if i ≤ c ∧ c < i + bs.length then bs.getD (c - i) 0x00#8 else Memory.read m c
  | m, i, [], _, _, c => by
    have : ¬(i ≤ c ∧ c < i + ([] : List Byte).length) := by simp
    rw [if_neg this]; rfl
  | m, i, b :: bs, h, hm, c => by
    simp only [List.length_cons] at h
    have ih := read_writeBytes (m := m) (i := i + 1) bs (by omega) hm c
    rw [Memory.writeBytes, read_write (wf_writeBytes bs (by omega) hm), ih]
    simp only [List.length_cons]
    by_cases h1 : c = i
    · subst h1; simp
    · by_cases h2 : i + 1 ≤ c ∧ c < i + 1 + bs.length
      · have h3 : i ≤ c ∧ c < i + (bs.length + 1) := by omega
        have h4 : c - i = (c - (i + 1)) + 1 := by omega
        rw [if_neg h1, if_pos h2, if_pos h3, h4, List.getD_cons_succ]
      · have h3 : ¬(i ≤ c ∧ c < i + (bs.length + 1)) := by omega
        rw [if_neg h1, if_neg h2, if_neg h3]

theorem readBytes_eq_of_read {m m' : Memory} : ∀ (n i : Nat), (∀ c, i ≤ c → c < i + n → Memory.read m c = Memory.read m' c) →
    Memory.readBytes m i n = Memory.readBytes m' i n
  | 0, _, _ => rfl
  | n + 1, i, h => by
    simp only [Memory.readBytes]
    rw [h i (by omega) (by omega), readBytes_eq_of_read n (i + 1) fun c h1 h2 => h c (by omega) (by omega)]

@[simp] theorem readBytes_length (m : Memory) : ∀ (n i : Nat), (Memory.readBytes m i n).length = n
  | 0, _ => rfl
  | n + 1, i => by simp [Memory.readBytes, readBytes_length m n (i + 1)]

@[simp] theorem page_length (m : Memory) : m.page.length = PAGE_SIZE := readBytes_length m PAGE_SIZE 0

/-- MemRead gives back what MemWrite wrote (20_memory R67: byte i of the buffer is the (i + 1)-th byte of the row). -/
theorem readBytes_writeBytes {m : Memory} (hm : m.wf = true) : ∀ (bs : List Byte) (i : Nat), i + bs.length ≤ PAGE_SIZE →
    Memory.readBytes (Memory.writeBytes m i bs) i bs.length = bs
  | [], _, _ => rfl
  | b :: bs, i, h => by
    simp only [List.length_cons] at h
    have hread := read_writeBytes (m := m) (i := i) (b :: bs) (by simpa using h) hm
    have hwf := wf_writeBytes (m := m) (i := i + 1) bs (by omega) hm
    have ih := readBytes_writeBytes hm bs (i + 1) (by omega)
    simp only [List.length_cons, Memory.readBytes]
    congr 1
    · rw [hread]; simp
    · conv_rhs => rw [← ih]
      apply readBytes_eq_of_read
      intro c h1 h2
      rw [Memory.writeBytes, read_write hwf, if_neg (by omega)]

/-- A whole page written and read back. -/
theorem page_writeBytes {m : Memory} (hm : m.wf = true) {bs : List Byte} (h : bs.length = PAGE_SIZE) :
    (Memory.writeBytes m 0 bs).page = bs := by
  have := readBytes_writeBytes hm bs 0 (by omega)
  rwa [h] at this

/-- The prefix of a page read. -/
theorem readBytes_take (m : Memory) : ∀ (n k i : Nat), n ≤ k → Memory.readBytes m i n = (Memory.readBytes m i k).take n
  | 0, _, _, _ => by simp [Memory.readBytes]
  | n + 1, 0, _, h => by omega
  | n + 1, k + 1, i, h => by
    simp only [Memory.readBytes, List.take_succ_cons]
    rw [readBytes_take m n k (i + 1) (by omega)]

end Sys2Proof.Machine
end

