-- ==== Sys2Proof/Laws/PerInstr.lean ====
section
/-! SUPPORT. Per-instruction families: `EncodeLevel` says at which of the three levels of 30_encoding an instruction is
encoded, exactly one for each. -/

namespace Sys2Proof.Laws.EncodeLevel

/-- An instruction has a cycle word, a row of cycle words (whatever data it moves) or a command line, and one only. -/
def Statement (i : Instr) : Prop :=
  ∀ data : List Byte,
    ((encodeWord i).isSome = true ∧ encodeTransaction i data = none ∧ encodeCommand i = none) ∨
    (encodeWord i = none ∧ (encodeTransaction i data).isSome = true ∧ encodeCommand i = none) ∨
    (encodeWord i = none ∧ encodeTransaction i data = none ∧ (encodeCommand i).isSome = true)

theorem cmdReadId : Statement .cmdReadId := fun _ => .inl ⟨rfl, rfl, rfl⟩
theorem cmdReadSetup : Statement .cmdReadSetup := fun _ => .inl ⟨rfl, rfl, rfl⟩
theorem cmdReadConfirm : Statement .cmdReadConfirm := fun _ => .inl ⟨rfl, rfl, rfl⟩
theorem cmdProgSetup : Statement .cmdProgSetup := fun _ => .inl ⟨rfl, rfl, rfl⟩
theorem cmdProgConfirm : Statement .cmdProgConfirm := fun _ => .inl ⟨rfl, rfl, rfl⟩
theorem cmdEraseSetup : Statement .cmdEraseSetup := fun _ => .inl ⟨rfl, rfl, rfl⟩
theorem cmdEraseConfirm : Statement .cmdEraseConfirm := fun _ => .inl ⟨rfl, rfl, rfl⟩
theorem cmdReadStatus : Statement .cmdReadStatus := fun _ => .inl ⟨rfl, rfl, rfl⟩
theorem idAddr : Statement .idAddr := fun _ => .inl ⟨rfl, rfl, rfl⟩
theorem addr (a : Byte) : Statement (.addr a) := fun _ => .inl ⟨rfl, rfl, rfl⟩
theorem dataW (d : Byte) : Statement (.dataW d) := fun _ => .inl ⟨rfl, rfl, rfl⟩
theorem dataR (d : Byte) : Statement (.dataR d) := fun _ => .inl ⟨rfl, rfl, rfl⟩
theorem readId : Statement .readId := fun _ => .inr (.inl ⟨rfl, rfl, rfl⟩)
theorem readPage (p : Nat) (x : Buf) : Statement (.readPage p x) := fun _ => .inr (.inl ⟨rfl, rfl, rfl⟩)
theorem writePage (p : Nat) : Statement (.writePage p) := fun _ => .inr (.inl ⟨rfl, rfl, rfl⟩)
theorem eraseBlock (b : Nat) : Statement (.eraseBlock b) := fun _ => .inr (.inl ⟨rfl, rfl, rfl⟩)
theorem readStatus : Statement .readStatus := fun _ => .inr (.inl ⟨rfl, rfl, rfl⟩)
theorem readIdCmd (delay : Nat) : Statement (.readIdCmd delay) := fun _ => .inr (.inr ⟨rfl, rfl, rfl⟩)
theorem readFull (delay first count : Nat) (path : Token) : Statement (.readFull delay first count path) :=
  fun _ => .inr (.inr ⟨rfl, rfl, rfl⟩)
theorem readData (delay first count : Nat) (path : Token) : Statement (.readData delay first count path) :=
  fun _ => .inr (.inr ⟨rfl, rfl, rfl⟩)
theorem writeFull (delay first count : Nat) (path : Token) : Statement (.writeFull delay first count path) :=
  fun _ => .inr (.inr ⟨rfl, rfl, rfl⟩)
theorem eraseBlocks (delay first count : Nat) : Statement (.eraseBlocks delay first count) :=
  fun _ => .inr (.inr ⟨rfl, rfl, rfl⟩)

end Sys2Proof.Laws.EncodeLevel
end

