-- ==== Sys2Proof/Laws/State.lean ====
section
/-! SUPPORT. One lemma for each field of each update of the state. -/

namespace Sys2Proof.Machine

/-! ## standing -/

@[simp] theorem standing_cfg (s : State) (q : List Pos) : (s.standing q).cfg = s.cfg := rfl
@[simp] theorem standing_lines (s : State) (q : List Pos) : (s.standing q).lines = s.lines := rfl
@[simp] theorem standing_cmd (s : State) (q : List Pos) : (s.standing q).cmd = s.cmd := rfl
@[simp] theorem standing_first (s : State) (q : List Pos) : (s.standing q).first = s.first := rfl
@[simp] theorem standing_count (s : State) (q : List Pos) : (s.standing q).count = s.count := rfl
@[simp] theorem standing_includeSpare (s : State) (q : List Pos) : (s.standing q).includeSpare = s.includeSpare := rfl
@[simp] theorem standing_delay (s : State) (q : List Pos) : (s.standing q).delay = s.delay := rfl
@[simp] theorem standing_path (s : State) (q : List Pos) : (s.standing q).path = s.path := rfl
@[simp] theorem standing_k (s : State) (q : List Pos) : (s.standing q).k = s.k := rfl
@[simp] theorem standing_retry (s : State) (q : List Pos) : (s.standing q).retry = s.retry := rfl
@[simp] theorem standing_idCache (s : State) (q : List Pos) : (s.standing q).idCache = s.idCache := rfl
@[simp] theorem standing_idValid (s : State) (q : List Pos) : (s.standing q).idValid = s.idValid := rfl
@[simp] theorem standing_idRd (s : State) (q : List Pos) : (s.standing q).idRd = s.idRd := rfl
@[simp] theorem standing_bufA (s : State) (q : List Pos) : (s.standing q).bufA = s.bufA := rfl
@[simp] theorem standing_bufB (s : State) (q : List Pos) : (s.standing q).bufB = s.bufB := rfl
@[simp] theorem standing_status (s : State) (q : List Pos) : (s.standing q).status = s.status := rfl
@[simp] theorem standing_din (s : State) (q : List Pos) : (s.standing q).din = s.din := rfl
@[simp] theorem standing_polls (s : State) (q : List Pos) : (s.standing q).polls = s.polls := rfl
@[simp] theorem standing_pc (s : State) (q : List Pos) : (s.standing q).pc = q ++ s.pc := rfl
@[simp] theorem standing_record (s : State) (q : List Pos) : (s.standing q).record = s.record := rfl
@[simp] theorem standing_outcome (s : State) (q : List Pos) : (s.standing q).outcome = s.outcome := rfl
@[simp] theorem standing_info (s : State) (q : List Pos) : (s.standing q).info = s.info := rfl
@[simp] theorem standing_badLog (s : State) (q : List Pos) : (s.standing q).badLog = s.badLog := rfl
@[simp] theorem standing_failLog (s : State) (q : List Pos) : (s.standing q).failLog = s.failLog := rfl
@[simp] theorem standing_reports (s : State) (q : List Pos) : (s.standing q).reports = s.reports := rfl
@[simp] theorem standing_sink (s : State) (q : List Pos) : (s.standing q).sink = s.sink := rfl
@[simp] theorem standing_source (s : State) (q : List Pos) : (s.standing q).source = s.source := rfl
@[simp] theorem standing_badFile (s : State) (q : List Pos) : (s.standing q).badFile = s.badFile := rfl
@[simp] theorem standing_pinLog (s : State) (q : List Pos) : (s.standing q).pinLog = s.pinLog := rfl
@[simp] theorem standing_cycleLog (s : State) (q : List Pos) : (s.standing q).cycleLog = s.cycleLog := rfl
@[simp] theorem standing_env (s : State) (q : List Pos) : (s.standing q).env = s.env := rfl
@[simp] theorem standing_interruptIn (s : State) (q : List Pos) : (s.standing q).interruptIn = s.interruptIn := rfl
@[simp] theorem standing_driveIn (s : State) (q : List Pos) : (s.standing q).driveIn = s.driveIn := rfl
@[simp] theorem standing_commands (s : State) (q : List Pos) : (s.standing q).commands = s.commands := rfl
@[simp] theorem standing_placed (s : State) (q : List Pos) : (s.standing q).placed = s.placed := rfl
@[simp] theorem standing_written (s : State) (q : List Pos) : (s.standing q).written = s.written := rfl

/-! ## tick -/

@[simp] theorem tick_cfg (s : State) : (tick s).cfg = s.cfg := rfl
@[simp] theorem tick_lines (s : State) : (tick s).lines = s.lines := rfl
@[simp] theorem tick_cmd (s : State) : (tick s).cmd = s.cmd := rfl
@[simp] theorem tick_first (s : State) : (tick s).first = s.first := rfl
@[simp] theorem tick_count (s : State) : (tick s).count = s.count := rfl
@[simp] theorem tick_includeSpare (s : State) : (tick s).includeSpare = s.includeSpare := rfl
@[simp] theorem tick_delay (s : State) : (tick s).delay = s.delay := rfl
@[simp] theorem tick_path (s : State) : (tick s).path = s.path := rfl
@[simp] theorem tick_k (s : State) : (tick s).k = s.k := rfl
@[simp] theorem tick_retry (s : State) : (tick s).retry = s.retry := rfl
@[simp] theorem tick_idCache (s : State) : (tick s).idCache = s.idCache := rfl
@[simp] theorem tick_idValid (s : State) : (tick s).idValid = s.idValid := rfl
@[simp] theorem tick_idRd (s : State) : (tick s).idRd = s.idRd := rfl
@[simp] theorem tick_bufA (s : State) : (tick s).bufA = s.bufA := rfl
@[simp] theorem tick_bufB (s : State) : (tick s).bufB = s.bufB := rfl
@[simp] theorem tick_status (s : State) : (tick s).status = s.status := rfl
@[simp] theorem tick_din (s : State) : (tick s).din = s.din := rfl
@[simp] theorem tick_polls (s : State) : (tick s).polls = s.polls := rfl
@[simp] theorem tick_pc (s : State) : (tick s).pc = s.pc := rfl
@[simp] theorem tick_record (s : State) : (tick s).record = s.record := rfl
@[simp] theorem tick_outcome (s : State) : (tick s).outcome = s.outcome := rfl
@[simp] theorem tick_info (s : State) : (tick s).info = s.info := rfl
@[simp] theorem tick_badLog (s : State) : (tick s).badLog = s.badLog := rfl
@[simp] theorem tick_failLog (s : State) : (tick s).failLog = s.failLog := rfl
@[simp] theorem tick_reports (s : State) : (tick s).reports = s.reports := rfl
@[simp] theorem tick_sink (s : State) : (tick s).sink = s.sink := rfl
@[simp] theorem tick_source (s : State) : (tick s).source = s.source := rfl
@[simp] theorem tick_badFile (s : State) : (tick s).badFile = s.badFile := rfl
@[simp] theorem tick_pinLog (s : State) : (tick s).pinLog = s.pinLog := rfl
@[simp] theorem tick_cycleLog (s : State) : (tick s).cycleLog = s.cycleLog := rfl
@[simp] theorem tick_env (s : State) : (tick s).env = s.env := rfl
@[simp] theorem tick_interruptIn (s : State) : (tick s).interruptIn = s.interruptIn.map (· - 1) := rfl
@[simp] theorem tick_driveIn (s : State) : (tick s).driveIn = s.driveIn.map (· - 1) := rfl
@[simp] theorem tick_commands (s : State) : (tick s).commands = s.commands := rfl
@[simp] theorem tick_placed (s : State) : (tick s).placed = s.placed := rfl
@[simp] theorem tick_written (s : State) : (tick s).written = s.written := rfl

/-! ## interrupted -/

@[simp] theorem interrupted_cfg (s : State) : (interrupted s).cfg = s.cfg := rfl
@[simp] theorem interrupted_lines (s : State) : (interrupted s).lines = s.lines := rfl
@[simp] theorem interrupted_cmd (s : State) : (interrupted s).cmd = s.cmd := rfl
@[simp] theorem interrupted_first (s : State) : (interrupted s).first = s.first := rfl
@[simp] theorem interrupted_count (s : State) : (interrupted s).count = s.count := rfl
@[simp] theorem interrupted_includeSpare (s : State) : (interrupted s).includeSpare = s.includeSpare := rfl
@[simp] theorem interrupted_delay (s : State) : (interrupted s).delay = s.delay := rfl
@[simp] theorem interrupted_path (s : State) : (interrupted s).path = s.path := rfl
@[simp] theorem interrupted_k (s : State) : (interrupted s).k = s.k := rfl
@[simp] theorem interrupted_retry (s : State) : (interrupted s).retry = s.retry := rfl
@[simp] theorem interrupted_idCache (s : State) : (interrupted s).idCache = s.idCache := rfl
@[simp] theorem interrupted_idValid (s : State) : (interrupted s).idValid = s.idValid := rfl
@[simp] theorem interrupted_idRd (s : State) : (interrupted s).idRd = s.idRd := rfl
@[simp] theorem interrupted_bufA (s : State) : (interrupted s).bufA = s.bufA := rfl
@[simp] theorem interrupted_bufB (s : State) : (interrupted s).bufB = s.bufB := rfl
@[simp] theorem interrupted_status (s : State) : (interrupted s).status = s.status := rfl
@[simp] theorem interrupted_din (s : State) : (interrupted s).din = s.din := rfl
@[simp] theorem interrupted_polls (s : State) : (interrupted s).polls = s.polls := rfl
@[simp] theorem interrupted_pc (s : State) : (interrupted s).pc = s.pc := rfl
@[simp] theorem interrupted_record (s : State) : (interrupted s).record = s.record := rfl
@[simp] theorem interrupted_outcome (s : State) : (interrupted s).outcome = .aborted := rfl
@[simp] theorem interrupted_info (s : State) : (interrupted s).info = s.info := rfl
@[simp] theorem interrupted_badLog (s : State) : (interrupted s).badLog = s.badLog := rfl
@[simp] theorem interrupted_failLog (s : State) : (interrupted s).failLog = s.failLog := rfl
@[simp] theorem interrupted_reports (s : State) : (interrupted s).reports = s.reports := rfl
@[simp] theorem interrupted_sink (s : State) : (interrupted s).sink = s.sink := rfl
@[simp] theorem interrupted_source (s : State) : (interrupted s).source = s.source := rfl
@[simp] theorem interrupted_badFile (s : State) : (interrupted s).badFile = s.badFile := rfl
@[simp] theorem interrupted_pinLog (s : State) : (interrupted s).pinLog = s.pinLog := rfl
@[simp] theorem interrupted_cycleLog (s : State) : (interrupted s).cycleLog = s.cycleLog := rfl
@[simp] theorem interrupted_env (s : State) : (interrupted s).env = s.env := rfl
@[simp] theorem interrupted_interruptIn (s : State) : (interrupted s).interruptIn = none := rfl
@[simp] theorem interrupted_driveIn (s : State) : (interrupted s).driveIn = s.driveIn := rfl
@[simp] theorem interrupted_commands (s : State) : (interrupted s).commands = s.commands := rfl
@[simp] theorem interrupted_placed (s : State) : (interrupted s).placed = s.placed := rfl
@[simp] theorem interrupted_written (s : State) : (interrupted s).written = s.written := rfl

/-! ## raiseFault -/

@[simp] theorem raiseFault_cfg (f : FatalFault) (i : FaultInfo) (s : State) : (raiseFault f i s).cfg = s.cfg := rfl
@[simp] theorem raiseFault_lines (f : FatalFault) (i : FaultInfo) (s : State) : (raiseFault f i s).lines = s.lines := rfl
@[simp] theorem raiseFault_cmd (f : FatalFault) (i : FaultInfo) (s : State) : (raiseFault f i s).cmd = s.cmd := rfl
@[simp] theorem raiseFault_first (f : FatalFault) (i : FaultInfo) (s : State) : (raiseFault f i s).first = s.first := rfl
@[simp] theorem raiseFault_count (f : FatalFault) (i : FaultInfo) (s : State) : (raiseFault f i s).count = s.count := rfl
@[simp] theorem raiseFault_includeSpare (f : FatalFault) (i : FaultInfo) (s : State) : (raiseFault f i s).includeSpare = s.includeSpare := rfl
@[simp] theorem raiseFault_delay (f : FatalFault) (i : FaultInfo) (s : State) : (raiseFault f i s).delay = s.delay := rfl
@[simp] theorem raiseFault_path (f : FatalFault) (i : FaultInfo) (s : State) : (raiseFault f i s).path = s.path := rfl
@[simp] theorem raiseFault_k (f : FatalFault) (i : FaultInfo) (s : State) : (raiseFault f i s).k = s.k := rfl
@[simp] theorem raiseFault_retry (f : FatalFault) (i : FaultInfo) (s : State) : (raiseFault f i s).retry = s.retry := rfl
@[simp] theorem raiseFault_idCache (f : FatalFault) (i : FaultInfo) (s : State) : (raiseFault f i s).idCache = s.idCache := rfl
@[simp] theorem raiseFault_idValid (f : FatalFault) (i : FaultInfo) (s : State) : (raiseFault f i s).idValid = s.idValid := rfl
@[simp] theorem raiseFault_idRd (f : FatalFault) (i : FaultInfo) (s : State) : (raiseFault f i s).idRd = s.idRd := rfl
@[simp] theorem raiseFault_bufA (f : FatalFault) (i : FaultInfo) (s : State) : (raiseFault f i s).bufA = s.bufA := rfl
@[simp] theorem raiseFault_bufB (f : FatalFault) (i : FaultInfo) (s : State) : (raiseFault f i s).bufB = s.bufB := rfl
@[simp] theorem raiseFault_status (f : FatalFault) (i : FaultInfo) (s : State) : (raiseFault f i s).status = s.status := rfl
@[simp] theorem raiseFault_din (f : FatalFault) (i : FaultInfo) (s : State) : (raiseFault f i s).din = s.din := rfl
@[simp] theorem raiseFault_polls (f : FatalFault) (i : FaultInfo) (s : State) : (raiseFault f i s).polls = s.polls := rfl
@[simp] theorem raiseFault_pc (f : FatalFault) (i : FaultInfo) (s : State) : (raiseFault f i s).pc = s.pc := rfl
@[simp] theorem raiseFault_record (f : FatalFault) (i : FaultInfo) (s : State) : (raiseFault f i s).record = s.record := rfl
@[simp] theorem raiseFault_outcome (f : FatalFault) (i : FaultInfo) (s : State) : (raiseFault f i s).outcome = .fatal f := rfl
@[simp] theorem raiseFault_info (f : FatalFault) (i : FaultInfo) (s : State) : (raiseFault f i s).info = i := rfl
@[simp] theorem raiseFault_badLog (f : FatalFault) (i : FaultInfo) (s : State) : (raiseFault f i s).badLog = s.badLog := rfl
@[simp] theorem raiseFault_failLog (f : FatalFault) (i : FaultInfo) (s : State) : (raiseFault f i s).failLog = s.failLog := rfl
@[simp] theorem raiseFault_reports (f : FatalFault) (i : FaultInfo) (s : State) : (raiseFault f i s).reports = s.reports ++ [.fault f.code] := rfl
@[simp] theorem raiseFault_sink (f : FatalFault) (i : FaultInfo) (s : State) : (raiseFault f i s).sink = s.sink := rfl
@[simp] theorem raiseFault_source (f : FatalFault) (i : FaultInfo) (s : State) : (raiseFault f i s).source = s.source := rfl
@[simp] theorem raiseFault_badFile (f : FatalFault) (i : FaultInfo) (s : State) : (raiseFault f i s).badFile = s.badFile := rfl
@[simp] theorem raiseFault_pinLog (f : FatalFault) (i : FaultInfo) (s : State) : (raiseFault f i s).pinLog = s.pinLog := rfl
@[simp] theorem raiseFault_cycleLog (f : FatalFault) (i : FaultInfo) (s : State) : (raiseFault f i s).cycleLog = s.cycleLog := rfl
@[simp] theorem raiseFault_env (f : FatalFault) (i : FaultInfo) (s : State) : (raiseFault f i s).env = s.env := rfl
@[simp] theorem raiseFault_interruptIn (f : FatalFault) (i : FaultInfo) (s : State) : (raiseFault f i s).interruptIn = s.interruptIn := rfl
@[simp] theorem raiseFault_driveIn (f : FatalFault) (i : FaultInfo) (s : State) : (raiseFault f i s).driveIn = s.driveIn := rfl
@[simp] theorem raiseFault_commands (f : FatalFault) (i : FaultInfo) (s : State) : (raiseFault f i s).commands = s.commands := rfl
@[simp] theorem raiseFault_placed (f : FatalFault) (i : FaultInfo) (s : State) : (raiseFault f i s).placed = s.placed := rfl
@[simp] theorem raiseFault_written (f : FatalFault) (i : FaultInfo) (s : State) : (raiseFault f i s).written = s.written := rfl

/-! ## startInvocation -/

@[simp] theorem startInvocation_cfg (s : State) : (startInvocation s).cfg = s.cfg := rfl
@[simp] theorem startInvocation_lines (s : State) : (startInvocation s).lines = s.linesFound := rfl
@[simp] theorem startInvocation_cmd (s : State) : (startInvocation s).cmd = State.reset.cmd := rfl
@[simp] theorem startInvocation_first (s : State) : (startInvocation s).first = State.reset.first := rfl
@[simp] theorem startInvocation_count (s : State) : (startInvocation s).count = State.reset.count := rfl
@[simp] theorem startInvocation_includeSpare (s : State) : (startInvocation s).includeSpare = State.reset.includeSpare := rfl
@[simp] theorem startInvocation_delay (s : State) : (startInvocation s).delay = State.reset.delay := rfl
@[simp] theorem startInvocation_path (s : State) : (startInvocation s).path = State.reset.path := rfl
@[simp] theorem startInvocation_k (s : State) : (startInvocation s).k = State.reset.k := rfl
@[simp] theorem startInvocation_retry (s : State) : (startInvocation s).retry = State.reset.retry := rfl
@[simp] theorem startInvocation_idCache (s : State) : (startInvocation s).idCache = State.reset.idCache := rfl
@[simp] theorem startInvocation_idValid (s : State) : (startInvocation s).idValid = State.reset.idValid := rfl
@[simp] theorem startInvocation_idRd (s : State) : (startInvocation s).idRd = State.reset.idRd := rfl
@[simp] theorem startInvocation_bufA (s : State) : (startInvocation s).bufA = State.reset.bufA := rfl
@[simp] theorem startInvocation_bufB (s : State) : (startInvocation s).bufB = State.reset.bufB := rfl
@[simp] theorem startInvocation_status (s : State) : (startInvocation s).status = State.reset.status := rfl
@[simp] theorem startInvocation_din (s : State) : (startInvocation s).din = State.reset.din := rfl
@[simp] theorem startInvocation_polls (s : State) : (startInvocation s).polls = State.reset.polls := rfl
@[simp] theorem startInvocation_pc (s : State) : (startInvocation s).pc = State.reset.pc := rfl
@[simp] theorem startInvocation_record (s : State) : (startInvocation s).record = State.reset.record := rfl
@[simp] theorem startInvocation_outcome (s : State) : (startInvocation s).outcome = State.reset.outcome := rfl
@[simp] theorem startInvocation_info (s : State) : (startInvocation s).info = State.reset.info := rfl
@[simp] theorem startInvocation_badLog (s : State) : (startInvocation s).badLog = State.reset.badLog := rfl
@[simp] theorem startInvocation_failLog (s : State) : (startInvocation s).failLog = State.reset.failLog := rfl
@[simp] theorem startInvocation_reports (s : State) : (startInvocation s).reports = State.reset.reports := rfl
@[simp] theorem startInvocation_sink (s : State) : (startInvocation s).sink = State.reset.sink := rfl
@[simp] theorem startInvocation_source (s : State) : (startInvocation s).source = s.source := rfl
@[simp] theorem startInvocation_badFile (s : State) : (startInvocation s).badFile = s.badFile := rfl
@[simp] theorem startInvocation_pinLog (s : State) : (startInvocation s).pinLog = State.reset.pinLog := rfl
@[simp] theorem startInvocation_cycleLog (s : State) : (startInvocation s).cycleLog = State.reset.cycleLog := rfl
@[simp] theorem startInvocation_env (s : State) : (startInvocation s).env = { s.env with draws := s.env.draws + 1 } := rfl
@[simp] theorem startInvocation_interruptIn (s : State) : (startInvocation s).interruptIn = s.interruptIn := rfl
@[simp] theorem startInvocation_driveIn (s : State) : (startInvocation s).driveIn = s.driveIn := rfl
@[simp] theorem startInvocation_commands (s : State) : (startInvocation s).commands = s.commands := rfl
@[simp] theorem startInvocation_placed (s : State) : (startInvocation s).placed = State.reset.placed := rfl
@[simp] theorem startInvocation_written (s : State) : (startInvocation s).written = State.reset.written := rfl

/-- PC at the statement itself. -/
@[simp] theorem standing_nil (s : State) : s.standing [] = s := rfl

end Sys2Proof.Machine
end

