-- ==== Sys2Proof/Laws/Run.lean ====
section
/-! SUPPORT. Rows of primitives: what `runRow` can do, said once. A row's effect is that of its primitives; its positions
say where PC stays if the run ends inside it. -/

namespace Sys2Proof.Machine

/-- The effect of a row of primitives that nothing stops. -/
def applyAll (ps : List Prim) (s : State) : State := ps.foldl (fun t p => applyPrim p t) s

@[simp] theorem applyAll_nil (s : State) : applyAll [] s = s := rfl
@[simp] theorem applyAll_cons (p : Prim) (ps : List Prim) (s : State) :
    applyAll (p :: ps) s = applyAll ps (applyPrim p s) := rfl
theorem applyAll_append (ps qs : List Prim) (s : State) : applyAll (ps ++ qs) s = applyAll qs (applyAll ps s) := by
  simp [applyAll, List.foldl_append]

/-- The primitives of a row, their positions left off. -/
def Row.prims (row : Row) : List Prim := row.map (·.1)

@[simp] theorem prims_nil : Row.prims [] = [] := rfl
@[simp] theorem prims_cons (e : Prim × List Pos) (row : Row) : Row.prims (e :: row) = e.1 :: Row.prims row := rfl
@[simp] theorem prims_append (a b : Row) : Row.prims (a ++ b) = Row.prims a ++ Row.prims b := List.map_append ..
@[simp] theorem prims_own (ps : List Prim) : Row.prims (ps.map fun p => (p, [])) = ps := by
  simp [Row.prims, Function.comp_def]

/-- A primitive that leaves OUTCOME alone. -/
def Prim.quiet : Prim → Bool
  | .raise _ _ | .finish | .decline => false
  | _ => true

/-- A primitive's effect on the lines. -/
def Lines.after (ls : Lines) : Prim → Lines
  | .pin e => ls.event e
  | .initPin e => ls.event e
  | .setDqDir d => { ls with dqDir := d }
  | .initDqDir => { ls with dqDir := .inp }
  | .weRise => ls.setLevel .we true
  | .reRise => ls.setLevel .re true
  | _ => ls

theorem applyPrim_lines (p : Prim) (s : State) : (applyPrim p s).lines = s.lines.after p := by
  cases p <;> try rfl
  rename_i x _ _; cases x <;> rfl

/-- The lines after a row of primitives. -/
def Lines.afterAll (ls : Lines) (ps : List Prim) : Lines := ps.foldl Lines.after ls

@[simp] theorem afterAll_nil (ls : Lines) : ls.afterAll [] = ls := rfl
@[simp] theorem afterAll_cons (ls : Lines) (p : Prim) (ps : List Prim) :
    ls.afterAll (p :: ps) = (ls.after p).afterAll ps := rfl
theorem afterAll_append (ls : Lines) (ps qs : List Prim) : ls.afterAll (ps ++ qs) = (ls.afterAll ps).afterAll qs := by
  simp [Lines.afterAll, List.foldl_append]

theorem applyAll_lines : ∀ (ps : List Prim) (s : State), (applyAll ps s).lines = s.lines.afterAll ps
  | [], _ => rfl
  | p :: ps, s => by rw [applyAll_cons, applyAll_lines ps, applyPrim_lines, afterAll_cons]

/-- No guard stops a row of primitives that starts on the lines `ls`, the chip driving DQ in its read strobes only. -/
def guardsPass : List Prim → Lines → Bool
  | [], _ => true
  | p :: ps, ls => (primGuard p ls false).isNone && guardsPass ps (ls.after p)

@[simp] theorem guardsPass_nil (ls : Lines) : guardsPass [] ls = true := rfl
@[simp] theorem guardsPass_cons (p : Prim) (ps : List Prim) (ls : Lines) :
    guardsPass (p :: ps) ls = ((primGuard p ls false).isNone && guardsPass ps (ls.after p)) := rfl
theorem guardsPass_append (ps qs : List Prim) (ls : Lines) :
    guardsPass (ps ++ qs) ls = (guardsPass ps ls && guardsPass qs (ls.afterAll ps)) := by
  induction ps generalizing ls with
  | nil => simp
  | cons p ps ih => simp [ih, Bool.and_assoc]

theorem quiet_outcome {p : Prim} (h : p.quiet = true) (s : State) : (applyPrim p s).outcome = s.outcome := by
  cases p <;> try rfl
  · rename_i x _ _; cases x <;> rfl
  all_goals cases h

theorem applyPrim_interruptIn (p : Prim) (s : State) : (applyPrim p s).interruptIn = s.interruptIn := by
  cases p <;> try rfl
  rename_i x _ _; cases x <;> rfl

theorem applyPrim_driveIn (p : Prim) (s : State) : (applyPrim p s).driveIn = s.driveIn := by
  cases p <;> try rfl
  rename_i x _ _; cases x <;> rfl

theorem tick_calm {s : State} (h : s.interruptIn = none) (hd : s.driveIn = none) : tick s = s := by
  cases s; simp only at h hd; subst h; subst hd; rfl

/-- A chip that drives DQ in its read strobes only never contends (10_state R25). -/
theorem chipContends_undriven {s : State} (hd : s.driveIn = none) : s.chipContends = false := by
  simp [State.chipContends, hd]

/-- With RE# high and such a chip, no state contends. -/
theorem contends_idle {s : State} (hd : s.driveIn = none) (hr : s.lines.re = true) : s.contends = false := by
  simp [State.contends, chipContends_undriven hd, Lines.contended, hr]

/-- ONE PRIMITIVE OF AN UNDISTURBED RUN that goes on after it. -/
theorem runRow_cons_calm {p : Prim} {q : List Pos} {row : Row} {s : State} (hr : s.outcome = .running)
    (hc : s.interruptIn = none) (hd : s.driveIn = none) (hg : primGuard p s.lines false = none)
    (ho : (applyPrim p s).outcome = .running) : runRow ((p, q) :: row) s = runRow row (applyPrim p s) := by
  simp [runRow, hr, hc, hd, hg, tick_calm hc hd, ho, chipContends_undriven hd]

/-- The primitive that ends an undisturbed run: PC stays at its statement. -/
theorem runRow_cons_ends {p : Prim} {q : List Pos} {row : Row} {s : State} (hr : s.outcome = .running)
    (hc : s.interruptIn = none) (hd : s.driveIn = none) (hg : primGuard p s.lines false = none)
    (ho : (applyPrim p s).outcome ≠ .running) :
    runRow ((p, q) :: row) s = .next ((applyPrim p s).standing q) := by
  simp [runRow, hr, hc, hd, hg, tick_calm hc hd, ho, chipContends_undriven hd]

/-- AN UNDISTURBED RUN: with no interrupt to come, the chip driving in its strobes only, no guard in the way and no primitive
that ends the run, a row answers the next state in which all its primitives have been applied. -/
theorem runRow_quiet : ∀ (row : Row) (s : State), s.outcome = .running → s.interruptIn = none → s.driveIn = none →
    row.prims.all Prim.quiet = true → guardsPass row.prims s.lines = true → runRow row s = .next (applyAll row.prims s)
  | [], _, _, _, _, _, _ => rfl
  | (p, q) :: row, s, hr, hc, hd, hq, hg => by
    simp only [prims_cons, List.all_cons, Bool.and_eq_true] at hq
    simp only [prims_cons, guardsPass_cons, Bool.and_eq_true, Option.isNone_iff_eq_none] at hg
    have ho : (applyPrim p s).outcome = .running := by rw [quiet_outcome hq.1]; exact hr
    rw [runRow_cons_calm hr hc hd hg.1 ho, prims_cons, applyAll_cons]
    exact runRow_quiet row _ ho (by rw [applyPrim_interruptIn]; exact hc) (by rw [applyPrim_driveIn]; exact hd) hq.2
      (by rw [applyPrim_lines]; exact hg.2)

/-- The same for the primitives of the statement at PC itself. -/
theorem runPrims_quiet {ps : List Prim} {s : State} (hr : s.outcome = .running) (hc : s.interruptIn = none)
    (hd : s.driveIn = none) (hq : ps.all Prim.quiet = true) (hg : guardsPass ps s.lines = true) :
    runPrims ps s = .next (applyAll ps s) := by
  have := runRow_quiet (ps.map fun p => (p, [])) s hr hc hd (by rwa [prims_own]) (by rwa [prims_own])
  rwa [prims_own] at this

/-- Once the run has ended, no primitive does anything (10_state R39, 60_exceptions R268). -/
theorem runRow_ended {s : State} (h : s.outcome ≠ .running) (row : Row) : runRow row s = .next s := by
  cases row <;> simp [runRow, h]

/-- A row in two parts. -/
theorem runRow_append : ∀ (a b : Row) (s : State), runRow (a ++ b) s = thenRun (runRow a s) (runRow b)
  | [], b, s => by
    by_cases h : s.outcome = .running
    · simp [runRow, thenRun, h]
    · simp [runRow, thenRun, h, runRow_ended h]
  | (p, q) :: a, b, s => by
    by_cases h : s.outcome = .running
    · by_cases hi : s.interruptIn = some 0
      · simp [runRow, h, hi, thenRun]
      · simp only [List.cons_append, runRow, h, hi, if_true, if_false]
        cases s.chipContends with
        | true => rfl
        | false =>
          cases primGuard p s.lines (decide (s.driveIn = some 0)) with
          | some f => rfl
          | none =>
            by_cases ho : (applyPrim p (tick s)).outcome = .running
            · simp only [ho, if_true]; exact runRow_append a b _
            · simp [ho, thenRun]
    · rw [runRow_ended h, runRow_ended h]; simp [thenRun, h]

/-- Undisturbed primitives leave OUTCOME as it is. -/
theorem applyAll_outcome : ∀ (ps : List Prim) (s : State), ps.all Prim.quiet = true →
    (applyAll ps s).outcome = s.outcome
  | [], _, _ => rfl
  | p :: ps, s, h => by
    simp only [List.all_cons, Bool.and_eq_true] at h
    rw [applyAll_cons, applyAll_outcome ps _ h.2, quiet_outcome h.1]

/-- An undisturbed row before another one. -/
theorem runRow_quiet_append {a b : Row} {s : State} (hr : s.outcome = .running) (hc : s.interruptIn = none)
    (hd : s.driveIn = none) (hq : a.prims.all Prim.quiet = true) (hg : guardsPass a.prims s.lines = true) :
    runRow (a ++ b) s = runRow b (applyAll a.prims s) := by
  rw [runRow_append, runRow_quiet a s hr hc hd hq hg]
  simp [thenRun, applyAll_outcome _ _ hq, hr]

/-- WHAT A ROW OF PRIMITIVES CAN DO. If it answers a next state, that state is reached by applying some first part of the
row, with ticks of the countdowns between, and is either the end of the row, or an ended run or the interrupted state with PC
at a statement of the row. An invariant of `applyPrim`, `tick`, `interrupted` and, in an ended run, `State.standing` is
therefore one of `runRow`. -/
theorem runRow_induct {P : State → Prop} (htick : ∀ s, P s → P (tick s)) (hint : ∀ s, P s → P (interrupted s))
    (hstand : ∀ s q, s.outcome ≠ .running → P s → P (s.standing q)) :
    ∀ (row : Row) (s t : State),
      (∀ e ∈ row, ∀ u b, P u → primGuard e.1 u.lines b = none → P (applyPrim e.1 u)) → P s → runRow row s = .next t → P t
  | [], s, t, _, hs, h => by cases h; exact hs
  | (p, q) :: row, s, t, hp, hs, h => by
    by_cases hr : s.outcome = .running
    · by_cases hi : s.interruptIn = some 0
      · simp only [runRow, hr, hi, if_true] at h
        cases h; exact hstand _ q (by simp) (hint s hs)
      · simp only [runRow, hr, hi, if_true, if_false] at h
        cases hcc : s.chipContends with
        | true => simp [hcc] at h
        | false =>
        simp only [hcc, Bool.false_eq_true, if_false] at h
        cases hg : primGuard p s.lines (decide (s.driveIn = some 0)) with
        | some f => simp [hg] at h
        | none =>
          simp only [hg] at h
          have hn := hp (p, q) List.mem_cons_self (tick s) _ (htick s hs) hg
          by_cases ho : (applyPrim p (tick s)).outcome = .running
          · rw [if_pos ho] at h
            exact runRow_induct htick hint hstand row _ t (fun e he => hp e (List.mem_cons_of_mem _ he)) hn h
          · rw [if_neg ho] at h
            cases h; exact hstand _ q ho hn
    · rw [runRow_ended hr] at h
      cases h; exact hs

/-- PC WHERE A ROW STOPS: as before where the run goes on, and at statements inside it, put before it, where the row ended
the run (10_state R33). No primitive of a row but `load` and `setPc` writes PC. -/
theorem runRow_pc : ∀ (row : Row) (s t : State), (∀ e ∈ row, ∀ u, (applyPrim e.1 u).pc = u.pc) → runRow row s = .next t →
    (t.outcome = .running → t.pc = s.pc) ∧ ∃ inner, t.pc = inner ++ s.pc ∧ (inner = [] ∨ ∃ e ∈ row, e.2 = inner)
  | [], s, t, _, h => by cases h; exact ⟨fun _ => rfl, [], rfl, .inl rfl⟩
  | (p, q) :: row, s, t, hp, h => by
    have hpc : (applyPrim p (tick s)).pc = s.pc := hp (p, q) List.mem_cons_self (tick s)
    by_cases hr : s.outcome = .running
    · by_cases hi : s.interruptIn = some 0
      · simp only [runRow, hr, hi, if_true] at h
        cases h
        exact ⟨fun h => by simp at h, q, rfl, .inr ⟨_, List.mem_cons_self, rfl⟩⟩
      · simp only [runRow, hr, hi, if_true, if_false] at h
        cases hcc : s.chipContends with
        | true => simp [hcc] at h
        | false =>
        simp only [hcc, Bool.false_eq_true, if_false] at h
        cases hg : primGuard p s.lines (decide (s.driveIn = some 0)) with
        | some f => simp [hg] at h
        | none =>
          simp only [hg] at h
          by_cases ho : (applyPrim p (tick s)).outcome = .running
          · rw [if_pos ho] at h
            obtain ⟨h1, inner, h2, h3⟩ := runRow_pc row _ t (fun e he => hp e (List.mem_cons_of_mem _ he)) h
            rw [hpc] at h1 h2
            exact ⟨h1, inner, h2, h3.imp id fun ⟨e, he, hq⟩ => ⟨e, List.mem_cons_of_mem _ he, hq⟩⟩
          · rw [if_neg ho] at h
            cases h
            exact ⟨fun h => absurd h ho, q, by simp [hpc], .inr ⟨_, List.mem_cons_self, rfl⟩⟩
    · rw [runRow_ended hr] at h
      cases h; exact ⟨fun _ => rfl, [], rfl, .inl rfl⟩

/-- WHAT A SEQUENCER STATEMENT CAN DO. If `doThen` answers a next state, its own primitives answer one, which is the answer
where the run ended in it; and otherwise the host interrupts before `pc <- next`, or PC moves. -/
theorem doThen_cases {ps : List Prim} {next : List Pos → List Pos} {s t : State} (h : doThen ps next s = .next t) :
    ∃ u, runPrims ps s = .next u ∧ ((u.outcome ≠ .running ∧ t = u) ∨
      (u.outcome = .running ∧ u.interruptIn = some 0 ∧ t = interrupted u) ∨
      (u.outcome = .running ∧ u.interruptIn ≠ some 0 ∧ u.chipContends = false ∧
        t = { tick u with pc := next s.pc })) := by
  unfold doThen runPrims at h
  rw [List.map_append, runRow_append] at h
  unfold runPrims
  cases hu : runRow (ps.map fun p => (p, [])) s with
  | next u =>
    rw [hu] at h
    refine ⟨u, rfl, ?_⟩
    by_cases hr : u.outcome = .running
    · by_cases hi : u.interruptIn = some 0
      · simp [thenRun, hr, hi, runRow] at h
        exact .inr (.inl ⟨hr, hi, h.symm⟩)
      · cases hc : u.chipContends with
        | true => simp [thenRun, hr, hi, runRow, hc] at h
        | false =>
          have hlast : runRow [(.setPc (next s.pc), [])] u = .next { tick u with pc := next s.pc } := by
            simp [runRow, hr, hi, hc, primGuard, applyPrim]
          simp only [List.map_cons, List.map_nil, thenRun, hr, if_true, hlast, Host.Outcome.next.injEq] at h
          exact .inr (.inr ⟨hr, hi, rfl, h.symm⟩)
    · simp [thenRun, hr] at h
      exact .inl ⟨hr, h.symm⟩
  | fault r => rw [hu] at h; simp [thenRun] at h
  | refused r => rw [hu] at h; simp [thenRun] at h

/-- A statement in two parts: an invariant of both is one of the whole. -/
theorem thenRun_induct {P Q : State → Prop} {o : Host.Outcome State Fault Refusal}
    {f : State → Host.Outcome State Fault Refusal} (ho : ∀ s, o = .next s → Q s)
    (hend : ∀ s, Q s → s.outcome ≠ .running → P s) (hf : ∀ s t, Q s → s.outcome = .running → f s = .next t → P t) :
    ∀ t, thenRun o f = .next t → P t := by
  intro t h
  cases o with
  | next s =>
    simp only [thenRun] at h
    split at h
    · exact hf s t (ho s rfl) (by assumption) h
    · cases h; exact hend _ (ho _ rfl) (by assumption)
  | fault r => simp [thenRun] at h
  | refused r => simp [thenRun] at h

/-- WHAT A CALL CAN DO. If `onReturn` answers a next state, what was called answered one, which has returned to `pc` in a run
that goes on, and then `f` answers; or which has not, and is the answer. -/
theorem onReturn_next {pc : List Pos} {o : Host.Outcome State Fault Refusal}
    {f : State → Host.Outcome State Fault Refusal} {t : State} (h : onReturn pc o f = .next t) :
    ∃ u, o = .next u ∧ ((u.outcome = .running ∧ u.pc = pc ∧ f u = .next t) ∨
      (¬(u.outcome = .running ∧ u.pc = pc) ∧ t = u)) := by
  cases o with
  | next u =>
    simp only [onReturn, thenRun] at h
    split at h
    · rename_i hr
      split at h
      · rename_i hp; exact ⟨u, rfl, .inl ⟨hr, hp, h⟩⟩
      · rename_i hp; cases h; exact ⟨_, rfl, .inr ⟨fun hh => hp hh.2, rfl⟩⟩
    · rename_i hr; cases h; exact ⟨_, rfl, .inr ⟨fun hh => hr hh.1, rfl⟩⟩
  | fault r => simp [onReturn, thenRun] at h
  | refused r => simp [onReturn, thenRun] at h

/-- A call that has returned. -/
theorem onReturn_returned {pc : List Pos} {o : Host.Outcome State Fault Refusal}
    {f : State → Host.Outcome State Fault Refusal} {u : State} (h : o = .next u) (hr : u.outcome = .running)
    (hp : u.pc = pc) : onReturn pc o f = f u := by
  subst h; simp [onReturn, thenRun, hr, hp]

/-- A call that has not returned. -/
theorem onReturn_stopped {pc : List Pos} {o : Host.Outcome State Fault Refusal}
    {f : State → Host.Outcome State Fault Refusal} {u : State} (h : o = .next u)
    (hn : ¬(u.outcome = .running ∧ u.pc = pc)) : onReturn pc o f = .next u := by
  subst h
  simp only [onReturn, thenRun]
  split
  · rename_i hr
    rw [if_neg fun hp => hn ⟨hr, hp⟩]
  · rfl

end Sys2Proof.Machine
end

