-- ==== Sys2Proof/Laws/Phases.lean ====
section
/-! SUPPORT. The phases of 40_bus_cycles: for each, the primitives of its row, that no guard stops it, its effect on the
state, and its pin events. -/

namespace Sys2Proof.Machine

/-! ## Bits -/

theorem getLsbD_setBit (v : Byte) (i : Fin 8) (b : Bool) (j : Nat) (hj : j < 8) :
    (setBit v i b).getLsbD j = if j = i.val then b else v.getLsbD j := by
  unfold setBit
  split
  · rename_i h
    subst h
    simp only [BitVec.getLsbD_or, BitVec.getLsbD_shiftLeft, hj, decide_true, Bool.true_and, BitVec.getLsbD_one]
    by_cases h : j = i.val
    · subst h; simp
    · by_cases h2 : j < i.val
      · simp [h, h2]
      · have : j - i.val ≠ 0 := by omega
        simp [h, h2, this]
  · rename_i h
    simp only [Bool.not_eq_true] at h
    subst h
    simp only [BitVec.getLsbD_and, BitVec.getLsbD_not, BitVec.getLsbD_shiftLeft, hj, decide_true, Bool.true_and,
      BitVec.getLsbD_one]
    by_cases h : j = i.val
    · subst h; simp
    · by_cases h2 : j < i.val
      · simp [h, h2]
      · have : j - i.val ≠ 0 := by omega
        simp [h, h2, this]

/-- All 8 lines set, one after the other, carry the byte (20_memory R66). -/
theorem setBits_eq (d v : Byte) :
    setBit (setBit (setBit (setBit (setBit (setBit (setBit (setBit d 0 (v.getLsbD 0)) 1 (v.getLsbD 1)) 2 (v.getLsbD 2)) 3
      (v.getLsbD 3)) 4 (v.getLsbD 4)) 5 (v.getLsbD 5)) 6 (v.getLsbD 6)) 7 (v.getLsbD 7) = v := by
  apply BitVec.eq_of_getLsbD_eq
  intro i hi
  interval_cases i <;> simp only [getLsbD_setBit, Nat.lt_add_one, Nat.reduceLT, Nat.reduceEqDiff, Fin.isValue, Fin.val_zero,
    Fin.val_one, if_true, if_false] <;> rfl

theorem setBits_true (d : Byte) : setBit (setBit (setBit (setBit (setBit (setBit (setBit (setBit d 0 true) 1 true) 2 true) 3
    true) 4 true) 5 true) 6 true) 7 true = 0xFF#8 := setBits_eq d 0xFF#8

theorem setBits_false (d : Byte) : setBit (setBit (setBit (setBit (setBit (setBit (setBit (setBit d 0 false) 1 false) 2
    false) 3 false) 4 false) 5 false) 6 false) 7 false = 0x00#8 := setBits_eq d 0x00#8

/-! ## The primitives of a row, its positions left off -/

@[simp] theorem prims_stmt (q : Proc) (n : Nat) (p : Prim) : (stmt q n p).prims = [p] := rfl
@[simp] theorem prims_lineLoop (q : Proc) (n : Nat) (f : Fin 8 → Prim) :
    (lineLoop q n f).prims = [f 0, f 1, f 2, f 3, f 4, f 5, f 6, f 7] := rfl
@[simp] theorem prims_calls (q : Proc) (n i : Nat) (row : Row) : (calls q n i row).prims = row.prims := by
  simp [calls, Row.prims, Function.comp_def]
theorem prims_byteLoop {body : Byte → Nat → Row} {g : Byte → List Prim} (h : ∀ v i, (body v i).prims = g v) :
    ∀ (vs : List Byte) (i : Nat), (byteLoop body vs i).prims = vs.flatMap g
  | [], _ => rfl
  | v :: vs, i => by rw [byteLoop, prims_append, h, prims_byteLoop h vs, List.flatMap_cons]

/-- The primitives of one byte driven and strobed. -/
def byteOut (v : Byte) : List Prim := (driveByte v).prims ++ weStrobe.prims

@[simp] theorem prims_writeByte (q : Proc) (n : Nat) (v : Byte) (i : Nat) : (writeByte q n v i).prims = byteOut v := by
  simp [writeByte, byteOut]

/-! ## Small lemmas -/

@[simp] theorem turnEvents_same (d : Dir) : turnEvents d d = [] := by simp [turnEvents]
@[simp] theorem busDir_same (d : Dir) : busDir d d = [] := by simp [busDir]
@[simp] theorem turned_dqDir (ls : Lines) (d : Dir) : (ls.turned d).dqDir = d := by
  unfold Lines.turned; split <;> simp_all
@[simp] theorem turned_turned (ls : Lines) (d : Dir) : (ls.turned d).turned d = ls.turned d := by
  generalize h : ls.turned d = m
  have hd : m.dqDir = d := by rw [← h]; exact turned_dqDir ls d
  simp [Lines.turned, hd]
@[simp] theorem turned_cle (ls : Lines) (d : Dir) : (ls.turned d).cle = ls.cle := by unfold Lines.turned; split <;> rfl
@[simp] theorem turned_ale (ls : Lines) (d : Dir) : (ls.turned d).ale = ls.ale := by unfold Lines.turned; split <;> rfl
@[simp] theorem turned_we (ls : Lines) (d : Dir) : (ls.turned d).we = ls.we := by unfold Lines.turned; split <;> rfl
@[simp] theorem turned_re (ls : Lines) (d : Dir) : (ls.turned d).re = ls.re := by unfold Lines.turned; split <;> rfl
@[simp] theorem turned_wp (ls : Lines) (d : Dir) : (ls.turned d).wp = ls.wp := by unfold Lines.turned; split <;> rfl

/-! ## BusDir -/

theorem busDir_quiet (cur d : Dir) : (busDir cur d).prims.all Prim.quiet = true := by
  unfold busDir; split <;> rfl

theorem busDir_lines (ls : Lines) (d : Dir) : ls.afterAll (busDir ls.dqDir d).prims = ls.turned d := by
  unfold busDir Lines.turned
  split
  · rfl
  · cases d <;> simp [Lines.after, Lines.event, Lines.setDir, setBits_true, setBits_false]

theorem busDir_guards (ls : Lines) (d : Dir) (hw : ls.we = true) (hr : ls.re = true) :
    guardsPass (busDir ls.dqDir d).prims ls = true := by
  unfold busDir
  split
  · rfl
  · simp [primGuard, Lines.after, Lines.event, Lines.setDir, Lines.strobeLow, Lines.contested, Lines.contended, hw, hr]

theorem applyAll_busDir (s : State) (d : Dir) :
    applyAll (busDir s.lines.dqDir d).prims s =
      { s with lines := s.lines.turned d, pinLog := (turnEvents s.lines.dqDir d).reverse ++ s.pinLog } := by
  rw [← busDir_lines]
  unfold busDir turnEvents
  split
  · rfl
  · simp [dqLines, applyPrim, Lines.after]

/-! ## DriveByte and WeStrobe -/

theorem primGuard_driveLine (v : Byte) (i : Fin 8) (ls : Lines) (hr : ls.re = true) :
    primGuard (driveLine v i) ls false = none := by
  unfold driveLine; split <;> simp [primGuard, Lines.event, Lines.setLevel, Lines.contested, Lines.contended, hr]

theorem after_driveLine (v : Byte) (i : Fin 8) (ls : Lines) :
    ls.after (driveLine v i) = { ls with dq := setBit ls.dq i (v.getLsbD i.val) } := by
  unfold driveLine
  cases h : v.getLsbD i.val <;> simp [Lines.after, Lines.event, Lines.setLevel]

theorem applyPrim_driveLine (v : Byte) (i : Fin 8) (s : State) :
    applyPrim (driveLine v i) s =
      { s with lines := { s.lines with dq := setBit s.lines.dq i (v.getLsbD i.val) },
               pinLog := (if v.getLsbD i.val then .setHigh (.dq i) else .setLow (.dq i)) :: s.pinLog } := by
  unfold driveLine
  cases h : v.getLsbD i.val <;> simp [applyPrim, Lines.event, Lines.setLevel]

theorem driveLine_quiet (v : Byte) (i : Fin 8) : (driveLine v i).quiet = true := by unfold driveLine; split <;> rfl

theorem byteOut_quiet (v : Byte) : (byteOut v).all Prim.quiet = true := by
  simp only [byteOut, driveByte, prims_append, prims_stmt, prims_lineLoop, weStrobe, List.cons_append, List.nil_append,
    List.all_cons, driveLine_quiet, List.all_nil]
  rfl

theorem byteOut_lines (v : Byte) (ls : Lines) (hw : ls.we = true) :
    ls.afterAll (byteOut v) = { ls with dq := v } := by
  simp only [byteOut, driveByte, prims_append, prims_stmt, prims_lineLoop, weStrobe, afterAll_append, afterAll_cons,
    afterAll_nil, after_driveLine]
  simp only [Lines.after, Lines.event, Lines.setLevel]
  have := setBits_eq ls.dq v
  simp only [Fin.val_zero, Fin.val_one] at this ⊢
  rw [← hw]
  congr 1

theorem byteOut_guards (v : Byte) (ls : Lines) (hr : ls.re = true) : guardsPass (byteOut v) ls = true := by
  simp only [byteOut, driveByte, prims_append, prims_stmt, prims_lineLoop, weStrobe, List.cons_append, List.nil_append,
    guardsPass_cons, guardsPass_nil, after_driveLine, primGuard_driveLine, hr]
  simp [primGuard, Lines.after, Lines.event, Lines.setLevel, Lines.contested, Lines.contended]

theorem applyAll_byteOut (v : Byte) (s : State) (hw : s.lines.we = true) :
    applyAll (byteOut v) s =
      { s with lines := { s.lines with dq := v }, pinLog := (writeEvents v).reverse ++ s.pinLog,
               cycleLog := ({ s.lines with dq := v } : Lines).writeCycle :: s.cycleLog } := by
  have h1 := byteOut_lines v s.lines hw
  rw [← h1]
  have hb := setBits_eq s.lines.dq v
  simp only [byteOut, driveByte, prims_append, prims_stmt, prims_lineLoop, weStrobe, applyAll_append, applyAll_cons,
    applyAll_nil, applyPrim_driveLine, writeEvents, driveEvents, dqLines, List.map_cons, List.map_nil, strobeEvents]
  simp only [afterAll_append, afterAll_cons, afterAll_nil, after_driveLine]
  simp only [applyPrim, Lines.after, Lines.event, Lines.setLevel, Lines.writeCycle, Lines.dout]
  simp only [Fin.val_zero, Fin.val_one] at hb ⊢
  simp

theorem bytesOut_quiet (vs : List Byte) : (vs.flatMap byteOut).all Prim.quiet = true := by
  simp only [List.all_flatMap, List.all_eq_true]
  intro v _
  simpa [List.all_eq_true] using byteOut_quiet v

/-- The lines after a row of bytes: the last one stays driven. -/
theorem bytesOut_lines : ∀ (vs : List Byte) (ls : Lines), ls.we = true →
    ls.afterAll (vs.flatMap byteOut) = { ls with dq := vs.getLastD ls.dq }
  | [], _, _ => rfl
  | v :: vs, ls, hw => by
    rw [List.flatMap_cons, afterAll_append, byteOut_lines v ls hw, bytesOut_lines vs { ls with dq := v } hw]
    cases vs <;> rfl

theorem bytesOut_guards : ∀ (vs : List Byte) (ls : Lines), ls.we = true → ls.re = true →
    guardsPass (vs.flatMap byteOut) ls = true
  | [], _, _, _ => rfl
  | v :: vs, ls, hw, hr => by
    rw [List.flatMap_cons, guardsPass_append, byteOut_guards v ls hr, byteOut_lines v ls hw]
    exact bytesOut_guards vs _ hw hr

theorem applyAll_bytesOut : ∀ (vs : List Byte) (s : State), s.lines.we = true →
    applyAll (vs.flatMap byteOut) s =
      { s with lines := { s.lines with dq := vs.getLastD s.lines.dq },
               pinLog := (vs.flatMap writeEvents).reverse ++ s.pinLog,
               cycleLog := (vs.map fun v => ({ s.lines with dq := v } : Lines).writeCycle).reverse ++ s.cycleLog }
  | [], _, _ => rfl
  | v :: vs, s, hw => by
    rw [List.flatMap_cons, applyAll_append, applyAll_byteOut v s hw, applyAll_bytesOut vs _ (by exact hw)]
    cases vs
    · simp
    · simp; rfl

/-! ## Cmd, Addr, DataOut -/

theorem prims_cmdPhase (cur : Dir) (c : Byte) : (cmdPhase cur c).prims =
    (busDir cur .out).prims ++ ([.pin (.setHigh .cle), pausePrim] ++ (byteOut c ++ [.pin (.setLow .cle), pausePrim])) := by
  simp [cmdPhase, byteOut]

theorem prims_addrPhase (cur : Dir) (a : List Byte) : (addrPhase cur a).prims = (busDir cur .out).prims ++
    ([.pin (.setHigh .ale), pausePrim] ++ (a.flatMap byteOut ++ [.pin (.setLow .ale), pausePrim])) := by
  simp [addrPhase, prims_byteLoop (prims_writeByte .addr 3)]

theorem prims_dataOutPhase (cur : Dir) (ds : List Byte) :
    (dataOutPhase cur ds).prims = (busDir cur .out).prims ++ ds.flatMap byteOut := by
  simp [dataOutPhase, prims_byteLoop (prims_writeByte .dataOut 1)]

theorem cmdPhase_quiet (cur : Dir) (c : Byte) : (cmdPhase cur c).prims.all Prim.quiet = true := by
  simp [prims_cmdPhase, List.all_append, busDir_quiet, byteOut_quiet, Prim.quiet, -List.all_eq_true]

theorem cmdPhase_guards (ls : Lines) (c : Byte) (hw : ls.we = true) (hr : ls.re = true) :
    guardsPass (cmdPhase ls.dqDir c).prims ls = true := by
  rw [prims_cmdPhase, guardsPass_append, busDir_guards ls .out hw hr, busDir_lines, guardsPass_append, guardsPass_append,
    byteOut_guards, byteOut_lines] <;>
    simp [primGuard, Lines.after, Lines.event, Lines.setLevel, Lines.contested, Lines.contended, hw, hr]

/-- Cmd(c) on the state (40_bus_cycles R138). -/
theorem applyAll_cmdPhase (s : State) (c : Byte) (hw : s.lines.we = true) :
    applyAll (cmdPhase s.lines.dqDir c).prims s =
      { s with lines := { s.lines.turned .out with dq := c, cle := false },
               pinLog := (cmdEvents s.lines.dqDir c).reverse ++ s.pinLog,
               cycleLog := ({ s.lines with dq := c, cle := true } : Lines).writeCycle :: s.cycleLog } := by
  rw [prims_cmdPhase, applyAll_append, applyAll_busDir, applyAll_append, applyAll_append, applyAll_byteOut _ _ (by
    simp [applyPrim, Lines.event, Lines.setLevel, hw])]
  simp [applyPrim, Lines.event, Lines.setLevel, cmdEvents, Lines.writeCycle, Lines.dout]

theorem addrPhase_quiet (cur : Dir) (a : List Byte) : (addrPhase cur a).prims.all Prim.quiet = true := by
  simp [prims_addrPhase, List.all_append, busDir_quiet, bytesOut_quiet, Prim.quiet, -List.all_eq_true, -List.all_flatMap]

theorem addrPhase_guards (ls : Lines) (a : List Byte) (hw : ls.we = true) (hr : ls.re = true) :
    guardsPass (addrPhase ls.dqDir a).prims ls = true := by
  rw [prims_addrPhase, guardsPass_append, busDir_guards ls .out hw hr, busDir_lines, guardsPass_append, guardsPass_append,
    bytesOut_guards, bytesOut_lines] <;>
    simp [primGuard, Lines.after, Lines.event, Lines.setLevel, Lines.contested, Lines.contended, hw, hr]

/-- Addr(a) on the state (40_bus_cycles R139). -/
theorem applyAll_addrPhase (s : State) (a : List Byte) (hw : s.lines.we = true) :
    applyAll (addrPhase s.lines.dqDir a).prims s =
      { s with lines := { s.lines.turned .out with dq := a.getLastD s.lines.dq, ale := false },
               pinLog := (addrEvents s.lines.dqDir a).reverse ++ s.pinLog,
               cycleLog := (a.map fun v => ({ s.lines with dq := v, ale := true } : Lines).writeCycle).reverse ++
                 s.cycleLog } := by
  have hdq : (s.lines.turned .out).dq = s.lines.dq := by unfold Lines.turned; split <;> rfl
  rw [prims_addrPhase, applyAll_append, applyAll_busDir, applyAll_append, applyAll_append, applyAll_bytesOut _ _ (by
    simp [applyPrim, Lines.event, Lines.setLevel, hw])]
  simp [applyPrim, Lines.event, Lines.setLevel, addrEvents, Lines.writeCycle, Lines.dout, hdq]

theorem dataOutPhase_quiet (cur : Dir) (ds : List Byte) : (dataOutPhase cur ds).prims.all Prim.quiet = true := by
  rw [prims_dataOutPhase, List.all_append, busDir_quiet, bytesOut_quiet]
  rfl

theorem dataOutPhase_guards (ls : Lines) (ds : List Byte) (hw : ls.we = true) (hr : ls.re = true) :
    guardsPass (dataOutPhase ls.dqDir ds).prims ls = true := by
  rw [prims_dataOutPhase, guardsPass_append, busDir_guards ls .out hw hr, busDir_lines, bytesOut_guards] <;> simp [hw, hr]

/-- DataOut on the state (40_bus_cycles R140). -/
theorem applyAll_dataOutPhase (s : State) (ds : List Byte) (hw : s.lines.we = true) :
    applyAll (dataOutPhase s.lines.dqDir ds).prims s =
      { s with lines := { s.lines.turned .out with dq := ds.getLastD s.lines.dq },
               pinLog := (dataOutEvents s.lines.dqDir ds).reverse ++ s.pinLog,
               cycleLog := (ds.map fun v => ({ s.lines with dq := v } : Lines).writeCycle).reverse ++ s.cycleLog } := by
  have hdq : (s.lines.turned .out).dq = s.lines.dq := by unfold Lines.turned; split <;> rfl
  rw [prims_dataOutPhase, applyAll_append, applyAll_busDir, applyAll_bytesOut _ _ (by simp [hw])]
  simp [dataOutEvents, Lines.writeCycle, Lines.dout, hdq]

/-! ## DataIn -/

/-- The primitives of DataIn1. -/
def byteIn (v : Byte) : List Prim := (dataIn1 v).prims

theorem prims_dataInPhase (cur : Dir) (vs : List Byte) :
    (dataInPhase cur vs).prims = (busDir cur .inp).prims ++ vs.flatMap byteIn := by
  simp [dataInPhase, prims_byteLoop (g := byteIn) fun v i => prims_calls .dataIn 1 i (dataIn1 v)]

theorem byteIn_quiet (v : Byte) : (byteIn v).all Prim.quiet = true := rfl

theorem byteIn_lines (v : Byte) (ls : Lines) (hr : ls.re = true) : ls.afterAll (byteIn v) = ls := by
  simp only [byteIn, dataIn1, prims_append, prims_stmt, prims_lineLoop, afterAll_append, afterAll_cons, afterAll_nil,
    Lines.after, Lines.event, Lines.setLevel]
  cases ls; simp only at hr; subst hr; rfl

theorem byteIn_guards (v : Byte) (ls : Lines) (hd : ls.dqDir = .inp) : guardsPass (byteIn v) ls = true := by
  simp [byteIn, dataIn1, primGuard, Lines.after, Lines.event, Lines.setLevel, Lines.contested, Lines.contended, hd]

/-- DataIn1 on the state (40_bus_cycles R141). -/
theorem applyAll_byteIn (v : Byte) (s : State) (hr : s.lines.re = true) :
    applyAll (byteIn v) s =
      { s with pinLog := (dataIn1Events v).reverse ++ s.pinLog, cycleLog := s.lines.readCycle v :: s.cycleLog, din := v,
               written := { s.written with din := true } } := by
  have hl := byteIn_lines v s.lines hr
  have h : applyAll (byteIn v) s =
      { s with lines := s.lines.afterAll (byteIn v), pinLog := (dataIn1Events v).reverse ++ s.pinLog,
               cycleLog := s.lines.readCycle v :: s.cycleLog, din := v, written := { s.written with din := true } } := by
    simp [byteIn, dataIn1, applyPrim, Lines.after, Lines.event, Lines.setLevel, dataIn1Events, dqLines, Lines.readCycle]
  rw [h, hl]

theorem bytesIn_quiet (vs : List Byte) : (vs.flatMap byteIn).all Prim.quiet = true := by
  simp only [List.all_flatMap, List.all_eq_true]
  intro v _
  simpa [List.all_eq_true] using byteIn_quiet v

theorem bytesIn_lines : ∀ (vs : List Byte) (ls : Lines), ls.re = true → ls.afterAll (vs.flatMap byteIn) = ls
  | [], _, _ => rfl
  | v :: vs, ls, hr => by
    rw [List.flatMap_cons, afterAll_append, byteIn_lines v ls hr, bytesIn_lines vs ls hr]

theorem bytesIn_guards : ∀ (vs : List Byte) (ls : Lines), ls.dqDir = .inp → ls.re = true →
    guardsPass (vs.flatMap byteIn) ls = true
  | [], _, _, _ => rfl
  | v :: vs, ls, hd, hr => by
    rw [List.flatMap_cons, guardsPass_append, byteIn_guards v ls hd, byteIn_lines v ls hr]
    exact bytesIn_guards vs ls hd hr

theorem applyAll_bytesIn : ∀ (vs : List Byte) (s : State), s.lines.re = true → vs ≠ [] →
    applyAll (vs.flatMap byteIn) s =
      { s with pinLog := (vs.flatMap dataIn1Events).reverse ++ s.pinLog,
               cycleLog := (vs.map s.lines.readCycle).reverse ++ s.cycleLog, din := vs.getLastD s.din,
               written := { s.written with din := true } }
  | [], _, _, h => absurd rfl h
  | [v], s, hr, _ => by
    rw [List.flatMap_cons, applyAll_append, applyAll_byteIn v s hr]; simp
  | v :: w :: vs, s, hr, _ => by
    rw [List.flatMap_cons, applyAll_append, applyAll_byteIn v s hr,
      applyAll_bytesIn (w :: vs) _ (by exact hr) (by simp)]
    simp
    rfl

theorem dataInPhase_quiet (cur : Dir) (vs : List Byte) : (dataInPhase cur vs).prims.all Prim.quiet = true := by
  rw [prims_dataInPhase, List.all_append, busDir_quiet, bytesIn_quiet]
  rfl

theorem dataInPhase_guards (ls : Lines) (vs : List Byte) (hw : ls.we = true) (hr : ls.re = true) :
    guardsPass (dataInPhase ls.dqDir vs).prims ls = true := by
  rw [prims_dataInPhase, guardsPass_append, busDir_guards ls .inp hw hr, busDir_lines, bytesIn_guards] <;> simp [hr]

/-- DataIn on the state (40_bus_cycles R142). -/
theorem applyAll_dataInPhase (s : State) (vs : List Byte) (hr : s.lines.re = true) (hv : vs ≠ []) :
    applyAll (dataInPhase s.lines.dqDir vs).prims s =
      { s with lines := s.lines.turned .inp, pinLog := (dataInEvents s.lines.dqDir vs).reverse ++ s.pinLog,
               cycleLog := (vs.map s.lines.readCycle).reverse ++ s.cycleLog, din := vs.getLastD s.din,
               written := { s.written with din := true } } := by
  rw [prims_dataInPhase, applyAll_append, applyAll_busDir, applyAll_bytesIn vs _ (by simp [hr]) hv]
  have : (s.lines.turned .inp).readCycle = s.lines.readCycle := by
    funext v; simp [Lines.readCycle]
  simp [dataInEvents, this]

/-! ## WaitReady -/

theorem busySamples_quiet : ∀ (n start : Nat), (busySamples start n).prims.all Prim.quiet = true
  | 0, _ => rfl
  | n + 1, start => by
    rw [busySamples, prims_append, List.all_append, busySamples_quiet n]
    rfl

theorem busySamples_lines : ∀ (n start : Nat) (ls : Lines), ls.afterAll (busySamples start n).prims = ls
  | 0, _, _ => rfl
  | n + 1, start, ls => by
    rw [busySamples, prims_append, afterAll_append, busySamples_lines n]; rfl

theorem busySamples_guards : ∀ (n start : Nat) (ls : Lines), ls.re = true →
    guardsPass (busySamples start n).prims ls = true
  | 0, _, _, _ => rfl
  | n + 1, start, ls, hr => by
    rw [busySamples, prims_append, guardsPass_append]
    have : ls.afterAll (busySample (start + 1)).prims = ls := rfl
    rw [this, busySamples_guards n _ ls hr]
    simp [busySample, primGuard, Lines.event, Lines.after, Lines.contested, Lines.contended, hr]

/-- `n` busy samples on the state (40_bus_cycles R145). -/
theorem applyAll_busySamples : ∀ (n start : Nat) (s : State), applyAll (busySamples start n).prims s =
    { s with polls := if n = 0 then s.polls else start + n, pinLog := (busyEvents n).reverse ++ s.pinLog }
  | 0, _, _ => rfl
  | n + 1, start, s => by
    rw [busySamples, prims_append, applyAll_append, applyAll_busySamples n]
    cases n with
    | zero => simp [busySample, applyPrim, Lines.event, busyEvents]
    | succ n =>
      have : start + 1 + (n + 1) = start + (n + 1 + 1) := by omega
      simp [busySample, applyPrim, Lines.event, busyEvents, List.replicate_succ, this]

/-! ## InitLines -/

theorem initLines_guards (ls : Lines) : guardsPass initLines ls = true := by
  simp [initLines, dqLines, primGuard, Lines.after, Lines.event, Lines.setDir, Lines.setLevel, Lines.contested,
    Lines.contended]

theorem initLines_quiet : initLines.all Prim.quiet = true := rfl

/-- InitLines leaves the lines at rest, from any lines (70_reset_and_hazards R301, 10_state R47). -/
theorem initLines_atRest (ls : Lines) : (ls.afterAll initLines).atRest = true := by
  simp [initLines, dqLines, Lines.after, Lines.event, Lines.setDir, Lines.setLevel, Lines.atRest, setBits_false]

end Sys2Proof.Machine
end

