-- ==== Sys2Proof/Laws/Steps.lean ====
section
/-! SUPPORT. Steps and runs: the step at a label, at a placed word and at a command line, a run one step longer, and what
raising a fault does, each said once. -/

namespace Sys2Proof.Machine

/-- The step at a label, no bus cycle being placed, is its statement. -/
theorem step_label {s : State} {l : Label} {rest : List Pos} (h : s.outcome = .running) (hk : s.contends = false)
    (hw : s.placed = none) (hp : s.pc = .lab l :: rest) : step s = runLabel l s := by
  simp [step, nextWork, seqWork, h, hk, hw, hp]

/-- The step in a wait's loop (40_bus_cycles R146). -/
theorem step_wait {s : State} {rest : List Pos} (h : s.outcome = .running) (hk : s.contends = false)
    (hw : s.placed = none) (hp : s.pc = waitLoop :: rest) : step s = runWaitLoop { s with pc := rest } := by
  simp [step, nextWork, seqWork, h, hk, hw, hp, waitLoop]

/-- The step at S0, or of a run that has ended, is what the command line selects. -/
theorem step_host {s : State} (hk : s.contends = false)
    (h : s.outcome ≠ .running ∨ (s.pc = [.s0] ∧ s.placed = none)) : nextWork s = hostWork s := by
  by_cases hr : s.outcome = .running
  · have hp : s.pc = [.s0] ∧ s.placed = none := by simpa [hr] using h
    simp [nextWork, seqWork, hk, hr, hp.1, hp.2]
  · simp [nextWork, hk, hr]

@[simp] theorem run_zero (s : State) : Host.Core.run Sys2Proof.core 0 s = .next s := rfl

/-- A run whose first step is known. -/
theorem run_next {s t : State} (h : step s = .next t) (n : Nat) :
    Host.Core.run Sys2Proof.core (n + 1) s = Host.Core.run Sys2Proof.core n t := by
  have hs : Sys2Proof.core.step s = .next t := h
  simp only [Host.Core.run, hs]

theorem run_one (s : State) : Host.Core.run Sys2Proof.core 1 s = step s := by
  cases h : step s with
  | next t => rw [run_next h]; rfl
  | fault r =>
    have hs : Sys2Proof.core.step s = .fault r := h
    simp only [Host.Core.run, hs]
    rfl
  | refused r =>
    have hs : Sys2Proof.core.step s = .refused r := h
    simp only [Host.Core.run, hs]
    rfl

/-- A run in two parts. -/
theorem run_add {s t : State} {m : Nat} (n : Nat) (h : Host.Core.run Sys2Proof.core m s = .next t) :
    Host.Core.run Sys2Proof.core (m + n) s = Host.Core.run Sys2Proof.core n t := by
  induction m generalizing s with
  | zero => cases h; simp
  | succ m ih =>
    cases hs : step s with
    | next u => rw [run_next hs] at h; rw [Nat.succ_add, run_next hs]; exact ih h
    | fault r =>
      have hs' : Sys2Proof.core.step s = .fault r := hs
      simp only [Host.Core.run, hs'] at h; cases h
    | refused r =>
      have hs' : Sys2Proof.core.step s = .refused r := hs
      simp only [Host.Core.run, hs'] at h; cases h

/-- One step, and then a run. -/
theorem RunsTo.step {s t : State} {P : State → Prop} (h : step s = .next t) : RunsTo t P → RunsTo s P := by
  rintro ⟨n, u, hn, hu⟩
  exact ⟨n + 1, u, by rw [run_next h]; exact hn, hu⟩

/-- A run, and then a run. -/
theorem RunsTo.trans {s t : State} {P : State → Prop} {m : Nat} (h : Host.Core.run Sys2Proof.core m s = .next t) :
    RunsTo t P → RunsTo s P := by
  rintro ⟨n, u, hn, hu⟩
  exact ⟨m + n, u, by rw [run_add n h]; exact hn, hu⟩

/-- A fatal fault raised in a run that goes on (60_exceptions R268). -/
theorem runPrims_raise {s : State} (h : s.outcome = .running) (hc : s.interruptIn = none) (hd : s.driveIn = none)
    (f : FatalFault) (info : FaultInfo) (ps : List Prim) :
    runPrims (.raise f info :: ps) s = .next (raiseFault f info s) :=
  runRow_cons_ends h hc hd rfl (by simp [applyPrim, raiseFault])

/-- A HostIoError with no statement before it (60_exceptions R264). -/
theorem raiseHostIo_nil {s : State} (h : s.outcome = .running) (hc : s.interruptIn = none) (hd : s.driveIn = none) :
    raiseHostIo [] s = .next (raiseFault .hostIoError (.message (Config.hostMessage s.env.draws))
      { s with env := { s.env with draws := s.env.draws + 1 } }) := by
  simp only [raiseHostIo, List.nil_append]
  rw [runPrims_raise (by exact h) (by exact hc) (by exact hd)]

/-- A statement's own primitives, and then `pc <- next`, in an undisturbed run. -/
theorem doThen_next {ps : List Prim} {next : List Pos → List Pos} {s : State} (hr : s.outcome = .running)
    (hc : s.interruptIn = none) (hd : s.driveIn = none) (hq : ps.all Prim.quiet = true)
    (hg : guardsPass ps s.lines = true) : doThen ps next s = .next { applyAll ps s with pc := next s.pc } := by
  unfold doThen
  rw [runPrims_quiet hr hc hd (by simp [List.all_append, hq, Prim.quiet, -List.all_eq_true])
    (by simp [guardsPass_append, hg, primGuard]), applyAll_append]
  rfl

/-- `pc <- next` alone, in an undisturbed run. -/
theorem doThen_nil {next : List Pos → List Pos} {s : State} (hr : s.outcome = .running) (hc : s.interruptIn = none)
    (hd : s.driveIn = none) : doThen [] next s = .next { s with pc := next s.pc } :=
  doThen_next hr hc hd rfl rfl

/-- A step with nothing to do leaves an undisturbed run, and a run that has ended, as it is. -/
theorem stayIdle_calm {s : State} (h : s.outcome ≠ .running ∨ s.interruptIn ≠ some 0) : stayIdle s = s := by
  unfold stayIdle; split <;> simp_all

/-- A host command that passes check 4 (42_operations R212): the invocation's reset state with what Validate loads. -/
theorem hostCommand_loads {cmd : Cmd} {delay first count : Nat} {spare : Bool} {path : Token} {s : State}
    (hc : s.interruptIn = none) (hd : s.driveIn = none) (h : cmd = .readId ∨ 1 ≤ count) :
    hostCommand cmd delay first count spare path s =
      .next { startInvocation s with
        cmd := cmd, delay := delay, first := first, count := count, includeSpare := spare, path := path,
        pc := [.lab .s1] } := by
  have hn : ¬(cmd ≠ .readId ∧ count = 0) := by rintro ⟨h1, h2⟩; rcases h with h | h <;> [exact h1 h; omega]
  simp only [hostCommand, if_neg hn]
  exact runRow_cons_calm (s := startInvocation s) rfl hc hd rfl rfl

end Sys2Proof.Machine
end

