-- ==== Sys2Proof/Laws/Transactions.lean ====
section
/-! SUPPORT. The transactions of 41_transactions: that no guard stops one that starts with both strobes high, and that each
then answers a next state, whatever OUTCOME and the host's interrupt are. -/

namespace Sys2Proof.Machine

/-- A row of primitives whose guards pass answers a next state, interrupted or not. -/
theorem runRow_total : ∀ (row : Row) (s : State), s.driveIn = none → guardsPass row.prims s.lines = true →
    ∃ t, runRow row s = .next t
  | [], s, _, _ => ⟨s, rfl⟩
  | (p, q) :: row, s, hd, h => by
    simp only [prims_cons, guardsPass_cons, Bool.and_eq_true, Option.isNone_iff_eq_none] at h
    by_cases hr : s.outcome = .running
    · by_cases hi : s.interruptIn = some 0
      · exact ⟨_, by simp only [runRow, hr, hi, if_true]; rfl⟩
      · by_cases ho : (applyPrim p (tick s)).outcome = .running
        · simp only [runRow, hr, hi, hd, chipContends_undriven hd, if_true, if_false, h.1, ho, reduceCtorEq, decide_false,
            Bool.false_eq_true]
          exact runRow_total row _ (by rw [applyPrim_driveIn]; simp [tick, hd])
            (by rw [applyPrim_lines]; exact h.2)
        · exact ⟨_, by simp only [runRow, hr, hi, hd, chipContends_undriven hd, if_true, if_false, h.1, ho,
            reduceCtorEq, decide_false, Bool.false_eq_true]; rfl⟩
    · exact ⟨s, runRow_ended hr _⟩

/-- A statement whose guards pass answers a next state, interrupted or not. -/
theorem doThen_total {ps : List Prim} {next : List Pos → List Pos} {s : State} (hd : s.driveIn = none)
    (hg : guardsPass ps s.lines = true) : ∃ t, doThen ps next s = .next t := by
  unfold doThen runPrims
  exact runRow_total _ _ hd (by rw [prims_own, guardsPass_append, hg]; rfl)

/-- A call answers a next state if what it calls does and what comes after does. -/
theorem onReturn_total {pc : List Pos} {o : Host.Outcome State Fault Refusal}
    {f : State → Host.Outcome State Fault Refusal} (ho : ∃ t, o = .next t) (hf : ∀ u, ∃ t, f u = .next t) :
    ∃ t, onReturn pc o f = .next t := by
  obtain ⟨u, rfl⟩ := ho
  by_cases h : u.outcome = .running ∧ u.pc = pc
  · obtain ⟨t, ht⟩ := hf u
    exact ⟨t, by rw [onReturn_returned rfl h.1 h.2, ht]⟩
  · exact ⟨u, onReturn_stopped rfl h⟩

/-! ## Phases one after the other -/

/-- A row that, from both strobes high and DQDIR = `cur`, no guard stops, and that ends with both strobes high and
DQDIR = `d` (10_state R25, R48). -/
def Turns (cur d : Dir) (row : Row) : Prop :=
  ∀ ls : Lines, ls.we = true → ls.re = true → ls.dqDir = cur → guardsPass row.prims ls = true ∧
    (ls.afterAll row.prims).we = true ∧ (ls.afterAll row.prims).re = true ∧ (ls.afterAll row.prims).dqDir = d

theorem Turns.append {c d e : Dir} {a b : Row} (hp : Turns c d a) (hq : Turns d e b) : Turns c e (a ++ b) := by
  intro ls hw hr hd
  obtain ⟨p1, p2, p3, p4⟩ := hp ls hw hr hd
  obtain ⟨q1, q2, q3, q4⟩ := hq _ p2 p3 p4
  rw [prims_append, guardsPass_append, afterAll_append, p1, q1]
  exact ⟨rfl, q2, q3, q4⟩

theorem Turns.calls {c d : Dir} {row : Row} {q : Proc} {n i : Nat} (h : Turns c d row) : Turns c d (calls q n i row) := by
  unfold Turns
  rw [prims_calls]
  exact h

theorem turns_cmd (cur : Dir) (c : Byte) : Turns cur .out (cmdPhase cur c) := by
  rintro ls hw hr rfl
  refine ⟨cmdPhase_guards ls c hw hr, ?_⟩
  rw [prims_cmdPhase, afterAll_append, busDir_lines, afterAll_append, afterAll_append, byteOut_lines] <;>
    simp [Lines.after, Lines.event, Lines.setLevel, hw, hr]

theorem turns_addr (cur : Dir) (a : List Byte) : Turns cur .out (addrPhase cur a) := by
  rintro ls hw hr rfl
  refine ⟨addrPhase_guards ls a hw hr, ?_⟩
  rw [prims_addrPhase, afterAll_append, busDir_lines, afterAll_append, afterAll_append, bytesOut_lines] <;>
    simp [Lines.after, Lines.event, Lines.setLevel, hw, hr]

theorem turns_dataOut (cur : Dir) (ds : List Byte) : Turns cur .out (dataOutPhase cur ds) := by
  rintro ls hw hr rfl
  refine ⟨dataOutPhase_guards ls ds hw hr, ?_⟩
  rw [prims_dataOutPhase, afterAll_append, busDir_lines, bytesOut_lines _ _ (by simp [hw])]
  simp [hw, hr]

theorem turns_dataIn (cur : Dir) (vs : List Byte) : Turns cur .inp (dataInPhase cur vs) := by
  rintro ls hw hr rfl
  refine ⟨dataInPhase_guards ls vs hw hr, ?_⟩
  rw [prims_dataInPhase, afterAll_append, busDir_lines, bytesIn_lines _ _ (by simp [hr])]
  simp [hw, hr]

theorem turns_wait (cur : Dir) (w : Wait) : Turns cur cur (waitReady w) := by
  intro ls hw hr hd
  have hl : ls.afterAll (waitReady w).prims = ls := by
    unfold waitReady timeoutSample
    split <;> simp [afterAll_append, busySamples_lines, Lines.after, Lines.event]
  refine ⟨?_, by rw [hl]; exact ⟨hw, hr, hd⟩⟩
  unfold waitReady timeoutSample
  split <;>
    simp [guardsPass_append, busySamples_guards, busySamples_lines, primGuard, Lines.after, Lines.event, Lines.contested,
      Lines.contended, hr]

/-! ## The five transactions -/

theorem turns_readId (cur : Dir) (bs : List Byte) : Turns cur .inp (readIdRow cur bs) :=
  ((((turns_cmd cur _).calls).append ((turns_addr .out _).calls)).append ((turns_dataIn .out bs).calls)).append
    fun _ hw hr hd => ⟨rfl, hw, hr, hd⟩

theorem turns_readPageOpen (cur : Dir) (p : Nat) : Turns cur .out (readPageOpen cur p) :=
  (((turns_cmd cur _).calls).append ((turns_addr .out _).calls)).append ((turns_cmd .out _).calls)

theorem turns_readPageWait (cur : Dir) (p : Nat) (w : Wait) : Turns cur .out (readPageWait cur p w) :=
  (turns_readPageOpen cur p).append ((turns_wait _ w).calls)

theorem turns_readPageData (x : Buf) {bs : List Byte} (h : bs.length = PAGE_SIZE) :
    Turns .out .inp (readPageData x bs) :=
  ((turns_dataIn .out bs).calls).append fun _ hw hr hd => ⟨by simp [primGuard, h], hw, hr, hd⟩

theorem turns_writePage (cur : Dir) (p : Nat) (bs : List Byte) : Turns cur .out (writePageRow cur p bs) :=
  ((((turns_cmd cur _).calls).append ((turns_addr .out _).calls)).append ((turns_dataOut .out bs).calls)).append
    ((turns_cmd .out _).calls)

theorem turns_eraseBlock (cur : Dir) (b : Nat) : Turns cur .out (eraseBlockRow cur b) :=
  (((turns_cmd cur _).calls).append ((turns_addr .out _).calls)).append ((turns_cmd .out _).calls)

theorem turns_readStatus (cur : Dir) (v : Byte) : Turns cur .inp (readStatusRow cur v) :=
  (((turns_cmd cur _).calls).append ((turns_dataIn .out [v]).calls)).append fun _ hw hr hd => ⟨rfl, hw, hr, hd⟩

/-! ## Each transaction answers a next state -/

/-- Both strobes are high and the chip keeps to them (10_state R25, R48). -/
structure Quiet (s : State) : Prop where
  undriven : s.driveIn = none
  we : s.lines.we = true
  re : s.lines.re = true

theorem Ready.quiet {s : State} (h : Ready s) : Quiet s := ⟨h.undriven, h.we, h.re⟩

/-- A row that turns the bus, run from both strobes high, answers a next state, interrupted or not. -/
theorem Turns.next {s : State} {d : Dir} {row : Row} (h : Turns s.lines.dqDir d row) (hs : Quiet s) :
    ∃ t, runRow row s = .next t :=
  runRow_total _ _ hs.undriven (h _ hs.we hs.re rfl).1

theorem execReadId_next (s : State) (hs : Quiet s) : ∃ t, execReadId s = .next t :=
  Turns.next (s := { s with env := _ }) (turns_readId _ _) ⟨hs.1, hs.2, hs.3⟩

theorem execReadStatus_next (s : State) (hs : Quiet s) : ∃ t, execReadStatus s = .next t :=
  Turns.next (s := { s with env := _ }) (turns_readStatus _ _) ⟨hs.1, hs.2, hs.3⟩

theorem execEraseBlock_next (b : Nat) (s : State) (hs : Quiet s) : ∃ t, execEraseBlock b s = .next t :=
  (turns_eraseBlock _ b).next hs

theorem execWritePage_next (p : Nat) (s : State) (hs : Quiet s) : ∃ t, execWritePage p s = .next t :=
  (turns_writePage _ p _).next hs

theorem runWaitReady_next (s : State) (hs : Quiet s) : ∃ t, runWaitReady s = .next t := by
  unfold runWaitReady
  simp only
  have h : ∃ t, runRow (waitReady (drawWait s.cfg.busyLimit s.env))
      { s with env := (drawWait s.cfg.busyLimit s.env).env } = .next t :=
    Turns.next (s := { s with env := _ }) (turns_wait _ _) ⟨hs.1, hs.2, hs.3⟩
  split
  · exact h
  · exact h
  · exact onReturn_total h fun u => ⟨_, rfl⟩

theorem execReadPage_next (p : Nat) (x : Buf) (s : State) (hs : Quiet s) : ∃ t, execReadPage p x s = .next t := by
  unfold execReadPage
  simp only
  have h : ∃ t, runRow (readPageWait s.lines.dqDir p (drawWait s.cfg.busyLimit s.env))
      { s with env := (drawWait s.cfg.busyLimit s.env).env } = .next t :=
    Turns.next (s := { s with env := _ }) (turns_readPageWait _ p _) ⟨hs.1, hs.2, hs.3⟩
  split
  · exact Turns.next (s := { s with env := _ }) ((turns_readPageWait _ p _).append
      (turns_readPageData x (drawBytes_length _ _))) ⟨hs.1, hs.2, hs.3⟩
  · exact h
  · exact onReturn_total h fun u => ⟨_, rfl⟩

end Sys2Proof.Machine
end

