-- ==== Sys2Proof/Tests/Slice0.lean ====
section
/-! SUPPORT. Small tests. Expected results come from the spec's vectors (95_test_vectors V-…) or from hand calculation by
the rule named. Witnesses that the statements' hypotheses can be met stand at the end, one theorem a statement. -/

namespace Sys2Proof.Tests

open Sys2Proof.Machine

/-- The next state of an outcome. -/
def nextOf (o : Host.Outcome State Fault Refusal) : Option State :=
  match o with
  | .next t => some t
  | .fault _ => none
  | .refused _ => none

theorem next_of_isSome {o : Host.Outcome State Fault Refusal} (h : (nextOf o).isSome = true) : ∃ t, o = .next t := by
  cases o with
  | next t => exact ⟨t, rfl⟩
  | fault _ => cases h
  | refused _ => cases h

/-- The reset state with what the environment is to answer. -/
def bench (rb : List Bool) (dq : List Byte) (gate io : List Bool) : State :=
  { State.reset with env := { rb := rb, rbStuckLow := false, dq := dq, gate := gate, io := io, draws := 0 } }

/-- A state whose PC is at the label `l`. -/
def atL (l : Label) (s : State) : State := { s with pc := [.lab l] }

/-- A state whose DQDIR is OUT. -/
def busOut (s : State) : State := { s with lines := s.lines.turned .out }

/-- The ID of the reference chip. -/
def refId : DevId := ⟨0xAA, 0xF1, 0x80, 0x15, 0x02⟩

/-- A command line's tokens. -/
def line (ws : List String) : List Token := ws.map String.toList

/-! ## WellFormed: one ill-formed term for each check -/

theorem test_illformed_addr : WellFormed (.addr 0x00#8) = false := by decide
theorem test_illformed_readPage : WellFormed (.readPage 16777216 .a) = false := by decide
theorem test_illformed_writePage : WellFormed (.writePage 16777216) = false := by decide
theorem test_illformed_eraseBlock : WellFormed (.eraseBlock 262144) = false := by decide
theorem test_illformed_readFull : WellFormed (.readFull 30 0 0 []) = false := by decide
theorem test_illformed_readData : WellFormed (.readData 30 0 0 []) = false := by decide
theorem test_illformed_writeFull : WellFormed (.writeFull 30 0 0 []) = false := by decide
theorem test_illformed_eraseBlocks : WellFormed (.eraseBlocks 30 0 0) = false := by decide

/-! ## Decoding: words written out from 30_encoding R90, R91, R93 as K, C, A and the byte -/

theorem test_word_cmdReadId : decodeTableWord 16 0b01010010000 = some .cmdReadId := by decide
theorem test_word_cmdReadSetup : decodeTableWord 16 0b01000000000 = some .cmdReadSetup := by decide
theorem test_word_cmdReadConfirm : decodeTableWord 16 0b01000110000 = some .cmdReadConfirm := by decide
theorem test_word_cmdProgSetup : decodeTableWord 16 0b01010000000 = some .cmdProgSetup := by decide
theorem test_word_cmdProgConfirm : decodeTableWord 16 0b01000010000 = some .cmdProgConfirm := by decide
theorem test_word_cmdEraseSetup : decodeTableWord 16 0b01001100000 = some .cmdEraseSetup := by decide
theorem test_word_cmdEraseConfirm : decodeTableWord 16 0b01011010000 = some .cmdEraseConfirm := by decide
theorem test_word_cmdReadStatus : decodeTableWord 16 0b01001110000 = some .cmdReadStatus := by decide
theorem test_word_idAddr : decodeTableWord 16 0b00100000000 = some .idAddr := by decide
theorem test_word_addr : decodeTableWord 16 0b00111000000 = some (.addr 0xC0#8) := by decide
theorem test_word_dataW : decodeTableWord 16 0b00010100101 = some (.dataW 0xA5#8) := by decide
theorem test_word_dataR : decodeTableWord 16 0b10011100001 = some (.dataR 0xE1#8) := by decide
/-- Both latches (30_encoding R92). -/
theorem test_word_reserved_latches : decodeTableWord 16 0b01100000000 = none := by decide
/-- A latch in a read strobe (30_encoding R92). -/
theorem test_word_reserved_read : decodeTableWord 16 0b11010010000 = none := by decide
/-- NAND's reset 0xFF is none of the eight (30_encoding R94). -/
theorem test_word_unknown_command : decodeTableWord 16 0b01011111111 = none := by decide
theorem test_word_too_wide : decodeTableWord 16 0x800 = none := by decide

/-! ## Transactions told by their words (30_encoding R99, V-T-1, V-T-5 to V-T-7, V-A-4) -/

theorem test_words_readId :
    (decodeTransaction .a [0x290, 0x100, 0x4AA, 0x4F1, 0x480, 0x415, 0x402]).toOption =
      some (.readId, [0xAA, 0xF1, 0x80, 0x15, 0x02], []) := by decide
theorem test_words_eraseBlock :
    (decodeTransaction .a [0x260, 0x100, 0x101, 0x100, 0x2D0]).toOption = some (.eraseBlock 4, [], []) := by decide
theorem test_words_eraseBlock_row_not_a_block :
    (decodeTransaction .a [0x260, 0x101, 0x100, 0x100, 0x2D0]).toOption = none := by decide
theorem test_words_readStatus :
    (decodeTransaction .a [0x270, 0x4E1]).toOption = some (.readStatus, [0xE1], []) := by decide
theorem test_words_readPage :
    (decodeTransaction .b ([0x200, 0x100, 0x100, 0x145, 0x123, 0x101, 0x230] ++ List.replicate 2112 0x4FF)).toOption.map
      (·.1) = some (.readPage 0x012345 .b) := by decide +kernel
theorem test_words_writePage :
    (decodeTransaction .a ([0x280, 0x100, 0x100, 0x1C0, 0x100, 0x100] ++ List.replicate 2112 0x0FF ++ [0x210])).toOption.map
      (·.1) = some (.writePage 192) := by decide +kernel

/-! ## Addresses (V-A-5, V-A-6, V-B-4, V-B-7) -/

theorem test_pageAddr_top : pageAddr 0xFFFFFF = [0x00, 0x00, 0xFF, 0xFF, 0xFF] := by decide
theorem test_pageAddr_alias : pageAddr 0x1000000 = [0x00, 0x00, 0x00, 0x00, 0x00] := by decide
theorem test_blockAddr_1023 : blockAddr 1023 = [0xC0, 0xFF, 0x00] := by decide
theorem test_blockAddr_alias : blockAddr 262144 = [0x00, 0x00, 0x00] := by decide

/-! ## Host command lines (V-H-1 to V-H-15) -/

theorem test_line_readId : (decodeCommand (line ["30", "read_id"])).toOption = some (.readIdCmd 30) := by decide
theorem test_line_readFull : (decodeCommand (line ["30", "read_full", "16777216", "1", "a.bin"])).toOption =
    some (.readFull 30 16777216 1 "a.bin".toList) := by decide
theorem test_line_readData : (decodeCommand (line ["30", "read_data", "0", "1", "a.bin"])).toOption =
    some (.readData 30 0 1 "a.bin".toList) := by decide
theorem test_line_writeFull : (decodeCommand (line ["30", "write_full", "64", "3", "in.bin"])).toOption =
    some (.writeFull 30 64 3 "in.bin".toList) := by decide
theorem test_line_eraseBlocks : (decodeCommand (line ["30", "erase_blocks", "2", "5"])).toOption =
    some (.eraseBlocks 30 2 5) := by decide
theorem test_line_missing_path : (decodeCommand (line ["30", "read_full", "0", "1"])).toOption = none := by decide
theorem test_line_extra_argument : (decodeCommand (line ["30", "erase_blocks", "5", "1", "x"])).toOption = none := by decide
theorem test_line_negative : (decodeCommand (line ["30", "read_full", "-1", "1", "a.bin"])).toOption = none := by decide
theorem test_line_hex : (decodeCommand (line ["30", "read_full", "0x10", "1", "a.bin"])).toOption = none := by decide
theorem test_line_unknown_verb : (decodeCommand (line ["30", "dump", "0", "1", "a.bin"])).toOption = none := by decide
theorem test_line_no_delay : (decodeCommand (line ["read_id"])).toOption = none := by decide
theorem test_line_bad_delay : (decodeCommand (line ["x", "read_id"])).toOption = none := by decide

/-! ## Bus cycles (V-P-1 to V-P-7, 40_bus_cycles R138 to R142) -/

/-- V-P-1, event by event. -/
theorem test_cmdReadId_events : (nextOf (exec .cmdReadId State.reset)).map (·.events) =
    some ((List.finRange 8).map (fun i => PinEvent.setDir (.dq i) .out) ++ [.pause, .setHigh .cle, .pause,
      .setLow (.dq 0), .setLow (.dq 1), .setLow (.dq 2), .setLow (.dq 3), .setHigh (.dq 4), .setLow (.dq 5),
      .setLow (.dq 6), .setHigh (.dq 7), .pause, .setLow .we, .pause, .setHigh .we, .pause, .setLow .cle, .pause]) := by
  decide
theorem test_cmdReadId_state : (nextOf (exec .cmdReadId State.reset)).map
    (fun t => (t.cycles, t.lines.dqDir, t.lines.cle, t.lines.dout)) = some ([0x290], .out, false, 0x90) := by decide
theorem test_cmdReadSetup : (nextOf (exec .cmdReadSetup State.reset)).map (·.cycles) = some [0x200] := by decide
theorem test_cmdReadConfirm : (nextOf (exec .cmdReadConfirm (busOut State.reset))).map
    (fun t => (t.cycles, t.events.length)) = some ([0x230], 17) := by decide
theorem test_cmdProgSetup : (nextOf (exec .cmdProgSetup State.reset)).map (·.cycles) = some [0x280] := by decide
theorem test_cmdProgConfirm : (nextOf (exec .cmdProgConfirm State.reset)).map (·.cycles) = some [0x210] := by decide
theorem test_cmdEraseSetup : (nextOf (exec .cmdEraseSetup State.reset)).map (·.cycles) = some [0x260] := by decide
theorem test_cmdEraseConfirm : (nextOf (exec .cmdEraseConfirm State.reset)).map (·.cycles) = some [0x2D0] := by decide
/-- V-P-2. -/
theorem test_cmdReadStatus : (nextOf (exec .cmdReadStatus (busOut State.reset))).map
    (fun t => (t.cycles, t.events.length)) = some ([0x270], 17) := by decide
/-- V-P-4. -/
theorem test_idAddr : (nextOf (exec .idAddr (busOut State.reset))).map
    (fun t => (t.cycles, t.events.take 2, t.events.length)) = some ([0x100], [.setHigh .ale, .pause], 17) := by decide
theorem test_addr : (nextOf (exec (.addr 0xC0#8) State.reset)).map
    (fun t => (t.cycles, t.lines.ale, t.lines.dq, t.events.length)) = some ([0x1C0], false, 0xC0, 26) := by decide
/-- 40_bus_cycles R140's example. -/
theorem test_dataW : (nextOf (exec (.dataW 0xA5#8) (busOut State.reset))).map
    (fun t => (t.cycles, t.events.length)) = some ([0x0A5], 13) := by decide
/-- V-P-7. -/
theorem test_dataR : (nextOf (exec (.dataR 0xAA#8) State.reset)).map (fun t => (t.cycles, t.din, t.events)) =
    some ([0x4AA], 0xAA, [.setLow .re, .pause, .readLevel (.dq 0) false, .readLevel (.dq 1) true, .readLevel (.dq 2) false,
      .readLevel (.dq 3) true, .readLevel (.dq 4) false, .readLevel (.dq 5) true, .readLevel (.dq 6) false,
      .readLevel (.dq 7) true, .setHigh .re, .pause]) := by decide
/-- The bus is turned to IN first (40_bus_cycles R142). -/
theorem test_dataR_turns : (nextOf (exec (.dataR 0xE0#8) (busOut State.reset))).map
    (fun t => (t.lines.dqDir, t.events.length)) = some (.inp, 21) := by decide
/-- V-P-6. -/
theorem test_dataOut_two_bytes : (nextOf (runRow (dataOutPhase .out [0xA5#8, 0x5A#8]) (busOut State.reset))).map
    (fun t => (t.cycles, t.events.length)) = some ([0x0A5, 0x05A], 26) := by decide
/-- V-P-5: five address bytes under one ALE. -/
theorem test_addr_five_bytes : (nextOf (runRow (addrPhase .out (pageAddr 10)) (busOut State.reset))).map
    (fun t => (t.cycles, t.events.length, t.events.count (.setHigh .ale))) =
    some ([0x100, 0x100, 0x10A, 0x100, 0x100], 69, 1) := by decide

/-! ## Transactions (V-T-1 to V-T-8) -/

theorem test_readId : (nextOf (exec .readId (bench [] [0xAA, 0xF1, 0x80, 0x15, 0x02] [] []))).map
    (fun t => (t.cycles, t.idRd.bytes, t.lines.dqDir, t.events.length)) =
    some ([0x290, 0x100, 0x4AA, 0x4F1, 0x480, 0x415, 0x402], [0xAA, 0xF1, 0x80, 0x15, 0x02], .inp, 112) := by
  decide +kernel
theorem test_readId_all_identical : (nextOf (exec .readId (bench [] [0xFF, 0xFF, 0xFF, 0xFF, 0xFF] [] []))).map
    (fun t => (idSame t.idRd, t.outcome)) = some (true, .running) := by decide +kernel
/-- readPage(10) up to the read-confirm (V-T-3). -/
theorem test_readPage_opens : (nextOf (runRow (readPageOpen .inp 10) State.reset)).map
    (fun t => (t.cycles, t.events.length)) =
    some ([0x200, 0x100, 0x100, 0x10A, 0x100, 0x100, 0x230], 112) := by decide +kernel
/-- V-T-8 with BUSY_LIMIT = some 3. -/
theorem test_readPage_busyTimeout :
    (nextOf (exec (.readPage 10 .a) { bench [false, false, false] [] [] [] with
      cfg := { Cfg.default with busyLimit := some 3 } })).map
      (fun t => (t.info, t.cycles.length, t.bufA.length, t.events.length, t.pc)) =
    some (.polls 3, 7, 0, 117, [.stmt .waitReady 3 0, .stmt .readPage 3 0, .s0]) := by
  decide +kernel
/-- writePage's statements with a page of one byte in place of the 2112 (41_transactions R190). -/
theorem test_writePage_words : (nextOf (runRow (writePageRow .inp 192 [0xFF#8]) State.reset)).map
    (fun t => (t.cycles, t.lines.dqDir)) =
    some ([0x280, 0x100, 0x100, 0x1C0, 0x100, 0x100, 0x0FF, 0x210], .out) := by decide +kernel
/-- V-T-5. -/
theorem test_eraseBlock : (nextOf (exec (.eraseBlock 4) State.reset)).map
    (fun t => (t.cycles, t.lines.dqDir, t.events.length)) =
    some ([0x260, 0x100, 0x101, 0x100, 0x2D0], .out, 86) := by decide
/-- V-T-6. -/
theorem test_readStatus : (nextOf (exec .readStatus (bench [] [0xE1] [] []))).map
    (fun t => (t.cycles, t.status, t.fail, t.events.length)) = some ([0x270, 0x4E1], 0xE1, true, 47) := by decide
/-- V-S-4. -/
theorem test_readStatus_high_bits : (nextOf (exec .readStatus (bench [] [0xFE] [] []))).map (·.fail) = some false := by
  decide
/-- V-W-2. -/
theorem test_waitReady : (nextOf (runWaitReady (bench [false, false, true] [] [] []))).map
    (fun t => (t.polls, t.events)) = some (2, [.readLevel .rb false, .pause, .readLevel .rb false, .pause,
      .readLevel .rb true]) := by decide
/-- V-W-6. -/
theorem test_waitReady_limit_one :
    (nextOf (runWaitReady { bench [false] [] [] [] with cfg := { Cfg.default with busyLimit := some 1 } })).map
      (fun t => (t.outcome, t.events)) = some (.fatal .busyTimeout, [.readLevel .rb false]) := by decide

/-! ## Host commands and the preflight (V-H-1 to V-H-6, V-F-1 to V-F-7, V-Z-1) -/

theorem test_readIdCmd : (nextOf (exec (.readIdCmd 30) State.reset)).map (fun t => (t.cmd, t.delay, t.pc, t.events)) =
    some (.readId, 30, [.lab .s1], []) := by decide
theorem test_readFull : (nextOf (exec (.readFull 30 5 2 []) State.reset)).map
    (fun t => (t.cmd, t.first, t.count, t.includeSpare)) = some (.readFull, 5, 2, true) := by decide
/-- V-H-6. -/
theorem test_readFull_count_zero : (nextOf (exec (.readFull 30 0 0 []) State.reset)).map
    (fun t => (t.outcome, t.reports, t.events, exitCode t)) =
    some (.fatal .usageError, [.fault 1], [], some (-1)) := by decide
theorem test_readData : (nextOf (exec (.readData 30 10 4 []) State.reset)).map
    (fun t => (t.cmd, t.includeSpare, t.pc)) = some (.readData, false, [.lab .s1]) := by decide
theorem test_writeFull : (nextOf (exec (.writeFull 30 192 1 []) State.reset)).map (fun t => (t.cmd, t.first)) =
    some (.writeFull, 192) := by decide
theorem test_eraseBlocks : (nextOf (exec (.eraseBlocks 30 3 2) State.reset)).map (fun t => (t.cmd, t.first, t.count)) =
    some (.eraseBlocks, 3, 2) := by decide
/-- V-F-3: the output file cannot be opened. -/
theorem test_s1_open_fails : (nextOf (step (atL .s1 { bench [] [] [] [false] with cmd := .readFull }))).map
    (fun t => (t.outcome, t.reports, t.events)) = some (.fatal .hostIoError, [.fault 4], []) := by decide
/-- V-Z-1. -/
theorem test_initLines_events : (nextOf (step (atL .s2 State.reset))).map (·.events) =
    some ([.setDir .rb .inp] ++ (List.finRange 8).map (fun i => PinEvent.setDir (.dq i) .inp) ++ [.pause,
      .setDir .cle .out, .setLow .cle, .setDir .ale .out, .setLow .ale, .setDir .we .out, .setHigh .we,
      .setDir .re .out, .setHigh .re, .setDir .wp .out, .setHigh .wp, .pause]) := by decide
/-- V-F-1. -/
theorem test_s3_busy : (nextOf (step (atL .s3 (bench [false] [] [] [])))).map
    (fun t => (t.outcome, t.reports, t.cycles)) = some (.fatal .powerOrWiringFault, [.fault 2], []) := by decide
/-- V-F-2. -/
theorem test_s4_identical : (nextOf (step (atL .s4 (bench [] [0xFF, 0xFF, 0xFF, 0xFF, 0xFF] [] [])))).map
    (fun t => (t.outcome, t.cycles.length, t.idValid)) = some (.fatal .deviceAbsentOrMiswired, 7, false) := by
  decide +kernel
/-- V-I-5. -/
theorem test_s4_caches : (nextOf (step (atL .s4 (bench [] [0xFF, 0xFF, 0xFF, 0xFF, 0xFE] [] [])))).map
    (fun t => (t.idCache.bytes, t.idValid, t.reports)) =
    some ([0xFF, 0xFF, 0xFF, 0xFF, 0xFE], true, [.id ⟨0xFF, 0xFF, 0xFF, 0xFF, 0xFE⟩]) := by decide +kernel
/-- V-F-5. -/
theorem test_s5_abort : (nextOf (step (atL .s5 { bench [] [] [false] [] with cmd := .eraseBlocks }))).map
    (fun t => (t.outcome, t.reports, t.events)) = some (.aborted, [], []) := by decide
/-- V-I-7: byte order matters, and nothing is reported (42_operations R233). -/
theorem test_i3_drift : (nextOf (step (atL .i3 { State.reset with
      idCache := ⟨0xAA, 0xF1, 0x80, 0x15, 0x02⟩, idRd := ⟨0x02, 0x15, 0x80, 0xF1, 0xAA⟩, retry := 1 }))).map
    (fun t => (t.pc, t.retry, t.reports)) = some ([.lab .i1], 1, []) := by decide

/-! ## The retry engine (V-R-4, V-R-5, V-G-3, 42_operations R229) -/

/-- V-R-5: bad.log gets the digits of 7 and a line feed. -/
theorem test_p7_exhausted : (nextOf (step (atL .p7 { bench [] [] [] [true] with first := 7, retry := 5 }))).map
    (fun t => (t.badLog, t.badFile, t.reports, t.pc)) =
    some ([7], [0x37, 0x0A], [.giveUp .read 7], [.lab .p8]) := by decide
/-- A page of two digits and more (20_memory R74). -/
theorem test_badLine_130 : badLine 130 = [0x31, 0x33, 0x30, 0x0A] := by decide
/-- COUNT = 3 gives 33 after the first unit; page 130 is in block 2. -/
theorem test_p9_progress : (nextOf (step (atL .p9 { State.reset with first := 130, count := 3 }))).map (·.reports) =
    some [.progress 130 2 33] := by decide
/-- An erase of block 5 reports Progress(320, 5, pct). -/
theorem test_e8_progress : (nextOf (step (atL .e8 { State.reset with first := 5, count := 1 }))).map (·.reports) =
    some [.progress 320 5 100] := by decide
/-- V-G-3: the sixth failing status. -/
theorem test_w8_exhausted : (nextOf (step (atL .w8 { State.reset with first := 9, retry := 5 }))).map
    (fun t => (t.failLog, t.badFile, t.reports, t.pc)) =
    some ([(.program, 9)], [], [.giveUp .program 9], [.lab .w9]) := by decide
/-- V-G-2. -/
theorem test_e7_retry : (nextOf (step (atL .e7 { State.reset with first := 4 }))).map
    (fun t => (t.failLog, t.reports, t.pc)) = some ([], [.retry .erase 4 1], [.lab .e2]) := by decide
/-- V-G-6: a short record. -/
theorem test_w2_short : (nextOf (step (atL .w2 { State.reset with record := some [0x00, 0x01] }))).map
    (fun t => (t.outcome, t.events, t.bufA)) = some (.fatal .hostIoError, [], []) := by decide

/-! ## Steps -/

theorem test_step_runs_the_placed_word : (nextOf (step (State.reset.withFetchWord 16 0x290))).map
    (fun t => (t.cycles, t.pc)) = some ([0x290], [.s0]) := by decide
theorem test_step_refuses_a_reserved_word :
    (match step (State.reset.withFetchWord 16 0x300) with | .refused r => some r | _ => none) =
      some .reservedCycle := by decide
/-- A host interrupt while WE# is 0 leaves CLE at 1 and WE# at 0 (60_exceptions R275), with PC at WeStrobe's first Pause in
Cmd: 8 events, DQDIR, 1, 2, 9 and 1. -/
theorem test_interrupt_mid_cycle : (nextOf (exec .cmdReadId { State.reset with interruptIn := some 22 })).map
    (fun t => (t.outcome, t.lines.cle, t.lines.we, t.cycles, t.pc)) =
    some (.aborted, true, false, [], [.stmt .weStrobe 1 0, .stmt .cmd 4 0, .s0]) := by decide
/-- An interrupt at S4 before the third byte of readId's DataIn drives RE# low: PC has the byte index 2 (10_state R33). Before it
come Cmd's 27 primitives, Addr's 17, the bus turn's 10 and 13 for each of two bytes. -/
theorem test_interrupt_byte_index :
    (nextOf (step (atL .s4 { bench [] [0xAA, 0xF1, 0x80, 0x15, 0x02] [] [] with interruptIn := some 80 }))).map
      (fun t => (t.outcome, t.pc, t.cycles)) =
    some (.aborted, [.stmt .dataIn1 0 0, .stmt .dataIn 1 2, .stmt .readId 2 0, .lab .s4],
      [0x290, 0x100, 0x4AA, 0x4F1]) := by decide +kernel
/-- The chip drives DQ while the engine does (60_exceptions R277): from the second command byte's cycle on. -/
theorem test_chip_drives_contention :
    (match exec .cmdReadStatus { busOut State.reset with driveIn := some 2 } with | .fault f => some f | _ => none) =
      some .busContention := by decide
/-- The chip drives DQ with RE# at 1: at S7, before OUTCOME is Done; at P6, before `pc <- s`; after the end of a run; and from InitLines' SetHigh(RE#) on, its 19th primitive, but not in S1. -/
theorem test_chip_drive_is_caught :
    (step { atL .s7 State.reset with driveIn := some 0 }, step { atL .p6 State.reset with driveIn := some 0 },
      step { atL .s7 State.reset with driveIn := some 0, outcome := .done }) =
      (.fault .busContention, .fault .busContention, .fault .busContention) ∧
    step { atL .s2 State.reset with driveIn := some 18 } = .fault .busContention ∧
    (nextOf (step { atL .s1 State.reset with driveIn := some 0 })).isSome = true :=
  ⟨rfl, rfl, rfl⟩
/-- An interrupt of S2 right after InitLines' SetHigh(RE#), the chip driving DQ from there on: the run is aborted with RE# at
1, and that state is contended (10_state R25, 60_exceptions R277). -/
theorem test_chip_drive_after_abort_at_s2 :
    (nextOf (step { atL .s2 State.reset with interruptIn := some 19, driveIn := some 19 })).map
      (fun t => (t.outcome, t.pc, t.lines.re, t.contends, nextOf (step t))) =
    some (.aborted, [.lab .s2], true, true, none) := by decide
/-- A due interrupt is taken at labels whose only primitive is `pc <- s`, and at S0 with no command line (60_exceptions
R275). -/
theorem test_interrupt_at_any_pc :
    (∀ l ∈ [Label.s1, .s5, .s6, .p2, .p3, .i1, .i3, .w3, .w4, .e2, .e3],
      (nextOf (step { atL l State.reset with interruptIn := some 0 })).map (fun t => (t.outcome, t.pc)) =
        some (.aborted, [.lab l])) ∧
    (nextOf (step { State.reset with interruptIn := some 0 })).map (fun t => (t.outcome, t.pc)) =
      some (.aborted, [.s0]) := by decide
/-- `pc <- s` counts as a primitive (00_scope R13): at P2 it is the only one. -/
theorem test_setPc_counts : (nextOf (step { atL .p2 State.reset with interruptIn := some 1 })).map
    (fun t => (t.outcome, t.pc, t.interruptIn)) = some (.running, [.lab .p3], some 0) := by decide
/-- An interrupt inside InitLines leaves PC at S2: its statements are no labels (42_operations R211). -/
theorem test_interrupt_initLines : (nextOf (step { atL .s2 State.reset with interruptIn := some 5 })).map
    (fun t => (t.outcome, t.pc, t.events.length)) = some (.aborted, [.lab .s2], 5) := by decide
/-- ContentMismatch at P6, and none where the pages agree (60_exceptions R260). -/
theorem test_conditionAt_p6 : conditionAt .p6 { State.reset with bufB := [(2111, 0x01#8)] } = some .contentMismatch ∧
    conditionAt .p6 State.reset = none := by decide +kernel
/-- Two lines on one pin, and a limit of 0 (10_state R27, 00_scope R9). -/
theorem test_cfg_wf : Cfg.default.wf = true ∧ { Cfg.default with pinMap := #v[0, 1, 2, 3, 4, 5, 6, 13] }.wf = false ∧
    { Cfg.default with busyLimit := some 0 }.wf = false := by decide
/-- Writing what an unlisted offset reads as removes the entry. -/
theorem test_memory_canonical : Memory.write (Memory.write [] 2111 0x5A#8) 2111 0x00#8 = [] := by decide

/-! ## Witnesses: for each statement with hypotheses, a concrete state and operands that meet them together, at the
boundary of each clause -/

/-- A state that meets `Ready`, with answers. -/
theorem ready_bench (rb : List Bool) (dq : List Byte) (gate io : List Bool) : Ready (bench rb dq gate io) :=
  ⟨rfl, rfl, rfl, rfl, rfl, rfl, rfl⟩

/-- The same at a label. -/
theorem ready_atL (l : Label) {s : State} (h : Ready s) : Ready (atL l s) := ⟨h.1, h.2, h.3, h.4, h.5, h.6, h.7⟩

theorem witness_DecodeOfEncodeIsTheInstruction :
    WellFormed (.readPage 0xFFFFFF .b) = true ∧
    (List.replicate 2112 0x00#8).length = dataLen (.readPage 0xFFFFFF .b) ∧
    ∀ p y, Instr.readPage 0xFFFFFF .b = .readPage p y → y = .b :=
  ⟨by decide, by rw [List.length_replicate]; rfl, by rintro p y ⟨⟩; rfl⟩

theorem witness_EncodeOfDecodedWordIsTheWord : decodeWord 0x4FF = .ok (.dataR 0xFF#8) := rfl

/-- A word of each refused class, placed, and the least number of more than 11 bits. -/
theorem witness_WordsOutsideTheTableAreRefused :
    (State.reset.outcome = .running ∧ State.reset.contends = false ∧ (placeCycle (0x3FF#11).toNat State.reset).placed = some (0x3FF#11).toNat ∧
      decodeWord 0x3FF = .error .reservedCycle) ∧
    ((placeCycle (0x2FF#11).toNat State.reset).placed = some (0x2FF#11).toNat ∧
      decodeWord 0x2FF = .error .unknownCommandByte) ∧
    (placeCycle (2 ^ 11) State.reset).placed = some (2 ^ 11) ∧ 2 ^ 11 ≤ 2 ^ 11 :=
  ⟨⟨rfl, rfl, rfl, rfl⟩, ⟨rfl, rfl⟩, rfl, Nat.le_refl _⟩

theorem witness_TransactionToldByItsWords :
    encodeTransaction (.eraseBlock 262143) [] = some [0x260, 0x1C0, 0x1FF, 0x1FF, 0x2D0] ∧
    WellFormed (.eraseBlock 262143) = true ∧ ([] : List Byte).length = dataLen (.eraseBlock 262143) ∧
    ∀ p y, Instr.eraseBlock 262143 = .readPage p y → y = .a :=
  ⟨by decide, by decide, rfl, by rintro p y ⟨⟩⟩

theorem witness_CommandCyclesSendTheirByte : Ready State.reset := ready_bench [] [] [] []
theorem witness_AddressAndDataCyclesSendTheirByte : Ready (busOut State.reset) := ⟨rfl, rfl, rfl, rfl, rfl, rfl, rfl⟩
theorem witness_DataReadCycleSamplesItsByte : Ready (busOut State.reset) := ⟨rfl, rfl, rfl, rfl, rfl, rfl, rfl⟩

/-- A write cycle, a read cycle, and a cycle that an interrupt stops. -/
theorem witness_BusCyclesKeepTheRest :
    ((encodeWord .cmdEraseConfirm).isSome = true ∧ ∃ t, exec .cmdEraseConfirm State.reset = .next t) ∧
    ((encodeWord (.dataR 0xFF#8)).isSome = true ∧ ∃ t, exec (.dataR 0xFF#8) State.reset = .next t) ∧
    ∃ t, exec .cmdReadId { State.reset with interruptIn := some 0 } = .next t :=
  ⟨⟨rfl, _, rfl⟩, ⟨rfl, _, rfl⟩, _, rfl⟩

/-- Past S2, the engine on DQ with RE# at 0 and the chip with RE# at 1; at S2 once the engine has set RE#; RE# at 0 in each direction, WE# at 0 in each
direction, and a chip that drives DQ at once. -/
theorem witness_ContentionIsAFault :
    ((atL .s3 (busOut { State.reset with lines := { Lines.idle with re := false } })).pc ∉ [[.s0], [.lab .s1], [.lab .s2]] ∧
      (atL .s7 { State.reset with driveIn := some 0 }).pc ∉ [[.s0], [.lab .s1], [.lab .s2]] ∧
      (atL .s7 { State.reset with driveIn := some 0 }).lines.re = true ∧
      PinEvent.setHigh .re ∈ (atL .s2 { State.reset with pinLog := [.setHigh .re], driveIn := some 0 }).pinLog) ∧
    ({ State.reset with lines := { Lines.idle with re := false } }).lines.re = false ∧
    ((busOut { State.reset with lines := { Lines.idle with re := false } }).lines.re = false ∧
      (busOut { State.reset with lines := { Lines.idle with re := false } }).lines.dqDir = .out ∧
      (busOut { State.reset with lines := { Lines.idle with re := false } }).outcome = .running ∧
      (busOut { State.reset with lines := { Lines.idle with re := false } }).interruptIn = none) ∧
    (({ State.reset with lines := { Lines.idle with we := false } }).lines.we = false ∧
      ({ State.reset with lines := { Lines.idle with we := false } }).lines.dqDir = .inp) ∧
    ((busOut { State.reset with lines := { Lines.idle with we := false } }).lines.we = false ∧
      (busOut { State.reset with lines := { Lines.idle with we := false } }).lines.dqDir = .out) ∧
    ({ State.reset with driveIn := some 0 }).driveIn = some 0 ∧
    (encodeWord (.dataW 0x00#8)).isSome = true ∧ ∀ d, Instr.dataW 0x00#8 ≠ .dataR d :=
  ⟨⟨by decide, by decide, rfl, by decide⟩, rfl, ⟨rfl, rfl, rfl, rfl⟩, ⟨rfl, rfl⟩, ⟨rfl, rfl⟩, rfl, rfl, by rintro d ⟨⟩⟩

theorem witness_ReadIdSamplesFiveBytes : Ready (bench [] [0xAA, 0xF1, 0x80, 0x15, 0x02] [] []) := ready_bench _ _ _ _

/-- A bench with BUSY_LIMIT. -/
def limited (n : Option Nat) (rb : List Bool) : State :=
  { bench rb [] [] [] with cfg := { Cfg.default with busyLimit := n } }

/-- Ready at the last sample before the limit; the limit reached; and, with no limit, busy for ever. -/
theorem witness_ReadPageFillsItsBuffer :
    (Ready (limited (some 3) [false, false, true]) ∧
      (drawWait (some 3) (limited (some 3) [false, false, true]).env).fin = .ready) ∧
    (Ready (limited (some 3) [false, false, false]) ∧
      (drawWait (some 3) (limited (some 3) [false, false, false]).env).fin = .timeout) ∧
    (Ready { limited none [] with env := { Env.unscripted with rbStuckLow := true } } ∧
      (drawWait none { Env.unscripted with rbStuckLow := true }).fin = .forever) :=
  ⟨⟨⟨rfl, rfl, rfl, rfl, rfl, rfl, rfl⟩, rfl⟩, ⟨⟨rfl, rfl, rfl, rfl, rfl, rfl, rfl⟩, rfl⟩, ⟨rfl, rfl, rfl, rfl, rfl, rfl, rfl⟩, rfl⟩

theorem witness_EndlessWaitPollsForEver :
    Ready { State.reset with pc := [.stmt .waitReady 1 0, .lab .w6, .lab .s7] } ∧ State.reset.cfg.busyLimit = none ∧
    State.reset.placed = none := ⟨⟨rfl, rfl, rfl, rfl, rfl, rfl, rfl⟩, rfl, rfl⟩

theorem witness_PageReadIsReadBack : ∃ t, Ready (bench [true] [] [] []) ∧ (bench [true] [] [] []).bufA.wf = true ∧
    (bench [true] [] [] []).bufB.wf = true ∧ (drawWait none (bench [true] [] [] []).env).fin = .ready ∧
    exec (.readPage 10 .a) (bench [true] [] [] []) = .next t := by
  obtain ⟨t, ht⟩ := execReadPage_next 10 .a (bench [true] [] [] []) (ready_bench _ _ _ _).quiet
  exact ⟨t, ready_bench _ _ _ _, rfl, rfl, rfl, ht⟩

theorem witness_WritePageSendsBufA : Ready { State.reset with bufA := [(2111, 0x5A#8)] } := ⟨rfl, rfl, rfl, rfl, rfl, rfl, rfl⟩
theorem witness_EraseBlockSendsFiveCycles : Ready State.reset := ready_bench [] [] [] []
theorem witness_ReadStatusSamplesOneByte : Ready (bench [] [0xE1] [] []) := ready_bench _ _ _ _

/-- Both directions. -/
theorem witness_TransactionPinEventCounts : Ready (bench [false, true] [] [] []) ∧
    (drawWait none (bench [false, true] [] [] []).env).fin = .ready ∧ (bench [false, true] [] [] []).lines.dqDir = .inp ∧
    Ready (busOut (bench [false, true] [] [] [])) ∧ (busOut (bench [false, true] [] [] [])).lines.dqDir = .out :=
  ⟨ready_bench _ _ _ _, rfl, rfl, ⟨rfl, rfl, rfl, rfl, rfl, rfl, rfl⟩, rfl⟩

/-- No busy sample; no limit; one sample below the limit. -/
theorem witness_WaitReadyReturnsWhenReady :
    (Ready (limited (some 1) [true]) ∧ (limited (some 1) [true]).env.rb = List.replicate 0 false ++ true :: []) ∧
    (Ready (limited (some 3) [false, false, true]) ∧
      (limited (some 3) [false, false, true]).env.rb = List.replicate 2 false ++ true :: [] ∧
      ∀ n, (limited (some 3) [false, false, true]).cfg.busyLimit = some n → 2 = 0 ∨ 2 < n) :=
  ⟨⟨⟨rfl, rfl, rfl, rfl, rfl, rfl, rfl⟩, rfl⟩, ⟨rfl, rfl, rfl, rfl, rfl, rfl, rfl⟩, rfl, by rintro n ⟨⟩; decide⟩

theorem witness_WaitReadyTimesOut : Ready (limited (some 1) [false]) ∧
    (limited (some 1) [false]).cfg.busyLimit = some (0 + 1) ∧
    (limited (some 1) [false]).env.rb = List.replicate (0 + 1) false ++ [] :=
  ⟨⟨rfl, rfl, rfl, rfl, rfl, rfl, rfl⟩, rfl, rfl⟩

/-- No interrupt to come, and the chip in its strobes. -/
theorem undisturbed_bench (rb : List Bool) (dq : List Byte) (gate io : List Bool) :
    Statements.Undisturbed (bench rb dq gate io) := ⟨rfl, rfl⟩

theorem witness_HostCommandsStartAnInvocation : Statements.Undisturbed State.reset ∧ 1 ≤ 1 := ⟨⟨rfl, rfl⟩, Nat.le_refl 1⟩

/-- A state at S0 with one command line. -/
def given (ws : List String) : State := { State.reset with commands := [line ws] }

/-- Each of the three checks, a run that has ended, and the count of 0. -/
theorem witness_FailedChecksAreUsageErrors :
    (decodeCommand (line ["30", "dump", "0", "1", "a.bin"]) = .error .unknownVerb ∧
      decodeCommand (line ["30", "erase_blocks", "5", "1", "x"]) = .error .wrongArity ∧
      decodeCommand (line ["30", "read_full", "-1", "1", "a.bin"]) = .error .notDecimal) ∧
    ((given ["x", "read_id"]).interruptIn = none ∧ (given ["x", "read_id"]).contends = false ∧ (given ["x", "read_id"]).pc = [.s0] ∧
      (given ["x", "read_id"]).placed = none ∧ (given ["x", "read_id"]).commands = line ["x", "read_id"] :: []) ∧
    ({ given ["x", "read_id"] with outcome := .done }).outcome ≠ .running ∧
    Instr.eraseBlocks 30 0 0 ∈ [Instr.readFull 30 0 0 [], .readData 30 0 0 [], .writeFull 30 0 0 [], .eraseBlocks 30 0 0] :=
  ⟨⟨rfl, rfl, rfl⟩, ⟨rfl, rfl, rfl, rfl, rfl⟩, by decide, by decide⟩

/-- A placed word; a command line at S0; a command line after a run that has ended. -/
theorem witness_StepRunsTheDecodedInstruction :
    (State.reset.outcome = .running ∧ (placeCycle 0x290 State.reset).contends = false ∧ (placeCycle 0x290 State.reset).placed = some 0x290 ∧
      decodeNat 0x290 = .ok .cmdReadId) ∧
    ((given ["30", "read_id"]).contends = false ∧ (given ["30", "read_id"]).pc = [.s0] ∧ (given ["30", "read_id"]).placed = none ∧
      (given ["30", "read_id"]).commands = line ["30", "read_id"] :: [] ∧
      decodeCommand (line ["30", "read_id"]) = .ok (.readIdCmd 30)) ∧
    ({ given ["30", "read_id"] with outcome := .aborted }).outcome ≠ .running :=
  ⟨⟨rfl, rfl, rfl, rfl⟩, ⟨rfl, rfl, rfl, rfl, rfl⟩, by decide⟩

/-- A ready state with no placed word meets `At` at each label. -/
theorem at_atL (l : Label) {s : State} (h : Ready s) (hp : s.placed = none) : Statements.At l [] (atL l s) :=
  ⟨h.running, hp, rfl, contends_idle h.undriven h.re⟩

/-- Each label; a transaction that returns undisturbed, with the interrupt due, with the chip on DQ and with both right
after it (120 primitives); and one that the model stops. -/
theorem witness_StepRunsTheTransactions :
    (∀ l ∈ [Label.i2, .p4, .p5, .w5, .e4], Statements.At l [] (atL l State.reset)) ∧
    (nextOf (exec .readId (atL .i2 (bench [] refId.bytes [] [])))).map
      (fun t => (t.outcome, t.pc, t.interruptIn, t.chipContends)) = some (.running, [.lab .i2], none, false) ∧
    (nextOf (exec .readId { atL .i2 (bench [] refId.bytes [] []) with interruptIn := some 120 })).map
      (fun t => (t.outcome, t.pc, t.interruptIn)) = some (.running, [.lab .i2], some 0) ∧
    (nextOf (exec .readId { atL .i2 (bench [] refId.bytes [] []) with driveIn := some 120 })).map
      (fun t => (t.outcome, t.pc, t.interruptIn, t.chipContends)) = some (.running, [.lab .i2], none, true) ∧
    (nextOf (exec .readId { atL .i2 (bench [] refId.bytes [] []) with interruptIn := some 120, driveIn := some 120 })).map
      (fun t => (t.outcome, t.pc, t.interruptIn, t.chipContends)) = some (.running, [.lab .i2], some 0, true) ∧
    exec .readId { atL .i2 State.reset with lines := { Lines.idle with re := false } } = .fault .busContention :=
  ⟨fun _ _ => ⟨rfl, rfl, rfl, rfl⟩, by decide +kernel, by decide +kernel, by decide +kernel, by decide +kernel, rfl⟩

/-- Each kind of command, and each result of the opens. -/
theorem witness_OpenStreamsByCommand :
    (Statements.At .s1 [] (atL .s1 State.reset) ∧ Statements.Undisturbed (atL .s1 State.reset) ∧
      (atL .s1 State.reset).cmd = .readId) ∧
    (atL .s1 { bench [] [] [] [true] with cmd := .writeFull }).cmd = .writeFull ∧
    (drawIo (bench [] [] [] [true]).env).1 = true ∧ (drawIo (bench [] [] [] [false]).env).1 = false ∧
    (atL .s1 { bench [] [] [] [true, true] with cmd := .readData }).cmd = .readData ∧
    (drawIo (drawIo (bench [] [] [] [true, true]).env).2).1 = true ∧
    (drawIo (drawIo (bench [] [] [] [true, false]).env).2).1 = false :=
  ⟨⟨⟨rfl, rfl, rfl, rfl⟩, ⟨rfl, rfl⟩, rfl⟩, rfl, rfl, rfl, rfl, rfl, rfl⟩

/-- From lines in mid-phase. -/
theorem witness_InitLinesFromAnyLines :
    Statements.At .s2 [] (atL .s2 { State.reset with
      lines := { Lines.idle with cle := true, we := false, re := false, dqDir := .out } }) ∧
    Statements.Undisturbed (atL .s2 { State.reset with
      lines := { Lines.idle with cle := true, we := false, re := false, dqDir := .out } }) :=
  ⟨⟨rfl, rfl, rfl, rfl⟩, rfl, rfl⟩

theorem witness_ReadyCheckAtRest :
    (Ready (atL .s3 (bench [true] [] [] [])) ∧ Statements.At .s3 [] (atL .s3 (bench [true] [] [] [])) ∧
      (drawLevel (atL .s3 (bench [true] [] [] [])).env).1 = true) ∧
    (Ready (atL .s3 (bench [false] [] [] [])) ∧ Statements.At .s3 [] (atL .s3 (bench [false] [] [] [])) ∧
      (drawLevel (atL .s3 (bench [false] [] [] [])).env).1 = false) ∧
    (nextOf (step (atL .s3 (bench [false] [] [] [])))).map (·.outcome) = some (.fatal .powerOrWiringFault) :=
  ⟨⟨ready_atL _ (ready_bench _ _ _ _), ⟨rfl, rfl, rfl, rfl⟩, rfl⟩, ⟨ready_atL _ (ready_bench _ _ _ _), ⟨rfl, rfl, rfl, rfl⟩, rfl⟩,
    by decide⟩

/-- Readouts of both kinds. -/
theorem witness_CaptureIdOrFault :
    Ready (atL .s4 (bench [] [0xEC, 0xEC, 0xEC, 0xEC, 0xEC] [] [])) ∧
    Statements.At .s4 [] (atL .s4 (bench [] [0xEC, 0xEC, 0xEC, 0xEC, 0xEC] [] [])) ∧
    (nextOf (exec .readId (bench [] [0xEC, 0xEC, 0xEC, 0xEC, 0xEC] [] []))).map (fun t => idSame t.idRd) = some true ∧
    (nextOf (exec .readId (bench [] [0xEC, 0xEC, 0xEC, 0xEC, 0xED] [] []))).map (fun t => idSame t.idRd) = some false :=
  ⟨ready_atL _ (ready_bench _ _ _ _), ⟨rfl, rfl, rfl, rfl⟩, by decide +kernel, by decide +kernel⟩

theorem witness_GateBeforeRangeCommands :
    (Statements.At .s5 [] (atL .s5 State.reset) ∧ Statements.Undisturbed (atL .s5 State.reset) ∧
      (atL .s5 State.reset).cmd = .readId) ∧
    (atL .s5 { bench [] [] [true] [] with cmd := .eraseBlocks }).cmd ≠ .readId ∧
    (drawGate (bench [] [] [true] []).env).1 = true ∧ (drawGate (bench [] [] [false] []).env).1 = false :=
  ⟨⟨⟨rfl, rfl, rfl, rfl⟩, ⟨rfl, rfl⟩, rfl⟩, by decide, rfl, rfl⟩

/-- A drift in the last byte only, and none. -/
theorem witness_DriftRestartsUncounted : Statements.At .i3 [] (atL .i3 State.reset) ∧
    Statements.Undisturbed (atL .i3 State.reset) ∧
    (atL .i3 State.reset).idRd = (atL .i3 State.reset).idCache ∧
    (atL .i3 { State.reset with idRd := ⟨0, 0, 0, 0, 1⟩ }).idRd ≠
      (atL .i3 { State.reset with idRd := ⟨0, 0, 0, 0, 1⟩ }).idCache := ⟨⟨rfl, rfl, rfl, rfl⟩, ⟨rfl, rfl⟩, rfl, by decide⟩

/-- Equal pages, and pages that differ in their last byte only. -/
theorem witness_MatchAcceptsThePage : Statements.At .p6 [] (atL .p6 State.reset) ∧
    Statements.Undisturbed (atL .p6 State.reset) ∧
    (∀ a, a < 2112 → Memory.read (atL .p6 State.reset).bufA a = Memory.read (atL .p6 State.reset).bufB a) ∧
    ∃ a, a < 2112 ∧ Memory.read (atL .p6 { State.reset with bufA := [(2111, 0x01#8)] }).bufA a ≠
      Memory.read (atL .p6 { State.reset with bufA := [(2111, 0x01#8)] }).bufB a :=
  ⟨⟨rfl, rfl, rfl, rfl⟩, ⟨rfl, rfl⟩, fun _ _ => rfl, 2111, by decide, by decide⟩

theorem witness_MismatchIsRetried : Statements.At .p7 [] (atL .p7 { State.reset with retry := 4 }) ∧
    Statements.Undisturbed (atL .p7 { State.reset with retry := 4 }) ∧
    (atL .p7 { State.reset with retry := 4 }).retry < 5 := ⟨⟨rfl, rfl, rfl, rfl⟩, ⟨rfl, rfl⟩, by decide⟩

/-- The limit with both results of the write; the step that lets BAD_LOG grow; and the two statements after it. -/
theorem witness_ExhaustedPageIsLogged :
    (Statements.At .p7 [] (atL .p7 { bench [] [] [] [true] with retry := 5 }) ∧
      Statements.Undisturbed (atL .p7 { bench [] [] [] [true] with retry := 5 }) ∧
      (atL .p7 { bench [] [] [] [true] with retry := 5 }).retry = 5) ∧
    (drawIo (bench [] [] [] [true]).env).1 = true ∧ (drawIo (bench [] [] [] [false]).env).1 = false ∧
    (nextOf (step (atL .p7 { bench [] [] [] [true] with retry := 5 }))).map (·.badLog) = some [0] ∧
    (nextOf (step (atL .p8 (bench [] [] [] [true])))).map (·.outcome) = some .running ∧
    (nextOf (step (atL .p9 State.reset))).map (·.outcome) = some .running :=
  ⟨⟨⟨rfl, rfl, rfl, rfl⟩, ⟨rfl, rfl⟩, rfl⟩, rfl, rfl, by decide, by decide +kernel, by decide⟩

theorem witness_OneRecordIsAppended :
    Statements.At .p8 [] (atL .p8 { bench [] [] [] [true] with includeSpare := true }) ∧
    Statements.Undisturbed (atL .p8 { bench [] [] [] [true] with includeSpare := true }) ∧
    (atL .p8 { bench [] [] [] [true] with includeSpare := true }).includeSpare = true ∧
    (atL .p8 (bench [] [] [] [true])).includeSpare = false ∧
    (drawIo (bench [] [] [] [true]).env).1 = true ∧ (drawIo (bench [] [] [] [false]).env).1 = false :=
  ⟨⟨rfl, rfl, rfl, rfl⟩, ⟨rfl, rfl⟩, rfl, rfl, rfl, rfl⟩

theorem witness_UnitEndsWithProgress : ∀ l ∈ [Label.p9, .w9, .e8],
    Statements.At l [] (atL l State.reset) ∧ Statements.Undisturbed (atL l State.reset) :=
  fun _ _ => ⟨⟨rfl, rfl, rfl, rfl⟩, rfl, rfl⟩

theorem page_guards (ls : Lines) (r : List Byte) (h : r.length = 2112) :
    guardsPass [.memWrite .a 0 r, .setRetry 0] ls = true := by
  simp [primGuard, PAGE_SIZE, h]

/-- The last unit, K = COUNT, and a full record. -/
theorem witness_UnitsStartAndEndWithRetryZero :
    (∀ l ∈ [Label.p1, .e1, .w1, .p9, .w9, .e8], Statements.At l [] (atL l { State.reset with count := 1, retry := 5 }) ∧
      Statements.Undisturbed (atL l { State.reset with count := 1, retry := 5 }) ∧
      (atL l { State.reset with count := 1, retry := 5 }).k < (atL l { State.reset with count := 1, retry := 5 }).count) ∧
    ¬(atL .p1 { State.reset with count := 1, k := 1 }).k < (atL .p1 { State.reset with count := 1, k := 1 }).count ∧
    (List.replicate 2112 0x00#8).length = 2112 ∧
    ∃ t, step (atL .w2 { State.reset with record := some (List.replicate 2112 0x00#8) }) = .next t := by
  refine ⟨fun l _ => ⟨⟨rfl, rfl, rfl, rfl⟩, ⟨rfl, rfl⟩, Nat.one_pos⟩, by decide, List.length_replicate .., ?_⟩
  rw [step_label (l := .w2) (rest := []) rfl rfl rfl rfl]
  have hl : ¬(List.replicate 2112 0x00#8).length < PAGE_SIZE := by rw [List.length_replicate]; decide
  simp only [runLabel, runW2, atL, hl, if_false]
  exact doThen_total rfl (page_guards _ _ (List.length_replicate ..))

/-- Each of the eight labels, and the last attempt that is retried. -/
theorem witness_StatusDecidesTheAttempt :
    ∀ l ∈ [Label.w5, .w6, .w7, .w8, .e4, .e5, .e6, .e7], Ready (atL l { State.reset with retry := 4 }) ∧
      Statements.At l [] (atL l { State.reset with retry := 4 }) ∧ (atL l { State.reset with retry := 4 }).retry < 5 :=
  fun _ _ => ⟨⟨rfl, rfl, rfl, rfl, rfl, rfl, rfl⟩, ⟨rfl, rfl, rfl, rfl⟩, show 4 < 5 from by decide⟩

/-- RETRY one below the limit and at it. -/
theorem witness_StatusErrorIsRetriedOrGivenUp :
    (Statements.At .w8 [] (atL .w8 { State.reset with retry := 4 }) ∧
      Statements.Undisturbed (atL .w8 { State.reset with retry := 4 }) ∧
      (atL .w8 { State.reset with retry := 4 }).retry < 5) ∧
    Statements.At .e7 [] (atL .e7 { State.reset with retry := 5 }) ∧ (atL .e7 { State.reset with retry := 5 }).retry = 5 :=
  ⟨⟨⟨rfl, rfl, rfl, rfl⟩, ⟨rfl, rfl⟩, by decide⟩, ⟨rfl, rfl, rfl, rfl⟩, rfl⟩

/-- Each condition found, and a retry with none. -/
theorem witness_RecoveredConditions :
    (Statements.At .i3 [] (atL .i3 { State.reset with idRd := ⟨0, 0, 0, 0, 1⟩ }) ∧
      Statements.Undisturbed (atL .i3 { State.reset with idRd := ⟨0, 0, 0, 0, 1⟩ }) ∧
      conditionAt .i3 (atL .i3 { State.reset with idRd := ⟨0, 0, 0, 0, 1⟩ }) = some .idDrift) ∧
    conditionAt .p6 (atL .p6 { State.reset with bufA := [(2111, 0x01#8)] }) = some .contentMismatch ∧
    (∀ l ∈ [Label.p7, .w8, .e7], conditionAt l (atL l { State.reset with retry := 4 }) = none) ∧
    ∀ l ∈ [Label.w8, .e7], conditionAt l (atL l { State.reset with retry := 5 }) = some .unitExhausted :=
  ⟨⟨⟨rfl, rfl, rfl, rfl⟩, ⟨rfl, rfl⟩, by decide⟩, by decide +kernel, by decide, by decide⟩

/-- A source that ends with the record, one that is a byte short, and a read that fails. -/
theorem witness_SourceRecordFillsBufA :
    (Statements.At .w1 [] (atL .w1 { bench [] [] [] [true] with count := 1, source := List.replicate 2112 0x00#8 }) ∧
      Statements.Undisturbed (atL .w1 { bench [] [] [] [true] with count := 1, source := List.replicate 2112 0x00#8 }) ∧
      (atL .w1 { bench [] [] [] [true] with count := 1, source := List.replicate 2112 0x00#8 }).k <
        (atL .w1 { bench [] [] [] [true] with count := 1, source := List.replicate 2112 0x00#8 }).count) ∧
    (drawIo (bench [] [] [] [true]).env).1 = true ∧ (drawIo (bench [] [] [] [false]).env).1 = false ∧
    (0 + 1) * 2112 ≤ (List.replicate 2112 0x00#8).length ∧ (List.replicate 2111 0x00#8).length < (0 + 1) * 2112 :=
  ⟨⟨⟨rfl, rfl, rfl, rfl⟩, ⟨rfl, rfl⟩, Nat.one_pos⟩, rfl, rfl, by rw [List.length_replicate], by rw [List.length_replicate]; decide⟩

theorem witness_AttemptsCheckTheId :
    (∀ l ∈ [Label.w4, .e3, .p3], Statements.At l [] (atL l State.reset) ∧ Statements.Undisturbed (atL l State.reset)) ∧
    1 ≤ (atL .p3 { State.reset with retry := 1 }).retry ∧ (atL .p3 State.reset).retry = 0 :=
  ⟨fun _ _ => ⟨⟨rfl, rfl, rfl, rfl⟩, rfl, rfl⟩, Nat.le_refl 1, rfl⟩

theorem witness_FatalFaultEndsTheRun : State.reset.outcome = .running ∧ Statements.Undisturbed State.reset :=
  ⟨rfl, rfl, rfl⟩

/-- A state whose interrupt is due. -/
def due : State := { State.reset with interruptIn := some 0 }

/-- Before the first primitive of a row and before its last one, where the chip contends as well in the third line; a step at a label, in a wait's loop and at S0, and with a
command line there; the first and the last primitive of a page's data phase. -/
theorem witness_InterruptStopsBetweenPrimitives :
    (0 < weStrobe.length ∧ (nextOf (runRow (weStrobe.take 0) State.reset)).map (·.outcome) = some .running) ∧
    (3 < weStrobe.length ∧ (nextOf (runRow (weStrobe.take 3) State.reset)).map (·.outcome) = some .running) ∧
    (nextOf (runRow (weStrobe.take 3) { atL .s3 State.reset with driveIn := some 3 })).map
      (fun t => (t.outcome, t.chipContends)) = some (.running, true) ∧
    (∀ pc ∈ [[Pos.lab .p6, .lab .s7], [waitLoop, .lab .w6, .lab .s7], [.s0]],
      { due with pc := pc }.outcome = .running ∧ { due with pc := pc }.placed = none ∧
      { due with pc := pc }.contends = false ∧ { due with pc := pc }.interruptIn = some 0 ∧
      { due with pc := pc }.commands = []) ∧
    ({ due with commands := [line ["30", "read_id"]] }.pc = [.s0] ∧
      { due with commands := [line ["30", "read_id"]] }.contends = false) ∧
    0 < (List.replicate 2112 0x00#8).length ∧ 2111 < (List.replicate 2112 0x00#8).length :=
  ⟨⟨by decide, by decide⟩, ⟨by decide, by decide⟩, by decide, by decide, ⟨rfl, rfl⟩,
    by rw [List.length_replicate]; decide, by rw [List.length_replicate]; decide⟩

theorem witness_EndedRunDoesNothing : ({ State.reset with outcome := .done }).outcome ≠ .running ∧
    encodeCommand .readStatus = none ∧ (∃ t, exec .readStatus { State.reset with outcome := .done } = .next t) ∧
    ({ State.reset with outcome := .done }).commands = [] ∧ ({ State.reset with outcome := .done }).contends = false :=
  ⟨by decide, rfl, execReadStatus_next _ ⟨rfl, rfl, rfl⟩, rfl, rfl⟩

/-- A state in the middle of a read operation: page 8 of a range has read the same twice, one page before it was logged. -/
def midRead : State :=
  { bench [] [] [] [true] with
    cmd := .readFull, first := 7, count := 2, includeSpare := true, k := 1, retry := 3,
    idCache := ⟨0xAA, 0xF1, 0x80, 0x15, 0x02⟩, idValid := true, bufA := [(2111, 0x01#8)], bufB := [(2111, 0x01#8)],
    pc := [.lab .p6, .lab .s7], badLog := [7], sink := List.replicate 2112 0x00#8, cycleLog := [readWord 0x00#8],
    written := { idRd := true, bufA := true, bufB := true, status := false, din := true } }

theorem inv_midRead : Inv midRead where
  config := by decide
  memA := by decide
  memB := by decide
  recordFits := by rintro r ⟨⟩
  retryBound := by decide
  words := by
    intro w hw
    simp only [midRead, List.mem_singleton] at hw
    exact ⟨.dataR 0x00#8, by rw [hw]; rfl⟩
  shape := fun _ => by decide
  rest := fun _ _ => by decide
  owned := fun _ => rfl
  unitIndex := by rintro _ l ⟨⟩; decide
  spare := by rintro _ l ⟨⟩; rfl
  sinkLen := by
    rintro _ l ⟨⟩
    exact (List.length_replicate (n := 2112) (a := (0x00#8 : Byte))).trans (by decide)
  badBound := by rintro _ l ⟨⟩; exact ⟨by decide, fun h => absurd rfl h⟩
  failBound := by rintro _ l ⟨⟩; exact ⟨by decide, fun _ _ => rfl⟩
  cached := by rintro _ l ⟨⟩ _; decide
  reads := by rintro _ l ⟨⟩; decide

theorem witness_StepKeepsTheInvariant : Inv midRead ∧ ∃ t, step midRead = .next t := by
  refine ⟨inv_midRead, ?_⟩
  rw [step_label (l := .p6) (rest := [.lab .s7]) rfl rfl rfl rfl]
  simp only [runLabel, runP6]
  split <;> exact ⟨_, rfl⟩

theorem witness_NoBusContentionIsReached : Inv midRead ∧ midRead.driveIn = none := ⟨inv_midRead, rfl⟩

theorem witness_LinesStayExclusive : encodeCommand (.eraseBlock 3) = none ∧ State.reset.outcome = .running ∧
    State.reset.lines.atRest = true ∧ ∃ t, exec (.eraseBlock 3) State.reset = .next t :=
  ⟨rfl, rfl, by decide, execEraseBlock_next 3 _ ⟨rfl, rfl, rfl⟩⟩

/-- The step that fills BUF_A. -/
theorem witness_StepKeepsMemoryCanonical :
    (atL .w2 { State.reset with record := some (List.replicate 2112 0x00#8) }).bufA.wf = true ∧
    (atL .w2 { State.reset with record := some (List.replicate 2112 0x00#8) }).bufB.wf = true ∧
    ∃ t, step (atL .w2 { State.reset with record := some (List.replicate 2112 0x00#8) }) = .next t :=
  ⟨rfl, rfl, witness_UnitsStartAndEndWithRetryZero.2.2.2⟩

theorem witness_ConfigurationAndFilesAreKept : (∃ t, step (atL .s2 State.reset) = .next t) ∧ Cfg.default.wf = true ∧
    { Cfg.default with busyLimit := some 1 }.wf = true :=
  ⟨next_of_isSome (by decide +kernel), by decide, by decide⟩

/-- The label that writes ID_CACHE, one that writes K, and one that writes neither. -/
theorem witness_IdCacheAndUnitIndexWriters :
    (∃ t, step (atL .s4 (bench [] [0xAA, 0xF1, 0x80, 0x15, 0x02] [] [])) = .next t) ∧
    (∃ t, step (atL .p9 State.reset) = .next t) ∧ (∃ t, step (atL .p2 State.reset) = .next t) ∧
    ∀ l ∈ [Label.s4, .p9, .p2], Statements.At l [] (atL l State.reset) :=
  ⟨next_of_isSome (by decide +kernel), ⟨_, rfl⟩, ⟨_, rfl⟩, fun _ _ => ⟨rfl, rfl, rfl, rfl⟩⟩

theorem witness_ReadIdCommandRunsToDone : Statements.Undisturbed (bench [true] refId.bytes [] []) ∧
    (bench [true] refId.bytes [] []).env.rb = true :: [] ∧ (bench [true] refId.bytes [] []).env.dq = refId.bytes ++ [] ∧
    idSame refId = false := ⟨⟨rfl, rfl⟩, rfl, (List.append_nil _).symm, by decide⟩

/-- One erased page. -/
def erased : List Byte := List.replicate 2112 0xFF#8

theorem pageBytes_erased : Statements.pageBytes erased := List.length_replicate ..

theorem witness_ReadCommandsRunToDone :
    Statements.Undisturbed
      (bench [true, true, true] (refId.bytes ++ [erased].flatMap (fun pg => pg ++ pg) ++ []) [true] [true, true, true]) ∧
    idSame refId = false ∧ [erased] ≠ [] ∧ (∀ pg ∈ [erased], Statements.pageBytes pg) ∧
    (bench [true, true, true] [] [] []).env.rb = true :: List.replicate (2 * [erased].length) true ++ [] ∧
    (bench [] (refId.bytes ++ [erased].flatMap (fun pg => pg ++ pg) ++ []) [] []).env.dq =
      refId.bytes ++ [erased].flatMap (fun pg => pg ++ pg) ++ [] ∧
    (bench [] [] [true] []).env.gate = true :: [] ∧
    (bench [] [] [] [true, true, true]).env.io = true :: true :: List.replicate [erased].length true ++ [] :=
  ⟨⟨rfl, rfl⟩, by decide, by simp, by
    intro pg h; rw [List.mem_singleton.1 h]; exact pageBytes_erased, rfl, rfl, rfl, rfl⟩

theorem witness_WriteFullRunsToDone :
    Statements.Undisturbed { bench [true, true] (refId.bytes ++ [0xE0#8].flatMap (fun v => refId.bytes ++ [v]) ++ []) [true]
      [true, true] with source := erased } ∧ idSame refId = false ∧ 1 ≤ 1 ∧ [0xE0#8].length = 1 ∧
    (∀ v ∈ [0xE0#8], v.getLsbD 0 = false) ∧ 1 * 2112 ≤ erased.length ∧
    (bench [true, true] [] [] []).env.rb = true :: List.replicate 1 true ++ [] ∧
    (bench [] (refId.bytes ++ [0xE0#8].flatMap (fun v => refId.bytes ++ [v]) ++ []) [] []).env.dq =
      refId.bytes ++ [0xE0#8].flatMap (fun v => refId.bytes ++ [v]) ++ [] ∧
    (bench [] [] [true] []).env.gate = true :: [] ∧
    (bench [] [] [] [true, true]).env.io = true :: List.replicate 1 true ++ [] :=
  ⟨⟨rfl, rfl⟩, by decide, by decide, rfl, by decide, (Nat.one_mul 2112).le.trans pageBytes_erased.ge, rfl, rfl, rfl, rfl⟩

theorem witness_EraseBlocksRunsToDone :
    Statements.Undisturbed
      (bench [true, true] (refId.bytes ++ [0xE0#8].flatMap (fun v => refId.bytes ++ [v]) ++ []) [true] []) ∧
    idSame refId = false ∧ 1 ≤ 1 ∧ [0xE0#8].length = 1 ∧ (∀ v ∈ [0xE0#8], v.getLsbD 0 = false) ∧
    (bench [true, true] [] [] []).env.rb = true :: List.replicate 1 true ++ [] ∧
    (bench [] (refId.bytes ++ [0xE0#8].flatMap (fun v => refId.bytes ++ [v]) ++ []) [] []).env.dq =
      refId.bytes ++ [0xE0#8].flatMap (fun v => refId.bytes ++ [v]) ++ [] ∧
    (bench [] [] [true] []).env.gate = true :: [] :=
  ⟨⟨rfl, rfl⟩, by decide, by decide, rfl, by decide, rfl, rfl, rfl⟩

/-- Another page. -/
def blank : List Byte := List.replicate 2112 0x00#8

/-- A page that mismatches on every attempt: its first reads are erased, its second reads blank. -/
def flaky : State :=
  { bench (List.replicate 12 true ++ [])
      (erased ++ blank ++ refId.bytes ++ erased ++ blank ++ refId.bytes ++ erased ++ blank ++ refId.bytes ++ erased ++
        blank ++ refId.bytes ++ erased ++ blank ++ refId.bytes ++ erased ++ blank ++ []) [] [true, true] with
    pc := [.lab .p1, .lab .s7], count := 1, idCache := refId }

theorem witness_UnreadablePageIsRetriedFiveTimes : Ready flaky ∧ flaky.lines.atRest = true ∧ flaky.bufA.wf = true ∧
    flaky.bufB.wf = true ∧ Statements.At .p1 [.lab .s7] flaky ∧ flaky.k < flaky.count ∧
    (∀ pg ∈ [erased, blank], Statements.pageBytes pg) ∧ erased ≠ blank ∧
    flaky.env.dq = erased ++ blank ++ flaky.idCache.bytes ++ erased ++ blank ++ flaky.idCache.bytes ++ erased ++ blank ++
      flaky.idCache.bytes ++ erased ++ blank ++ flaky.idCache.bytes ++ erased ++ blank ++ flaky.idCache.bytes ++ erased ++
      blank ++ [] ∧
    flaky.env.rb = List.replicate 12 true ++ [] ∧ flaky.env.io = true :: true :: [] := by
  refine ⟨⟨rfl, rfl, rfl, rfl, rfl, rfl, rfl⟩, rfl, rfl, rfl, ⟨rfl, rfl, rfl, rfl⟩, Nat.one_pos, ?_, ?_, rfl, rfl, rfl⟩
  · intro pg h
    rcases List.mem_cons.1 h with h | h
    · rw [h]; exact pageBytes_erased
    · rw [List.mem_singleton.1 h]; exact List.length_replicate ..
  · intro h
    exact absurd (Option.some.inj (congrArg List.head? h : some 0xFF#8 = some 0x00#8)) (by decide)

end Sys2Proof.Tests
end

/-! PROOF. What a row of primitives leaves, said once more sharply than `runRow_induct`: how far it ran, and what all its
primitives have done where the run goes on. -/
section
namespace Sys2Proof.Machine

/-! ## Rows and the countdowns -/

theorem applyPrim_tick (p : Prim) (s : State) : applyPrim p (tick s) = tick (applyPrim p s) := by
  cases p with
  | memWrite x _ _ => cases x <;> rfl
  | _ => rfl

theorem applyAll_tick (ps : List Prim) (s : State) : applyAll ps (tick s) = tick (applyAll ps s) := by
  induction ps generalizing s with
  | nil => rfl
  | cons p ps ih => rw [applyAll_cons, applyPrim_tick, ih, applyAll_cons]

/-- WHAT THE FIRST PRIMITIVE OF A ROW CAN DO, where the row answers a next state: nothing in an ended run; the host
interrupts before it; or it passes its guard and the rest of the row runs, or it has ended the run. -/
theorem runRow_cons_next {p : Prim} {q : List Pos} {row : Row} {s t : State} (h : runRow ((p, q) :: row) s = .next t) :
    (s.outcome ≠ .running ∧ t = s) ∨ t = (interrupted s).standing q ∨
      ((applyPrim p (tick s)).outcome = .running ∧ runRow row (applyPrim p (tick s)) = .next t) ∨
      ((applyPrim p (tick s)).outcome ≠ .running ∧ t = (applyPrim p (tick s)).standing q) := by
  by_cases hr : s.outcome = .running
  · by_cases hi : s.interruptIn = some 0
    · simp only [runRow, hr, hi, if_true, Host.Outcome.next.injEq] at h
      exact .inr (.inl h.symm)
    · simp only [runRow, hr, hi, if_true, if_false] at h
      cases hc : s.chipContends with
      | true => simp [hc] at h
      | false =>
        cases hg : primGuard p s.lines (decide (s.driveIn = some 0)) with
        | some f => simp [hc, hg] at h
        | none =>
          by_cases ho : (applyPrim p (tick s)).outcome = .running
          · simp only [hc, hg, ho, if_true, Bool.false_eq_true, if_false] at h
            exact .inr (.inr (.inl ⟨ho, h⟩))
          · simp only [hc, hg, ho, Bool.false_eq_true, if_false, Host.Outcome.next.injEq] at h
            exact .inr (.inr (.inr ⟨ho, h.symm⟩))
  · rw [runRow_ended hr, Host.Outcome.next.injEq] at h
    exact .inl ⟨hr, h.symm⟩

/-- A ROW AFTER WHICH THE RUN GOES ON has applied all its primitives; only the countdowns have moved beside. -/
theorem runRow_running {row : Row} {s t : State} (h : runRow row s = .next t) (hr : t.outcome = .running) :
    t = { applyAll row.prims s with interruptIn := t.interruptIn, driveIn := t.driveIn } := by
  induction row generalizing s with
  | nil => cases h; rfl
  | cons e row ih =>
    rcases runRow_cons_next h with ⟨hn, rfl⟩ | rfl | ⟨_, h⟩ | ⟨hn, rfl⟩
    · exact absurd hr hn
    · cases hr
    · have := ih h
      rwa [applyPrim_tick, applyAll_tick] at this
    · exact absurd hr hn

theorem runPrims_running {ps : List Prim} {s t : State} (h : runPrims ps s = .next t) (hr : t.outcome = .running) :
    t = { applyAll ps s with interruptIn := t.interruptIn, driveIn := t.driveIn } := by
  have := runRow_running h hr
  rwa [prims_own] at this

theorem runPrims_lines {ps : List Prim} {s t : State} (h : runPrims ps s = .next t) (hr : t.outcome = .running) :
    t.lines = s.lines.afterAll ps :=
  (congrArg State.lines (runPrims_running h hr)).trans (applyAll_lines ps s)

/-- The same for a sequencer statement, which ends in `pc <- next`. -/
theorem doThen_running {ps : List Prim} {next : List Pos → List Pos} {s t : State} (h : doThen ps next s = .next t)
    (hr : t.outcome = .running) :
    t = { applyAll ps s with pc := next s.pc, interruptIn := t.interruptIn, driveIn := t.driveIn } := by
  have := runRow_running h hr
  rwa [prims_own, applyAll_append] at this

/-- A row whose last primitive takes OUTCOME from Running ends the run. -/
theorem runRow_last_ends {row : Row} {p : Prim} {q : List Pos} {s t : State}
    (hp : ∀ u, (applyPrim p u).outcome ≠ .running) (h : runRow (row ++ [(p, q)]) s = .next t) : t.outcome ≠ .running := by
  intro hr
  rw [runRow_running h hr, prims_append, applyAll_append] at hr
  exact hp _ hr

theorem runRow_raise_ends {row : Row} {q : List Pos} {f : FatalFault} {i : FaultInfo} {s t : State}
    (h : runRow (row ++ [(.raise f i, q)]) s = .next t) : t.outcome ≠ .running :=
  runRow_last_ends (fun _ => RunOutcome.noConfusion) h

theorem raiseHostIo_ends {pre : List Prim} {s t : State} (h : raiseHostIo pre s = .next t) : t.outcome ≠ .running := by
  unfold raiseHostIo runPrims at h
  rw [List.map_append] at h
  exact runRow_raise_ends h

/-! ## The cycle words -/

/-- Every cycle word sent is one the decoder takes (30_encoding R92, R94). -/
def LegalLog (s : State) : Prop := ∀ w ∈ s.cycleLog, legalWord w

theorem cycleLog_suffix_applyPrim (p : Prim) (s : State) : s.cycleLog <:+ (applyPrim p s).cycleLog := by
  cases p with
  | weRise | reRise => exact List.suffix_cons _ _
  | memWrite x _ _ => cases x <;> exact List.suffix_rfl
  | _ => exact List.suffix_rfl

/-- The trace of cycle words only grows. -/
theorem cycleLog_suffix_applyAll (ps : List Prim) (s : State) : s.cycleLog <:+ (applyAll ps s).cycleLog := by
  induction ps generalizing s with
  | nil => exact List.suffix_rfl
  | cons p ps ih => exact (cycleLog_suffix_applyPrim p s).trans (ih _)

/-- WHEREVER A ROW STOPS, the words it has sent are the first of those it sends when nothing stops it. -/
theorem runRow_cycleLog {row : Row} {s t : State} (h : runRow row s = .next t) :
    t.cycleLog <:+ (applyAll row.prims s).cycleLog := by
  induction row generalizing s with
  | nil => cases h; exact List.suffix_rfl
  | cons e row ih =>
    have hall : (applyAll (Row.prims row) (applyPrim e.1 (tick s))).cycleLog =
        (applyAll (Row.prims (e :: row)) s).cycleLog := by
      rw [applyPrim_tick, applyAll_tick]; rfl
    rcases runRow_cons_next h with ⟨_, rfl⟩ | rfl | ⟨_, h⟩ | ⟨_, rfl⟩
    · exact cycleLog_suffix_applyAll _ _
    · exact cycleLog_suffix_applyAll _ s
    · rw [← hall]; exact ih h
    · rw [← hall]; exact cycleLog_suffix_applyAll _ (applyPrim e.1 (tick s))

theorem runRow_legal {row : Row} {s t : State} (h : runRow row s = .next t) (hl : LegalLog (applyAll row.prims s)) :
    LegalLog t :=
  fun w hw => hl w ((runRow_cycleLog h).subset hw)

/-! ## PC of a statement -/

/-- A primitive that leaves PC alone. -/
def Prim.keepsPc : Prim → Bool
  | .setPc _ | .load _ _ _ _ _ _ => false
  | _ => true

theorem applyPrim_pc {p : Prim} (h : p.keepsPc = true) (s : State) : (applyPrim p s).pc = s.pc := by
  cases p with
  | memWrite x _ _ => cases x <;> rfl
  | setPc | load => cases h
  | _ => rfl

/-- The statement at PC itself leaves PC where it is (10_state R33). -/
theorem runPrims_pc {ps : List Prim} {s t : State} (hp : ps.all Prim.keepsPc = true) (h : runPrims ps s = .next t) :
    t.pc = s.pc := by
  have hpc : ∀ e ∈ ps.map fun p => (p, ([] : List Pos)), ∀ u, (applyPrim e.1 u).pc = u.pc := by
    intro e he u
    obtain ⟨p, hmem, rfl⟩ := List.mem_map.1 he
    exact applyPrim_pc (List.all_eq_true.1 hp p hmem) u
  obtain ⟨_, inner, hpc', hin⟩ := runRow_pc _ _ _ hpc h
  rcases hin with rfl | ⟨e, he, rfl⟩
  · exact hpc'
  · obtain ⟨p, _, rfl⟩ := List.mem_map.1 he
    exact hpc'

theorem doThen_pc {ps : List Prim} {next : List Pos → List Pos} {s t : State} (hp : ps.all Prim.keepsPc = true)
    (h : doThen ps next s = .next t) : t.pc = s.pc ∨ t.pc = next s.pc := by
  obtain ⟨u, hu, hcase⟩ := doThen_cases h
  have hpc : u.pc = s.pc := runPrims_pc hp hu
  rcases hcase with ⟨_, rfl⟩ | ⟨_, _, rfl⟩ | ⟨_, _, _, rfl⟩
  · exact .inl hpc
  · exact .inl hpc
  · exact .inr rfl

theorem raiseHostIo_pc {pre : List Prim} {s t : State} (hp : pre.all Prim.keepsPc = true)
    (h : raiseHostIo pre s = .next t) : t.pc = s.pc := by
  refine (runPrims_pc ?_ h).trans rfl
  simp only [List.all_append, hp, List.all_cons, List.all_nil, Prim.keepsPc, Bool.and_true]

end Sys2Proof.Machine
end

/-! PROOF. What a step can be, and the induction over its primitives packaged once: a property of the state that each
primitive a statement may perform keeps is kept by the statement, and by the step. -/
section
namespace Sys2Proof.Machine

/-! ## Stable properties -/

/-- `P` says nothing of PC, of the countdowns and of the answers to come, an interrupt keeps it, and so does every
primitive of `A` that its guard lets through. -/
structure Stable (A : Prim → Prop) (P : State → Prop) : Prop where
  tick : ∀ s, P s → P (tick s)
  interrupted : ∀ s, P s → P (interrupted s)
  pc : ∀ s q, P s → P { s with pc := q }
  env : ∀ s e, P s → P { s with env := e }
  prim : ∀ p, A p → ∀ s b, P s → primGuard p s.lines b = none → P (applyPrim p s)

section
variable {A : Prim → Prop} {P : State → Prop} {s t : State}

theorem Stable.mono {B : Prim → Prop} (hs : Stable A P) (h : ∀ p, B p → A p) : Stable B P :=
  ⟨hs.tick, hs.interrupted, hs.pc, hs.env, fun p hp => hs.prim p (h p hp)⟩

theorem Stable.runRow (hs : Stable A P) {row : Row} (ha : ∀ p ∈ row.prims, A p) (h : P s)
    (ht : runRow row s = .next t) : P t :=
  runRow_induct hs.tick hs.interrupted (fun s _ _ => hs.pc s _) row s t
    (fun e he u b => hs.prim e.1 (ha e.1 (List.mem_map_of_mem he)) u b) h ht

theorem Stable.runPrims (hs : Stable A P) {ps : List Prim} (ha : ∀ p ∈ ps, A p) (h : P s)
    (ht : runPrims ps s = .next t) : P t :=
  hs.runRow (by rwa [prims_own]) h ht

theorem Stable.doThen (hs : Stable A P) {ps : List Prim} {next : List Pos → List Pos} (ha : ∀ p ∈ ps, A p) (h : P s)
    (ht : doThen ps next s = .next t) : P t := by
  obtain ⟨u, hu, hcase⟩ := doThen_cases ht
  have hP : P u := hs.runPrims ha h hu
  rcases hcase with ⟨_, rfl⟩ | ⟨_, _, rfl⟩ | ⟨_, _, _, rfl⟩
  · exact hP
  · exact hs.interrupted _ hP
  · exact hs.pc _ _ (hs.tick _ hP)

theorem Stable.raiseHostIo (hs : Stable A P) (hr : ∀ f i, A (.raise f i)) {pre : List Prim} (ha : ∀ p ∈ pre, A p)
    (h : P s) (ht : raiseHostIo pre s = .next t) : P t := by
  refine hs.runPrims (fun p hp => ?_) (hs.env s _ h) ht
  rcases List.mem_append.1 hp with hp | hp
  · exact ha p hp
  · rw [List.mem_singleton.1 hp]; exact hr _ _

/-- A property of what a call leaves that the statement after it keeps. -/
theorem onReturn_keeps {pc : List Pos} {o : Host.Outcome State Fault Refusal}
    {f : State → Host.Outcome State Fault Refusal} (ho : ∀ u, o = .next u → P u)
    (hf : ∀ u, P u → f u = .next t → P t) (ht : onReturn pc o f = .next t) : P t := by
  obtain ⟨u, hu, ⟨_, _, h⟩ | ⟨_, rfl⟩⟩ := onReturn_next ht
  · exact hf u (ho u hu) h
  · exact ho _ hu

end

/-! ## The primitives of the phases and the transactions -/

/-- The primitives of the phases of 40_bus_cycles. -/
def Prim.onBus : Prim → Bool
  | .pin _ | .setDqDir _ | .weRise | .reRise | .setDin _ | .setPolls _ => true
  | _ => false

/-- The primitives of the transactions of 41_transactions and of WaitReady. -/
def Prim.ofCall : Prim → Bool
  | .setIdRd _ | .memWrite _ _ _ | .setStatus _ | .raise _ _ => true
  | p => p.onBus

theorem ofCall_of_onBus {p : Prim} (h : p.onBus = true) : p.ofCall = true := by
  cases p with
  | setIdRd | memWrite | setStatus | raise => rfl
  | _ => exact h

theorem busDir_onBus (cur d : Dir) : (busDir cur d).prims.all Prim.onBus = true := by
  unfold busDir; split <;> rfl

theorem driveLine_onBus (v : Byte) (i : Fin 8) : (driveLine v i).onBus = true := by
  unfold driveLine; split <;> rfl

theorem byteOut_onBus (v : Byte) : (byteOut v).all Prim.onBus = true := by
  simp only [byteOut, driveByte, weStrobe, prims_append, prims_stmt, prims_lineLoop, List.all_append, List.all_cons,
    List.all_nil, driveLine_onBus]
  rfl

theorem flatMap_onBus {g : Byte → List Prim} (h : ∀ v, (g v).all Prim.onBus = true) (vs : List Byte) :
    (vs.flatMap g).all Prim.onBus = true := by
  rw [List.all_flatMap, List.all_eq_true]
  exact fun v _ => h v

theorem cmdPhase_onBus (cur : Dir) (c : Byte) : (cmdPhase cur c).prims.all Prim.onBus = true := by
  rw [prims_cmdPhase, List.all_append, busDir_onBus, List.all_append, List.all_append, byteOut_onBus]; rfl

theorem addrPhase_onBus (cur : Dir) (a : List Byte) : (addrPhase cur a).prims.all Prim.onBus = true := by
  rw [prims_addrPhase, List.all_append, busDir_onBus, List.all_append, List.all_append, flatMap_onBus byteOut_onBus]; rfl

theorem dataOutPhase_onBus (cur : Dir) (ds : List Byte) : (dataOutPhase cur ds).prims.all Prim.onBus = true := by
  rw [prims_dataOutPhase, List.all_append, busDir_onBus, flatMap_onBus byteOut_onBus]; rfl

theorem dataInPhase_onBus (cur : Dir) (vs : List Byte) : (dataInPhase cur vs).prims.all Prim.onBus = true := by
  rw [prims_dataInPhase, List.all_append, busDir_onBus, flatMap_onBus fun _ => rfl]; rfl

end Sys2Proof.Machine
end

/-! PROOF. The transactions from lines at rest (10_state R48): they leave the lines at rest and send legal words, and where
they return they have written nothing but the bus's registers and the one register they are for. -/
section
namespace Sys2Proof.Machine

/-! ## Legal words (30_encoding R91 to R94) -/

theorem legalWord_cmd {c : Byte} {i : Instr} (h : decodeCommandByte c = .ok i) : legalWord (cmdWord c) :=
  ⟨i, by simp [decodeWord, h]⟩

theorem legalWord_addr (a : Byte) : legalWord (addrWord a) := by
  by_cases h : a = 0x00#8
  · exact ⟨.idAddr, by simp [decodeWord, h]⟩
  · exact ⟨.addr a, by simp [decodeWord, h]⟩

theorem legalWord_write (d : Byte) : legalWord (writeWord d) := ⟨.dataW d, by simp [decodeWord]⟩

theorem legalWord_read (d : Byte) : legalWord (readWord d) := ⟨.dataR d, by simp [decodeWord]⟩

/-- A write cycle with CLE alone asserted is a command cycle. -/
theorem legalWord_cmdCycle {ls : Lines} {i : Instr} (hc : ls.cle = true) (ha : ls.ale = false)
    (hi : decodeCommandByte ls.dq = .ok i) : legalWord ls.writeCycle := by
  have h : ls.writeCycle = cmdWord ls.dq := by simp only [Lines.writeCycle, hc, ha]; rfl
  rw [h]; exact legalWord_cmd hi

/-- A write cycle without CLE is an address cycle or a data cycle. -/
theorem legalWord_otherCycle {ls : Lines} (hc : ls.cle = false) : legalWord ls.writeCycle := by
  cases ha : ls.ale with
  | true =>
    have h : ls.writeCycle = addrWord ls.dq := by simp only [Lines.writeCycle, hc, ha]; rfl
    rw [h]; exact legalWord_addr _
  | false =>
    have h : ls.writeCycle = writeWord ls.dq := by simp only [Lines.writeCycle, hc, ha]; rfl
    rw [h]; exact legalWord_write _

theorem readCycle_data {ls : Lines} (hc : ls.cle = false) (ha : ls.ale = false) (v : Byte) :
    ls.readCycle v = readWord v := by
  simp only [Lines.readCycle, hc, ha]; rfl

/-! ## Lines at rest -/

theorem atRest_latches {ls : Lines} (h : ls.atRest = true) :
    ls.cle = false ∧ ls.ale = false ∧ ls.we = true ∧ ls.re = true := by
  simp only [Lines.atRest, Bool.and_eq_true, Bool.not_eq_true'] at h
  obtain ⟨⟨⟨⟨⟨⟨⟨⟨⟨⟨⟨hc, ha⟩, hw⟩, hr⟩, _⟩, _⟩, _⟩, _⟩, _⟩, _⟩, _⟩, _⟩ := h
  exact ⟨hc, ha, hw, hr⟩

theorem contended_of_atRest {ls : Lines} (h : ls.atRest = true) : ls.contended = false := by
  obtain ⟨_, _, _, hr⟩ := atRest_latches h
  simp [Lines.contended, hr]

theorem atRest_turned {ls : Lines} (h : ls.atRest = true) (d : Dir) : (ls.turned d).atRest = true := by
  unfold Lines.turned
  split
  · exact h
  · simp only [Lines.atRest, Bool.and_eq_true, beq_self_eq_true, and_true] at h ⊢
    exact h.1

/-- A byte driven and a latch let go again leave the lines at rest. -/
theorem atRest_driven {ls : Lines} (h : ls.atRest = true) (v : Byte) : { ls with dq := v }.atRest = true := h

theorem latches_low {ls : Lines} (h : ls.atRest = true) : { ls with cle := false } = ls ∧ { ls with ale := false } = ls := by
  obtain ⟨hc, ha, _, _⟩ := atRest_latches h
  exact ⟨by rw [← hc], by rw [← ha]⟩

/-! ## Clean rows -/

/-- A row of bus primitives that, from lines at rest with DQDIR = `cur`, ends with the lines at rest and DQDIR = `d`, all
the words it sends being legal. -/
structure Clean (cur d : Dir) (row : Row) : Prop where
  onBus : row.prims.all Prim.onBus = true
  rest : ∀ ls : Lines, ls.atRest = true → ls.dqDir = cur →
    (ls.afterAll row.prims).atRest = true ∧ (ls.afterAll row.prims).dqDir = d
  words : ∀ s : State, s.lines.atRest = true → s.lines.dqDir = cur → LegalLog s → LegalLog (applyAll row.prims s)

theorem Clean.append {c d e : Dir} {a b : Row} (ha : Clean c d a) (hb : Clean d e b) : Clean c e (a ++ b) where
  onBus := by rw [prims_append, List.all_append, ha.onBus, hb.onBus]; rfl
  rest ls hr hd := by
    rw [prims_append, afterAll_append]
    exact hb.rest _ (ha.rest ls hr hd).1 (ha.rest ls hr hd).2
  words s hr hd hl := by
    rw [prims_append, applyAll_append]
    refine hb.words _ ?_ ?_ (ha.words s hr hd hl) <;> rw [applyAll_lines]
    · exact (ha.rest _ hr hd).1
    · exact (ha.rest _ hr hd).2

theorem Clean.calls {c d : Dir} {row : Row} {q : Proc} {n i : Nat} (h : Clean c d row) : Clean c d (calls q n i row) := by
  refine ⟨?_, ?_, ?_⟩ <;> rw [prims_calls]
  exacts [h.onBus, h.rest, h.words]

/-- From what a phase does to the state: the two facts about the lines are read off at any state with those lines. -/
theorem Clean.of_effect {c d : Dir} {row : Row} (hb : row.prims.all Prim.onBus = true)
    (h : ∀ s : State, s.lines.atRest = true → s.lines.dqDir = c →
      (applyAll row.prims s).lines.atRest = true ∧ (applyAll row.prims s).lines.dqDir = d ∧
      ∃ ws : List CycleWord, (∀ w ∈ ws, legalWord w) ∧ (applyAll row.prims s).cycleLog = ws ++ s.cycleLog) :
    Clean c d row where
  onBus := hb
  rest ls hr hd := by
    obtain ⟨h1, h2, _⟩ := h { State.reset with lines := ls } hr hd
    rw [applyAll_lines] at h1 h2
    exact ⟨h1, h2⟩
  words s hr hd hl := by
    obtain ⟨_, _, ws, hws, hc⟩ := h s hr hd
    intro w hw
    rw [hc] at hw
    exact (List.mem_append.1 hw).elim (hws w) (hl w)

theorem clean_cmd (cur : Dir) {c : Byte} {i : Instr} (hc : decodeCommandByte c = .ok i) :
    Clean cur .out (cmdPhase cur c) := by
  refine .of_effect (cmdPhase_onBus cur c) ?_
  rintro s hr rfl
  obtain ⟨_, ha, hw, _⟩ := atRest_latches hr
  rw [applyAll_cmdPhase s c hw]
  have ht := atRest_driven (atRest_turned hr .out) c
  refine ⟨(congrArg Lines.atRest (latches_low ht).1).trans ht, turned_dqDir _ _, [_], fun w hw => ?_, rfl⟩
  rw [List.mem_singleton.1 hw]
  exact legalWord_cmdCycle rfl ha hc

theorem clean_addr (cur : Dir) (a : List Byte) : Clean cur .out (addrPhase cur a) := by
  refine .of_effect (addrPhase_onBus cur a) ?_
  rintro s hr rfl
  obtain ⟨hc, _, hw, _⟩ := atRest_latches hr
  rw [applyAll_addrPhase s a hw]
  have ht := atRest_driven (atRest_turned hr .out) (a.getLastD s.lines.dq)
  refine ⟨(congrArg Lines.atRest (latches_low ht).2).trans ht, turned_dqDir _ _, _, fun w hw => ?_, rfl⟩
  obtain ⟨v, _, rfl⟩ := List.mem_map.1 (List.mem_reverse.1 hw)
  exact legalWord_otherCycle hc

theorem clean_dataOut (cur : Dir) (ds : List Byte) : Clean cur .out (dataOutPhase cur ds) := by
  refine .of_effect (dataOutPhase_onBus cur ds) ?_
  rintro s hr rfl
  obtain ⟨hc, _, hw, _⟩ := atRest_latches hr
  rw [applyAll_dataOutPhase s ds hw]
  refine ⟨atRest_driven (atRest_turned hr .out) _, turned_dqDir _ _, _, fun w hw => ?_, rfl⟩
  obtain ⟨v, _, rfl⟩ := List.mem_map.1 (List.mem_reverse.1 hw)
  exact legalWord_otherCycle hc

theorem clean_dataIn (cur : Dir) {vs : List Byte} (hv : vs ≠ []) : Clean cur .inp (dataInPhase cur vs) := by
  refine .of_effect (dataInPhase_onBus cur vs) ?_
  rintro s hr rfl
  obtain ⟨hc, ha, _, hre⟩ := atRest_latches hr
  rw [applyAll_dataInPhase s vs hre hv]
  refine ⟨atRest_turned hr .inp, turned_dqDir _ _, _, fun w hw => ?_, rfl⟩
  obtain ⟨v, _, rfl⟩ := List.mem_map.1 (List.mem_reverse.1 hw)
  rw [readCycle_data hc ha]
  exact legalWord_read v

/-- A primitive that samples a line or counts: it changes no line and sends no word. -/
def Prim.samples : Prim → Bool
  | .pin (.readLevel _ _) | .pin .pause | .setPolls _ => true
  | _ => false

theorem applyAll_samples {ps : List Prim} (h : ps.all Prim.samples = true) (s : State) :
    (applyAll ps s).lines = s.lines ∧ (applyAll ps s).cycleLog = s.cycleLog := by
  induction ps generalizing s with
  | nil => exact ⟨rfl, rfl⟩
  | cons p ps ih =>
    rw [List.all_cons, Bool.and_eq_true] at h
    have hp : (applyPrim p s).lines = s.lines ∧ (applyPrim p s).cycleLog = s.cycleLog := by
      unfold Prim.samples at h
      split at h
      · exact ⟨rfl, rfl⟩
      · exact ⟨rfl, rfl⟩
      · exact ⟨rfl, rfl⟩
      · exact absurd h.1 (by simp)
    obtain ⟨hl, hc⟩ := hp
    obtain ⟨hl', hc'⟩ := ih h.2 (applyPrim p s)
    exact ⟨hl'.trans hl, hc'.trans hc⟩

theorem samples_onBus {ps : List Prim} (h : ps.all Prim.samples = true) : ps.all Prim.onBus = true := by
  rw [List.all_eq_true] at h ⊢
  intro p hp
  have := h p hp
  unfold Prim.samples at this
  split at this
  · rfl
  · rfl
  · rfl
  · cases this

theorem clean_samples (cur : Dir) {row : Row} (h : row.prims.all Prim.samples = true) : Clean cur cur row := by
  refine .of_effect (samples_onBus h) fun s hr hd => ?_
  obtain ⟨h1, h2⟩ := applyAll_samples h s
  rw [h1, h2]
  exact ⟨hr, hd, [], by simp, rfl⟩

theorem busySamples_samples (n start : Nat) : (busySamples start n).prims.all Prim.samples = true := by
  induction n generalizing start with
  | zero => rfl
  | succ n ih => rw [busySamples, prims_append, List.all_append, ih]; rfl

/-- A wait that ends ready or never: samples and counts only. -/
theorem waitReady_samples {w : Wait} (h : w.fin ≠ .timeout) : (waitReady w).prims.all Prim.samples = true := by
  unfold waitReady
  split
  · rw [prims_append, prims_append, List.all_append, List.all_append, busySamples_samples]; rfl
  · exact absurd ‹_› h
  · rw [prims_append, List.all_append, busySamples_samples]; rfl

/-- A wait that times out: samples and counts, and then the fault (60_exceptions R265). -/
theorem waitReady_timeout {w : Wait} (h : w.fin = .timeout) : ∃ row : Row, row.prims.all Prim.samples = true ∧
    waitReady w = row ++ [(.raise .busyTimeout (.polls w.busy), [.stmt .waitReady 3 0])] := by
  refine ⟨stmt .waitReady 0 (.setPolls 0) ++ busySamples 0 (w.busy - 1) ++
    (stmt .waitReady 1 (.pin (.readLevel .rb false)) ++ stmt .waitReady 2 (.setPolls w.busy)), ?_, ?_⟩
  · rw [prims_append, prims_append, List.all_append, List.all_append, busySamples_samples]; rfl
  · simp only [waitReady, h, timeoutSample, List.append_assoc]; rfl

/-! ## What the label clauses of the invariant see -/

/-- The registers and streams that the clauses of `Inv` about labels speak of. Of `written`, DIN's mark is set: no label
asks for it. -/
structure View where
  cmd : Cmd
  k : Nat
  count : Nat
  includeSpare : Bool
  sink : List Byte
  badLog : List Nat
  failLog : List (Kind × Nat)
  idCache : DevId
  idValid : Bool
  written : Written

/-- What those clauses see of a state. -/
def State.view (s : State) : View :=
  { cmd := s.cmd, k := s.k, count := s.count, includeSpare := s.includeSpare, sink := s.sink, badLog := s.badLog,
    failLog := s.failLog, idCache := s.idCache, idValid := s.idValid, written := { s.written with din := true } }

/-- A view with other marks of what has been written. -/
def View.mark (v : View) (f : Written → Written) : View := { v with written := f v.written }

/-- A primitive of which the label clauses, PC and the placed word see nothing: one of a phase or of InitLines. -/
def Prim.unseen : Prim → Bool
  | .initPin _ | .initDqDir => true
  | p => p.onBus

theorem unseen_of_onBus {ps : List Prim} (h : ps.all Prim.onBus = true) : ps.all Prim.unseen = true := by
  rw [List.all_eq_true] at h ⊢
  intro p hp
  have := h p hp
  cases p with
  | initPin | initDqDir => rfl
  | _ => exact this

theorem applyAll_unseen {ps : List Prim} (h : ps.all Prim.unseen = true) (s : State) :
    (applyAll ps s).view = s.view ∧ (applyAll ps s).pc = s.pc ∧ (applyAll ps s).placed = s.placed := by
  induction ps generalizing s with
  | nil => exact ⟨rfl, rfl, rfl⟩
  | cons p ps ih =>
    rw [List.all_cons, Bool.and_eq_true] at h
    have hp : (applyPrim p s).view = s.view ∧ (applyPrim p s).pc = s.pc ∧ (applyPrim p s).placed = s.placed := by
      cases p with
      | pin | initPin | setDqDir | initDqDir | weRise | reRise | setDin | setPolls => exact ⟨rfl, rfl, rfl⟩
      | _ => exact absurd h.1 Bool.false_ne_true
    obtain ⟨hv, hpc, hw⟩ := hp
    obtain ⟨hv', hpc', hw'⟩ := ih h.2 (applyPrim p s)
    exact ⟨hv'.trans hv, hpc'.trans hpc, hw'.trans hw⟩

/-! ## Calls -/

/-- A primitive by which a transaction records what it has read. -/
def Prim.records : Prim → Bool
  | .setIdRd _ | .memWrite _ _ _ | .setStatus _ => true
  | _ => false

theorem applyAll_records {ps : List Prim} (h : ps.all Prim.records = true) (s : State) :
    (applyAll ps s).lines = s.lines ∧ (applyAll ps s).cycleLog = s.cycleLog ∧ (applyAll ps s).pc = s.pc ∧
      (applyAll ps s).placed = s.placed := by
  induction ps generalizing s with
  | nil => exact ⟨rfl, rfl, rfl, rfl⟩
  | cons p ps ih =>
    rw [List.all_cons, Bool.and_eq_true] at h
    have hp : (applyPrim p s).lines = s.lines ∧ (applyPrim p s).cycleLog = s.cycleLog ∧ (applyPrim p s).pc = s.pc ∧
        (applyPrim p s).placed = s.placed := by
      cases p with
      | setIdRd | setStatus => exact ⟨rfl, rfl, rfl, rfl⟩
      | memWrite x _ _ => cases x <;> exact ⟨rfl, rfl, rfl, rfl⟩
      | _ => exact absurd h.1 Bool.false_ne_true
    obtain ⟨hl, hc, hpc, hw⟩ := hp
    obtain ⟨hl', hc', hpc', hw'⟩ := ih h.2 (applyPrim p s)
    exact ⟨hl'.trans hl, hc'.trans hc, hpc'.trans hpc, hw'.trans hw⟩

/-- THE THREE WAYS OF A CALL of a transaction or of WaitReady from `s`: a clean row, what was read being recorded last, which
leaves the view `v`; a clean row and a fatal fault; or, where `inner` is not empty, a clean row and PC in a wait that never
ends, at `inner`. -/
inductive CallOf (s : State) (v : View) (inner : List Pos) : Host.Outcome State Fault Refusal → Prop
  | returns {row tail : Row} {d : Dir} (e : Env) (hrow : Clean s.lines.dqDir d row)
      (htail : tail.prims.all Prim.records = true) (hv : ∀ u : State, u.view = s.view → (applyAll tail.prims u).view = v) :
      CallOf s v inner (runRow (row ++ tail) { s with env := e })
  | raises {row : Row} {d : Dir} (e : Env) (f : FatalFault) (i : FaultInfo) (q : List Pos)
      (hrow : Clean s.lines.dqDir d row) : CallOf s v inner (runRow (row ++ [(.raise f i, q)]) { s with env := e })
  | waits {row : Row} {d : Dir} (e : Env) (hrow : Clean s.lines.dqDir d row) (hi : inner ≠ []) :
      CallOf s v inner (onReturn s.pc (runRow row { s with env := e }) fun t => .next (t.standing inner))

/-- What a call that has returned leaves. -/
structure Back (s : State) (v : View) (u : State) : Prop where
  running : u.outcome = .running
  view : u.view = v
  pc : u.pc = s.pc
  placed : u.placed = s.placed
  rest : u.lines.atRest = true

section
variable {s t : State} {v : View} {inner : List Pos} {o : Host.Outcome State Fault Refusal}

/-- A clean row after which the run goes on. -/
theorem Clean.back {d : Dir} {row : Row} {e : Env} (hc : Clean s.lines.dqDir d row) (hr : s.lines.atRest = true)
    (h : runRow row { s with env := e } = .next t) (ht : t.outcome = .running) : Back s s.view t := by
  obtain ⟨hv, hpc, hw⟩ := applyAll_unseen (unseen_of_onBus hc.onBus) { s with env := e }
  have heq := runRow_running h ht
  refine ⟨ht, ?_, ?_, ?_, ?_⟩ <;> rw [heq]
  · exact hv
  · exact hpc
  · exact hw
  · change (applyAll row.prims { s with env := e }).lines.atRest = true
    rw [applyAll_lines]; exact (hc.rest _ hr rfl).1

/-- A clean row and a record after it, after which the run goes on. -/
theorem Clean.back_records {d : Dir} {row tail : Row} {e : Env} (hc : Clean s.lines.dqDir d row)
    (ht : tail.prims.all Prim.records = true) (hv : ∀ u : State, u.view = s.view → (applyAll tail.prims u).view = v)
    (hr : s.lines.atRest = true) (h : runRow (row ++ tail) { s with env := e } = .next t) (hrun : t.outcome = .running) :
    Back s v t := by
  obtain ⟨hbv, hbpc, hbw⟩ := applyAll_unseen (unseen_of_onBus hc.onBus) { s with env := e }
  obtain ⟨hl, _, hpc, hw⟩ := applyAll_records ht (applyAll row.prims { s with env := e })
  have heq := runRow_running h hrun
  rw [prims_append, applyAll_append] at heq
  refine ⟨hrun, ?_, ?_, ?_, ?_⟩ <;> rw [heq]
  · exact hv _ hbv
  · exact hpc.trans hbpc
  · exact hw.trans hbw
  · refine (congrArg Lines.atRest hl).trans ?_
    rw [applyAll_lines]; exact (hc.rest _ hr rfl).1

/-- PC in a wait that never ends: what a state with PC at `inner` has kept. -/
structure Waiting (s : State) (inner : List Pos) (t : State) : Prop where
  view : t.view = s.view
  pc : t.pc = inner ++ s.pc
  placed : t.placed = s.placed
  rest : t.lines.atRest = true

/-- A clean row after which PC is put in a wait's loop, the run going on. -/
theorem Clean.waiting {d : Dir} {row : Row} {e : Env} (hc : Clean s.lines.dqDir d row) (hr : s.lines.atRest = true)
    (h : onReturn s.pc (runRow row { s with env := e }) (fun t => .next (t.standing inner)) = .next t)
    (ht : t.outcome = .running) : Waiting s inner t := by
  obtain ⟨u, hu, ⟨hrun, _, hst⟩ | ⟨hnot, rfl⟩⟩ := onReturn_next h
  · cases hst
    have hb := hc.back hr hu hrun
    exact ⟨hb.view, by rw [standing_pc, hb.pc], hb.placed, hb.rest⟩
  · exact absurd ⟨ht, (hc.back hr hu ht).pc⟩ hnot

/-- WHAT A CALL LEAVES WHERE THE RUN GOES ON: it has returned to the statement that called it, which goes on with `f`, or PC
stands in its wait. -/
theorem CallOf.cases_running {f : State → Host.Outcome State Fault Refusal} (ho : CallOf s v inner o)
    (hr : s.lines.atRest = true) (h : onReturn s.pc o f = .next t) (ht : t.outcome = .running) :
    (∃ u, Back s v u ∧ f u = .next t) ∨ (inner ≠ [] ∧ Waiting s inner t) := by
  obtain ⟨u, hu, ⟨hrun, hpc, hf⟩ | ⟨hn, rfl⟩⟩ := onReturn_next h
  · refine .inl ⟨u, ?_, hf⟩
    cases ho with
    | returns e hrow htail hv => exact hrow.back_records htail hv hr hu hrun
    | raises e f i q hrow => exact absurd hrun (runRow_raise_ends hu)
    | waits e hrow hi => exact absurd (List.append_left_eq_self.1 ((hrow.waiting hr hu hrun).pc.symm.trans hpc)) hi
  · cases ho with
    | returns e hrow htail hv => exact absurd ⟨ht, (hrow.back_records htail hv hr hu ht).pc⟩ hn
    | raises e f i q hrow => exact absurd ht (runRow_raise_ends hu)
    | waits e hrow hi => exact .inr ⟨hi, hrow.waiting hr hu ht⟩

/-- A call sends legal words only, wherever it stops. -/
theorem CallOf.legal (ho : CallOf s v inner o) (hr : s.lines.atRest = true) (hl : LegalLog s) (h : o = .next t) :
    LegalLog t := by
  cases ho with
  | returns e hrow htail hv =>
    refine runRow_legal h ?_
    rw [prims_append, applyAll_append]
    intro w hw
    rw [(applyAll_records htail _).2.1] at hw
    exact hrow.words { s with env := e } hr rfl hl w hw
  | raises e f i q hrow =>
    refine runRow_legal h ?_
    rw [prims_append, applyAll_append]
    exact hrow.words { s with env := e } hr rfl hl
  | waits e hrow hi =>
    refine onReturn_keeps (fun u hu => runRow_legal hu (hrow.words { s with env := e } hr rfl hl)) (fun u hu hst => ?_) h
    cases hst; exact hu

theorem ofCall_of_records {p : Prim} (h : p.records = true) : p.ofCall = true := by
  cases p with
  | setIdRd | memWrite | setStatus => rfl
  | _ => exact absurd h Bool.false_ne_true

/-- A call keeps what its primitives keep. -/
theorem CallOf.keeps {A : Prim → Prop} {P : State → Prop} (ho : CallOf s v inner o) (hs : Stable A P)
    (ha : ∀ p : Prim, p.ofCall = true → A p) (h : P s) (ht : o = .next t) : P t := by
  have hbus : ∀ {row : Row} {d : Dir}, Clean s.lines.dqDir d row → ∀ p ∈ row.prims, A p := fun hc p hp =>
    ha p (ofCall_of_onBus (List.all_eq_true.1 hc.onBus p hp))
  cases ho with
  | returns e hrow htail hv =>
    refine hs.runRow (fun p hp => ?_) (hs.env s e h) ht
    rw [prims_append] at hp
    exact (List.mem_append.1 hp).elim (hbus hrow p) fun hp => ha p (ofCall_of_records (List.all_eq_true.1 htail p hp))
  | raises e f i q hrow =>
    refine hs.runRow (fun p hp => ?_) (hs.env s e h) ht
    rw [prims_append] at hp
    refine (List.mem_append.1 hp).elim (hbus hrow p) fun hp => ?_
    rw [List.mem_singleton.1 hp]; exact ha _ rfl
  | waits e hrow hi =>
    refine onReturn_keeps (fun u hu => hs.runRow (hbus hrow) (hs.env s e h) hu) (fun u hu hst => ?_) ht
    cases hst; exact hs.pc u _ hu

end

/-! ## The six calls -/

theorem clean_readPageOpen (cur : Dir) (p : Nat) : Clean cur .out (readPageOpen cur p) :=
  ((clean_cmd cur (i := .cmdReadSetup) rfl).calls.append (clean_addr .out _).calls).append
    (clean_cmd .out (i := .cmdReadConfirm) rfl).calls

theorem execReadId_call (s : State) :
    CallOf s (s.view.mark fun w => { w with idRd := true }) [] (execReadId s) := by
  have hne : (drawBytes ID_LEN s.env).1 ≠ [] := List.ne_nil_of_length_pos (by rw [drawBytes_length]; decide)
  refine .returns (tail := stmt .readId 2 (.setIdRd _)) _
    (((clean_cmd _ (i := .cmdReadId) rfl).calls.append (clean_addr .out _).calls).append (clean_dataIn .out hne).calls) rfl ?_
  intro u hu
  rw [← hu]; rfl

theorem execReadStatus_call (s : State) :
    CallOf s (s.view.mark fun w => { w with status := true }) [] (execReadStatus s) := by
  refine .returns (tail := stmt .readStatus 1 (.setStatus _)) _
    ((clean_cmd _ (i := .cmdReadStatus) rfl).calls.append (clean_dataIn .out (List.cons_ne_nil _ [])).calls) rfl ?_
  intro u hu
  rw [← hu]; rfl

/-- A call that records nothing. -/
theorem CallOf.silent {s : State} {inner : List Pos} {row : Row} {d : Dir} (e : Env) (hrow : Clean s.lines.dqDir d row) :
    CallOf s s.view inner (runRow row { s with env := e }) := by
  have := CallOf.returns (v := s.view) (inner := inner) (tail := []) e hrow rfl fun _ hu => hu
  rwa [List.append_nil] at this

theorem execWritePage_call (p : Nat) (s : State) : CallOf s s.view [] (execWritePage p s) :=
  .silent s.env ((((clean_cmd _ (i := .cmdProgSetup) rfl).calls.append (clean_addr .out _).calls).append
    (clean_dataOut .out _).calls).append (clean_cmd .out (i := .cmdProgConfirm) rfl).calls)

theorem execEraseBlock_call (b : Nat) (s : State) : CallOf s s.view [] (execEraseBlock b s) :=
  .silent s.env (((clean_cmd _ (i := .cmdEraseSetup) rfl).calls.append (clean_addr .out _).calls).append
    (clean_cmd .out (i := .cmdEraseConfirm) rfl).calls)

theorem runWaitReady_call (s : State) : CallOf s s.view [waitLoop] (runWaitReady s) := by
  unfold runWaitReady
  simp only
  have hclean : (drawWait s.cfg.busyLimit s.env).fin ≠ .timeout →
      Clean s.lines.dqDir s.lines.dqDir (waitReady (drawWait s.cfg.busyLimit s.env)) := fun h =>
    clean_samples _ (waitReady_samples h)
  split
  next hf => exact .silent _ (hclean (by rw [hf]; exact WaitEnd.noConfusion))
  next hf =>
    obtain ⟨row, hrow, hw⟩ := waitReady_timeout hf
    rw [hw]
    exact .raises _ _ _ _ (clean_samples _ hrow)
  next hf => exact .waits _ (hclean (by rw [hf]; exact WaitEnd.noConfusion)) (List.cons_ne_nil _ _)

/-- One more turn of a wait's loop sends no word and records nothing. -/
theorem runWaitLoop_call (s : State) : CallOf s s.view [waitLoop] (runWaitLoop s) := by
  unfold runWaitLoop
  split
  · exact .raises (row := stmt .waitReady 1 _ ++ stmt .waitReady 2 _) s.env _ _ _ (clean_samples s.lines.dqDir rfl)
  · exact .waits s.env (clean_samples s.lines.dqDir rfl) (List.cons_ne_nil _ _)

/-- One more turn after which the run goes on: PC is in the loop again. -/
theorem runWaitLoop_waiting {s t : State} (hr : s.lines.atRest = true) (h : runWaitLoop s = .next t)
    (ht : t.outcome = .running) : Waiting s [waitLoop] t := by
  unfold runWaitLoop at h
  split at h
  · exact absurd ht (runRow_raise_ends (row := stmt .waitReady 1 _ ++ stmt .waitReady 2 _) h)
  · exact (clean_samples s.lines.dqDir (row := busySample _) rfl).waiting hr h ht

/-- The mark that a page buffer is written. -/
def Written.buf (w : Written) : Buf → Written
  | .a => { w with bufA := true }
  | .b => { w with bufB := true }

theorem execReadPage_call (p : Nat) (x : Buf) (s : State) :
    CallOf s (s.view.mark (·.buf x)) [waitLoop, .stmt .readPage 3 0] (execReadPage p x s) := by
  unfold execReadPage
  simp only
  have hclean : (drawWait s.cfg.busyLimit s.env).fin ≠ .timeout →
      Clean s.lines.dqDir .out (readPageWait s.lines.dqDir p (drawWait s.cfg.busyLimit s.env)) := fun h =>
    (clean_readPageOpen _ p).append (clean_samples _ (waitReady_samples h)).calls
  split
  next hf =>
    have hne : (drawBytes PAGE_SIZE (drawWait s.cfg.busyLimit s.env).env).1 ≠ [] :=
      List.ne_nil_of_length_pos (by rw [drawBytes_length]; decide)
    rw [readPageData, ← List.append_assoc]
    refine .returns _ ((hclean (by rw [hf]; exact WaitEnd.noConfusion)).append (clean_dataIn .out hne).calls) rfl ?_
    intro u hu
    rw [← hu]
    cases x <;> rfl
  next hf =>
    obtain ⟨row, hrow, hw⟩ := waitReady_timeout hf
    rw [readPageWait, hw, calls, List.map_append, ← List.append_assoc]
    exact .raises _ _ _ _ ((clean_readPageOpen _ p).append (clean_samples _ hrow).calls)
  next hf => exact .waits _ (hclean (by rw [hf]; exact WaitEnd.noConfusion)) (List.cons_ne_nil _ _)

end Sys2Proof.Machine
end

/-! PROOF. A label's statement and a step, each said once: which primitives and which calls a label performs, and which of
seven things a step is. -/
section
namespace Sys2Proof.Machine

/-! ## The primitives of a label's own statement -/

/-- What a primitive may do in a statement of the sequencer at `l` from `s`, beside the transactions the statement calls:
RETRY and the record stay in their bounds, ID_CACHE is S4's, K moves by one at the ends of units, InitLines drives RE# by a
guarded primitive, and no statement runs a part of a phase (42_operations R211). -/
def ownPrim (l : Label) (s : State) : Prim → Prop
  | .initPin e => e ≠ .setHigh .re ∧ e ≠ .setLow .re
  | .setIdCache _ | .setIdValid => l = .s4
  | .setRetry n => n ≤ MAX_RETRIES
  | .setK n => l ∈ [Label.p9, .w9, .e8] ∧ n = s.k + 1
  | .setRecord r => ∀ x, r = some x → x.length ≤ PAGE_SIZE
  | .setDqDir _ | .weRise | .reRise | .setDin _ | .setPolls _ | .setIdRd _ | .setStatus _ => False
  | .load _ _ _ _ _ _ => False
  | _ => True

/-- The calls a label's statement can make keep `P`. -/
structure CallsKeep (s : State) (P : State → Prop) : Prop where
  readId : ∀ t, execReadId s = .next t → P t
  readPage : ∀ x t, execReadPage s.unit x s = .next t → P t
  writePage : ∀ t, execWritePage s.unit s = .next t → P t
  eraseBlock : ∀ t, execEraseBlock s.unit s = .next t → P t
  readStatus : ∀ t, execReadStatus s = .next t → P t
  waitReady : ∀ t, runWaitReady s = .next t → P t

/-- A property that the primitives of the transactions keep is kept by every call. -/
theorem Stable.calls {A : Prim → Prop} {P : State → Prop} {s : State} (hs : Stable A P)
    (ha : ∀ p : Prim, p.ofCall = true → A p) (h : P s) : CallsKeep s P where
  readId _ := (execReadId_call s).keeps hs ha h
  readPage x _ := (execReadPage_call _ x s).keeps hs ha h
  writePage _ := (execWritePage_call _ s).keeps hs ha h
  eraseBlock _ := (execEraseBlock_call _ s).keeps hs ha h
  readStatus _ := (execReadStatus_call s).keeps hs ha h
  waitReady _ := (runWaitReady_call s).keeps hs ha h

/-- From lines at rest every call sends legal words only. -/
theorem callsKeep_legal {s : State} (hr : s.lines.atRest = true) (hl : LegalLog s) : CallsKeep s LegalLog where
  readId _ := (execReadId_call s).legal hr hl
  readPage x _ := (execReadPage_call _ x s).legal hr hl
  writePage _ := (execWritePage_call _ s).legal hr hl
  eraseBlock _ := (execEraseBlock_call _ s).legal hr hl
  readStatus _ := (execReadStatus_call s).legal hr hl
  waitReady _ := (runWaitReady_call s).legal hr hl

theorem retry_lt_of_conditionAt {l : Label} (hl : l ∈ [Label.p7, .w8, .e7]) {s : State} (h : conditionAt l s = none) :
    s.retry < MAX_RETRIES := by
  simp only [List.mem_cons, List.not_mem_nil, or_false] at hl
  rcases hl with rfl | rfl | rfl <;>
  · simp only [conditionAt] at h
    split at h
    · assumption
    · cases h

section
variable {l : Label} {P : State → Prop} {s t : State}

theorem runS1_keeps (hs : Stable (ownPrim l s) P) (h : P s) (ht : runS1 s = .next t) : P t := by
  have hopen : ∀ p ∈ [Prim.openSink], ownPrim l s p := by simp [ownPrim]
  have hraise : ∀ f i, ownPrim l s (.raise f i) := fun _ _ => trivial
  unfold runS1 at ht
  split at ht
  case h_1 | h_2 =>
    simp only at ht
    split at ht
    · split at ht
      · exact hs.doThen hopen (hs.env s _ h) ht
      · exact hs.raiseHostIo hraise hopen (hs.env s _ h) ht
    · exact hs.raiseHostIo hraise (by simp) (hs.env s _ h) ht
  case h_3 =>
    simp only at ht
    split at ht
    · exact hs.doThen (by simp) (hs.env s _ h) ht
    · exact hs.raiseHostIo hraise (by simp) (hs.env s _ h) ht
  case h_4 | h_5 => exact hs.doThen (by simp) h ht

theorem runS2_keeps (hs : Stable (ownPrim l s) P) (h : P s) (ht : runS2 s = .next t) : P t :=
  hs.doThen (by simp [initLines, dqLines, ownPrim]) h ht

theorem runS3_keeps (hs : Stable (ownPrim l s) P) (h : P s) (ht : runS3 s = .next t) : P t := by
  simp only [runS3] at ht
  split at ht
  · exact hs.doThen (by simp [ownPrim]) (hs.env s _ h) ht
  · exact hs.runPrims (by simp [ownPrim]) (hs.env s _ h) ht

theorem runS4_keeps (hs : Stable (ownPrim .s4 s) P) (hc : CallsKeep s P) (ht : runS4 s = .next t) : P t := by
  refine onReturn_keeps hc.readId (fun u hu hf => ?_) ht
  split at hf
  · exact hs.runPrims (by simp [ownPrim]) hu hf
  · exact hs.doThen (by simp [ownPrim]) hu hf

theorem runS5_keeps (hs : Stable (ownPrim l s) P) (h : P s) (ht : runS5 s = .next t) : P t := by
  simp only [runS5] at ht
  split at ht
  · exact hs.doThen (by simp) h ht
  · split at ht
    · exact hs.doThen (by simp) (hs.env s _ h) ht
    · exact hs.runPrims (by simp [ownPrim]) (hs.env s _ h) ht

theorem runS6_keeps (hs : Stable (ownPrim l s) P) (h : P s) (ht : runS6 s = .next t) : P t := by
  unfold runS6 at ht
  split at ht <;> exact hs.doThen (by simp) h ht

theorem runI3_keeps (hs : Stable (ownPrim l s) P) (h : P s) (ht : runI3 s = .next t) : P t := by
  unfold runI3 at ht
  split at ht <;> exact hs.doThen (by simp) h ht

theorem runP3_keeps (hs : Stable (ownPrim l s) P) (h : P s) (ht : runP3 s = .next t) : P t := by
  unfold runP3 at ht
  split at ht <;> exact hs.doThen (by simp) h ht

theorem runP6_keeps (hs : Stable (ownPrim l s) P) (h : P s) (ht : runP6 s = .next t) : P t := by
  unfold runP6 at ht
  split at ht <;> exact hs.doThen (by simp) h ht

/-- P1 and E1: RETRY <- 0 where there is a unit, and the return where there is none. -/
theorem unitHead_keeps {next next' : List Pos → List Pos} (hs : Stable (ownPrim l s) P) (h : P s)
    (ht : (if s.k < s.count then doThen [.setRetry 0] next s else doThen [] next' s) = .next t) : P t := by
  split at ht
  · exact hs.doThen (by simp [ownPrim]) h ht
  · exact hs.doThen (by simp) h ht

/-- P9, W9 and E8. -/
theorem unitEnd_keeps {next : List Pos → List Pos} {e : Report} (hl : l ∈ [Label.p9, .w9, .e8])
    (hs : Stable (ownPrim l s) P) (h : P s)
    (ht : doThen [.report e, .setRetry 0, .setK (s.k + 1)] next s = .next t) : P t := by
  refine hs.doThen ?_ h ht
  rw [List.forall_mem_cons, List.forall_mem_cons, List.forall_mem_singleton]
  exact ⟨trivial, Nat.zero_le _, hl, rfl⟩

/-- One more attempt after P7, W8 or E7. -/
theorem retry_keeps {here : Label} {next : List Pos → List Pos} {e : Report} (hl : here ∈ [Label.p7, .w8, .e7])
    (hn : conditionAt here s = none) (hs : Stable (ownPrim l s) P) (h : P s)
    (ht : doThen [.setRetry (s.retry + 1), .report e] next s = .next t) : P t := by
  refine hs.doThen ?_ h ht
  rw [List.forall_mem_cons, List.forall_mem_singleton]
  exact ⟨retry_lt_of_conditionAt hl hn, trivial⟩

theorem runP7_keeps (hs : Stable (ownPrim l s) P) (h : P s) (ht : runP7 s = .next t) : P t := by
  unfold runP7 at ht
  split at ht
  next hn => exact retry_keeps (by simp) hn hs h ht
  next =>
    simp only at ht
    split at ht
    · exact hs.doThen (by simp [ownPrim]) (hs.env s _ h) ht
    · exact hs.raiseHostIo (fun _ _ => trivial) (by simp) (hs.env s _ h) ht

theorem runP8_keeps (hs : Stable (ownPrim l s) P) (h : P s) (ht : runP8 s = .next t) : P t := by
  simp only [runP8] at ht
  split at ht
  · exact hs.doThen (by simp [ownPrim]) (hs.env s _ h) ht
  · exact hs.raiseHostIo (fun _ _ => trivial) (by simp) (hs.env s _ h) ht

theorem runW1_keeps (hs : Stable (ownPrim l s) P) (h : P s) (ht : runW1 s = .next t) : P t := by
  simp only [runW1] at ht
  split at ht
  · refine hs.doThen ?_ (hs.env s _ h) ht
    rw [List.forall_mem_singleton]
    intro x hx
    split at hx
    · cases hx; exact List.length_take_le _ _
    · cases hx
  · exact hs.doThen (by simp) h ht

theorem runW2_keeps (hs : Stable (ownPrim l s) P) (h : P s) (ht : runW2 s = .next t) : P t := by
  unfold runW2 at ht
  split at ht
  · exact hs.raiseHostIo (fun _ _ => trivial) (by simp) h ht
  · split at ht
    · exact hs.raiseHostIo (fun _ _ => trivial) (by simp) h ht
    · exact hs.doThen (by simp [ownPrim]) h ht

/-- W7 and E6. -/
theorem checkStatus_keeps {here pass retry : Label} (hs : Stable (ownPrim l s) P) (hc : CallsKeep s P)
    (ht : checkStatus here pass retry s = .next t) : P t := by
  refine onReturn_keeps hc.readStatus (fun u hu hf => ?_) ht
  split at hf <;> exact hs.doThen (by simp) hu hf

/-- W8 and E7. -/
theorem statusError_keeps {here again done : Label} {kind : Kind} (hl : here ∈ [Label.p7, .w8, .e7])
    (hs : Stable (ownPrim l s) P) (h : P s) (ht : statusError here kind again done s = .next t) : P t := by
  unfold statusError at ht
  split at ht
  next hn => exact retry_keeps hl hn hs h ht
  next => exact hs.doThen (by simp [ownPrim]) h ht

/-- A call, and then `pc <- next`. -/
theorem callThen_keeps {o : Host.Outcome State Fault Refusal} {next : List Pos → List Pos}
    (hs : Stable (ownPrim l s) P) (ho : ∀ u, o = .next u → P u) (ht : onReturn s.pc o (doThen [] next) = .next t) : P t :=
  onReturn_keeps ho (fun _ hu hf => hs.doThen (by simp) hu hf) ht

/-- THE INDUCTION OVER A LABEL'S STATEMENT: what its own primitives and its calls keep, it keeps. -/
theorem runLabel_keeps (hs : Stable (ownPrim l s) P) (h : P s) (hc : l ∉ [Label.s1, .s2] → CallsKeep s P)
    (ht : runLabel l s = .next t) : P t := by
  cases l with
  | s1 => exact runS1_keeps hs h ht
  | s2 => exact runS2_keeps hs h ht
  | s3 => exact runS3_keeps hs h ht
  | s4 => exact runS4_keeps hs (hc (by decide)) ht
  | s5 => exact runS5_keeps hs h ht
  | s6 => exact runS6_keeps hs h ht
  | s7 => exact hs.runPrims (by simp [ownPrim]) h ht
  | i1 | p2 | w3 | w4 | e2 | e3 => exact hs.doThen (by simp) h ht
  | i2 =>
    simp only [runLabel, runI2] at ht
    exact callThen_keeps hs (hc (by decide)).readId ht
  | i3 => exact runI3_keeps hs h ht
  | p1 | e1 => exact unitHead_keeps hs h ht
  | p3 => exact runP3_keeps hs h ht
  | p4 =>
    simp only [runLabel, runP4] at ht
    exact callThen_keeps hs ((hc (by decide)).readPage .a) ht
  | p5 =>
    simp only [runLabel, runP5] at ht
    exact callThen_keeps hs ((hc (by decide)).readPage .b) ht
  | p6 => exact runP6_keeps hs h ht
  | p7 => exact runP7_keeps hs h ht
  | p8 => exact runP8_keeps hs h ht
  | p9 | w9 | e8 => exact unitEnd_keeps (by decide) hs h ht
  | w1 => exact runW1_keeps hs h ht
  | w2 => exact runW2_keeps hs h ht
  | w5 =>
    simp only [runLabel, runW5] at ht
    exact callThen_keeps hs (hc (by decide)).writePage ht
  | e4 =>
    simp only [runLabel, runE4] at ht
    exact callThen_keeps hs (hc (by decide)).eraseBlock ht
  | w6 | e5 =>
    simp only [runLabel, runW6, runE5] at ht
    exact callThen_keeps hs (hc (by decide)).waitReady ht
  | w7 | e6 =>
    simp only [runLabel, runW7, runE6] at ht
    exact checkStatus_keeps hs (hc (by decide)) ht
  | w8 | e7 => exact statusError_keeps (by decide) hs h ht

end

/-- What a statement at `l` from `s` performs: its own primitives and those of the transactions it calls. -/
def labelPrim (l : Label) (s : State) (p : Prim) : Prop := ownPrim l s p ∨ p.ofCall = true

/-- What all of them keep, a label's statement keeps. -/
theorem Stable.label {l : Label} {P : State → Prop} {s t : State} (hs : Stable (labelPrim l s) P) (h : P s)
    (ht : runLabel l s = .next t) : P t :=
  runLabel_keeps (hs.mono fun _ => .inl) h (fun _ => hs.calls (fun _ => .inr) h) ht

/-! ## Bus cycles and host commands -/

/-- The row of a bus-cycle instruction from DQDIR = `cur` (40_bus_cycles R138 to R142). -/
def cycleRow (cur : Dir) : Instr → Row
  | .cmdReadId => cmdPhase cur 0x90#8
  | .cmdReadSetup => cmdPhase cur 0x00#8
  | .cmdReadConfirm => cmdPhase cur 0x30#8
  | .cmdProgSetup => cmdPhase cur 0x80#8
  | .cmdProgConfirm => cmdPhase cur 0x10#8
  | .cmdEraseSetup => cmdPhase cur 0x60#8
  | .cmdEraseConfirm => cmdPhase cur 0xD0#8
  | .cmdReadStatus => cmdPhase cur 0x70#8
  | .idAddr => addrPhase cur [0x00#8]
  | .addr a => addrPhase cur [a]
  | .dataW d => dataOutPhase cur [d]
  | .dataR d => dataInPhase cur [d]
  | _ => []

theorem exec_cycle {i : Instr} (h : (encodeWord i).isSome = true) (s : State) :
    exec i s = runRow (cycleRow s.lines.dqDir i) s := by
  cases i with
  | readId | readPage | writePage | eraseBlock | readStatus | readIdCmd | readFull | readData | writeFull
  | eraseBlocks => exact absurd h Bool.false_ne_true
  | _ => rfl

/-- A bus cycle is a clean row. -/
theorem cycleRow_clean {i : Instr} (h : (encodeWord i).isSome = true) (cur : Dir) : ∃ d, Clean cur d (cycleRow cur i) := by
  cases i with
  | cmdReadId => exact ⟨_, clean_cmd cur (i := .cmdReadId) rfl⟩
  | cmdReadSetup => exact ⟨_, clean_cmd cur (i := .cmdReadSetup) rfl⟩
  | cmdReadConfirm => exact ⟨_, clean_cmd cur (i := .cmdReadConfirm) rfl⟩
  | cmdProgSetup => exact ⟨_, clean_cmd cur (i := .cmdProgSetup) rfl⟩
  | cmdProgConfirm => exact ⟨_, clean_cmd cur (i := .cmdProgConfirm) rfl⟩
  | cmdEraseSetup => exact ⟨_, clean_cmd cur (i := .cmdEraseSetup) rfl⟩
  | cmdEraseConfirm => exact ⟨_, clean_cmd cur (i := .cmdEraseConfirm) rfl⟩
  | cmdReadStatus => exact ⟨_, clean_cmd cur (i := .cmdReadStatus) rfl⟩
  | idAddr => exact ⟨_, clean_addr cur _⟩
  | addr a => exact ⟨_, clean_addr cur _⟩
  | dataW d => exact ⟨_, clean_dataOut cur _⟩
  | dataR d => exact ⟨_, clean_dataIn cur (List.cons_ne_nil _ _)⟩
  | _ => exact absurd h Bool.false_ne_true

/-- Both strobes high, no guard stops a bus cycle. -/
theorem cycleRow_turns {i : Instr} (h : (encodeWord i).isSome = true) (cur : Dir) : ∃ d, Turns cur d (cycleRow cur i) := by
  cases i with
  | cmdReadId | cmdReadSetup | cmdReadConfirm | cmdProgSetup | cmdProgConfirm | cmdEraseSetup | cmdEraseConfirm
  | cmdReadStatus => exact ⟨_, turns_cmd cur _⟩
  | idAddr | addr => exact ⟨_, turns_addr cur _⟩
  | dataW => exact ⟨_, turns_dataOut cur _⟩
  | dataR => exact ⟨_, turns_dataIn cur _⟩
  | _ => exact absurd h Bool.false_ne_true

/-- A cycle word decodes to a bus cycle. -/
theorem decodeNat_isCycle {w : Nat} {i : Instr} (h : decodeNat w = .ok i) : (encodeWord i).isSome = true := by
  have hcmd : ∀ c : Byte, decodeCommandByte c = .ok i → (encodeWord i).isSome = true := by
    intro c hc
    simp only [decodeCommandByte] at hc
    (repeat' split at hc) <;> cases hc <;> rfl
  simp only [decodeNat, decodeWord] at h
  split at h
  · split at h
    · exact hcmd _ h
    · (repeat' split at h) <;> cases h <;> rfl
  · cases h

/-- The one primitive of S0 (42_operations R212): Validate's writes, or the UsageError of a check that fails. -/
def hostPrim (p : Prim) : Prop :=
  p = .raise .usageError .none ∨
    ∃ cmd delay first count path, p = .load cmd delay first count (decide (cmd = .readFull)) path

theorem hostCommand_prim (cmd : Cmd) (delay first count : Nat) (path : Token) (s : State) :
    ∃ p, hostPrim p ∧ hostCommand cmd delay first count (decide (cmd = .readFull)) path s =
      runPrims [p] (startInvocation s) := by
  unfold hostCommand
  split
  · exact ⟨_, .inl rfl, rfl⟩
  · exact ⟨_, .inr ⟨cmd, delay, first, count, path, rfl⟩, rfl⟩

/-- A command line that is decoded runs S0. -/
theorem exec_command {i : Instr} (h : (encodeCommand i).isSome = true) (s : State) :
    ∃ p, hostPrim p ∧ exec i s = runPrims [p] (startInvocation s) := by
  cases i with
  | readIdCmd d => exact hostCommand_prim .readId d 0 0 [] s
  | readFull d f c path => exact hostCommand_prim .readFull d f c path s
  | readData d f c path => exact hostCommand_prim .readData d f c path s
  | writeFull d f c path => exact hostCommand_prim .writeFull d f c path s
  | eraseBlocks d f c => exact hostCommand_prim .eraseBlocks d f c [] s
  | _ => exact absurd h Bool.false_ne_true

theorem parseRange_ok {delay first count : Token} {k : Nat → Nat → Nat → Instr} {i : Instr}
    (h : parseRange delay first count k = .ok i) : ∃ d f c, i = k d f c := by
  unfold parseRange at h
  split at h
  · cases h; exact ⟨_, _, _, rfl⟩
  · cases h

theorem decodeCommand_isCommand {line : List Token} {i : Instr} (h : decodeCommand line = .ok i) :
    (encodeCommand i).isSome = true := by
  unfold decodeCommand at h
  split at h
  · cases h
  · cases h
  · split at h
    · cases h
    · split at h
      · cases h; rfl
      · cases h
    · obtain ⟨d, f, c, rfl⟩ := parseRange_ok h; rfl
    · obtain ⟨d, f, c, rfl⟩ := parseRange_ok h; rfl
    · obtain ⟨d, f, c, rfl⟩ := parseRange_ok h; rfl
    · obtain ⟨d, f, c, rfl⟩ := parseRange_ok h; rfl
    · cases h

/-! ## What a step is -/

/-- The seven things a step can be. -/
inductive StepIs (s : State) : Prop
  /-- The state breaks 10_state R25. -/
  | contention (hk : s.contends = true) (h : step s = .fault .busContention)
  /-- Nothing to do. -/
  | idle (h : step s = .next (stayIdle s))
  /-- S0 for a command line, the lines `rest` staying. -/
  | host (rest : List (List Token)) (p : Prim) (hp : hostPrim p)
      (h : step s = runPrims [p] (startInvocation { s with commands := rest }))
  /-- A placed word that is a bus cycle. -/
  | cycle (w : Nat) (i : Instr) (hr : s.outcome = .running) (hw : s.placed = some w) (hi : (encodeWord i).isSome = true)
      (h : step s = exec i { s with placed := none })
  /-- A placed word that is none. -/
  | reject (r : Refusal) (h : step s = .refused r)
  /-- A sequencer statement. -/
  | label (l : Label) (rest : List Pos) (hr : s.outcome = .running) (hw : s.placed = none) (hp : s.pc = .lab l :: rest)
      (h : step s = runLabel l s)
  /-- The loop of a wait. -/
  | wait (rest : List Pos) (hr : s.outcome = .running) (hw : s.placed = none) (hp : s.pc = waitLoop :: rest)
      (h : step s = runWaitLoop { s with pc := rest })

theorem stepIs_host {s : State} (h : nextWork s = hostWork s) : StepIs s := by
  unfold hostWork at h
  split at h
  · exact .idle (by simp [step, h])
  next line rest _ =>
    split at h
    next i hi =>
      obtain ⟨p, hp, hx⟩ := exec_command (decodeCommand_isCommand hi) { s with commands := rest }
      exact .host rest p hp (by simp [step, h, hx])
    next => exact .host rest _ (.inl rfl) (by simp [step, h, rejectCommand])

theorem stepIs (s : State) : StepIs s := by
  cases hk : s.contends with
  | true => exact .contention hk (by simp [step, nextWork, hk])
  | false =>
    by_cases hr : s.outcome = .running
    · cases hw : s.placed with
      | some w =>
        cases hi : decodeNat w with
        | ok i => exact .cycle w i hr hw (decodeNat_isCycle hi) (by simp [step, nextWork, hk, hr, hw, hi])
        | error r => exact .reject (rejectWord r) (by simp [step, nextWork, hk, hr, hw, hi])
      | none =>
        have hseq : nextWork s = seqWork s := by simp [nextWork, hk, hr, hw]
        match hp : s.pc with
        | [] => exact .idle (by simp [step, hseq, seqWork, hp])
        | .s0 :: rest => exact stepIs_host (by simp [hseq, seqWork, hp])
        | .lab l :: rest => exact .label l rest hr hw hp (step_label hr hk hw hp)
        | .stmt q n i :: rest =>
          by_cases hl : Pos.stmt q n i = waitLoop
          · rw [hl] at hp
            exact .wait rest hr hw hp (step_wait hr hk hw hp)
          · exact .idle (by simp [step, hseq, seqWork, hp, hl])
    · exact stepIs_host (step_host hk (.inl hr))

end Sys2Proof.Machine
end

/-! PROOF. The invariant in two parts: what holds of every state, kept primitive by primitive, and what holds while the run
goes on, by the label at which PC stands. -/
section
namespace Sys2Proof.Machine

/-! ## Properties every step keeps -/

/-- The bounds a primitive keeps wherever the engine performs it. -/
def Prim.within : Prim → Prop
  | .initPin e => e ≠ .setHigh .re ∧ e ≠ .setLow .re
  | .setRetry n => n ≤ MAX_RETRIES
  | .setRecord r => ∀ x, r = some x → x.length ≤ PAGE_SIZE
  | _ => True

theorem within_of_ofCall {p : Prim} (h : p.ofCall = true) : p.within := by
  cases p with
  | initPin | setRetry | setRecord => exact absurd h Bool.false_ne_true
  | _ => trivial

theorem within_of_ownPrim {l : Label} {s : State} {p : Prim} (h : ownPrim l s p) : p.within := by
  cases p with
  | initPin | setRetry | setRecord => exact h
  | _ => trivial

theorem within_of_labelPrim {l : Label} {s : State} {p : Prim} (h : labelPrim l s p) : p.within :=
  h.elim within_of_ownPrim within_of_ofCall

theorem within_of_hostPrim {p : Prim} (h : hostPrim p) : p.within := by
  obtain rfl | ⟨_, _, _, _, _, rfl⟩ := h <;> trivial

/-- THE INDUCTION OVER A STEP: what every bounded primitive, a new invocation and the model's queues keep, a step keeps. -/
theorem step_keeps {P : State → Prop} (hs : Stable Prim.within P) (hstart : ∀ s, P s → P (startInvocation s))
    (hqueue : ∀ s c w, P s → P { s with commands := c, placed := w }) {s t : State} (h : P s) (ht : step s = .next t) :
    P t := by
  cases stepIs s with
  | contention _ he | reject _ he => rw [he] at ht; cases ht
  | idle he =>
    rw [he] at ht
    cases ht
    unfold stayIdle
    split
    · exact hs.interrupted s h
    · exact h
  | host rest p hp he =>
    rw [he] at ht
    refine hs.runPrims (fun q hq => ?_) (hstart _ (hqueue s rest s.placed h)) ht
    rw [List.mem_singleton.1 hq]; exact within_of_hostPrim hp
  | cycle w i _ _ hi he =>
    rw [he, exec_cycle hi] at ht
    obtain ⟨d, hrow⟩ := cycleRow_clean hi s.lines.dqDir
    exact hs.runRow (fun p hp => within_of_ofCall (ofCall_of_onBus (List.all_eq_true.1 hrow.onBus p hp)))
      (hqueue s s.commands none h) ht
  | label l rest _ _ _ he =>
    rw [he] at ht
    exact (hs.mono fun _ => within_of_labelPrim).label h ht
  | wait rest _ _ _ he =>
    rw [he] at ht
    exact (runWaitLoop_call _).keeps hs (fun _ => within_of_ofCall) (hs.pc s rest h) ht

/-- The clauses of the invariant that every primitive keeps: the configuration, the buffers, the bounds, and that the engine
does not drive DQ while RE# is 0 once this invocation has set RE#. -/
structure Sound (s : State) : Prop where
  config : s.cfg.wf = true
  memA : s.bufA.wf = true
  memB : s.bufB.wf = true
  recordFits : ∀ r, s.record = some r → r.length ≤ PAGE_SIZE
  retryBound : s.retry ≤ MAX_RETRIES
  raised : s.pinLog.contains (.setHigh .re) = true → s.lines.contended = false

theorem contended_event_of_other {ls : Lines} {e : PinEvent} (h1 : e ≠ .setHigh .re) (h2 : e ≠ .setLow .re) :
    (ls.event e).contended = ls.contended := by
  cases e with
  | setDir l _ => cases l <;> rfl
  | setHigh l =>
    cases l with
    | re => exact absurd rfl h1
    | _ => rfl
  | setLow l =>
    cases l with
    | re => exact absurd rfl h2
    | _ => rfl
  | readLevel | pause => rfl

/-- A guarded pin event leaves DQ to one driver. -/
theorem contended_of_pinGuard {e : PinEvent} {ls : Lines} {b : Bool} (h : primGuard (.pin e) ls b = none) :
    (ls.event e).contended = false := by
  have hguard : ∀ m : Lines, (if m.contested b then some Fault.busContention else none) = none → m.contended = false := by
    intro m hm
    cases hc : m.contended with
    | false => rfl
    | true => simp [Lines.contested, hc] at hm
  cases e with
  | setDir l d =>
    cases l with
    | dq i =>
      simp only [primGuard, ite_eq_right_iff, reduceCtorEq, imp_false, Bool.or_eq_true, not_or, Lines.contested] at h
      simpa [Lines.event, Lines.setDir, Lines.contended] using h.2.1
    | _ => exact hguard _ h
  | _ => exact hguard _ h

/-- A primitive that its guard lets through keeps DQ to one driver; of InitLines' unguarded ones, those that leave RE# alone
do. -/
theorem contended_applyPrim {p : Prim} (hp : p.within) {s : State} {b : Bool} (hg : primGuard p s.lines b = none)
    (h : s.lines.contended = false) : (applyPrim p s).lines.contended = false := by
  cases p with
  | pin e => exact contended_of_pinGuard hg
  | initPin e => exact (contended_event_of_other hp.1 hp.2).trans h
  | setDqDir d =>
    have hre : s.lines.re = true := by
      simp only [primGuard, ite_eq_right_iff, reduceCtorEq, imp_false, Bool.or_eq_true, not_or, Lines.strobeLow] at hg
      exact (by simpa using hg.1 : s.lines.we = true ∧ s.lines.re = true).2
    simp [applyPrim, Lines.contended, hre]
  | initDqDir => rfl
  | weRise => exact h
  | reRise => simp [applyPrim, Lines.setLevel, Lines.contended]
  | memWrite x _ _ => cases x <;> exact h
  | _ => exact h

/-- That the engine does not contend is kept within an invocation. -/
theorem stable_contended : Stable Prim.within fun s => s.lines.contended = false where
  tick _ h := h
  interrupted _ h := h
  pc _ _ h := h
  env _ _ h := h
  prim _ hp _ _ h hg := contended_applyPrim hp hg h

theorem raised_applyPrim {p : Prim} (hp : p.within) {s : State} {b : Bool} (hg : primGuard p s.lines b = none)
    (h : s.pinLog.contains (.setHigh .re) = true → s.lines.contended = false) :
    (applyPrim p s).pinLog.contains (.setHigh .re) = true → (applyPrim p s).lines.contended = false := by
  intro hc
  cases p with
  | pin e => exact contended_of_pinGuard hg
  | initPin e =>
    refine (contended_event_of_other hp.1 hp.2).trans (h ?_)
    simpa [applyPrim, Ne.symm hp.1] using hc
  | reRise => simp [applyPrim, Lines.setLevel, Lines.contended]
  | weRise => exact contended_applyPrim hp hg (h (by simpa [applyPrim] using hc))
  | memWrite x _ _ => cases x <;> exact h hc
  | setDqDir | initDqDir => exact contended_applyPrim hp hg (h hc)
  | _ => exact h hc

theorem stable_sound : Stable Prim.within Sound where
  tick _ h := ⟨h.config, h.memA, h.memB, h.recordFits, h.retryBound, h.raised⟩
  interrupted _ h := ⟨h.config, h.memA, h.memB, h.recordFits, h.retryBound, h.raised⟩
  pc _ _ h := ⟨h.config, h.memA, h.memB, h.recordFits, h.retryBound, h.raised⟩
  env _ _ h := ⟨h.config, h.memA, h.memB, h.recordFits, h.retryBound, h.raised⟩
  prim p hp s b h hg := by
    have hraised := raised_applyPrim hp hg h.raised
    obtain ⟨hcfg, hA, hB, hrec, hret, _⟩ := h
    cases p with
    | memWrite x off bs =>
      have hfit : off + bs.length ≤ PAGE_SIZE := by
        by_contra hn
        simp [primGuard, hn] at hg
      cases x with
      | a => exact ⟨hcfg, wf_writeBytes bs hfit hA, hB, hrec, hret, hraised⟩
      | b => exact ⟨hcfg, hA, wf_writeBytes bs hfit hB, hrec, hret, hraised⟩
    | setRetry n => exact ⟨hcfg, hA, hB, hrec, hp, hraised⟩
    | setRecord r => exact ⟨hcfg, hA, hB, hp, hret, hraised⟩
    | _ => exact ⟨hcfg, hA, hB, hrec, hret, hraised⟩

theorem step_sound {s t : State} (h : Sound s) (ht : step s = .next t) : Sound t :=
  step_keeps stable_sound (fun _ h => ⟨h.config, rfl, rfl, by rintro r ⟨⟩, Nat.zero_le _, by rintro ⟨⟩⟩)
    (fun _ _ _ h => ⟨h.config, h.memA, h.memB, h.recordFits, h.retryBound, h.raised⟩) h ht

/-! ## The label clauses of the invariant -/

/-- What `Inv` asks of what is seen at the innermost label `l`. -/
structure LabelOk (l : Label) (v : View) : Prop where
  unitIndex : v.k ≤ v.count ∧ (inUnit l = true → v.k < v.count) ∧ (beforeUnits l = true → v.k = 0)
  spare : v.includeSpare = decide (v.cmd = .readFull)
  sinkLen : v.sink.length =
    if v.cmd = .readFull ∨ v.cmd = .readData then recordsDone v.k l * recordLen v.includeSpare else 0
  badBound : v.badLog.length ≤ badLogBound v.k l ∧ (v.cmd ≠ .readFull → v.cmd ≠ .readData → v.badLog = [])
  failBound : v.failLog.length ≤ failLogBound v.k l ∧ (v.cmd ≠ .writeFull → v.cmd ≠ .eraseBlocks → v.failLog = [])
  cached : l ∉ [Label.s1, .s2, .s3, .s4] → v.idValid = true ∧ idSame v.idCache = false
  reads : readsWritten v.cmd v.written v.idValid l = true

/-- The clauses of `Inv` for a run that goes on. -/
structure Going (s : State) : Prop where
  shape : shapeOk s.cmd s.pc = true
  rest : s.beforeInit = false → s.lines.atRest = true
  label : ∀ l, s.atLabel = some l → LabelOk l s.view

/-- No label asks for DIN's mark. -/
theorem readsWritten_din (cmd : Cmd) (w : Written) (b d : Bool) (l : Label) :
    readsWritten cmd { w with din := d } b l = readsWritten cmd w b l := by
  cases l <;> rfl

theorem Inv.going {s : State} (h : Inv s) (hr : s.outcome = .running) : Going s where
  shape := h.shape hr
  rest := h.rest hr
  label l hl := ⟨h.unitIndex hr l hl, h.spare hr l hl, h.sinkLen hr l hl, h.badBound hr l hl, h.failBound hr l hl,
    h.cached hr l hl, (readsWritten_din ..).trans (h.reads hr l hl)⟩

theorem Inv.sound {s : State} (h : Inv s) : Sound s where
  config := h.config
  memA := h.memA
  memB := h.memB
  recordFits := h.recordFits
  retryBound := h.retryBound
  raised hc := h.owned (by rw [State.linesSet, hc, Bool.or_true])

theorem inv_of {s : State} (hs : Sound s) (hw : LegalLog s) (ho : s.linesSet = true → s.lines.contended = false)
    (hg : s.outcome = .running → Going s) : Inv s where
  config := hs.config
  memA := hs.memA
  memB := hs.memB
  recordFits := hs.recordFits
  retryBound := hs.retryBound
  words := hw
  shape hr := (hg hr).shape
  rest hr := (hg hr).rest
  owned := ho
  unitIndex hr l hl := ((hg hr).label l hl).unitIndex
  spare hr l hl := ((hg hr).label l hl).spare
  sinkLen hr l hl := ((hg hr).label l hl).sinkLen
  badBound hr l hl := ((hg hr).label l hl).badBound
  failBound hr l hl := ((hg hr).label l hl).failBound
  cached hr l hl := ((hg hr).label l hl).cached
  reads hr l hl := (readsWritten_din ..).symm.trans ((hg hr).label l hl).reads

/-- PC before the end of InitLines, the lines being unspecified there (10_state R47). -/
abbrev earlyPcs : List (List Pos) := [[Pos.s0], [.lab .s1], [.lab .s2]]

/-- The engine's side of 10_state R25, where PC is before the end of InitLines or the engine does not contend. -/
theorem owned_of {s : State} (hs : Sound s)
    (h : s.pc ∈ earlyPcs ∨ s.lines.contended = false) :
    s.linesSet = true → s.lines.contended = false := by
  intro hl
  rcases h with h | h
  · refine hs.raised ?_
    rwa [State.linesSet, decide_eq_true h] at hl
  · exact h

end Sys2Proof.Machine
end

/-! PROOF. Every label's statement keeps what the invariant says of a run that goes on: one lemma a label. -/
section
namespace Sys2Proof.Machine

/-! ## Procedures and PC -/

/-- The procedures of the sequencer (42_operations R211). -/
inductive Area where
  | top | idCheck | read | write | erase
deriving DecidableEq

/-- The procedure a label is of. -/
def Label.area : Label → Area
  | .s1 | .s2 | .s3 | .s4 | .s5 | .s6 | .s7 => .top
  | .i1 | .i2 | .i3 => .idCheck
  | .p1 | .p2 | .p3 | .p4 | .p5 | .p6 | .p7 | .p8 | .p9 => .read
  | .w1 | .w2 | .w3 | .w4 | .w5 | .w6 | .w7 | .w8 | .w9 => .write
  | .e1 | .e2 | .e3 | .e4 | .e5 | .e6 | .e7 | .e8 => .erase

/-- The procedure CMD calls at S6, none for READ_ID. -/
def Cmd.area : Cmd → Option Area
  | .readId => none
  | .readFull | .readData => some .read
  | .writeFull => some .write
  | .eraseBlocks => some .erase

theorem mem_topLabels {l : Label} : l ∈ [Label.s1, .s2, .s3, .s4, .s5, .s6, .s7] ↔ l.area = .top := by
  cases l <;> decide

theorem mem_idCheckLabels {l : Label} : l ∈ [Label.i1, .i2, .i3] ↔ l.area = .idCheck := by
  cases l <;> decide

theorem mem_procLabels {cmd : Cmd} {l : Label} : l ∈ procLabels cmd ↔ cmd.area = some l.area := by
  cases cmd <;> cases l <;> decide

/-- PC at a label: in the top level, in the procedure that CMD calls, or in IdCheck called by it. -/
theorem shapeOk_lab {cmd : Cmd} {l : Label} {rest : List Pos} : shapeOk cmd (.lab l :: rest) = true ↔
    (l.area = .top ∧ rest = []) ∨ (cmd.area = some l.area ∧ rest = [.lab .s7]) ∨
      (l.area = .idCheck ∧ ∃ r ∈ idCheckReturn cmd, rest = [.lab r, .lab .s7]) := by
  constructor
  · intro h
    unfold shapeOk at h
    split at h
    case h_2 heq => cases heq; exact .inl ⟨mem_topLabels.1 (of_decide_eq_true h), rfl⟩
    case h_3 heq => cases heq; exact .inr (.inl ⟨mem_procLabels.1 (of_decide_eq_true h), rfl⟩)
    case h_4 heq =>
      cases heq
      rw [Bool.and_eq_true] at h
      exact .inr (.inr ⟨mem_idCheckLabels.1 (of_decide_eq_true h.1), _, of_decide_eq_true h.2, rfl⟩)
    case h_7 => cases h
    all_goals rename_i heq; cases heq
  · rintro (⟨hl, rfl⟩ | ⟨hl, rfl⟩ | ⟨hl, r, hr, rfl⟩)
    · exact decide_eq_true (mem_topLabels.2 hl)
    · exact decide_eq_true (mem_procLabels.2 hl)
    · rw [shapeOk, Bool.and_eq_true]
      exact ⟨decide_eq_true (mem_idCheckLabels.2 hl), decide_eq_true hr⟩

/-- Within a procedure PC moves freely. -/
theorem shapeOk_sibling {cmd : Cmd} {l l' : Label} {rest : List Pos} (ha : l'.area = l.area)
    (h : shapeOk cmd (.lab l :: rest) = true) : shapeOk cmd (.lab l' :: rest) = true := by
  rw [shapeOk_lab] at h ⊢
  rwa [ha]

/-! ## Moves from label to label -/

/-- What the label clauses ask at `l'` they ask at `l`, the view being the same: all but
`reads`, `cached` and K < COUNT. -/
def Label.flows (l l' : Label) : Bool :=
  (!beforeUnits l' || beforeUnits l) && (decide (l = .p9) == decide (l' = .p9)) &&
    (!decide (l = .p8 ∨ l = .p9) || decide (l' = .p8 ∨ l' = .p9)) &&
    (!decide (l = .w9 ∨ l = .e8) || decide (l' = .w9 ∨ l' = .e8))

theorem LabelOk.flow_of {l l' : Label} {v : View} (h : LabelOk l v) (hf : l.flows l' = true)
    (hu : inUnit l' = true → v.k < v.count)
    (hc : l' ∉ [Label.s1, .s2, .s3, .s4] → v.idValid = true ∧ idSame v.idCache = false)
    (hr : readsWritten v.cmd v.written v.idValid l' = true) : LabelOk l' v := by
  simp only [Label.flows, Bool.and_eq_true, Bool.or_eq_true, Bool.not_eq_true', decide_eq_false_iff_not, beq_iff_eq,
    decide_eq_decide, decide_eq_true_eq] at hf
  obtain ⟨⟨⟨hb, h9⟩, hbad⟩, hfail⟩ := hf
  refine ⟨⟨h.unitIndex.1, hu, fun hl => h.unitIndex.2.2 (hb.resolve_left (by simp [hl]))⟩, h.spare, ?_, ⟨?_, h.badBound.2⟩,
    ⟨?_, h.failBound.2⟩, hc, hr⟩
  · rw [h.sinkLen]
    simp only [recordsDone, h9]
  · refine h.badBound.1.trans ?_
    unfold badLogBound
    split
    · rw [if_pos (hbad.resolve_left (not_not.2 ‹_›))]
    · split <;> omega
  · refine h.failBound.1.trans ?_
    unfold failLogBound
    split
    · rw [if_pos (hfail.resolve_left (not_not.2 ‹_›))]
    · split <;> omega

/-- A move that does not leave the preflight's first labels: what is cached stays cached. -/
theorem LabelOk.flow {l l' : Label} {v : View} (h : LabelOk l v) (hf : l.flows l' = true)
    (hu : inUnit l' = true → v.k < v.count) (hr : readsWritten v.cmd v.written v.idValid l' = true)
    (he : l' ∈ [Label.s1, .s2, .s3, .s4] ∨ l ∉ [Label.s1, .s2, .s3, .s4] := by decide) : LabelOk l' v :=
  h.flow_of hf hu (fun hl => h.cached (he.resolve_left hl)) hr

/-- The engine at the label `l` in a state with the invariant. -/
structure Stands (l : Label) (rest : List Pos) (s : State) : Prop where
  inv : Inv s
  running : s.outcome = .running
  unplaced : s.placed = none
  pc : s.pc = .lab l :: rest

section
variable {l l' : Label} {rest : List Pos} {s t u : State}

theorem atLabel_of_pc (h : s.pc = .lab l :: rest) : s.atLabel = some l := by
  simp [State.atLabel, h, Pos.isStmt]

theorem Stands.ok (h : Stands l rest s) : LabelOk l s.view := (h.inv.going h.running).label l (atLabel_of_pc h.pc)

theorem Stands.shape (h : Stands l rest s) : shapeOk s.cmd (.lab l :: rest) = true := by
  rw [← h.pc]; exact h.inv.shape h.running

theorem Stands.atRest (h : Stands l rest s) (hl : l ∉ [Label.s1, .s2]) : s.lines.atRest = true := by
  refine h.inv.rest h.running ?_
  simp only [List.mem_cons, List.not_mem_nil, or_false, not_or] at hl
  simp [State.beforeInit, h.pc, hl.1, hl.2]

theorem Stands.lt_count (h : Stands l rest s) (hl : inUnit l = true) : s.k < s.count := h.ok.unitIndex.2.1 hl

/-- PC in a procedure that is not IdCheck nor the top level returns to S7. -/
theorem Stands.proc (h : Stands l rest s) (ht : l.area ≠ .top) (hi : l.area ≠ .idCheck) :
    s.cmd.area = some l.area ∧ rest = [.lab .s7] := by
  rcases shapeOk_lab.1 h.shape with ⟨ha, _⟩ | hp | ⟨ha, _⟩
  · exact absurd ha ht
  · exact hp
  · exact absurd ha hi

theorem Stands.top (h : Stands l rest s) (ht : l.area = .top) : rest = [] := by
  rcases shapeOk_lab.1 h.shape with ⟨_, hr⟩ | ⟨hc, _⟩ | ⟨ha, _⟩
  · exact hr
  · rw [ht] at hc; cases hcmd : s.cmd <;> rw [hcmd] at hc <;> cases hc
  · rw [ht] at ha; cases ha

theorem Stands.idCheck (h : Stands l rest s) (hi : l.area = .idCheck) :
    ∃ r ∈ idCheckReturn s.cmd, rest = [.lab r, .lab .s7] := by
  rcases shapeOk_lab.1 h.shape with ⟨ha, _⟩ | ⟨hc, _⟩ | ⟨_, hr⟩
  · rw [hi] at ha; cases ha
  · rw [hi] at hc; cases hcmd : s.cmd <;> rw [hcmd] at hc <;> cases hc
  · exact hr

theorem going_at (hpc : t.pc = .lab l :: rest) (hs : shapeOk t.cmd (.lab l :: rest) = true)
    (hr : t.lines.atRest = true) (hok : LabelOk l t.view) : Going t where
  shape := by rwa [hpc]
  rest _ := hr
  label m hm := by
    rw [atLabel_of_pc hpc, Option.some.injEq] at hm
    rwa [← hm]

/-- A STATEMENT THAT MOVES PC to `l'` and goes on. -/
theorem going_doThen {ps : List Prim} {next : List Pos → List Pos} (h : doThen ps next u = .next t)
    (hr : t.outcome = .running) (hpc : next u.pc = .lab l' :: rest)
    (hs : shapeOk (applyAll ps u).cmd (.lab l' :: rest) = true) (hl : (applyAll ps u).lines.atRest = true)
    (hok : LabelOk l' (applyAll ps u).view) : Going t := by
  rw [doThen_running h hr]
  exact going_at hpc hs hl hok

/-- The same from a label of the procedure of `l'`. -/
theorem going_sibling {ps : List Prim} (h : doThen ps (toLabel l') u = .next t) (hr : t.outcome = .running)
    (hpc : u.pc = .lab l :: rest) (hs : shapeOk (applyAll ps u).cmd (.lab l :: rest) = true) (ha : l'.area = l.area)
    (hl : (applyAll ps u).lines.atRest = true) (hok : LabelOk l' (applyAll ps u).view) : Going t :=
  going_doThen h hr (by rw [hpc]; rfl) (shapeOk_sibling ha hs) hl hok

theorem Back.cmd {v : View} (h : Back s v u) : u.cmd = v.cmd := congrArg View.cmd h.view

/-- `pc <- l'` alone, from a state that a statement at `l` or its call has left. -/
theorem Stands.move {v : View} (h : Stands l rest s) (hb : Back s v u) (hc : v.cmd = s.cmd)
    (hd : doThen [] (toLabel l') u = .next t) (hr : t.outcome = .running) (ha : l'.area = l.area) (hok : LabelOk l' v) :
    Going t := by
  refine going_sibling hd hr (hb.pc.trans h.pc) ?_ ha hb.rest ?_
  · change shapeOk u.cmd _ = true
    rw [hb.cmd, hc]; exact h.shape
  · exact hb.view ▸ hok

/-- A label's own state, an answer drawn or not, is one it can move from. -/
theorem Stands.back (h : Stands l rest s) (hl : l ∉ [Label.s1, .s2]) (e : Env) : Back s s.view { s with env := e } :=
  ⟨h.running, rfl, rfl, rfl, h.atRest hl⟩

/-- A statement that is `pc <- l'` alone. -/
theorem Stands.goto {e : Env} (h : Stands l rest s) (hd : doThen [] (toLabel l') { s with env := e } = .next t)
    (hr : t.outcome = .running) (hl : l ∉ [Label.s1, .s2]) (ha : l'.area = l.area) (hok : LabelOk l' s.view) : Going t :=
  h.move (h.back hl e) rfl hd hr ha hok

/-- The call of a procedure at `l'` that returns to `r`. -/
theorem Stands.call {r : Label} (h : Stands l rest s) (hd : doThen [] (toCall l' r) s = .next t)
    (hr : t.outcome = .running) (hl : l ∉ [Label.s1, .s2]) (hs : shapeOk s.cmd (.lab l' :: .lab r :: rest) = true)
    (hok : LabelOk l' s.view) : Going t :=
  going_doThen hd hr (by rw [h.pc]; rfl) hs (h.atRest hl) hok

/-- The return to the label `r`. -/
theorem Stands.returns {r : Label} {rest' : List Pos} (h : Stands l (.lab r :: rest') s)
    (hd : doThen [] toCaller s = .next t) (hr : t.outcome = .running) (hl : l ∉ [Label.s1, .s2])
    (hs : shapeOk s.cmd (.lab r :: rest') = true) (hok : LabelOk r s.view) : Going t :=
  going_doThen hd hr (by rw [h.pc]; rfl) hs (h.atRest hl) hok

end

end Sys2Proof.Machine
end

/-! PROOF. The labels of the top level, of IdCheck and of ReadPages up to P3: the clauses of a run that goes on. -/
section
namespace Sys2Proof.Machine

variable {rest : List Pos} {s t : State}

/-! ## The top level (42_operations R210) -/

/-- PC to S2: InitLines has not run, and nothing is asked of the lines. -/
theorem going_s2 {ps : List Prim} {u : State} (h : doThen ps (toLabel .s2) u = .next t) (hr : t.outcome = .running)
    (hpc : u.pc = [.lab .s1]) (hw : (applyAll ps u).placed = none) (hok : LabelOk .s2 (applyAll ps u).view) : Going t := by
  have ht : t.pc = [.lab .s2] := by rw [doThen_running h hr]; simp [toLabel, hpc]
  have hview : t.view = (applyAll ps u).view := by rw [doThen_running h hr]; rfl
  have hplaced : t.placed = none := by rw [doThen_running h hr]; exact hw
  refine ⟨by rw [ht]; rfl, fun hb => absurd hb (by simp [State.beforeInit, ht, hplaced]), fun m hm => ?_⟩
  rw [atLabel_of_pc ht, Option.some.injEq] at hm
  rw [← hm, hview]; exact hok

theorem runS1_going (hs : Stands .s1 rest s) (h : runS1 s = .next t) (hr : t.outcome = .running) : Going t := by
  obtain rfl := hs.top rfl
  have hok : LabelOk .s2 s.view := hs.ok.flow rfl Bool.noConfusion rfl
  have hk : s.k = 0 := hs.ok.unitIndex.2.2 rfl
  have hopened : LabelOk .s2 { s.view with sink := [] } :=
    { hok with
      sinkLen := by
        change 0 = if _ then s.k * _ else 0
        rw [hk, Nat.zero_mul, ite_self] }
  unfold runS1 at h
  split at h
  case h_1 | h_2 =>
    simp only at h
    split at h
    · split at h
      · exact going_s2 h hr hs.pc hs.unplaced hopened
      · exact absurd hr (raiseHostIo_ends h)
    · exact absurd hr (raiseHostIo_ends h)
  case h_3 =>
    simp only at h
    split at h
    · exact going_s2 h hr hs.pc hs.unplaced hok
    · exact absurd hr (raiseHostIo_ends h)
  case h_4 | h_5 => exact going_s2 h hr hs.pc hs.unplaced hok

theorem runS2_going (hs : Stands .s2 rest s) (h : runS2 s = .next t) (hr : t.outcome = .running) : Going t := by
  have hview : (applyAll initLines s).view = s.view := (applyAll_unseen rfl s).1
  generalize hu : applyAll initLines s = u at hview
  have hcmd : u.cmd = s.cmd := congrArg View.cmd hview
  unfold runS2 at h
  refine going_sibling h hr hs.pc (by rw [hu, hcmd]; exact hs.shape) rfl ?_ ?_
  · rw [applyAll_lines]; exact initLines_atRest _
  · rw [hu, hview]; exact hs.ok.flow rfl Bool.noConfusion rfl

theorem runS3_going (hs : Stands .s3 rest s) (h : runS3 s = .next t) (hr : t.outcome = .running) : Going t := by
  simp only [runS3] at h
  split at h
  · exact going_sibling h hr hs.pc hs.shape rfl (hs.atRest (by decide)) (hs.ok.flow rfl Bool.noConfusion rfl)
  · exact absurd hr (runRow_raise_ends (row := [_]) h)

theorem runS4_going (hs : Stands .s4 rest s) (h : runS4 s = .next t) (hr : t.outcome = .running) : Going t := by
  rcases (execReadId_call s).cases_running (hs.atRest (by decide)) h hr with ⟨u, hu, hf⟩ | ⟨hn, _⟩
  · split at hf
    · exact absurd hr (runRow_raise_ends (row := []) hf)
    next hid =>
      have hshape : shapeOk u.cmd (.lab .s4 :: rest) = true := by
        rw [hu.cmd]; exact hs.shape
      refine going_sibling hf hr (hu.pc.trans hs.pc) hshape rfl hu.rest ?_
      change LabelOk .s5 { u.view with idCache := u.idRd, idValid := true }
      rw [hu.view]
      exact LabelOk.flow_of (l := .s4) { hs.ok with cached := fun hl => absurd (by decide) hl, reads := rfl } rfl
        Bool.noConfusion (fun _ => ⟨rfl, Bool.eq_false_of_not_eq_true hid⟩) rfl
  · exact absurd rfl hn

theorem runS5_going (hs : Stands .s5 rest s) (h : runS5 s = .next t) (hr : t.outcome = .running) : Going t := by
  have hok : LabelOk .s6 s.view := hs.ok.flow rfl Bool.noConfusion rfl
  simp only [runS5] at h
  split at h
  · exact hs.goto h hr (by decide) rfl hok
  · split at h
    · exact hs.goto h hr (by decide) rfl hok
    · exact absurd hr (runRow_last_ends (row := []) (fun _ => RunOutcome.noConfusion) h)

theorem runS6_going (hs : Stands .s6 rest s) (h : runS6 s = .next t) (hr : t.outcome = .running) : Going t := by
  have hcall : ∀ {l : Label}, s.cmd.area = some l.area → Label.s6.flows l = true → inUnit l = false →
      readsWritten s.view.cmd s.view.written s.view.idValid l = true → doThen [] (toCall l .s7) s = .next t →
      Going t := fun ha hf hu hw hd =>
    hs.call hd hr (by decide) (shapeOk_lab.2 (.inr (.inl ⟨ha, by rw [hs.top rfl]⟩)))
      (hs.ok.flow hf (fun h => absurd h (by simp [hu])) hw (.inr (by decide)))
  unfold runS6 at h
  split at h
  case h_1 => exact hs.goto h hr (by decide) rfl (hs.ok.flow rfl Bool.noConfusion rfl)
  case h_2 hc | h_3 hc | h_4 hc | h_5 hc => exact hcall (by rw [hc]; rfl) rfl rfl rfl h

theorem runS7_ends (h : runS7 s = .next t) : t.outcome ≠ .running := by
  unfold runS7 at h
  exact runRow_last_ends (row := []) (fun _ => RunOutcome.noConfusion) h

/-! ## IdCheck (42_operations R231) -/

theorem runI1_going (hs : Stands .i1 rest s) (h : runI1 s = .next t) (hr : t.outcome = .running) : Going t :=
  hs.goto h hr (by decide) rfl (hs.ok.flow rfl (fun _ => hs.lt_count rfl) hs.ok.reads)

theorem runI2_going (hs : Stands .i2 rest s) (h : runI2 s = .next t) (hr : t.outcome = .running) : Going t := by
  rcases (execReadId_call s).cases_running (hs.atRest (by decide)) h hr with ⟨u, hu, hf⟩ | ⟨hn, _⟩
  · have hok : LabelOk .i2 (s.view.mark fun w => { w with idRd := true }) := { hs.ok with reads := hs.ok.reads }
    refine hs.move hu rfl hf hr rfl (hok.flow rfl (fun _ => hs.lt_count rfl) ?_)
    have hvalid : s.idValid = true := (hs.ok.cached (by decide)).1
    have hreads : (s.written.bufA || !decide (s.cmd = .writeFull)) = true := hs.ok.reads
    change (true && s.idValid && (s.written.bufA || !decide (s.cmd = .writeFull))) = true
    rw [hvalid, hreads]; rfl
  · exact absurd rfl hn

theorem runI3_going (hs : Stands .i3 rest s) (h : runI3 s = .next t) (hr : t.outcome = .running) : Going t := by
  have hreads : (s.written.bufA || !decide (s.cmd = .writeFull)) = true := (Bool.and_eq_true_iff.1 hs.ok.reads).2
  unfold runI3 at h
  split at h
  · exact hs.goto h hr (by decide) rfl (hs.ok.flow rfl (fun _ => hs.lt_count rfl) hreads)
  · obtain ⟨r, hret, rfl⟩ := hs.idCheck rfl
    have hback : ∀ {l : Label}, r = l → s.cmd.area = some l.area → Label.i3.flows l = true →
        readsWritten s.view.cmd s.view.written s.view.idValid l = true → Going t := by
      rintro _ rfl ha hf hw
      exact hs.returns h hr (by decide) (shapeOk_lab.2 (.inr (.inl ⟨ha, rfl⟩)))
        (hs.ok.flow hf (fun _ => hs.lt_count rfl) hw (.inr (by decide)))
    cases hc : s.cmd <;> rw [hc] at hret
    case readId => cases hret
    case readFull | readData => exact hback (List.mem_singleton.1 hret) (by rw [hc]; rfl) rfl rfl
    case writeFull =>
      refine hback (List.mem_singleton.1 hret) (by rw [hc]; rfl) rfl ?_
      change s.written.bufA = true
      simpa [hc] using hreads
    case eraseBlocks => exact hback (List.mem_singleton.1 hret) (by rw [hc]; rfl) rfl rfl

/-! ## ReadPages (42_operations R220) -/

/-- The head of the loop over units: RETRY <- 0 where there is a unit, the return to S7 where there is none. -/
theorem unitHead_going {l l' : Label} (hs : Stands l rest s) (hl : l ∉ [Label.s1, .s2]) (ht : l.area ≠ .top)
    (hi : l.area ≠ .idCheck) (ha : l'.area = l.area) (hf : l.flows l' = true) (hf7 : l.flows .s7 = true)
    (he : l ∉ [Label.s1, .s2, .s3, .s4]) (hw : readsWritten s.view.cmd s.view.written s.view.idValid l' = true)
    (h : (if s.k < s.count then doThen [.setRetry 0] (toLabel l') s else doThen [] toCaller s) = .next t)
    (hr : t.outcome = .running) : Going t := by
  obtain ⟨_, rfl⟩ := hs.proc ht hi
  split at h
  next hk => exact going_sibling h hr hs.pc hs.shape ha (hs.atRest hl) (hs.ok.flow hf (fun _ => hk) hw (.inr he))
  next => exact hs.returns h hr hl (shapeOk_lab.2 (.inl ⟨rfl, rfl⟩)) (hs.ok.flow hf7 Bool.noConfusion rfl (.inr he))

theorem runP1_going (hs : Stands .p1 rest s) (h : runP1 s = .next t) (hr : t.outcome = .running) : Going t :=
  unitHead_going hs (l' := .p2) (by decide) (by decide) (by decide) rfl rfl rfl (by decide) rfl h hr

theorem runP2_going (hs : Stands .p2 rest s) (h : runP2 s = .next t) (hr : t.outcome = .running) : Going t :=
  hs.goto h hr (by decide) rfl (hs.ok.flow rfl (fun _ => hs.lt_count rfl) rfl)

/-- IdCheck called by a retry engine. -/
theorem callIdCheck_going {l r : Label} (hs : Stands l rest s) (hl : l ∉ [Label.s1, .s2]) (ht : l.area ≠ .top)
    (hi : l.area ≠ .idCheck) (hf : l.flows .i1 = true)
    (he : l ∉ [Label.s1, .s2, .s3, .s4]) (hu : inUnit l = true) (hret : r ∈ idCheckReturn s.cmd)
    (hw : (s.written.bufA || !decide (s.cmd = .writeFull)) = true) (h : doThen [] (toCall .i1 r) s = .next t)
    (hr : t.outcome = .running) : Going t := by
  obtain ⟨_, rfl⟩ := hs.proc ht hi
  exact hs.call h hr hl (shapeOk_lab.2 (.inr (.inr ⟨rfl, r, hret, rfl⟩)))
    (hs.ok.flow hf (fun _ => hs.lt_count hu) hw (.inr he))

/-- The two commands that read pages. -/
theorem cmd_of_area_read {cmd : Cmd} (h : cmd.area = some .read) : cmd = .readFull ∨ cmd = .readData := by
  cases cmd with
  | readFull => exact .inl rfl
  | readData => exact .inr rfl
  | _ => cases h

theorem cmd_of_area_write {cmd : Cmd} (h : cmd.area = some .write) : cmd = .writeFull := by
  cases cmd with
  | writeFull => rfl
  | _ => cases h

theorem cmd_of_area_erase {cmd : Cmd} (h : cmd.area = some .erase) : cmd = .eraseBlocks := by
  cases cmd with
  | eraseBlocks => rfl
  | _ => cases h

theorem runP3_going (hs : Stands .p3 rest s) (h : runP3 s = .next t) (hr : t.outcome = .running) : Going t := by
  have hcmd := cmd_of_area_read (hs.proc (by decide) (by decide)).1
  unfold runP3 at h
  split at h
  · refine callIdCheck_going hs (by decide) (by decide) (by decide) rfl (by decide) rfl ?_ ?_ h hr <;>
      rcases hcmd with hc | hc <;> simp [hc, idCheckReturn]
  · exact hs.goto h hr (by decide) rfl (hs.ok.flow rfl (fun _ => hs.lt_count rfl) rfl)

/-- A state whose PC stands in a wait of the statement at `l`. -/
theorem Stands.waiting {l : Label} {inner : List Pos} (hs : Stands l rest s) (hw : Waiting s inner t)
    (hi : inner.all Pos.isStmt = true) (hshape : shapeOk s.cmd (inner ++ .lab l :: rest) = true) : Going t := by
  have hlab : t.atLabel = some l := by
    rw [State.atLabel, hw.pc, hs.pc, List.dropWhile_append_of_pos (List.all_eq_true.1 hi)]
    simp [Pos.isStmt]
  refine ⟨?_, fun _ => hw.rest, fun m hm => ?_⟩
  · rw [hw.pc, hs.pc, show t.cmd = s.cmd from congrArg View.cmd hw.view]; exact hshape
  · rw [hlab, Option.some.injEq] at hm
    rw [hw.view, ← hm]; exact hs.ok

/-- P4 and P5: a page read, and then `pc <- l'`. -/
theorem readPage_going {l l' : Label} {x : Buf} (hs : Stands l rest s) (hl : l ∈ [Label.p4, .p5])
    (ha : l'.area = l.area) (hf : l.flows l' = true) (hok : LabelOk l (s.view.mark (·.buf x)))
    (hw : readsWritten s.view.cmd (s.view.written.buf x) s.view.idValid l' = true)
    (h : onReturn s.pc (execReadPage s.unit x s) (doThen [] (toLabel l')) = .next t) (hr : t.outcome = .running) :
    Going t := by
  have hl' : l ∉ [Label.s1, .s2] ∧ l ∉ [Label.s1, .s2, .s3, .s4] ∧ l.area = .read ∧ inUnit l = true := by
    rcases List.mem_pair.1 hl with rfl | rfl <;> decide
  obtain ⟨hcalls, hearly, hread, hu⟩ := hl'
  rcases (execReadPage_call _ x s).cases_running (hs.atRest hcalls) h hr with ⟨u, hb, hd⟩ | ⟨_, hwait⟩
  · exact hs.move hb rfl hd hr ha (hok.flow hf (fun _ => hs.lt_count hu) hw (.inr hearly))
  · obtain ⟨hcmd, rfl⟩ := hs.proc (by rw [hread]; decide) (by rw [hread]; decide)
    rw [hread] at hcmd
    refine hs.waiting hwait rfl ?_
    change (true && true && decide (l ∈ readPageLabels s.cmd)) = true
    rcases cmd_of_area_read hcmd with hc | hc <;> rw [hc] <;> exact decide_eq_true hl

end Sys2Proof.Machine
end

/-! PROOF. The labels of ReadPages from P4, of WritePages and of EraseBlocks, and all labels together. -/
section
namespace Sys2Proof.Machine

variable {rest : List Pos} {s t : State}

theorem runP4_going (hs : Stands .p4 rest s) (h : runP4 s = .next t) (hr : t.outcome = .running) : Going t :=
  readPage_going (l' := .p5) hs (by decide) rfl rfl { hs.ok with reads := rfl } rfl h hr

theorem runP5_going (hs : Stands .p5 rest s) (h : runP5 s = .next t) (hr : t.outcome = .running) : Going t := by
  refine readPage_going (l' := .p6) (x := .b) hs (by decide) rfl rfl { hs.ok with reads := hs.ok.reads } ?_ h hr
  exact (Bool.and_true _).trans hs.ok.reads

theorem runP6_going (hs : Stands .p6 rest s) (h : runP6 s = .next t) (hr : t.outcome = .running) : Going t := by
  have hread : (s.written.bufA && s.written.bufB) = true := hs.ok.reads
  have hA : s.written.bufA = true := (Bool.and_eq_true_iff.1 hread).1
  unfold runP6 at h
  split at h
  · exact hs.goto h hr (by decide) rfl (hs.ok.flow rfl (fun _ => hs.lt_count rfl) hread)
  · exact hs.goto h hr (by decide) rfl (hs.ok.flow rfl (fun _ => hs.lt_count rfl) hA)

theorem runP7_going (hs : Stands .p7 rest s) (h : runP7 s = .next t) (hr : t.outcome = .running) : Going t := by
  have hread : (s.written.bufA && s.written.bufB) = true := hs.ok.reads
  have hA : s.written.bufA = true := (Bool.and_eq_true_iff.1 hread).1
  unfold runP7 at h
  split at h
  · exact going_sibling h hr hs.pc hs.shape rfl (hs.atRest (by decide))
      (hs.ok.flow (l' := .p2) rfl (fun _ => hs.lt_count rfl) rfl)
  · simp only at h
    split at h
    · have hok := hs.ok.flow (l' := .p8) rfl (fun _ => hs.lt_count rfl) hA
      refine going_sibling h hr hs.pc hs.shape rfl (hs.atRest (by decide)) { hok with badBound := ⟨?_, ?_⟩ }
      · change (s.badLog ++ [s.unit]).length ≤ s.k + 1
        rw [List.length_append]
        exact Nat.succ_le_succ hs.ok.badBound.1
      · exact fun h1 h2 => ((cmd_of_area_read (hs.proc (by decide) (by decide)).1).elim h1 h2).elim
    · exact absurd hr (raiseHostIo_ends h)

theorem runP8_going (hs : Stands .p8 rest s) (h : runP8 s = .next t) (hr : t.outcome = .running) : Going t := by
  have hcmd := cmd_of_area_read (hs.proc (by decide) (by decide)).1
  have hlen : s.sink.length = s.k * recordLen s.includeSpare := hs.ok.sinkLen.trans (if_pos hcmd)
  simp only [runP8] at h
  split at h
  · refine going_sibling h hr hs.pc hs.shape rfl (hs.atRest (by decide))
      ⟨⟨hs.ok.unitIndex.1, fun _ => hs.lt_count rfl, Bool.noConfusion⟩, hs.ok.spare, ?_, hs.ok.badBound, hs.ok.failBound,
        fun _ => hs.ok.cached (by decide), rfl⟩
    refine Eq.trans ?_ (if_pos hcmd).symm
    change (s.sink ++ _).length = (s.k + 1) * recordLen s.includeSpare
    rw [List.length_append, readBytes_length, hlen, Nat.succ_mul]
  · exact absurd hr (raiseHostIo_ends h)

/-- THE END OF A UNIT: K goes to the next one, and PC to the head of the loop over units. -/
theorem unitEnd_going {l l' : Label} {e : Report} (hs : Stands l rest s) (hl : l ∈ [Label.p9, .w9, .e8])
    (hl' : l' ∈ [Label.p1, .w1, .e1]) (ha : l'.area = l.area)
    (h : doThen [.report e, .setRetry 0, .setK (s.k + 1)] (toLabel l') s = .next t) (hr : t.outcome = .running) :
    Going t := by
  have hend : ∀ m ∈ [Label.p9, .w9, .e8], inUnit m = true ∧ m ∉ [Label.s1, .s2] ∧ m ∉ [Label.s1, .s2, .s3, .s4] ∧
      m.area ≠ .top ∧ m.area ≠ .idCheck ∧ (m.area = .read → m = .p9) := by decide
  have hhead : ∀ m ∈ [Label.p1, .w1, .e1], inUnit m = false ∧ beforeUnits m = false ∧ m ≠ .p9 ∧
      ¬(m = .p8 ∨ m = .p9) ∧ ¬(m = .w9 ∨ m = .e8) := by decide
  obtain ⟨hu, hcalls, hearly, htop, hid, hp9⟩ := hend l hl
  obtain ⟨hu', hb', h9', hbad', hfail'⟩ := hhead l' hl'
  have hlt := hs.lt_count hu
  have hok := hs.ok
  refine going_sibling h hr hs.pc hs.shape ha (hs.atRest hcalls)
    ⟨⟨hlt, by rw [hu']; exact Bool.noConfusion, by rw [hb']; exact Bool.noConfusion⟩, hok.spare, ?_, ⟨?_, hok.badBound.2⟩,
      ⟨?_, hok.failBound.2⟩, fun _ => hok.cached hearly, ?_⟩
  · have hsink : s.sink.length = if s.cmd = .readFull ∨ s.cmd = .readData
        then recordsDone s.k l * recordLen s.includeSpare else 0 := hok.sinkLen
    change s.sink.length = if s.cmd = .readFull ∨ s.cmd = .readData
        then recordsDone (s.k + 1) l' * recordLen s.includeSpare else 0
    rw [hsink]
    split
    next hread =>
      have hl9 : l = .p9 := by
        refine hp9 (Option.some.inj ((hs.proc htop hid).1.symm.trans ?_))
        rcases hread with hc | hc <;> rw [hc] <;> rfl
      rw [hl9, recordsDone, if_pos rfl, recordsDone, if_neg h9']
    next => rfl
  · change s.badLog.length ≤ badLogBound (s.k + 1) l'
    refine hok.badBound.1.trans ?_
    rw [badLogBound, badLogBound, if_neg hbad']
    split <;> simp [State.view]
  · change s.failLog.length ≤ failLogBound (s.k + 1) l'
    refine hok.failBound.1.trans ?_
    rw [failLogBound, failLogBound, if_neg hfail']
    split <;> simp [State.view]
  · simp only [List.mem_cons, List.not_mem_nil, or_false] at hl'
    rcases hl' with rfl | rfl | rfl <;> rfl

theorem runP9_going (hs : Stands .p9 rest s) (h : runP9 s = .next t) (hr : t.outcome = .running) : Going t :=
  unitEnd_going (l' := .p1) hs (by decide) (by decide) rfl h hr

/-! ## WritePages and EraseBlocks (42_operations R238, R248) -/

theorem runW1_going (hs : Stands .w1 rest s) (h : runW1 s = .next t) (hr : t.outcome = .running) : Going t := by
  obtain ⟨_, rfl⟩ := hs.proc (by decide) (by decide)
  simp only [runW1] at h
  split at h
  next hk =>
    exact going_sibling h hr hs.pc hs.shape rfl (hs.atRest (by decide)) (hs.ok.flow (l' := .w2) rfl (fun _ => hk) rfl)
  next =>
    exact hs.returns h hr (by decide) (shapeOk_lab.2 (.inl ⟨rfl, rfl⟩)) (hs.ok.flow rfl Bool.noConfusion rfl)

theorem runW2_going (hs : Stands .w2 rest s) (h : runW2 s = .next t) (hr : t.outcome = .running) : Going t := by
  unfold runW2 at h
  split at h
  · exact absurd hr (raiseHostIo_ends h)
  · split at h
    · exact absurd hr (raiseHostIo_ends h)
    · have hok : LabelOk .w2 (s.view.mark (·.buf .a)) := { hs.ok with reads := rfl }
      exact going_sibling h hr hs.pc hs.shape rfl (hs.atRest (by decide)) (hok.flow rfl (fun _ => hs.lt_count rfl) rfl)

theorem runW3_going (hs : Stands .w3 rest s) (h : runW3 s = .next t) (hr : t.outcome = .running) : Going t :=
  hs.goto h hr (by decide) rfl (hs.ok.flow rfl (fun _ => hs.lt_count rfl) hs.ok.reads)

theorem runW4_going (hs : Stands .w4 rest s) (h : runW4 s = .next t) (hr : t.outcome = .running) : Going t := by
  have hA : s.written.bufA = true := hs.ok.reads
  refine callIdCheck_going hs (by decide) (by decide) (by decide) rfl (by decide) rfl ?_ (by rw [hA]; rfl) h hr
  rw [cmd_of_area_write (hs.proc (by decide) (by decide)).1]
  exact List.mem_singleton.2 rfl

/-- A call that records nothing and always returns, and then `pc <- l'`: W5 and E4. -/
theorem silentCall_going {l l' : Label} {o : Host.Outcome State Fault Refusal} (hs : Stands l rest s)
    (ho : CallOf s s.view [] o) (hl : l ∉ [Label.s1, .s2]) (ha : l'.area = l.area) (hok : LabelOk l' s.view)
    (h : onReturn s.pc o (doThen [] (toLabel l')) = .next t) (hr : t.outcome = .running) : Going t := by
  rcases ho.cases_running (hs.atRest hl) h hr with ⟨u, hu, hd⟩ | ⟨hn, _⟩
  · exact hs.move hu rfl hd hr ha hok
  · exact absurd rfl hn

theorem runW5_going (hs : Stands .w5 rest s) (h : runW5 s = .next t) (hr : t.outcome = .running) : Going t :=
  silentCall_going (l' := .w6) hs (execWritePage_call _ s) (by decide) rfl
    (hs.ok.flow rfl (fun _ => hs.lt_count rfl) hs.ok.reads) h hr

/-- WaitReady, and then `pc <- l'`: W6 and E5. -/
theorem waitReady_going {l l' : Label} (hs : Stands l rest s) (hl : l ∉ [Label.s1, .s2]) (htop : l.area ≠ .top)
    (hid : l.area ≠ .idCheck) (hw : l ∈ waitLabels s.cmd) (ha : l'.area = l.area) (hok : LabelOk l' s.view)
    (h : onReturn s.pc (runWaitReady s) (doThen [] (toLabel l')) = .next t) (hr : t.outcome = .running) : Going t := by
  rcases (runWaitReady_call s).cases_running (hs.atRest hl) h hr with ⟨u, hu, hd⟩ | ⟨_, hwait⟩
  · exact hs.move hu rfl hd hr ha hok
  · obtain ⟨_, rfl⟩ := hs.proc htop hid
    exact hs.waiting hwait rfl (decide_eq_true hw)

theorem runW6_going (hs : Stands .w6 rest s) (h : runW6 s = .next t) (hr : t.outcome = .running) : Going t := by
  refine waitReady_going (l' := .w7) hs (by decide) (by decide) (by decide) ?_ rfl
    (hs.ok.flow rfl (fun _ => hs.lt_count rfl) hs.ok.reads) h hr
  rw [cmd_of_area_write (hs.proc (by decide) (by decide)).1]
  exact List.mem_singleton.2 rfl

/-- readStatus, and then the branch on FAIL: W7 and E6. -/
theorem checkStatus_going {here pass retry : Label} (hs : Stands here rest s) (hl : here ∉ [Label.s1, .s2])
    (hap : pass.area = here.area) (har : retry.area = here.area)
    (hp : LabelOk pass (s.view.mark fun w => { w with status := true }))
    (hq : LabelOk retry (s.view.mark fun w => { w with status := true }))
    (h : checkStatus here pass retry s = .next t) (hr : t.outcome = .running) : Going t := by
  unfold checkStatus at h
  rcases (execReadStatus_call s).cases_running (hs.atRest hl) h hr with ⟨u, hu, hf⟩ | ⟨hn, _⟩
  · split at hf
    · exact hs.move hu rfl hf hr har hq
    · exact hs.move hu rfl hf hr hap hp
  · exact absurd rfl hn

theorem runW7_going (hs : Stands .w7 rest s) (h : runW7 s = .next t) (hr : t.outcome = .running) : Going t := by
  have hok : LabelOk .w7 (s.view.mark fun w => { w with status := true }) := { hs.ok with reads := hs.ok.reads }
  refine checkStatus_going (pass := .w9) (retry := .w8) hs (by decide) rfl rfl
    (hok.flow rfl (fun _ => hs.lt_count rfl) rfl)
    (hok.flow rfl (fun _ => hs.lt_count rfl) ?_) h hr
  exact (Bool.and_true _).trans hs.ok.reads

/-- One more attempt, or FAIL_LOG and the end of the unit: W8 and E7. -/
theorem statusError_going {here again done : Label} {kind : Kind} (hs : Stands here rest s)
    (hl : here ∉ [Label.s1, .s2]) (haa : again.area = here.area) (had : done.area = here.area)
    (ha : LabelOk again s.view) (hd : LabelOk done { s.view with failLog := s.failLog ++ [(kind, s.unit)] })
    (h : statusError here kind again done s = .next t) (hr : t.outcome = .running) : Going t := by
  unfold statusError at h
  split at h
  · exact going_sibling h hr hs.pc hs.shape haa (hs.atRest hl) ha
  · exact going_sibling h hr hs.pc hs.shape had (hs.atRest hl) hd

/-- FAIL_LOG with the failed unit's entry, in an operation that writes it. -/
theorem LabelOk.failed {l : Label} {v : View} (h : LabelOk l v) (hk : v.failLog.length ≤ v.k)
    (hb : failLogBound v.k l = v.k + 1) (hc : v.cmd = .writeFull ∨ v.cmd = .eraseBlocks) (e : Kind × Nat) :
    LabelOk l { v with failLog := v.failLog ++ [e] } :=
  { h with
    failBound := ⟨by rw [hb, List.length_append]; exact Nat.succ_le_succ hk, fun h1 h2 => (hc.elim h1 h2).elim⟩ }

theorem runW8_going (hs : Stands .w8 rest s) (h : runW8 s = .next t) (hr : t.outcome = .running) : Going t := by
  have hread : (s.written.bufA && s.written.status) = true := hs.ok.reads
  refine statusError_going (again := .w3) (done := .w9) hs (by decide) rfl rfl
    (hs.ok.flow rfl (fun _ => hs.lt_count rfl) (Bool.and_eq_true_iff.1 hread).1) ?_ h hr
  exact (hs.ok.flow (l' := .w9) rfl (fun _ => hs.lt_count rfl) rfl).failed hs.ok.failBound.1 rfl
    (.inl (cmd_of_area_write (hs.proc (by decide) (by decide)).1)) _

theorem runW9_going (hs : Stands .w9 rest s) (h : runW9 s = .next t) (hr : t.outcome = .running) : Going t :=
  unitEnd_going (l' := .w1) hs (by decide) (by decide) rfl h hr

theorem runE1_going (hs : Stands .e1 rest s) (h : runE1 s = .next t) (hr : t.outcome = .running) : Going t :=
  unitHead_going hs (l' := .e2) (by decide) (by decide) (by decide) rfl rfl rfl (by decide) rfl h hr

theorem runE2_going (hs : Stands .e2 rest s) (h : runE2 s = .next t) (hr : t.outcome = .running) : Going t :=
  hs.goto h hr (by decide) rfl (hs.ok.flow rfl (fun _ => hs.lt_count rfl) rfl)

theorem runE3_going (hs : Stands .e3 rest s) (h : runE3 s = .next t) (hr : t.outcome = .running) : Going t := by
  have hcmd := cmd_of_area_erase (hs.proc (by decide) (by decide)).1
  refine callIdCheck_going hs (by decide) (by decide) (by decide) rfl (by decide) rfl ?_ ?_ h hr <;> rw [hcmd]
  · exact List.mem_singleton.2 rfl
  · exact Bool.or_true _

theorem runE4_going (hs : Stands .e4 rest s) (h : runE4 s = .next t) (hr : t.outcome = .running) : Going t :=
  silentCall_going (l' := .e5) hs (execEraseBlock_call _ s) (by decide) rfl
    (hs.ok.flow rfl (fun _ => hs.lt_count rfl) rfl) h hr

theorem runE5_going (hs : Stands .e5 rest s) (h : runE5 s = .next t) (hr : t.outcome = .running) : Going t := by
  refine waitReady_going (l' := .e6) hs (by decide) (by decide) (by decide) ?_ rfl
    (hs.ok.flow rfl (fun _ => hs.lt_count rfl) rfl) h hr
  rw [cmd_of_area_erase (hs.proc (by decide) (by decide)).1]
  exact List.mem_singleton.2 rfl

theorem runE6_going (hs : Stands .e6 rest s) (h : runE6 s = .next t) (hr : t.outcome = .running) : Going t := by
  have hok : LabelOk .e6 (s.view.mark fun w => { w with status := true }) := { hs.ok with reads := rfl }
  exact checkStatus_going (pass := .e8) (retry := .e7) hs (by decide) rfl rfl
    (hok.flow rfl (fun _ => hs.lt_count rfl) rfl)
    (hok.flow rfl (fun _ => hs.lt_count rfl) rfl) h hr

theorem runE7_going (hs : Stands .e7 rest s) (h : runE7 s = .next t) (hr : t.outcome = .running) : Going t := by
  refine statusError_going (again := .e2) (done := .e8) hs (by decide) rfl rfl
    (hs.ok.flow rfl (fun _ => hs.lt_count rfl) rfl) ?_ h hr
  exact (hs.ok.flow (l' := .e8) rfl (fun _ => hs.lt_count rfl) rfl).failed hs.ok.failBound.1 rfl
    (.inr (cmd_of_area_erase (hs.proc (by decide) (by decide)).1)) _

theorem runE8_going (hs : Stands .e8 rest s) (h : runE8 s = .next t) (hr : t.outcome = .running) : Going t :=
  unitEnd_going (l' := .e1) hs (by decide) (by decide) rfl h hr

/-- EVERY LABEL'S STATEMENT keeps what the invariant says of a run that goes on. -/
theorem runLabel_going {l : Label} (hs : Stands l rest s) (h : runLabel l s = .next t) (hr : t.outcome = .running) :
    Going t := by
  cases l with
  | s1 => exact runS1_going hs h hr
  | s2 => exact runS2_going hs h hr
  | s3 => exact runS3_going hs h hr
  | s4 => exact runS4_going hs h hr
  | s5 => exact runS5_going hs h hr
  | s6 => exact runS6_going hs h hr
  | s7 => exact absurd hr (runS7_ends h)
  | i1 => exact runI1_going hs h hr
  | i2 => exact runI2_going hs h hr
  | i3 => exact runI3_going hs h hr
  | p1 => exact runP1_going hs h hr
  | p2 => exact runP2_going hs h hr
  | p3 => exact runP3_going hs h hr
  | p4 => exact runP4_going hs h hr
  | p5 => exact runP5_going hs h hr
  | p6 => exact runP6_going hs h hr
  | p7 => exact runP7_going hs h hr
  | p8 => exact runP8_going hs h hr
  | p9 => exact runP9_going hs h hr
  | w1 => exact runW1_going hs h hr
  | w2 => exact runW2_going hs h hr
  | w3 => exact runW3_going hs h hr
  | w4 => exact runW4_going hs h hr
  | w5 => exact runW5_going hs h hr
  | w6 => exact runW6_going hs h hr
  | w7 => exact runW7_going hs h hr
  | w8 => exact runW8_going hs h hr
  | w9 => exact runW9_going hs h hr
  | e1 => exact runE1_going hs h hr
  | e2 => exact runE2_going hs h hr
  | e3 => exact runE3_going hs h hr
  | e4 => exact runE4_going hs h hr
  | e5 => exact runE5_going hs h hr
  | e6 => exact runE6_going hs h hr
  | e7 => exact runE7_going hs h hr
  | e8 => exact runE8_going hs h hr

end Sys2Proof.Machine
end

/-! PROOF. The invariant over a step: one lemma for each thing a step can be. -/
section
namespace Sys2Proof.Machine

/-! ## Legal words at a label -/

/-- A statement's own primitives send no word. -/
theorem stable_legal (l : Label) (s : State) : Stable (ownPrim l s) LegalLog where
  tick _ h := h
  interrupted _ h := h
  pc _ _ h := h
  env _ _ h := h
  prim p hp u b h hg := by
    cases p with
    | weRise | reRise => exact hp.elim
    | memWrite x _ _ => cases x <;> exact h
    | _ => exact h

section
variable {s t : State}

/-! ## S0 (42_operations R212) -/

/-- S0 is one primitive: it runs, or the host interrupts before it. -/
theorem runPrims_host {p : Prim} (h : runPrims [p] (startInvocation s) = .next t) :
    t = interrupted (startInvocation s) ∨ t = applyPrim p (tick (startInvocation s)) := by
  rcases runRow_cons_next h with ⟨hn, _⟩ | rfl | ⟨_, hrun⟩ | ⟨_, rfl⟩
  · exact absurd rfl hn
  · exact .inl rfl
  · cases hrun; exact .inr rfl
  · exact .inr rfl

/-- What S0 leaves while the run goes on. -/
theorem going_load (cmd : Cmd) (delay first count : Nat) (path : Token) :
    Going (applyPrim (.load cmd delay first count (decide (cmd = .readFull)) path) (tick (startInvocation s))) where
  shape := rfl
  rest hb := Bool.noConfusion (hb : true = false)
  label l hl := by
    rw [atLabel_of_pc (l := .s1) (rest := []) rfl, Option.some.injEq] at hl
    subst hl
    refine ⟨⟨Nat.zero_le _, Bool.noConfusion, fun _ => rfl⟩, rfl, ?_, ⟨Nat.le_refl _, fun _ _ => rfl⟩,
      ⟨Nat.le_refl _, fun _ _ => rfl⟩, fun hl => absurd (by decide) hl, rfl⟩
    change 0 = if _ then 0 * _ else 0
    rw [Nat.zero_mul, ite_self]

theorem host_inv {p : Prim} (hp : hostPrim p) (hs : Sound t) (h : runPrims [p] (startInvocation s) = .next t) :
    Inv t := by
  have hs0 : [Pos.s0] ∈ earlyPcs := by decide
  have hs1 : [Pos.lab .s1] ∈ earlyPcs := by decide
  rcases runPrims_host h with rfl | rfl
  · exact inv_of hs (by rintro w ⟨⟩) (owned_of hs (.inl hs0)) RunOutcome.noConfusion
  · obtain rfl | ⟨cmd, delay, first, count, path, rfl⟩ := hp
    · exact inv_of hs (by rintro w ⟨⟩) (owned_of hs (.inl hs0)) RunOutcome.noConfusion
    · exact inv_of hs (by rintro w ⟨⟩) (owned_of hs (.inl hs1)) fun _ => going_load ..

/-! ## A placed bus cycle -/

theorem cycle_inv {w : Nat} {i : Instr} (h : Inv s) (hr : s.outcome = .running) (hw : s.placed = some w)
    (hi : (encodeWord i).isSome = true) (hs : Sound t) (ht : exec i { s with placed := none } = .next t) : Inv t := by
  have hrest : s.lines.atRest = true := h.rest hr (by simp [State.beforeInit, hw])
  obtain ⟨d, hrow⟩ := cycleRow_clean hi s.lines.dqDir
  rw [exec_cycle hi] at ht
  have hbus : ∀ p ∈ (cycleRow s.lines.dqDir i).prims, p.within := fun p hp =>
    within_of_ofCall (ofCall_of_onBus (List.all_eq_true.1 hrow.onBus p hp))
  have howned : t.lines.contended = false :=
    stable_contended.runRow (s := { s with placed := none }) hbus (contended_of_atRest hrest) ht
  refine inv_of hs (runRow_legal ht (hrow.words { s with placed := none } hrest rfl h.words))
    (owned_of hs (.inr howned)) fun htr => ?_
  have hb := hrow.back (s := { s with placed := none }) (e := s.env) hrest ht htr
  have hg := h.going hr
  refine ⟨?_, fun _ => hb.rest, fun l hl => ?_⟩
  · rw [hb.cmd, hb.pc]; exact hg.shape
  · rw [hb.view]
    refine hg.label l ?_
    rwa [State.atLabel, hb.pc] at hl

/-! ## A label -/

/-- PC after S1 is before InitLines' end. -/
theorem runS1_pc (hpc : s.pc = [.lab .s1]) (h : runS1 s = .next t) : t.pc ∈ earlyPcs := by
  have hraise : ∀ {pre : List Prim} {e : Env}, pre.all Prim.keepsPc = true →
      raiseHostIo pre { s with env := e } = .next t → t.pc ∈ earlyPcs := fun hp h => by
    rw [raiseHostIo_pc hp h, hpc]; decide
  have hgo : ∀ {ps : List Prim} {e : Env}, ps.all Prim.keepsPc = true →
      doThen ps (toLabel .s2) { s with env := e } = .next t → t.pc ∈ earlyPcs := fun hp h => by
    rcases doThen_pc hp h with h | h <;> rw [h, hpc] <;> decide
  unfold runS1 at h
  split at h
  case h_1 | h_2 =>
    simp only at h
    split at h
    · split at h
      · exact hgo rfl h
      · exact hraise rfl h
    · exact hraise rfl h
  case h_3 =>
    simp only at h
    split at h
    · exact hgo rfl h
    · exact hraise rfl h
  case h_4 | h_5 => exact hgo (e := s.env) rfl h

/-- After S2, PC is still there or InitLines has left the lines at rest. -/
theorem runS2_owned (hpc : s.pc = [.lab .s2]) (h : runS2 s = .next t) :
    t.pc ∈ earlyPcs ∨ t.lines.contended = false := by
  unfold runS2 at h
  obtain ⟨u, hu, hcase⟩ := doThen_cases h
  have hup : u.pc ∈ earlyPcs := by
    rw [runPrims_pc rfl hu, hpc]; decide
  rcases hcase with ⟨_, rfl⟩ | ⟨_, _, rfl⟩ | ⟨hrun, _, _, rfl⟩
  · exact .inl hup
  · exact .inl hup
  · refine .inr (contended_of_atRest (ls := u.lines) ?_)
    rw [runPrims_lines hu hrun]; exact initLines_atRest _

theorem label_inv {l : Label} {rest : List Pos} (h : Stands l rest s) (hs : Sound t) (ht : runLabel l s = .next t) :
    Inv t := by
  have hwords : LegalLog t := runLabel_keeps (stable_legal l s) h.inv.words
    (fun hl => callsKeep_legal (h.atRest hl) h.inv.words) ht
  refine inv_of hs hwords (owned_of hs ?_) (runLabel_going h ht)
  by_cases hl : l ∈ [Label.s1, .s2]
  · rcases List.mem_pair.1 hl with rfl | rfl
    · exact .inl (runS1_pc (by rw [h.pc, h.top rfl]) ht)
    · exact runS2_owned (by rw [h.pc, h.top rfl]) ht
  · have hc := contended_of_atRest (h.atRest hl)
    exact .inr ((stable_contended.mono fun _ => within_of_labelPrim).label hc ht)

/-! ## A wait's loop -/

theorem wait_atRest {rest : List Pos} (h : Inv s) (hr : s.outcome = .running) (hp : s.pc = waitLoop :: rest) :
    s.lines.atRest = true := by
  refine h.rest hr ?_
  simp [State.beforeInit, hp, waitLoop]

theorem wait_inv {rest : List Pos} (h : Inv s) (hr : s.outcome = .running) (hp : s.pc = waitLoop :: rest)
    (hs : Sound t) (ht : runWaitLoop { s with pc := rest } = .next t) : Inv t := by
  have hrest := wait_atRest h hr hp
  have hcall := runWaitLoop_call { s with pc := rest }
  refine inv_of hs (hcall.legal hrest h.words ht) (owned_of hs (.inr ?_)) fun htr => ?_
  · exact hcall.keeps stable_contended (fun _ => within_of_ofCall) (contended_of_atRest hrest) ht
  · have hw := runWaitLoop_waiting (s := { s with pc := rest }) hrest ht htr
    have hpc : t.pc = s.pc := hw.pc.trans hp.symm
    have hg := h.going hr
    refine ⟨?_, fun _ => hw.rest, fun l hl => ?_⟩
    · rw [hpc, show t.cmd = s.cmd from congrArg View.cmd hw.view]; exact hg.shape
    · rw [hw.view]
      refine hg.label l ?_
      rwa [State.atLabel, hpc] at hl

/-- A run with nothing to do, interrupted or not. -/
theorem stayIdle_inv (h : Inv s) : Inv (stayIdle s) := by
  unfold stayIdle
  split
  · exact inv_of (stable_sound.interrupted s h.sound) h.words h.owned RunOutcome.noConfusion
  · exact h

end

/-- Settles O50: a step is one of the seven things of `StepIs`, and each keeps the clauses that hold of every state and,
where the run goes on, the clauses of the label it goes to. -/
theorem stepKeepsTheInvariant : Obligations.StepKeepsTheInvariant := by
  intro s t h ht
  have hs : Sound t := step_sound h.sound ht
  cases stepIs s with
  | contention _ he | reject _ he => rw [he] at ht; cases ht
  | idle he => rw [he] at ht; cases ht; exact stayIdle_inv h
  | host _ p hp he => exact host_inv hp hs (he ▸ ht)
  | cycle w i hr hw hi he => exact cycle_inv h hr hw hi hs (he ▸ ht)
  | label l rest hr hw hp he => exact label_inv ⟨h, hr, hw, hp⟩ hs (he ▸ ht)
  | wait rest hr hw hp he => exact wait_inv h hr hp hs (he ▸ ht)

/-- Settles O49: every clause is read off the reset state. -/
theorem invariantAtReset : Obligations.InvariantAtReset where
  config := by decide
  memA := rfl
  memB := rfl
  recordFits := by rintro r ⟨⟩
  retryBound := Nat.zero_le _
  words := by rintro w ⟨⟩
  shape _ := rfl
  rest _ _ := by decide
  owned _ := rfl
  unitIndex := by rintro _ l ⟨⟩
  spare := by rintro _ l ⟨⟩
  sinkLen := by rintro _ l ⟨⟩
  badBound := by rintro _ l ⟨⟩
  failBound := by rintro _ l ⟨⟩
  cached := by rintro _ l ⟨⟩
  reads := by rintro _ l ⟨⟩

end Sys2Proof.Machine
end

/-! PROOF. An ended run, the model's faults, and what no step and no label but one writes. -/
section
namespace Sys2Proof.Machine

/-! ## Ended runs (10_state R39, 60_exceptions R268) -/

/-- A statement that draws answers and then runs a row leaves an ended run as it is but for the answers. -/
theorem runRow_ended_env {s : State} (h : s.outcome ≠ .running) (row : Row) (e : Env) :
    runRow row { s with env := e } = .next { s with env := e } :=
  runRow_ended (s := { s with env := e }) h row

theorem onReturn_ended_env {s : State} (h : s.outcome ≠ .running) (pc : List Pos) (row : Row) (e : Env)
    (f : State → Host.Outcome State Fault Refusal) :
    onReturn pc (runRow row { s with env := e }) f = .next { s with env := e } :=
  onReturn_stopped (runRow_ended_env h row e) fun hr => h hr.1

/-- Once the run has ended, a bus cycle and a transaction draw answers at most. -/
theorem exec_ended {s : State} (h : s.outcome ≠ .running) {i : Instr} (hi : encodeCommand i = none) :
    ∃ e, exec i s = .next { s with env := e } := by
  cases i with
  | readIdCmd | readFull | readData | writeFull | eraseBlocks => cases hi
  | readId | readStatus => exact ⟨_, runRow_ended_env h _ _⟩
  | readPage p x =>
    simp only [exec, execReadPage]
    split
    · exact ⟨_, runRow_ended_env h _ _⟩
    · exact ⟨_, runRow_ended_env h _ _⟩
    · exact ⟨_, onReturn_ended_env h _ _ _ _⟩
  | _ => exact ⟨s.env, runRow_ended h _⟩

/-- Settles O48: no primitive of a row runs in an ended run, and a step with no command line is idle. -/
theorem endedRunDoesNothing : Obligations.EndedRunDoesNothing := by
  intro s h
  refine ⟨fun i t hi ht => ?_, fun i hi => ?_, fun hc hk => ?_⟩
  · obtain ⟨e, he⟩ := exec_ended h hi
    rw [he] at ht
    cases ht; rfl
  · obtain ⟨e, he⟩ := exec_ended h hi
    exact ⟨_, he⟩
  · have hidle : nextWork s = .idle := by rw [step_host hk (.inl h), hostWork, hc]
    simp only [step, hidle, stayIdle_calm (.inl h)]

/-! ## No fault of the model (60_exceptions R277) -/

/-- A chip that keeps to its read strobes goes on doing so. -/
theorem stable_undriven : Stable (fun _ => True) fun s => s.driveIn = none where
  tick _ h := by rw [tick_driveIn, h]; rfl
  interrupted _ h := h
  pc _ _ h := h
  env _ _ h := h
  prim _ _ _ _ h _ := (applyPrim_driveIn ..).trans h

section
variable {s : State}

theorem runPrims_total {ps : List Prim} (hd : s.driveIn = none) (hg : guardsPass ps s.lines = true) :
    ∃ t, runPrims ps s = .next t :=
  runRow_total _ _ hd (by rwa [prims_own])

theorem raiseHostIo_total {pre : List Prim} {e : Env} (hd : s.driveIn = none) (hg : guardsPass pre s.lines = true) :
    ∃ t, raiseHostIo pre { s with env := e } = .next t :=
  runPrims_total hd (by rw [guardsPass_append, hg]; rfl)

/-- A call, and a statement after it that needs the chip to keep to its read strobes. -/
theorem CallOf.total {v : View} {inner pc : List Pos} {o : Host.Outcome State Fault Refusal}
    {f : State → Host.Outcome State Fault Refusal} (ho : CallOf s v inner o) (hd : s.driveIn = none)
    (hn : ∃ t, o = .next t) (hf : ∀ u, u.driveIn = none → ∃ t, f u = .next t) : ∃ t, onReturn pc o f = .next t := by
  obtain ⟨u, hu⟩ := hn
  have hud := ho.keeps stable_undriven (fun _ _ => trivial) hd hu
  by_cases hr : u.outcome = .running ∧ u.pc = pc
  · rw [onReturn_returned hu hr.1 hr.2]; exact hf u hud
  · exact ⟨u, onReturn_stopped hu hr⟩

/-- `pc <- next` alone has no guard. -/
theorem goto_total {next : List Pos → List Pos} (u : State) (hd : u.driveIn = none) :
    ∃ t, doThen [] next u = .next t := doThen_total hd rfl

theorem runS1_total (hd : s.driveIn = none) : ∃ t, runS1 s = .next t := by
  unfold runS1
  split
  case h_1 | h_2 =>
    simp only
    split
    · split
      · exact doThen_total hd rfl
      · exact raiseHostIo_total hd rfl
    · exact raiseHostIo_total hd rfl
  case h_3 =>
    simp only
    split
    · exact doThen_total hd rfl
    · exact raiseHostIo_total hd rfl
  case h_4 | h_5 => exact doThen_total hd rfl

/-- One sample of R/B# contends where the engine does only. -/
theorem guardsPass_sample {ls : Lines} (hr : ls.re = true) (v : Bool) (ps : List Prim) :
    guardsPass (.pin (.readLevel .rb v) :: ps) ls = guardsPass ps ls := by
  simp [primGuard, Lines.event, Lines.after, Lines.contested, Lines.contended, hr]

theorem runS3_total (hq : Quiet s) : ∃ t, runS3 s = .next t := by
  simp only [runS3]
  split
  · exact doThen_total hq.undriven (by rw [guardsPass_sample hq.re]; rfl)
  · exact runPrims_total hq.undriven (by rw [guardsPass_sample hq.re]; rfl)

theorem runS4_total (hq : Quiet s) : ∃ t, runS4 s = .next t := by
  refine (execReadId_call s).total hq.undriven (execReadId_next s hq) fun u hd => ?_
  split
  · exact runPrims_total hd rfl
  · exact doThen_total hd rfl

theorem runS5_total (hd : s.driveIn = none) : ∃ t, runS5 s = .next t := by
  simp only [runS5]
  split
  · exact goto_total s hd
  · split
    · exact doThen_total hd rfl
    · exact runPrims_total hd rfl

theorem runP7_total (hd : s.driveIn = none) : ∃ t, runP7 s = .next t := by
  unfold runP7
  split
  · exact doThen_total hd rfl
  · simp only
    split
    · exact doThen_total hd rfl
    · exact raiseHostIo_total hd rfl

theorem runP8_total (hd : s.driveIn = none) : ∃ t, runP8 s = .next t := by
  simp only [runP8]
  split
  · exact doThen_total hd rfl
  · exact raiseHostIo_total hd rfl

/-- W2: the record is at most a page, so that the write stays in the buffer (20_memory R60). -/
theorem runW2_total (hd : s.driveIn = none) (hrec : ∀ r, s.record = some r → r.length ≤ PAGE_SIZE) :
    ∃ t, runW2 s = .next t := by
  unfold runW2
  split
  · exact raiseHostIo_total (e := s.env) hd rfl
  next r hr =>
    split
    · exact raiseHostIo_total (e := s.env) hd rfl
    · exact doThen_total hd (by simp [primGuard, hrec r hr])

theorem checkStatus_total {here pass retry : Label} (hq : Quiet s) : ∃ t, checkStatus here pass retry s = .next t := by
  refine (execReadStatus_call s).total hq.undriven (execReadStatus_next s hq) fun u hd => ?_
  split <;> exact goto_total u hd

theorem statusError_total {here again done : Label} {kind : Kind} (hd : s.driveIn = none) :
    ∃ t, statusError here kind again done s = .next t := by
  unfold statusError
  split <;> exact doThen_total hd rfl

/-- A LABEL'S STATEMENT answers a next state, the chip keeping to its read strobes and, from S3 on, both strobes being
high. -/
theorem runLabel_total {l : Label} (hd : s.driveIn = none) (hrec : ∀ r, s.record = some r → r.length ≤ PAGE_SIZE)
    (hq : l ∉ [Label.s1, .s2] → Quiet s) : ∃ t, runLabel l s = .next t := by
  cases l with
  | s1 => exact runS1_total hd
  | s2 => exact doThen_total hd (initLines_guards _)
  | s3 => exact runS3_total (hq (by decide))
  | s4 => exact runS4_total (hq (by decide))
  | s5 => exact runS5_total hd
  | s6 =>
    simp only [runLabel, runS6]
    split <;> exact goto_total s hd
  | s7 => exact runPrims_total hd rfl
  | i1 | p2 | w3 | w4 | e2 | e3 => exact goto_total s hd
  | i2 =>
    simp only [runLabel, runI2]
    exact (execReadId_call s).total hd (execReadId_next s (hq (by decide))) goto_total
  | i3 =>
    simp only [runLabel, runI3]
    split <;> exact goto_total s hd
  | p1 =>
    simp only [runLabel, runP1]
    split <;> exact doThen_total hd rfl
  | e1 =>
    simp only [runLabel, runE1]
    split <;> exact doThen_total hd rfl
  | w1 =>
    simp only [runLabel, runW1]
    split <;> exact doThen_total hd rfl
  | p3 =>
    simp only [runLabel, runP3]
    split <;> exact goto_total s hd
  | p4 | p5 =>
    simp only [runLabel, runP4, runP5]
    exact (execReadPage_call _ _ s).total hd (execReadPage_next _ _ s (hq (by decide))) goto_total
  | p6 =>
    simp only [runLabel, runP6]
    split <;> exact goto_total s hd
  | p7 => exact runP7_total hd
  | p8 => exact runP8_total hd
  | p9 | w9 | e8 => exact doThen_total hd rfl
  | w2 => exact runW2_total hd hrec
  | w5 =>
    simp only [runLabel, runW5]
    exact (execWritePage_call _ s).total hd (execWritePage_next _ s (hq (by decide))) goto_total
  | w6 | e5 =>
    simp only [runLabel, runW6, runE5]
    exact (runWaitReady_call s).total hd (runWaitReady_next s (hq (by decide))) goto_total
  | e4 =>
    simp only [runLabel, runE4]
    exact (execEraseBlock_call _ s).total hd (execEraseBlock_next _ s (hq (by decide))) goto_total
  | w7 | e6 =>
    simp only [runLabel, runW7, runE6]
    exact checkStatus_total (hq (by decide))
  | w8 | e7 => exact statusError_total hd

theorem runWaitLoop_total (hq : Quiet s) : ∃ t, runWaitLoop s = .next t := by
  have hre := hq.re
  unfold runWaitLoop
  split
  · refine runRow_total _ _ hq.undriven ?_
    change guardsPass (.pin (.readLevel .rb false) :: _) _ = true
    rw [guardsPass_sample hre]; rfl
  · refine onReturn_total (runRow_total _ _ hq.undriven (busySamples_guards 1 s.polls s.lines hre)) fun u => ⟨_, rfl⟩

theorem quiet_of_atRest (hd : s.driveIn = none) (hr : s.lines.atRest = true) : Quiet s := by
  obtain ⟨_, _, hw, hre⟩ := atRest_latches hr
  exact ⟨hd, hw, hre⟩

end

/-- Settles O51: from lines at rest no guard stops a row, and before InitLines none is guarded. -/
theorem noBusContentionIsReached : Obligations.NoBusContentionIsReached := by
  intro s f h hd hf
  have hnext : (∃ t, step s = .next t) → False := by
    rintro ⟨t, ht⟩
    rw [ht] at hf; cases hf
  cases stepIs s with
  | contention hk =>
    have howned := h.owned
    rw [State.contends, chipContends_undriven hd, Bool.false_or, Bool.and_eq_true] at hk
    rw [howned hk.2] at hk
    exact Bool.false_ne_true hk.1
  | idle he => exact hnext ⟨_, he⟩
  | host rest p hp he =>
    obtain ⟨t, ht⟩ := runPrims_total (s := startInvocation { s with commands := rest }) (ps := [p]) hd
      (by obtain rfl | ⟨_, _, _, _, _, rfl⟩ := hp <;> rfl)
    exact hnext ⟨t, he.trans ht⟩
  | cycle w i hr hw hi he =>
    obtain ⟨d, hrow⟩ := cycleRow_turns hi s.lines.dqDir
    have hq := quiet_of_atRest hd (h.rest hr (by simp [State.beforeInit, hw]))
    obtain ⟨t, ht⟩ := Turns.next (s := { s with placed := none }) hrow ⟨hq.undriven, hq.we, hq.re⟩
    exact hnext ⟨t, he.trans ((exec_cycle hi _).trans ht)⟩
  | reject _ he => rw [he] at hf; cases hf
  | label l rest hr hw hp he =>
    obtain ⟨t, ht⟩ := runLabel_total hd h.recordFits fun hl =>
      quiet_of_atRest hd ((Stands.mk h hr hw hp).atRest hl)
    exact hnext ⟨t, he.trans ht⟩
  | wait rest hr hw hp he =>
    have hq := quiet_of_atRest hd (wait_atRest h hr hp)
    obtain ⟨t, ht⟩ := runWaitLoop_total (s := { s with pc := rest }) ⟨hq.undriven, hq.we, hq.re⟩
    exact hnext ⟨t, he.trans ht⟩

/-! ## Configuration and files (10_state R27, R42) -/

/-- The configuration is `c`, SOURCE is `src`, and bad.log begins with `bad`. -/
structure FilesKept (c : Cfg) (src bad : List Byte) (s : State) : Prop where
  cfg : s.cfg = c
  source : s.source = src
  badFile : bad <+: s.badFile

theorem stable_filesKept (c : Cfg) (src bad : List Byte) : Stable Prim.within (FilesKept c src bad) where
  tick _ h := ⟨h.cfg, h.source, h.badFile⟩
  interrupted _ h := ⟨h.cfg, h.source, h.badFile⟩
  pc _ _ h := ⟨h.cfg, h.source, h.badFile⟩
  env _ _ h := ⟨h.cfg, h.source, h.badFile⟩
  prim p _ s b h _ := by
    cases p with
    | memWrite x _ _ => cases x <;> exact ⟨h.cfg, h.source, h.badFile⟩
    | logBad p => exact ⟨h.cfg, h.source, h.badFile.trans (List.prefix_append _ _)⟩
    | _ => exact ⟨h.cfg, h.source, h.badFile⟩

theorem step_filesKept {s t : State} (h : step s = .next t) : FilesKept s.cfg s.source s.badFile t :=
  step_keeps (stable_filesKept _ _ _) (fun _ h => ⟨h.cfg, h.source, h.badFile⟩)
    (fun _ _ _ h => ⟨h.cfg, h.source, h.badFile⟩) ⟨rfl, rfl, List.prefix_rfl⟩ h

/-- The 14 pins in the order of `Cfg.wf`. -/
def Cfg.pins (c : Cfg) : List Nat :=
  c.pinMap.toList ++ [c.ctlMap.wp, c.ctlMap.rb, c.ctlMap.ale, c.ctlMap.cle, c.ctlMap.re, c.ctlMap.we]

/-- A line's place among them. -/
def Line.place : Line → Nat
  | .dq i => i.val
  | .wp => 8
  | .rb => 9
  | .ale => 10
  | .cle => 11
  | .re => 12
  | .we => 13

theorem pins_length (c : Cfg) : c.pins.length = 14 := by simp [Cfg.pins]

theorem place_lt (l : Line) : l.place < 14 := by
  cases l with
  | dq i => exact i.isLt.trans (by decide)
  | _ => decide

/-- The line at a place. -/
def lineAt : Nat → Option Line
  | 8 => some .wp
  | 9 => some .rb
  | 10 => some .ale
  | 11 => some .cle
  | 12 => some .re
  | 13 => some .we
  | n => if h : n < 8 then some (.dq ⟨n, h⟩) else none

theorem lineAt_place (l : Line) : lineAt l.place = some l := by
  cases l with
  | dq i => fin_cases i <;> rfl
  | _ => rfl

theorem place_injective {l m : Line} (h : l.place = m.place) : l = m := by
  rw [← Option.some.injEq, ← lineAt_place l, h, lineAt_place]

theorem pins_place (c : Cfg) (l : Line) : c.pins[l.place]? = some (c.pinOf l) := by
  cases l with
  | dq i => simp [Cfg.pins, Line.place, Cfg.pinOf, List.getElem?_append_left]
  | _ => simp [Cfg.pins, Line.place, Cfg.pinOf]

/-- In a configuration of R27 each line has a pin of its own. -/
theorem pinOf_injective {c : Cfg} (hn : c.pins.Nodup) {l m : Line} (h : c.pinOf l = c.pinOf m) : l = m := by
  refine place_injective ((List.getElem?_inj (by rw [pins_length]; exact place_lt l) hn).1 ?_)
  rw [pins_place, pins_place, h]

/-- Settles O54: no primitive and no new invocation writes the configuration or SOURCE, LogBad appends, and 14 distinct pins
are told apart by their places. -/
theorem configurationAndFilesAreKept : Obligations.ConfigurationAndFilesAreKept := by
  refine ⟨fun s t h => ?_, fun c hc => ?_⟩
  · have hk := step_filesKept h
    exact ⟨hk.cfg, hk.source, hk.badFile⟩
  · simp only [Cfg.wf, Bool.and_eq_true, decide_eq_true_eq, bne_iff_ne] at hc
    obtain ⟨⟨hpins, hlimit⟩, hpages⟩ := hc
    refine ⟨fun l m => pinOf_injective hpins, fun n hn => ?_, hpages⟩
    rcases Nat.eq_zero_or_pos n with rfl | hpos
    · exact absurd hn hlimit
    · exact hpos

/-! ## Who writes ID_CACHE and K (10_state R30, R32) -/

/-- ID_CACHE and ID_VALID are as in `s`. -/
def SameCache (s u : State) : Prop := u.idCache = s.idCache ∧ u.idValid = s.idValid

theorem stable_sameCache {l : Label} (hl : l ≠ .s4) (s : State) : Stable (labelPrim l s) (SameCache s) where
  tick _ h := h
  interrupted _ h := h
  pc _ _ h := h
  env _ _ h := h
  prim p hp u b h _ := by
    cases p with
    | setIdCache | setIdValid => exact hp.elim (fun h4 => absurd h4 hl) Bool.noConfusion
    | memWrite x _ _ => cases x <;> exact h
    | _ => exact h

/-- K is as in `s`, or, at the end of a unit, one more. -/
def KStep (l : Label) (s u : State) : Prop := u.k = s.k ∨ (l ∈ [Label.p9, .w9, .e8] ∧ u.k = s.k + 1)

theorem stable_kStep (l : Label) (s : State) : Stable (labelPrim l s) (KStep l s) where
  tick _ h := h
  interrupted _ h := h
  pc _ _ h := h
  env _ _ h := h
  prim p hp u b h _ := by
    cases p with
    | setK n => exact hp.elim .inr Bool.noConfusion
    | memWrite x _ _ => cases x <;> exact h
    | _ => exact h

/-- Settles O55: S4's primitives alone write ID_CACHE and ID_VALID, and those of P9, W9 and E8 alone write K, by one. -/
theorem idCacheAndUnitIndexWriters : Obligations.IdCacheAndUnitIndexWriters := by
  intro s t l rest hat ht
  rw [step_label hat.running hat.owned hat.unplaced hat.pc] at ht
  have hk : KStep l s t := (stable_kStep l s).label (.inl rfl) ht
  exact ⟨fun hl => (stable_sameCache hl s).label ⟨rfl, rfl⟩ ht, fun hl => hk.resolve_right fun h => hl h.1,
    hk.imp id And.right⟩

end Sys2Proof.Machine
end

/-! PROOF. The page index on the bus and the page buffers (20_memory): the row bytes and which indices share them, what a
primitive does to a buffer, and from it the canonical form and the page a page read leaves. -/
section
namespace Sys2Proof

/-! ## The row bytes of a page index (20_memory R62, R65) -/

theorem rowBytes_toNat (p : Nat) : (rowBytes p).map BitVec.toNat = [p % 256, p / 256 % 256, p / 65536 % 256] := rfl

/-- Bits above 23 are on no line (20_memory R62). -/
theorem rowBytes_alias (p j : Nat) : rowBytes (p + 2 ^ 24 * j) = rowBytes p := by
  refine List.map_injective_iff.2 BitVec.toNat_injective ?_
  rw [rowBytes_toNat, rowBytes_toNat]
  have hlo : (p + 2 ^ 24 * j) % 256 = p % 256 := by omega
  have hmid : (p + 2 ^ 24 * j) / 256 % 256 = p / 256 % 256 := by omega
  have hhi : (p + 2 ^ 24 * j) / 65536 % 256 = p / 65536 % 256 := by omega
  rw [hlo, hmid, hhi]

theorem pageAddr_alias (p j : Nat) : pageAddr (p + 2 ^ 24 * j) = pageAddr p :=
  congrArg ([0x00#8, 0x00#8] ++ ·) (rowBytes_alias p j)

/-- Settles O6: three bytes carry the index modulo 2^24. -/
theorem pageIndexOnTheBus : Obligations.PageIndexOnTheBus :=
  ⟨rowBytes_toNat, fun _ => rfl, pageAddr_alias⟩

end Sys2Proof

namespace Sys2Proof.Machine

/-! ## A primitive on a page buffer -/

theorem applyPrim_buf_memWrite (x y : Buf) (off : Nat) (bs : List Byte) (s : State) :
    (applyPrim (.memWrite x off bs) s).buf y = if y = x then (s.buf y).writeBytes off bs else s.buf y := by
  cases x <;> cases y <;> rfl

/-- MemWrite is the only primitive that writes a buffer. -/
theorem applyPrim_buf {p : Prim} (h : ∀ x off bs, p ≠ .memWrite x off bs) (s : State) :
    (applyPrim p s).buf = s.buf := by
  cases p with
  | memWrite x off bs => exact absurd rfl (h x off bs)
  | _ => rfl

/-- The phases leave both buffers alone. -/
theorem applyAll_buf_of_onBus {ps : List Prim} (h : ps.all Prim.onBus = true) (s : State) :
    (applyAll ps s).buf = s.buf := by
  induction ps generalizing s with
  | nil => rfl
  | cons p ps ih =>
    rw [List.all_cons, Bool.and_eq_true] at h
    refine (ih h.2 _).trans (applyPrim_buf ?_ s)
    rintro x off bs rfl
    cases h.1

/-- A write that passes its guard is inside the page. -/
theorem fits_of_primGuard {x : Buf} {off : Nat} {bs : List Byte} {ls : Lines} {b : Bool}
    (h : primGuard (.memWrite x off bs) ls b = none) : off + bs.length ≤ PAGE_SIZE := by
  by_contra hn
  simp [primGuard, hn] at h

/-! ## The canonical form -/

/-- Both page buffers are canonical. -/
def BufsWf (s : State) : Prop := ∀ y, (s.buf y).wf = true

theorem bufsWf_iff (s : State) : BufsWf s ↔ s.bufA.wf = true ∧ s.bufB.wf = true :=
  ⟨fun h => ⟨h .a, h .b⟩, fun ⟨ha, hb⟩ y => match y with | .a => ha | .b => hb⟩

theorem stable_bufsWf : Stable Prim.within BufsWf where
  tick _ h := h
  interrupted _ h := h
  pc _ _ h := h
  env _ _ h := h
  prim p _ s b h hg y := by
    cases p with
    | memWrite x off bs =>
      rw [applyPrim_buf_memWrite]
      split
      · exact wf_writeBytes bs (fits_of_primGuard hg) (h y)
      · exact h y
    | _ => exact h y

/-- Settles O53: a write that is let through is inside the page and keeps the form, no other primitive touches a buffer, and
a new invocation starts with both empty. -/
theorem stepKeepsMemoryCanonical : Obligations.StepKeepsMemoryCanonical := by
  intro s t hA hB ht
  have hstart : ∀ u, BufsWf u → BufsWf (startInvocation u) := fun u _ => (bufsWf_iff _).2 ⟨rfl, rfl⟩
  exact (bufsWf_iff t).1 <|
    step_keeps stable_bufsWf hstart (fun _ _ _ h => h) ((bufsWf_iff s).2 ⟨hA, hB⟩) ht

/-! ## A page read that completes -/

/-- A page read whose wait does not time out: primitives of the phases, and last the write of X (41_transactions R185). -/
theorem prims_readPage (cur : Dir) (p : Nat) {w : Wait} (h : w.fin ≠ .timeout) (x : Buf) (bs : List Byte) :
    ∃ ps : List Prim, ps.all Prim.onBus = true ∧
      (readPageWait cur p w ++ readPageData x bs).prims = ps ++ [.memWrite x 0 bs] := by
  refine ⟨(readPageWait cur p w).prims ++ (dataInPhase .out bs).prims, ?_, ?_⟩
  · have hwait : Clean cur .out (readPageWait cur p w) :=
      (clean_readPageOpen cur p).append (clean_samples .out (waitReady_samples h)).calls
    rw [List.all_append, hwait.onBus, dataInPhase_onBus]
    rfl
  · rw [readPageData, prims_append, prims_append, prims_calls, prims_stmt, List.append_assoc]

theorem quiet_of_onBus {p : Prim} (h : p.onBus = true) : p.quiet = true := by
  cases p with
  | raise | finish | decline => cases h
  | _ => rfl

/-- The row of an undisturbed page read writes the bytes `bs` to X from offset 0 and leaves the other buffer. -/
theorem runRow_readPage_buf {s t : State} {p : Nat} {x : Buf} {w : Wait} {bs : List Byte} (hs : Ready s)
    (hw : w.fin ≠ .timeout) (hlen : bs.length = PAGE_SIZE)
    (ht : runRow (readPageWait s.lines.dqDir p w ++ readPageData x bs) s = .next t) (y : Buf) :
    t.buf y = if y = x then (s.buf y).writeBytes 0 bs else s.buf y := by
  obtain ⟨ps, hbus, hps⟩ := prims_readPage s.lines.dqDir p hw x bs
  have hguards := ((turns_readPageWait _ p w).append (turns_readPageData x hlen) s.lines hs.we hs.re rfl).1
  have hquiet : (ps ++ [Prim.memWrite x 0 bs]).all Prim.quiet = true := by
    rw [List.all_append, List.all_eq_true.2 fun q hq => quiet_of_onBus (List.all_eq_true.1 hbus q hq)]
    rfl
  rw [runRow_quiet _ s hs.running hs.calm hs.undriven (hps ▸ hquiet) hguards, Host.Outcome.next.injEq] at ht
  rw [← ht, hps, applyAll_append, applyAll_cons, applyAll_nil, applyPrim_buf_memWrite, applyAll_buf_of_onBus hbus]

/-- What a page read whose wait reads ready leaves in the buffers: the bytes strobed, in X. -/
theorem execReadPage_buf {s t : State} {p : Nat} {x : Buf} (hs : Ready s)
    (hw : (drawWait s.cfg.busyLimit s.env).fin = .ready) (ht : execReadPage p x s = .next t) (y : Buf) :
    t.buf y = if y = x then
      (s.buf y).writeBytes 0 (drawBytes PAGE_SIZE (drawWait s.cfg.busyLimit s.env).env).1 else s.buf y := by
  have hnot : (drawWait s.cfg.busyLimit s.env).fin ≠ .timeout := by rw [hw]; exact WaitEnd.noConfusion
  simp only [execReadPage, hw] at ht
  have hlen := drawBytes_length PAGE_SIZE (drawWait s.cfg.busyLimit s.env).env
  generalize drawBytes PAGE_SIZE (drawWait s.cfg.busyLimit s.env).env = d at ht hlen ⊢
  exact runRow_readPage_buf (s := { s with env := d.2 })
    ⟨hs.running, hs.calm, hs.undriven, hs.cle, hs.ale, hs.we, hs.re⟩ hnot hlen ht y

/-- Settles O17: X is written whole from offset 0 with the bytes strobed, and the other buffer not at all. -/
theorem pageReadIsReadBack : Obligations.PageReadIsReadBack := by
  intro s t p x hs hA hB hw ht
  have hbuf := execReadPage_buf hs hw ht
  have hwf : BufsWf s := (bufsWf_iff s).2 ⟨hA, hB⟩
  have hlen : ((drawBytes PAGE_SIZE (drawWait s.cfg.busyLimit s.env).env).1).length = PAGE_SIZE := drawBytes_length _ _
  have hread := read_writeBytes (i := 0) _ (by rw [hlen, Nat.zero_add]) (hwf x)
  refine ⟨fun a ha => ?_, fun a ha => ?_, fun y hy a => by rw [hbuf, if_neg hy]⟩
  · rw [hbuf, if_pos rfl, hread, if_pos ⟨Nat.zero_le a, by omega⟩, Nat.sub_zero]
  · rw [hbuf, if_pos rfl, hread, if_neg (by omega)]

end Sys2Proof.Machine
end

/-! PROOF. The bus-cycle word (30_encoding R90 to R94): the five kinds of word, what each decodes to, and what is refused. -/
section
namespace Sys2Proof

/-! ## The fields of a word (30_encoding R90) -/

/-- A word is its fields K, C, A and D. -/
theorem cycleClass_append_cycleByte (w : CycleWord) : cycleClass w ++ cycleByte w = w := by
  refine BitVec.eq_of_getLsbD_eq fun j hj => ?_
  simp only [cycleClass, cycleByte, BitVec.getLsbD_append, BitVec.getLsbD_extractLsb']
  split
  · simp [*]
  · simp [show j - 8 < 3 by omega, show 8 + (j - 8) = j by omega]

/-- The fields K, C and A of the reserved patterns: both latches, or a latch in a read strobe (30_encoding R92). -/
def reservedClass (k : BitVec 3) : Bool := (k.getLsbD 1 && k.getLsbD 0) || (k.getLsbD 2 && (k.getLsbD 1 || k.getLsbD 0))

theorem reservedClass_cycleClass (w : CycleWord) : reservedClass (cycleClass w) =
    ((w.getLsbD 9 && w.getLsbD 8) || (w.getLsbD 10 && (w.getLsbD 9 || w.getLsbD 8))) := by
  simp [reservedClass, cycleClass]

/-- The five kinds of word (30_encoding R91, R92). -/
inductive WordKind : CycleWord → Prop
  | cmd (c : Byte) : WordKind (cmdWord c)
  | addr (a : Byte) : WordKind (addrWord a)
  | write (d : Byte) : WordKind (writeWord d)
  | read (d : Byte) : WordKind (readWord d)
  | reserved (w : CycleWord) (h : reservedClass (cycleClass w) = true) : WordKind w

theorem wordKind (w : CycleWord) : WordKind w := by
  have hclass : ∀ k : BitVec 3,
      k = 0b010#3 ∨ k = 0b001#3 ∨ k = 0b000#3 ∨ k = 0b100#3 ∨ reservedClass k = true := by decide
  rcases hclass (cycleClass w) with h | h | h | h | h
  · rw [← cycleClass_append_cycleByte w, h]; exact .cmd _
  · rw [← cycleClass_append_cycleByte w, h]; exact .addr _
  · rw [← cycleClass_append_cycleByte w, h]; exact .write _
  · rw [← cycleClass_append_cycleByte w, h]; exact .read _
  · exact .reserved w h

@[simp] theorem cmdWord_inj {c c' : Byte} : cmdWord c = cmdWord c' ↔ c = c' :=
  ⟨fun h => by rw [← cycleByte_cmdWord c, h, cycleByte_cmdWord], congrArg cmdWord⟩

/-! ## The command set (30_encoding R93, R94) -/

/-- The eight command bytes of 30_encoding R93. -/
def commandBytes : List Byte := [0x90#8, 0x00#8, 0x30#8, 0x80#8, 0x10#8, 0x60#8, 0xD0#8, 0x70#8]

theorem decodeCommandByte_of_mem {c : Byte} (h : c ∈ commandBytes) :
    ∃ i, decodeCommandByte c = .ok i ∧ encodeWord i = some (cmdWord c) ∧ WellFormed i = true := by
  simp only [commandBytes, List.mem_cons, List.not_mem_nil, or_false] at h
  rcases h with rfl | rfl | rfl | rfl | rfl | rfl | rfl | rfl <;> exact ⟨_, rfl, rfl, rfl⟩

theorem decodeCommandByte_of_notMem {c : Byte} (h : c ∉ commandBytes) :
    decodeCommandByte c = .error .unknownCommandByte := by
  simp only [commandBytes, List.mem_cons, List.not_mem_nil, or_false, not_or] at h
  simp [decodeCommandByte, h]

/-! ## What each kind of word decodes to (30_encoding R91, R92) -/

@[simp] theorem decodeWord_cmdWord (c : Byte) : decodeWord (cmdWord c) = decodeCommandByte c := by simp [decodeWord]

@[simp] theorem decodeWord_addrWord_zero : decodeWord (addrWord 0x00#8) = .ok .idAddr := rfl

theorem decodeWord_addrWord {a : Byte} (h : a ≠ 0x00#8) : decodeWord (addrWord a) = .ok (.addr a) := by
  simp [decodeWord, h]

@[simp] theorem decodeWord_writeWord (d : Byte) : decodeWord (writeWord d) = .ok (.dataW d) := by simp [decodeWord]

@[simp] theorem decodeWord_readWord (d : Byte) : decodeWord (readWord d) = .ok (.dataR d) := by simp [decodeWord]

theorem decodeWord_reserved {w : CycleWord} (h : reservedClass (cycleClass w) = true) :
    decodeWord w = .error .reservedCycle := by
  have hne : ∀ k, reservedClass k = false → cycleClass w ≠ k := by
    rintro _ hk rfl
    exact Bool.false_ne_true (hk.symm.trans h)
  rw [decodeWord, if_neg (hne _ rfl), if_neg (hne _ rfl), if_neg (hne _ rfl), if_neg (hne _ rfl)]

/-- What the decoder answers for a word: a well-formed cycle whose word it is, or one of two refusals with its reason. -/
theorem decodeWord_answer (w : CycleWord) :
    (∃ i, decodeWord w = .ok i ∧ encodeWord i = some w ∧ WellFormed i = true) ∨
    (decodeWord w = .error .reservedCycle ∧ reservedClass (cycleClass w) = true) ∨
    (decodeWord w = .error .unknownCommandByte ∧ ∃ c, w = cmdWord c ∧ c ∉ commandBytes) := by
  cases wordKind w with
  | cmd c =>
    rw [decodeWord_cmdWord]
    by_cases h : c ∈ commandBytes
    · exact .inl (decodeCommandByte_of_mem h)
    · exact .inr (.inr ⟨decodeCommandByte_of_notMem h, c, rfl, h⟩)
  | addr a =>
    by_cases h : a = 0x00#8
    · exact .inl ⟨.idAddr, h ▸ decodeWord_addrWord_zero, h ▸ rfl, rfl⟩
    · exact .inl ⟨.addr a, decodeWord_addrWord h, rfl, bne_iff_ne.2 h⟩
  | write d => exact .inl ⟨.dataW d, decodeWord_writeWord d, rfl, rfl⟩
  | read d => exact .inl ⟨.dataR d, decodeWord_readWord d, rfl, rfl⟩
  | reserved w h => exact .inr (.inl ⟨decodeWord_reserved h, h⟩)

/-- Settles O2: what a word decodes to is well-formed and encodes to that word. -/
theorem encodeOfDecodedWordIsTheWord : Obligations.EncodeOfDecodedWordIsTheWord := by
  intro w i hi
  rcases decodeWord_answer w with ⟨j, hj, henc, hwf⟩ | ⟨herr, _⟩ | ⟨herr, _⟩
  · obtain rfl : j = i := Except.ok.inj (hj.symm.trans hi)
    exact ⟨henc, hwf⟩
  · cases herr.symm.trans hi
  · cases herr.symm.trans hi

theorem decodeWord_of_encodeWord {i : Instr} {w : CycleWord} (hwf : WellFormed i = true) (hw : encodeWord i = some w) :
    decodeWord w = .ok i := by
  cases i with
  | addr a =>
    obtain rfl : addrWord a = w := Option.some.inj hw
    exact decodeWord_addrWord (bne_iff_ne.1 hwf)
  | dataW d =>
    obtain rfl : writeWord d = w := Option.some.inj hw
    exact decodeWord_writeWord d
  | dataR d =>
    obtain rfl : readWord d = w := Option.some.inj hw
    exact decodeWord_readWord d
  | readId | readPage | writePage | eraseBlock | readStatus | readIdCmd | readFull | readData | writeFull
  | eraseBlocks => cases hw
  | _ => cases hw; rfl

/-! ## Words given as numbers -/

theorem decodeNat_toNat (w : CycleWord) : decodeNat w.toNat = decodeWord w := by
  rw [decodeNat, if_pos w.isLt, BitVec.ofNat_toNat, BitVec.setWidth_eq]

theorem decodeNat_of_le {w : Nat} (h : 2 ^ 11 ≤ w) : decodeNat w = .error .notACycleWord := if_neg (Nat.not_lt.2 h)

theorem decodeTableWord_of_encodeWord (n : Nat) {i : Instr} {w : CycleWord} (hwf : WellFormed i = true)
    (hw : encodeWord i = some w) : decodeTableWord n w.toNat = some i := by
  rw [decodeTableWord, decodeNat_toNat, decodeWord_of_encodeWord hwf hw]

theorem decodeTableWord_reserved (n : Nat) {w : CycleWord} (h : reservedClass (cycleClass w) = true) :
    decodeTableWord n w.toNat = none := by
  rw [decodeTableWord, decodeNat_toNat, decodeWord_reserved h]

/-- Settles O5: the seven words are those of their rows, and 0x300 asserts both latches. -/
theorem tableWordsDecode : Obligations.TableWordsDecode :=
  ⟨decodeTableWord_of_encodeWord 16 (w := 0x290#11) rfl rfl, decodeTableWord_of_encodeWord 16 (w := 0x230#11) rfl rfl,
    decodeTableWord_of_encodeWord 16 (w := 0x2D0#11) rfl rfl, decodeTableWord_of_encodeWord 16 (w := 0x100#11) rfl rfl,
    decodeTableWord_of_encodeWord 16 (w := 0x1C0#11) rfl rfl, decodeTableWord_of_encodeWord 16 (w := 0x0A5#11) rfl rfl,
    decodeTableWord_of_encodeWord 16 (w := 0x4E1#11) rfl rfl, decodeTableWord_reserved 16 (w := 0x300#11) rfl⟩

/-! ## The refusals (30_encoding R92, R94) -/

theorem decodeWord_eq_reservedCycle_iff (w : CycleWord) :
    decodeWord w = .error .reservedCycle ↔ reservedClass (cycleClass w) = true := by
  refine ⟨fun h => ?_, decodeWord_reserved⟩
  rcases decodeWord_answer w with ⟨i, hi, _⟩ | ⟨_, hclass⟩ | ⟨herr, _⟩
  · cases hi.symm.trans h
  · exact hclass
  · cases herr.symm.trans h

theorem decodeWord_eq_unknownCommandByte_iff (w : CycleWord) :
    decodeWord w = .error .unknownCommandByte ↔ ∃ c, w = cmdWord c ∧ c ∉ commandBytes := by
  constructor
  · intro h
    rcases decodeWord_answer w with ⟨i, hi, _⟩ | ⟨herr, _⟩ | ⟨_, hc⟩
    · cases hi.symm.trans h
    · cases herr.symm.trans h
    · exact hc
  · rintro ⟨c, rfl, hc⟩
    rw [decodeWord_cmdWord, decodeCommandByte_of_notMem hc]

theorem decodeWord_error {w : CycleWord} {r : Reject} (h : decodeWord w = .error r) :
    r = .reservedCycle ∨ r = .unknownCommandByte := by
  rcases decodeWord_answer w with ⟨i, hi, _⟩ | ⟨herr, _⟩ | ⟨herr, _⟩
  · cases hi.symm.trans h
  · exact .inl (Except.error.inj (h.symm.trans herr))
  · exact .inr (Except.error.inj (h.symm.trans herr))

open Machine in
/-- A step at a placed number that the decoder refuses is refused. -/
theorem step_placed_refused {s : State} {w : Nat} {r : Reject} (hrun : s.outcome = .running) (hk : s.contends = false)
    (hw : s.placed = some w) (h : decodeNat w = .error r) : step s = .refused (rejectWord r) := by
  simp [step, nextWork, hk, hrun, hw, h]

/-- Settles O3: the refusals of the decoder by the kind of the word, and a step refuses what the decoder refuses. -/
theorem wordsOutsideTheTableAreRefused : Obligations.WordsOutsideTheTableAreRefused := by
  refine ⟨fun w => ?_, decodeWord_eq_unknownCommandByte_iff, fun w r => decodeWord_error, fun s w hrun hk hw => ?_,
    fun s w hrun hk hw hle => step_placed_refused hrun hk hw (decodeNat_of_le hle)⟩
  · rw [← reservedClass_cycleClass]
    exact decodeWord_eq_reservedCycle_iff w
  · rw [← decodeNat_toNat]
    exact ⟨step_placed_refused hrun hk hw, step_placed_refused hrun hk hw⟩

end Sys2Proof
end

/-! PROOF. The transactions (30_encoding R95 to R100): each is told by its words, whatever follows them. -/
section
namespace Sys2Proof

/-! ## Address operands (30_encoding R97, R98) -/

theorem pageOfAddr_pageAddr {p : Nat} (h : p < 2 ^ 24) : pageOfAddr (pageAddr p) = some p :=
  congrArg some (rowIndex_rowBytes h)

theorem blockAddr_eq_rowBytes (b : Nat) : blockAddr b = rowBytes (b * 64) := rfl

theorem blockOfAddr_blockAddr {b : Nat} (h : b < 2 ^ 18) : blockOfAddr (blockAddr b) = some b := by
  have hrow := rowIndex_rowBytes (p := b * 64) (by omega)
  simp only [blockAddr_eq_rowBytes, rowBytes, blockOfAddr, hrow]
  rw [if_pos (Nat.mul_mod_left b 64), Nat.mul_div_cancel b (by decide)]

theorem blockAddr_toNat (b : Nat) :
    (blockAddr b).map BitVec.toNat = [b * 64 % 256, b * 64 / 256 % 256, b * 64 / 65536 % 256] := rowBytes_toNat (b * 64)

/-- Bits above 17 of a block index are on no line (20_memory R64). -/
theorem blockAddr_alias (b j : Nat) : blockAddr (b + 2 ^ 18 * j) = blockAddr b := by
  have hpage : (b + 2 ^ 18 * j) * 64 = b * 64 + 2 ^ 24 * j := by omega
  rw [blockAddr_eq_rowBytes, hpage, rowBytes_alias, blockAddr_eq_rowBytes]

/-- Settles O7: a block's address is the row address of its first page, whose low 6 bits are 0 as 64 divides 256. -/
theorem blockIndexOnTheBus : Obligations.BlockIndexOnTheBus := by
  refine ⟨fun b => ⟨blockAddr_eq_rowBytes b, blockAddr_toNat b⟩, fun b => ⟨_, _, _, blockAddr_eq_rowBytes b, ?_⟩,
    blockAddr_alias⟩
  rw [BitVec.toNat_ofNat]
  omega

/-! ## The readers of a trace -/

@[simp] theorem takeWord_cons_self (w : CycleWord) (ws : List CycleWord) : takeWord w (w :: ws) = some ws := if_pos rfl

section
variable {n : Nat} {bs : List Byte} (h : bs.length = n) (rest : List CycleWord)
include h

theorem takeClass_addrWords : takeClass 0b001#3 n (bs.map addrWord ++ rest) = some (bs, rest) :=
  h ▸ takeClass_map cycleClass_addrWord cycleByte_addrWord bs rest

theorem takeClass_writeWords : takeClass 0b000#3 n (bs.map writeWord ++ rest) = some (bs, rest) :=
  h ▸ takeClass_map cycleClass_writeWord cycleByte_writeWord bs rest

theorem takeClass_readWords : takeClass 0b100#3 n (bs.map readWord ++ rest) = some (bs, rest) :=
  h ▸ takeClass_map cycleClass_readWord cycleByte_readWord bs rest

end

/-! ## Each transaction from its words (30_encoding R99) -/

section
variable (x : Buf) {data : List Byte} (rest : List CycleWord)

theorem decodeTransaction_readId (hlen : data.length = ID_LEN) :
    decodeTransaction x (cmdWord 0x90#8 :: addrWord 0x00#8 :: (data.map readWord ++ rest)) = .ok (.readId, data, rest) := by
  simp [decodeTransaction, takeClass_readWords hlen]

theorem decodeTransaction_readPage {p : Nat} (hp : p < 2 ^ 24) (hlen : data.length = PAGE_SIZE) :
    decodeTransaction x (cmdWord 0x00#8 :: ((pageAddr p).map addrWord ++ cmdWord 0x30#8 :: (data.map readWord ++ rest))) =
      .ok (.readPage p x, data, rest) := by
  simp [decodeTransaction, takeClass_addrWords (pageAddr_length p), pageOfAddr_pageAddr hp, takeClass_readWords hlen]

theorem decodeTransaction_writePage {p : Nat} (hp : p < 2 ^ 24) (hlen : data.length = PAGE_SIZE) :
    decodeTransaction x (cmdWord 0x80#8 :: ((pageAddr p).map addrWord ++ (data.map writeWord ++ cmdWord 0x10#8 :: rest))) =
      .ok (.writePage p, data, rest) := by
  simp [decodeTransaction, takeClass_addrWords (pageAddr_length p), pageOfAddr_pageAddr hp, takeClass_writeWords hlen]

theorem decodeTransaction_eraseBlock {b : Nat} (hb : b < 2 ^ 18) :
    decodeTransaction x (cmdWord 0x60#8 :: ((blockAddr b).map addrWord ++ cmdWord 0xD0#8 :: rest)) =
      .ok (.eraseBlock b, [], rest) := by
  simp [decodeTransaction, takeClass_addrWords (blockAddr_length b), blockOfAddr_blockAddr hb]

theorem decodeTransaction_readStatus (hlen : data.length = 1) :
    decodeTransaction x (cmdWord 0x70#8 :: (data.map readWord ++ rest)) = .ok (.readStatus, data, rest) := by
  simp [decodeTransaction, takeClass_readWords hlen]

end

/-- Settles O4: the first word tells the transaction, and each part of it is read back from its words. -/
theorem transactionToldByItsWords : Obligations.TransactionToldByItsWords := by
  intro x i data ws rest henc hwf hlen hbuf
  cases i with
  | readId =>
    cases henc
    simpa using decodeTransaction_readId x rest hlen
  | readPage p y =>
    cases henc
    obtain rfl := hbuf p y rfl
    simpa using decodeTransaction_readPage y rest (of_decide_eq_true hwf) hlen
  | writePage p =>
    cases henc
    simpa using decodeTransaction_writePage x rest (of_decide_eq_true hwf) hlen
  | eraseBlock b =>
    cases henc
    obtain rfl := List.length_eq_zero_iff.1 hlen
    simpa using decodeTransaction_eraseBlock x rest (of_decide_eq_true hwf)
  | readStatus =>
    cases henc
    simpa using decodeTransaction_readStatus x rest hlen
  | _ => cases henc

end Sys2Proof
end

/-! PROOF. The decimal tokens and the command lines (30_encoding R109, R110), and with them the round trip of all three
levels. -/
section
namespace Sys2Proof

/-! ## Digits as characters -/

theorem toNat_digitChar {d : Nat} (h : d < 10) : (digitChar d).toNat = 48 + d := by
  interval_cases d <;> rfl

theorem digitChar_toNat_sub {c : Char} (h : 48 ≤ c.toNat) : digitChar (c.toNat - 48) = c := by
  rw [digitChar, Nat.add_sub_cancel' h, Char.ofNat_toNat]

theorem parseDigits_digitChar_cons {d : Nat} (h : d < 10) (acc : Nat) (t : Token) :
    parseDigits acc (digitChar d :: t) = parseDigits (acc * 10 + d) t := by
  rw [parseDigits, toNat_digitChar h, if_pos (by omega), Nat.add_sub_cancel_left]

/-! ## Decimal tokens (30_encoding R110) -/

theorem parseDigits_map_digitChar {ds : List Nat} (h : ∀ d ∈ ds, d < 10) (acc : Nat) :
    parseDigits acc (ds.map digitChar) = some (Nat.ofDigits 10 ds.reverse + acc * 10 ^ ds.length) := by
  induction ds generalizing acc with
  | nil => simp [parseDigits]
  | cons d ds ih =>
    obtain ⟨hd, hds⟩ := List.forall_mem_cons.1 h
    rw [List.map_cons, parseDigits_digitChar_cons hd, ih hds, List.reverse_cons, Nat.ofDigits_append,
      Nat.ofDigits_singleton, List.length_reverse, List.length_cons]
    congr 1
    ring

/-- What is read as digits is digits. -/
theorem eq_map_digitChar_of_parseDigits {t : Token} {acc n : Nat} (h : parseDigits acc t = some n) :
    ∃ ds : List Nat, (∀ d ∈ ds, d < 10) ∧ t = ds.map digitChar := by
  induction t generalizing acc with
  | nil => exact ⟨[], by simp, rfl⟩
  | cons c t ih =>
    rw [parseDigits] at h
    split at h
    · obtain ⟨ds, hds, ht⟩ := ih h
      exact ⟨(c.toNat - 48) :: ds, List.forall_mem_cons.2 ⟨by omega, hds⟩, by
        rw [List.map_cons, digitChar_toNat_sub (by omega), ht]⟩
    · cases h

theorem parseDecimal_eq_parseDigits {t : Token} (h : t ≠ []) : parseDecimal t = parseDigits 0 t := by
  cases t with
  | nil => exact absurd rfl h
  | cons c t => rfl

theorem parseDecimal_map_digitChar {ds : List Nat} (hne : ds ≠ []) (h : ∀ d ∈ ds, d < 10) :
    parseDecimal (ds.map digitChar) = some (Nat.ofDigits 10 ds.reverse) := by
  rw [parseDecimal_eq_parseDigits (mt List.map_eq_nil_iff.1 hne), parseDigits_map_digitChar h, Nat.zero_mul, Nat.add_zero]

theorem parseDecimal_eq_some_iff (t : Token) (n : Nat) : parseDecimal t = some n ↔
    ∃ ds : List Nat, ds ≠ [] ∧ (∀ d ∈ ds, d < 10) ∧ t = ds.map digitChar ∧ n = Nat.ofDigits 10 ds.reverse := by
  constructor
  · intro h
    have hne : t ≠ [] := by rintro rfl; cases h
    obtain ⟨ds, hds, rfl⟩ := eq_map_digitChar_of_parseDigits ((parseDecimal_eq_parseDigits hne).symm.trans h)
    have hds0 : ds ≠ [] := mt List.map_eq_nil_iff.2 hne
    exact ⟨ds, hds0, hds, rfl, Option.some.inj (h.symm.trans (parseDecimal_map_digitChar hds0 hds))⟩
  · rintro ⟨ds, hne, hds, rfl, rfl⟩
    exact parseDecimal_map_digitChar hne hds

/-! ## The digits of a number -/

theorem decimalDigits_eq_decimal {fuel n : Nat} (h : n < fuel) : decimalDigits fuel n = Statements.decimal n := by
  induction fuel generalizing n with
  | zero => omega
  | succ fuel ih =>
    rw [decimalDigits]
    split
    next hlt =>
      by_cases h0 : n = 0
      · rw [h0]; rfl
      · rw [Statements.decimal, if_neg h0, Nat.digits_of_lt 10 n h0 hlt, List.reverse_singleton]
    next hge =>
      rw [ih (by omega), Statements.decimal, Statements.decimal, if_neg (by omega), if_neg (by omega),
        Nat.digits_def' (by decide) (by omega : 0 < n), List.reverse_cons]

theorem digitsOf_eq_decimal (n : Nat) : digitsOf n = Statements.decimal n := decimalDigits_eq_decimal (Nat.lt_succ_self n)

theorem decimal_ne_nil (n : Nat) : Statements.decimal n ≠ [] := by
  rw [Statements.decimal]
  split
  · exact List.cons_ne_nil _ _
  next h => exact mt List.reverse_eq_nil_iff.1 (Nat.digits_ne_nil_iff_ne_zero.2 h)

theorem lt_ten_of_mem_decimal {n d : Nat} (h : d ∈ Statements.decimal n) : d < 10 := by
  rw [Statements.decimal] at h
  split at h
  · rw [List.mem_singleton.1 h]; decide
  · exact Nat.digits_lt_base (by decide) (List.mem_reverse.1 h)

theorem ofDigits_reverse_decimal (n : Nat) : Nat.ofDigits 10 (Statements.decimal n).reverse = n := by
  rw [Statements.decimal]
  split
  next h => rw [h]; rfl
  · rw [List.reverse_reverse, Nat.ofDigits_digits]

@[simp] theorem parseDecimal_decimalToken (n : Nat) : parseDecimal (decimalToken n) = some n := by
  rw [decimalToken, digitsOf_eq_decimal,
    parseDecimal_map_digitChar (decimal_ne_nil n) (fun _ => lt_ten_of_mem_decimal), ofDigits_reverse_decimal]

/-! ## Command lines (30_encoding R109, 42_operations R212) -/

@[simp] theorem parseVerb_verbToken (v : Verb) : parseVerb (verbToken v) = some v := by
  cases v <;> rfl

theorem eq_verbToken_of_parseVerb {t : Token} {v : Verb} (h : parseVerb t = some v) : t = verbToken v := by
  unfold parseVerb at h
  (repeat' split at h) <;> cases h <;> assumption

theorem parseRange_eq_ok_iff {td tf tc : Token} {k : Nat → Nat → Nat → Instr} {i : Instr} :
    parseRange td tf tc k = .ok i ↔
      ∃ d f c, parseDecimal td = some d ∧ parseDecimal tf = some f ∧ parseDecimal tc = some c ∧ i = k d f c := by
  constructor
  · intro h
    unfold parseRange at h
    split at h
    next d f c hd hf hc => cases h; exact ⟨d, f, c, hd, hf, hc, rfl⟩
    · cases h
  · rintro ⟨d, f, c, hd, hf, hc, rfl⟩
    simp only [parseRange, hd, hf, hc]

/-- The lines that pass checks 1 to 3, one constructor for each verb. -/
inductive LineStandsFor : List Token → Instr → Prop
  | readId {td : Token} {d : Nat} (hd : parseDecimal td = some d) : LineStandsFor [td, verbToken .readId] (.readIdCmd d)
  | readFull {td tf tc : Token} {d f c : Nat} (hd : parseDecimal td = some d) (hf : parseDecimal tf = some f)
      (hc : parseDecimal tc = some c) (path : Token) :
      LineStandsFor [td, verbToken .readFull, tf, tc, path] (.readFull d f c path)
  | readData {td tf tc : Token} {d f c : Nat} (hd : parseDecimal td = some d) (hf : parseDecimal tf = some f)
      (hc : parseDecimal tc = some c) (path : Token) :
      LineStandsFor [td, verbToken .readData, tf, tc, path] (.readData d f c path)
  | writeFull {td tf tc : Token} {d f c : Nat} (hd : parseDecimal td = some d) (hf : parseDecimal tf = some f)
      (hc : parseDecimal tc = some c) (path : Token) :
      LineStandsFor [td, verbToken .writeFull, tf, tc, path] (.writeFull d f c path)
  | eraseBlocks {td tf tc : Token} {d f c : Nat} (hd : parseDecimal td = some d) (hf : parseDecimal tf = some f)
      (hc : parseDecimal tc = some c) : LineStandsFor [td, verbToken .eraseBlocks, tf, tc] (.eraseBlocks d f c)

theorem lineStandsFor_of_decodeCommand {line : List Token} {i : Instr} (h : decodeCommand line = .ok i) :
    LineStandsFor line i := by
  unfold decodeCommand at h
  split at h
  · cases h
  · cases h
  next td verb args =>
    split at h
    · cases h
    next hv =>
      cases eq_verbToken_of_parseVerb hv
      split at h
      next d hd => cases h; exact .readId hd
      · cases h
    next hv =>
      obtain ⟨d, f, c, hd, hf, hc, rfl⟩ := parseRange_eq_ok_iff.1 h
      exact eq_verbToken_of_parseVerb hv ▸ .readFull hd hf hc _
    next hv =>
      obtain ⟨d, f, c, hd, hf, hc, rfl⟩ := parseRange_eq_ok_iff.1 h
      exact eq_verbToken_of_parseVerb hv ▸ .readData hd hf hc _
    next hv =>
      obtain ⟨d, f, c, hd, hf, hc, rfl⟩ := parseRange_eq_ok_iff.1 h
      exact eq_verbToken_of_parseVerb hv ▸ .writeFull hd hf hc _
    next hv =>
      obtain ⟨d, f, c, hd, hf, hc, rfl⟩ := parseRange_eq_ok_iff.1 h
      exact eq_verbToken_of_parseVerb hv ▸ .eraseBlocks hd hf hc
    · cases h

theorem decodeCommand_of_lineStandsFor {line : List Token} {i : Instr} (h : LineStandsFor line i) :
    decodeCommand line = .ok i := by
  cases h with
  | readId hd => simp [decodeCommand, hd]
  | readFull hd hf hc | readData hd hf hc | writeFull hd hf hc | eraseBlocks hd hf hc =>
    simp [decodeCommand, parseRange, hd, hf, hc]

/-- Settles O8: a token by its digits, a line by its verb. -/
theorem acceptedCommandLines : Obligations.AcceptedCommandLines := by
  refine ⟨parseDecimal_eq_some_iff, fun line i => ⟨fun h => ?_, ?_⟩⟩
  · cases lineStandsFor_of_decodeCommand h with
    | readId hd => exact ⟨_, _, hd, .inl ⟨rfl, rfl⟩⟩
    | readFull hd hf hc path => exact ⟨_, _, hd, .inr ⟨_, _, _, _, hf, hc, .inl ⟨path, rfl, rfl⟩⟩⟩
    | readData hd hf hc path => exact ⟨_, _, hd, .inr ⟨_, _, _, _, hf, hc, .inr (.inl ⟨path, rfl, rfl⟩)⟩⟩
    | writeFull hd hf hc path => exact ⟨_, _, hd, .inr ⟨_, _, _, _, hf, hc, .inr (.inr (.inl ⟨path, rfl, rfl⟩))⟩⟩
    | eraseBlocks hd hf hc => exact ⟨_, _, hd, .inr ⟨_, _, _, _, hf, hc, .inr (.inr (.inr ⟨rfl, rfl⟩))⟩⟩
  · rintro ⟨td, d, hd, ⟨rfl, rfl⟩ | ⟨tf, f, tc, c, hf, hc,
      ⟨path, rfl, rfl⟩ | ⟨path, rfl, rfl⟩ | ⟨path, rfl, rfl⟩ | ⟨rfl, rfl⟩⟩⟩
    · exact decodeCommand_of_lineStandsFor (.readId hd)
    · exact decodeCommand_of_lineStandsFor (.readFull hd hf hc path)
    · exact decodeCommand_of_lineStandsFor (.readData hd hf hc path)
    · exact decodeCommand_of_lineStandsFor (.writeFull hd hf hc path)
    · exact decodeCommand_of_lineStandsFor (.eraseBlocks hd hf hc)

/-! ## The round trip of the three levels -/

theorem lineStandsFor_of_encodeCommand {i : Instr} {line : List Token} (h : encodeCommand i = some line) :
    LineStandsFor line i := by
  have hnum := parseDecimal_decimalToken
  cases i with
  | readIdCmd d => cases h; exact .readId (hnum d)
  | readFull d f c path => cases h; exact .readFull (hnum d) (hnum f) (hnum c) path
  | readData d f c path => cases h; exact .readData (hnum d) (hnum f) (hnum c) path
  | writeFull d f c path => cases h; exact .writeFull (hnum d) (hnum f) (hnum c) path
  | eraseBlocks d f c => cases h; exact .eraseBlocks (hnum d) (hnum f) (hnum c)
  | _ => cases h

/-- The code of an instruction is at one of the three levels. -/
theorem encode_cases (i : Instr) (data : List Byte) :
    (∃ w, encodeWord i = some w ∧ encode i data = .cycle w) ∨
    (∃ line, encodeCommand i = some line ∧ encode i data = .line line) ∨
    ∃ ws, encodeTransaction i data = some ws ∧ encode i data = .trace ws := by
  cases i with
  | readId | readPage | writePage | eraseBlock | readStatus => exact .inr (.inr ⟨_, rfl, rfl⟩)
  | readIdCmd | readFull | readData | writeFull | eraseBlocks => exact .inr (.inl ⟨_, rfl, rfl⟩)
  | _ => exact .inl ⟨_, rfl, rfl⟩

/-- Settles O1: each level decodes what it encodes, and the level is told by the code. -/
theorem decodeOfEncodeIsTheInstruction : Obligations.DecodeOfEncodeIsTheInstruction := by
  intro x i data hwf hlen hbuf
  rcases encode_cases i data with ⟨w, hw, henc⟩ | ⟨line, hline, henc⟩ | ⟨ws, hws, henc⟩
  · rw [henc]
    exact decodeWord_of_encodeWord hwf hw
  · rw [henc]
    exact decodeCommand_of_lineStandsFor (lineStandsFor_of_encodeCommand hline)
  · have htold := transactionToldByItsWords x i data ws [] hws hwf hlen hbuf
    rw [List.append_nil] at htold
    rw [henc, decode, htold]

end Sys2Proof
end

/-! PROOF. Device IDs (30_encoding R107, R108): when one is invalid, and when two are equal. -/
section
namespace Sys2Proof.Machine

theorem DevId.bytes_injective : Function.Injective DevId.bytes := by
  rintro ⟨a0, a1, a2, a3, a4⟩ ⟨b0, b1, b2, b3, b4⟩ h
  cases h
  rfl

theorem idSame_iff (x : DevId) : idSame x = true ↔ ∃ b, x.bytes = [b, b, b, b, b] := by
  obtain ⟨a0, a1, a2, a3, a4⟩ := x
  simp only [idSame, Bool.and_eq_true, beq_iff_eq]
  constructor
  · rintro ⟨⟨⟨rfl, rfl⟩, rfl⟩, rfl⟩
    exact ⟨a0, rfl⟩
  · rintro ⟨b, h⟩
    cases h
    exact ⟨⟨⟨rfl, rfl⟩, rfl⟩, rfl⟩

/-- Two IDs are equal when they agree position by position. -/
theorem devId_eq_iff (x y : DevId) : x = y ↔ ∀ j, j < 5 → x.bytes.getD j 0x00#8 = y.bytes.getD j 0x00#8 := by
  refine ⟨fun h _ _ => h ▸ rfl, fun h => DevId.bytes_injective (List.ext_getElem rfl fun j hx hy => ?_)⟩
  simpa [hx, hy] using h j hx

theorem drift_eq_false_iff (s : State) : s.drift = false ↔ s.idRd = s.idCache := bne_eq_false_iff_eq

/-- Settles O32: both are about the five bytes. -/
theorem idValidityAndEquality : Obligations.IdValidityAndEquality :=
  ⟨idSame_iff, fun s => (drift_eq_false_iff s).trans (devId_eq_iff s.idRd s.idCache)⟩

end Sys2Proof.Machine
end

/-! PROOF. Undisturbed rows of the phases (40_bus_cycles): the data-read cycle, and the three ways a wait goes on. -/
section
namespace Sys2Proof.Machine

/-! ## Undisturbed rows -/

theorem applyAll_interruptIn (ps : List Prim) (s : State) : (applyAll ps s).interruptIn = s.interruptIn := by
  induction ps generalizing s with
  | nil => rfl
  | cons p ps ih => exact (ih _).trans (applyPrim_interruptIn p s)

theorem applyAll_driveIn (ps : List Prim) (s : State) : (applyAll ps s).driveIn = s.driveIn := by
  induction ps generalizing s with
  | nil => rfl
  | cons p ps ih => exact (ih _).trans (applyPrim_driveIn p s)

/-- Of a state, that a phase runs undisturbed in it is about OUTCOME, the countdowns and the lines only. -/
theorem Ready.congr {s t : State} (hs : Ready s) (ho : t.outcome = s.outcome) (hi : t.interruptIn = s.interruptIn)
    (hd : t.driveIn = s.driveIn) (hl : t.lines = s.lines) : Ready t :=
  ⟨ho.trans hs.running, hi.trans hs.calm, hd.trans hs.undriven, hl ▸ hs.cle, hl ▸ hs.ale, hl ▸ hs.we, hl ▸ hs.re⟩

/-- A row that turns the bus, from a state in which a phase runs undisturbed: all its primitives are applied. -/
theorem Ready.row_next {s : State} {d : Dir} {row : Row} (hs : Ready s) (hq : row.prims.all Prim.quiet = true)
    (ht : Turns s.lines.dqDir d row) : runRow row s = .next (applyAll row.prims s) :=
  runRow_quiet row s hs.running hs.calm hs.undriven hq (ht _ hs.we hs.re rfl).1

/-- The same where the row's last primitive ends the run: PC stays at that primitive's statement (10_state R33). -/
theorem Ready.row_ends {s : State} {d : Dir} {row : Row} {p : Prim} {q : List Pos} (hs : Ready s)
    (hq : row.prims.all Prim.quiet = true) (ht : Turns s.lines.dqDir d (row ++ [(p, q)]))
    (hp : ∀ u, (applyPrim p u).outcome ≠ .running) :
    runRow (row ++ [(p, q)]) s = .next ((applyAll (row ++ [(p, q)]).prims s).standing q) := by
  obtain ⟨hrow, hlast⟩ : guardsPass row.prims s.lines = true ∧ guardsPass [p] (s.lines.afterAll row.prims) = true := by
    rw [← Bool.and_eq_true, ← guardsPass_append]
    simpa using (ht _ hs.we hs.re rfl).1
  have hpass : primGuard p (applyAll row.prims s).lines false = none := by
    rw [applyAll_lines]
    simpa using hlast
  have hall : applyAll (row ++ [(p, q)]).prims s = applyPrim p (applyAll row.prims s) := by
    rw [prims_append, applyAll_append]; rfl
  rw [hall, runRow_quiet_append hs.running hs.calm hs.undriven hq hrow]
  exact runRow_cons_ends ((applyAll_outcome _ s hq).trans hs.running) ((applyAll_interruptIn _ s).trans hs.calm)
    ((applyAll_driveIn _ s).trans hs.undriven) hpass (hp _)

/-! ## The data-read cycle (40_bus_cycles R141, R142) -/

/-- Settles O11: the phase DataIn of one byte, run undisturbed, sends that byte's read cycle with both latches low. -/
theorem dataReadCycleSamplesItsByte : Obligations.DataReadCycleSamplesItsByte := by
  intro s d hs
  have hword : s.lines.readCycle d = readWord d := readCycle_data hs.cle hs.ale d
  calc exec (.dataR d) s = .next (applyAll (dataInPhase s.lines.dqDir [d]).prims s) :=
        hs.row_next (dataInPhase_quiet _ _) (turns_dataIn _ _)
    _ = .next (Statements.afterDataR d s) := by
        rw [applyAll_dataInPhase s [d] hs.re (List.cons_ne_nil _ _), List.map_singleton, hword]
        rfl

/-! ## The answers of a wait (40_bus_cycles R145) -/

theorem limitReached_eq_false_iff (limit : Option Nat) (n : Nat) :
    limitReached limit n = false ↔ ∀ m, limit = some m → n < m := by
  cases limit <;> simp [limitReached]

/-- The first ready sample ends a wait that has not reached BUSY_LIMIT before it. -/
theorem drawWait_ready {limit : Option Nat} {e : Env} {k : Nat} {rest : List Bool}
    (h : e.rb = List.replicate k false ++ true :: rest) (hk : ∀ n, limit = some n → k = 0 ∨ k < n) :
    drawWait limit e = { busy := k, fin := .ready, env := { e with rb := rest } } := by
  have hlimit : ∀ j, 0 < j → j ≤ 0 + k → limitReached limit j = false := fun j hj hjk =>
    (limitReached_eq_false_iff _ _).2 fun n hn => by have := hk n hn; omega
  simp only [drawWait, h, waitScript_ready limit rest k 0 hlimit, Nat.zero_add]

/-- BUSY_LIMIT busy samples in a row end a wait. -/
theorem drawWait_timeout {e : Env} {n : Nat} {rest : List Bool} (h : e.rb = List.replicate (n + 1) false ++ rest) :
    drawWait (some (n + 1)) e = { busy := n + 1, fin := .timeout, env := { e with rb := rest } } := by
  have hbefore : ∀ j, 0 < j → j ≤ 0 + n → limitReached (some (n + 1)) j = false := fun j _ hj =>
    (limitReached_eq_false_iff _ _).2 fun m hm => by cases hm; omega
  have hat : limitReached (some (n + 1)) (0 + n + 1) = true := by simp [limitReached]
  simp only [drawWait, h, waitScript_timeout _ rest n 0 hbefore hat, Nat.zero_add]

/-! ## WaitReady (40_bus_cycles R145 to R147) -/

/-- `POLLS <- 0` and `n` busy samples. -/
theorem applyAll_polled (n : Nat) (s : State) :
    applyAll (stmt .waitReady 0 (.setPolls 0) ++ busySamples 0 n).prims s =
      { s with polls := n, pinLog := (busyEvents n).reverse ++ s.pinLog } := by
  rw [prims_append, applyAll_append, applyAll_busySamples]
  cases n with
  | zero => rfl
  | succ n => simp [applyPrim]

theorem applyAll_waitReady_ready {w : Wait} (h : w.fin = .ready) (s : State) :
    applyAll (waitReady w).prims s =
      { s with polls := w.busy,
               pinLog := (busyEvents w.busy ++ [PinEvent.readLevel .rb true]).reverse ++ s.pinLog } := by
  simp only [waitReady, h]
  rw [prims_append, applyAll_append, applyAll_polled]
  simp [applyPrim, Lines.event]

theorem applyAll_waitReady_timeout {w : Wait} (h : w.fin = .timeout) (s : State) :
    applyAll (waitReady w).prims s = raiseFault .busyTimeout (.polls w.busy)
      { s with polls := w.busy,
               pinLog := (busyEvents (w.busy - 1) ++ [PinEvent.readLevel .rb false]).reverse ++ s.pinLog } := by
  simp only [waitReady, h]
  rw [prims_append, applyAll_append, applyAll_polled]
  simp [timeoutSample, applyPrim, Lines.event]

theorem quiet_of_samples {ps : List Prim} (h : ps.all Prim.samples = true) : ps.all Prim.quiet = true :=
  List.all_eq_true.2 fun p hp => quiet_of_onBus (List.all_eq_true.1 (samples_onBus h) p hp)

/-- Drawing answers leaves a state as ready as it was. -/
theorem Ready.draws {s : State} (hs : Ready s) (e : Env) : Ready { s with env := e } :=
  hs.congr rfl rfl rfl rfl

/-- Settles O22: the answers drawn are those of a ready wait, whose row samples and counts only. -/
theorem waitReadyReturnsWhenReady : Obligations.WaitReadyReturnsWhenReady := by
  intro s k rest hs hrb hlimit
  simp only [runWaitReady, drawWait_ready hrb hlimit]
  rw [(hs.draws _).row_next (quiet_of_samples (waitReady_samples WaitEnd.noConfusion)) (turns_wait _ _),
    applyAll_waitReady_ready rfl]

/-- Settles O23: the answers drawn are those of a wait that reaches BUSY_LIMIT; its row ends in the raise. -/
theorem waitReadyTimesOut : Obligations.WaitReadyTimesOut := by
  intro s n rest hs hlimit hrb
  simp only [runWaitReady, hlimit, drawWait_timeout hrb]
  obtain ⟨row, hsamples, hrow⟩ := waitReady_timeout (w := ⟨n + 1, .timeout, { s.env with rb := rest }⟩) rfl
  rw [hrow, (hs.draws _).row_ends (quiet_of_samples hsamples) (hrow ▸ turns_wait _ _)
    fun _ => RunOutcome.noConfusion, ← hrow, applyAll_waitReady_timeout rfl]
  rfl

/-! ## The wait that never ends (40_bus_cycles R146) -/

/-- `s` after `n` more busy samples, each with its Pause. -/
def State.polled (s : State) (n : Nat) : State :=
  { s with polls := s.polls + n, pinLog := (busyEvents n).reverse ++ s.pinLog }

theorem busyEvents_succ (n : Nat) : busyEvents (n + 1) = busyEvents 1 ++ busyEvents n := by
  simp [busyEvents, List.replicate_succ]

theorem polled_polled (s : State) (n : Nat) : (s.polled 1).polled n = s.polled (n + 1) := by
  have hpolls : s.polls + 1 + n = s.polls + (n + 1) := by omega
  simp [State.polled, busyEvents_succ n, hpolls]

/-- One busy sample of a wait that goes on. -/
theorem runRow_busySample {s : State} (hs : Ready s) : runRow (busySample (s.polls + 1)) s = .next (s.polled 1) :=
  runRow_quiet _ s hs.running hs.calm hs.undriven rfl (busySamples_guards 1 s.polls _ hs.re)

@[simp] theorem polled_pc (s : State) (n : Nat) : (s.polled n).pc = s.pc := rfl

/-- One turn of the loop of a wait with no BUSY_LIMIT. -/
theorem runWaitLoop_endless {s : State} (hs : Ready s) (hlimit : s.cfg.busyLimit = none) :
    runWaitLoop s = .next ((s.polled 1).standing [waitLoop]) := by
  have hgoes : limitReached s.cfg.busyLimit (s.polls + 1) = false := by rw [hlimit]; rfl
  rw [runWaitLoop, hgoes, if_neg Bool.false_ne_true]
  exact onReturn_returned (runRow_busySample hs) hs.running (polled_pc s 1)

/-- One step in that loop: one busy sample, PC in the loop again. -/
theorem step_endlessWait {s : State} {rest : List Pos} (hs : Ready s) (hlimit : s.cfg.busyLimit = none)
    (hplaced : s.placed = none) (hpc : s.pc = waitLoop :: rest) : step s = .next (s.polled 1) := by
  have hback : (State.polled { s with pc := rest } 1).standing [waitLoop] = s.polled 1 := by
    simp only [State.standing, State.polled, List.singleton_append, ← hpc]
  rw [step_wait hs.running (contends_idle hs.undriven hs.re) hplaced hpc, ← hback]
  exact runWaitLoop_endless (s := { s with pc := rest }) (hs.congr rfl rfl rfl rfl) hlimit

/-- Settles O16, by induction on the steps: each leaves the engine in the same loop with one poll more. -/
theorem endlessWaitPollsForEver : Obligations.EndlessWaitPollsForEver := by
  intro s rest n hs hlimit hplaced hpc
  change _ = Host.Outcome.next (s.polled n)
  induction n generalizing s with
  | zero => rfl
  | succ n ih =>
    rw [← polled_polled, ← ih (s.polled 1) (hs.congr rfl rfl rfl rfl) hlimit hplaced hpc]
    exact run_next (step_endlessWait hs hlimit hplaced hpc) n

end Sys2Proof.Machine
end

/-! PROOF. The frame of a bus cycle (40_bus_cycles R138 to R142, 60_exceptions R275): which primitives a phase performs, where
PC stands in it, and what these primitives leave alone. -/
section
namespace Sys2Proof.Machine

/-! ## What a phase is made of -/

/-- A primitive of a phase: one of those that move the lines or sample them, and in a read cycle the write of DIN. -/
def Prim.ofPhase (reads : Bool) : Prim → Bool
  | .pin _ | .setDqDir _ | .weRise | .reRise => true
  | .setDin _ => reads
  | _ => false

/-- A row of such primitives, each at statements of the procedures called (10_state R33). -/
def PhaseRow (reads : Bool) (row : Row) : Prop :=
  ∀ e ∈ row, e.1.ofPhase reads = true ∧ ∀ q ∈ e.2, q.isStmt = true

@[simp] theorem phaseRow_nil (reads : Bool) : PhaseRow reads [] := List.forall_mem_nil _

@[simp] theorem phaseRow_append {reads : Bool} {a b : Row} :
    PhaseRow reads (a ++ b) ↔ PhaseRow reads a ∧ PhaseRow reads b :=
  List.forall_mem_append

@[simp] theorem phaseRow_stmt {reads : Bool} {q : Proc} {n : Nat} {p : Prim} :
    PhaseRow reads (stmt q n p) ↔ p.ofPhase reads = true := by
  simp [PhaseRow, stmt, Pos.isStmt]

@[simp] theorem phaseRow_lineLoop {reads : Bool} {q : Proc} {n : Nat} {f : Fin 8 → Prim} :
    PhaseRow reads (lineLoop q n f) ↔ ∀ i, (f i).ofPhase reads = true := by
  have hall : ∀ i, i ∈ dqLines := by decide
  simp [PhaseRow, lineLoop, Pos.isStmt, hall]

@[simp] theorem phaseRow_calls {reads : Bool} {q : Proc} {n i : Nat} {row : Row} :
    PhaseRow reads (calls q n i row) ↔ PhaseRow reads row := by
  simp only [PhaseRow, calls, List.forall_mem_map, List.forall_mem_append, List.forall_mem_singleton, Pos.isStmt,
    and_true]

theorem phaseRow_byteLoop {reads : Bool} {body : Byte → Nat → Row} (h : ∀ v i, PhaseRow reads (body v i))
    (vs : List Byte) (i : Nat) : PhaseRow reads (byteLoop body vs i) := by
  induction vs generalizing i with
  | nil => exact phaseRow_nil reads
  | cons v vs ih => exact phaseRow_append.2 ⟨h v i, ih (i + 1)⟩

@[simp] theorem phaseRow_busDir (reads : Bool) (cur d : Dir) : PhaseRow reads (busDir cur d) := by
  unfold busDir
  split
  · exact phaseRow_nil reads
  · simp [Prim.ofPhase]

@[simp] theorem phaseRow_driveByte (reads : Bool) (v : Byte) : PhaseRow reads (driveByte v) := by
  have hline : ∀ i, (driveLine v i).ofPhase reads = true := fun i => by unfold driveLine; split <;> rfl
  exact phaseRow_append.2 ⟨phaseRow_lineLoop.2 hline, phaseRow_stmt.2 rfl⟩

@[simp] theorem phaseRow_writeByte (reads : Bool) (q : Proc) (n : Nat) (v : Byte) (i : Nat) :
    PhaseRow reads (writeByte q n v i) := by
  simp [writeByte, weStrobe, Prim.ofPhase]

theorem phaseRow_cmd (cur : Dir) (c : Byte) : PhaseRow false (cmdPhase cur c) := by
  simp [cmdPhase, weStrobe, Prim.ofPhase]

theorem phaseRow_addr (cur : Dir) (a : List Byte) : PhaseRow false (addrPhase cur a) := by
  simp [addrPhase, phaseRow_byteLoop, Prim.ofPhase]

theorem phaseRow_dataOut (cur : Dir) (ds : List Byte) : PhaseRow false (dataOutPhase cur ds) := by
  simp [dataOutPhase, phaseRow_byteLoop]

theorem phaseRow_dataIn (cur : Dir) (vs : List Byte) : PhaseRow true (dataInPhase cur vs) := by
  simp [dataInPhase, phaseRow_byteLoop, dataIn1, Prim.ofPhase]

/-- Whether an instruction is the data-read cycle. -/
def readsData : Instr → Bool
  | .dataR _ => true
  | _ => false

theorem phaseRow_cycleRow {i : Instr} (h : (encodeWord i).isSome = true) (cur : Dir) :
    PhaseRow (readsData i) (cycleRow cur i) := by
  cases i with
  | cmdReadId | cmdReadSetup | cmdReadConfirm | cmdProgSetup | cmdProgConfirm | cmdEraseSetup | cmdEraseConfirm
  | cmdReadStatus => exact phaseRow_cmd cur _
  | idAddr | addr => exact phaseRow_addr cur _
  | dataW d => exact phaseRow_dataOut cur [d]
  | dataR d => exact phaseRow_dataIn cur [d]
  | _ => exact absurd h Bool.false_ne_true

/-! ## What it leaves alone -/

/-- `u` is `s` but for what a phase may change: the lines, the traces, DIN, the countdowns, OUTCOME and PC. -/
def SameButBus (s u : State) : Prop :=
  u = { s with lines := u.lines, din := u.din, written := u.written, pinLog := u.pinLog, cycleLog := u.cycleLog,
               interruptIn := u.interruptIn, driveIn := u.driveIn, outcome := u.outcome, pc := u.pc }

/-- What holds wherever a phase from `s` stands: nothing else has changed, DIN in a read cycle only, and OUTCOME by a host
interrupt only. -/
structure InPhase (reads : Bool) (s u : State) : Prop where
  same : SameButBus s u
  din : reads = false → u.din = s.din ∧ u.written = s.written
  outcome : u.outcome = s.outcome ∨ u.outcome = .aborted

theorem InPhase.prim {reads : Bool} {s u : State} {p : Prim} (hp : p.ofPhase reads = true)
    (h : InPhase reads s u) : InPhase reads s (applyPrim p u) := by
  obtain ⟨hsame, hdin, hout⟩ := h
  cases p with
  | pin | setDqDir | weRise | reRise => exact ⟨by rw [hsame]; rfl, hdin, hout⟩
  | setDin v => exact ⟨by rw [hsame]; rfl, fun hr => absurd (hr.symm.trans hp) Bool.false_ne_true, hout⟩
  | _ => exact absurd hp Bool.false_ne_true

theorem PhaseRow.inPhase {reads : Bool} {row : Row} (hrow : PhaseRow reads row) {s t : State}
    (h : runRow row s = .next t) : InPhase reads s t := by
  refine runRow_induct (P := InPhase reads s) (fun u hu => ?_) (fun u hu => ?_) (fun u q _ hu => ?_) row s t
    (fun e he u _ hu _ => hu.prim (hrow e he).1) ⟨rfl, fun _ => ⟨rfl, rfl⟩, .inl rfl⟩ h
  · exact ⟨by rw [hu.same]; rfl, hu.din, hu.outcome⟩
  · exact ⟨by rw [hu.same]; rfl, hu.din, .inr rfl⟩
  · exact ⟨by rw [hu.same]; rfl, hu.din, hu.outcome⟩

theorem ofPhase_keepsPc {reads : Bool} {p : Prim} (h : p.ofPhase reads = true) : p.keepsPc = true := by
  cases p with
  | setPc | load => exact absurd h Bool.false_ne_true
  | _ => rfl

/-- PC of a phase: as before where OUTCOME is, and at statements inside it, put before it, where the host interrupts. -/
theorem PhaseRow.pc {reads : Bool} {row : Row} (hrow : PhaseRow reads row) {s t : State}
    (h : runRow row s = .next t) : (t.outcome = s.outcome → t.pc = s.pc) ∧
      ∃ inner : List Pos, t.pc = inner ++ s.pc ∧ ∀ q ∈ inner, q.isStmt = true := by
  obtain ⟨hgoes, inner, hpc, hinner⟩ :=
    runRow_pc row s t (fun e he u => applyPrim_pc (ofPhase_keepsPc (hrow e he).1) u) h
  refine ⟨fun ho => ?_, inner, hpc, ?_⟩
  · by_cases hr : s.outcome = .running
    · exact hgoes (ho.trans hr)
    · rw [runRow_ended hr, Host.Outcome.next.injEq] at h
      rw [h]
  · rcases hinner with rfl | ⟨e, he, rfl⟩
    · exact List.forall_mem_nil _
    · exact (hrow e he).2

/-- The frame of a phase, wherever it stops. -/
theorem PhaseRow.frame {reads : Bool} {row : Row} (hrow : PhaseRow reads row) {s t : State}
    (h : runRow row s = .next t) : Statements.CycleFrame s t := by
  have hpc := hrow.pc h
  have hsame : SameButBus s t := (hrow.inPhase h).same
  unfold SameButBus at hsame
  refine ⟨?_, ?_, ?_, ⟨?_, ?_, hpc⟩, fun a => ⟨?_, ?_⟩, ?_, ?_, ?_⟩ <;> rw [hsame]
  · exact ⟨rfl, rfl, rfl, rfl, rfl, rfl⟩
  · exact ⟨rfl, rfl, rfl, rfl, rfl, rfl, rfl, rfl⟩
  · exact ⟨rfl, rfl, rfl⟩
  · exact ⟨rfl, rfl, rfl⟩
  · exact ⟨rfl, rfl⟩

/-- Settles O12: a bus cycle is one row of phase primitives, and none of them writes anything else. -/
theorem busCyclesKeepTheRest : Obligations.BusCyclesKeepTheRest := by
  intro i s t hi ht
  rw [exec_cycle hi] at ht
  have hrow := phaseRow_cycleRow hi s.lines.dqDir
  obtain ⟨_, hdin, hout⟩ := hrow.inPhase ht
  refine ⟨hrow.frame ht, fun hnot => hdin ?_, hout⟩
  cases i with
  | dataR d => exact absurd rfl (hnot d)
  | _ => rfl

end Sys2Proof.Machine
end

/-! PROOF. Latch and strobe exclusion (40_bus_cycles R143) at every point of a phase and of a transaction, not only at
their ends: the points at which an interrupt can leave the lines (60_exceptions R275). -/
section
namespace Sys2Proof.Machine

/-! ## Exclusive lines -/

/-- With RE# high, the lines are exclusive if not both latches are asserted. -/
theorem exclusive_of_re {ls : Lines} (hr : ls.re = true) (hl : (ls.cle && ls.ale) = false) : ls.exclusive = true := by
  simp [Lines.exclusive, Lines.contended, hr, hl]

theorem exclusive_of_atRest {ls : Lines} (h : ls.atRest = true) : ls.exclusive = true := by
  obtain ⟨hc, _, _, hr⟩ := atRest_latches h
  exact exclusive_of_re hr (by rw [hc]; rfl)

/-- The lines are exclusive before every one of the primitives, from the lines `ls`, and after the last. -/
def staysExclusive : List Prim → Lines → Bool
  | [], ls => ls.exclusive
  | p :: ps, ls => ls.exclusive && staysExclusive ps (ls.after p)

theorem exclusive_of_staysExclusive {ps : List Prim} {ls : Lines} (h : staysExclusive ps ls = true) :
    ls.exclusive = true := by
  cases ps with
  | nil => exact h
  | cons p ps => exact (Bool.and_eq_true_iff.1 h).1

theorem staysExclusive_append {ps qs : List Prim} {ls : Lines} (hp : staysExclusive ps ls = true)
    (hq : staysExclusive qs (ls.afterAll ps) = true) : staysExclusive (ps ++ qs) ls = true := by
  induction ps generalizing ls with
  | nil => exact hq
  | cons p ps ih =>
    obtain ⟨hhead, htail⟩ := Bool.and_eq_true_iff.1 hp
    exact Bool.and_eq_true_iff.2 ⟨hhead, ih htail hq⟩

/-- WHEREVER A ROW STOPS, the lines are those of a point of the row. -/
theorem runRow_exclusive {row : Row} {s t : State} (hs : staysExclusive row.prims s.lines = true)
    (h : runRow row s = .next t) : t.lines.exclusive = true := by
  induction row generalizing s with
  | nil => cases h; exact hs
  | cons e row ih =>
    obtain ⟨hhead, htail⟩ := Bool.and_eq_true_iff.1 hs
    have hafter : (applyPrim e.1 (tick s)).lines = s.lines.after e.1 := applyPrim_lines e.1 (tick s)
    rcases runRow_cons_next h with ⟨_, rfl⟩ | rfl | ⟨_, h⟩ | ⟨_, rfl⟩
    · exact hhead
    · exact hhead
    · exact ih (by rw [hafter]; exact htail) h
    · rw [standing_lines, hafter]; exact exclusive_of_staysExclusive htail

/-! ## Primitives that move neither latch nor RE# -/

/-- A primitive that moves neither CLE, ALE nor RE#. -/
def Prim.holdsLatches : Prim → Bool
  | .pin (.setHigh l) | .pin (.setLow l) => decide (l ∉ [Line.cle, .ale, .re])
  | .initPin _ | .initDqDir | .reRise => false
  | _ => true

theorem after_holdsLatches {p : Prim} (h : p.holdsLatches = true) (ls : Lines) :
    (ls.after p).cle = ls.cle ∧ (ls.after p).ale = ls.ale ∧ (ls.after p).re = ls.re := by
  cases p with
  | pin e =>
    cases e with
    | setDir l d => cases l <;> exact ⟨rfl, rfl, rfl⟩
    | setHigh l | setLow l =>
      cases l with
      | cle | ale | re => cases h
      | _ => exact ⟨rfl, rfl, rfl⟩
    | _ => exact ⟨rfl, rfl, rfl⟩
  | initPin | initDqDir | reRise => cases h
  | _ => exact ⟨rfl, rfl, rfl⟩

theorem afterAll_holdsLatches {ps : List Prim} (h : ps.all Prim.holdsLatches = true) (ls : Lines) :
    (ls.afterAll ps).cle = ls.cle ∧ (ls.afterAll ps).ale = ls.ale ∧ (ls.afterAll ps).re = ls.re := by
  induction ps generalizing ls with
  | nil => exact ⟨rfl, rfl, rfl⟩
  | cons p ps ih =>
    obtain ⟨hp, hps⟩ := Bool.and_eq_true_iff.1 h
    obtain ⟨hc, ha, hr⟩ := after_holdsLatches hp ls
    obtain ⟨hc', ha', hr'⟩ := ih hps (ls.after p)
    exact ⟨hc'.trans hc, ha'.trans ha, hr'.trans hr⟩

/-- With RE# high and not both latches asserted, such primitives stay exclusive, whatever they do to the data lines and
WE#. -/
theorem staysExclusive_of_holdsLatches {ps : List Prim} (h : ps.all Prim.holdsLatches = true) {ls : Lines}
    (hr : ls.re = true) (hl : (ls.cle && ls.ale) = false) : staysExclusive ps ls = true := by
  induction ps generalizing ls with
  | nil => exact exclusive_of_re hr hl
  | cons p ps ih =>
    obtain ⟨hp, hps⟩ := Bool.and_eq_true_iff.1 h
    obtain ⟨hc', ha', hr'⟩ := after_holdsLatches hp ls
    exact Bool.and_eq_true_iff.2 ⟨exclusive_of_re hr hl, ih hps (hr'.trans hr) (by rw [hc', ha', hl])⟩

theorem busDir_holdsLatches (cur d : Dir) : (busDir cur d).prims.all Prim.holdsLatches = true := by
  unfold busDir; split <;> rfl

theorem driveLine_holdsLatches (v : Byte) (i : Fin 8) : (driveLine v i).holdsLatches = true := by
  unfold driveLine; split <;> rfl

theorem byteOut_holdsLatches (v : Byte) : (byteOut v).all Prim.holdsLatches = true := by
  simp only [byteOut, driveByte, weStrobe, prims_append, prims_stmt, prims_lineLoop, List.all_append, List.all_cons,
    List.all_nil, driveLine_holdsLatches]
  rfl

theorem bytesOut_holdsLatches (vs : List Byte) : (vs.flatMap byteOut).all Prim.holdsLatches = true := by
  rw [List.all_flatMap, List.all_eq_true]
  exact fun v _ => byteOut_holdsLatches v

/-! ## The phases (40_bus_cycles R138 to R142) -/

/-- A latch asserted where neither is: exclusive, and ready for a write strobe. -/
theorem staysExclusive_assert {ls : Lines} (hr : ls.re = true) (hc : ls.cle = false) (ha : ls.ale = false) {l : Line}
    (hl : l = .cle ∨ l = .ale) :
    staysExclusive [.pin (.setHigh l), pausePrim] ls = true ∧
      (ls.afterAll [.pin (.setHigh l), pausePrim]).re = true ∧
      ((ls.afterAll [.pin (.setHigh l), pausePrim]).cle &&
        (ls.afterAll [.pin (.setHigh l), pausePrim]).ale) = false := by
  rcases hl with rfl | rfl <;>
    simp [staysExclusive, Lines.exclusive, Lines.contended, Lines.after, Lines.event, Lines.setLevel, hc, ha, hr]

/-- A latch released. -/
theorem staysExclusive_release {ls : Lines} (hr : ls.re = true) (hone : (ls.cle && ls.ale) = false) {l : Line}
    (hl : l = .cle ∨ l = .ale) : staysExclusive [.pin (.setLow l), pausePrim] ls = true := by
  have hls := exclusive_of_re hr hone
  rcases hl with rfl | rfl <;>
    simp [staysExclusive, hls, exclusive_of_re, Lines.after, Lines.event, Lines.setLevel, hr]

/-- BusDir, and then primitives between the assertion and the release of one latch: Cmd and Addr. -/
theorem staysExclusive_latched {ls : Lines} (h : ls.atRest = true) (d : Dir) {l : Line} (hl : l = .cle ∨ l = .ale)
    {body : List Prim} (hb : body.all Prim.holdsLatches = true) :
    staysExclusive ((busDir ls.dqDir d).prims ++ ([.pin (.setHigh l), pausePrim] ++
      (body ++ [.pin (.setLow l), pausePrim]))) ls = true := by
  obtain ⟨hc, ha, _, hr⟩ := atRest_latches h
  obtain ⟨hassert, hre, hone⟩ := staysExclusive_assert (ls := ls.turned d) (by rwa [turned_re]) (by rwa [turned_cle])
    (by rwa [turned_ale]) hl
  obtain ⟨hc', ha', hr'⟩ := afterAll_holdsLatches hb ((ls.turned d).afterAll [.pin (.setHigh l), pausePrim])
  refine staysExclusive_append (staysExclusive_of_holdsLatches (busDir_holdsLatches _ d) hr (by rw [hc]; rfl)) ?_
  rw [busDir_lines]
  exact staysExclusive_append hassert (staysExclusive_append (staysExclusive_of_holdsLatches hb hre hone)
    (staysExclusive_release (hr'.trans hre) (by rw [hc', ha', hone]) hl))

theorem staysExclusive_cmd {ls : Lines} (h : ls.atRest = true) (c : Byte) :
    staysExclusive (cmdPhase ls.dqDir c).prims ls = true := by
  rw [prims_cmdPhase]
  exact staysExclusive_latched h .out (.inl rfl) (byteOut_holdsLatches c)

theorem staysExclusive_addr {ls : Lines} (h : ls.atRest = true) (a : List Byte) :
    staysExclusive (addrPhase ls.dqDir a).prims ls = true := by
  rw [prims_addrPhase]
  exact staysExclusive_latched h .out (.inr rfl) (bytesOut_holdsLatches a)

theorem staysExclusive_dataOut {ls : Lines} (h : ls.atRest = true) (ds : List Byte) :
    staysExclusive (dataOutPhase ls.dqDir ds).prims ls = true := by
  obtain ⟨hc, _, _, hr⟩ := atRest_latches h
  rw [prims_dataOutPhase]
  exact staysExclusive_of_holdsLatches (by rw [List.all_append, busDir_holdsLatches, bytesOut_holdsLatches]; rfl) hr
    (by rw [hc]; rfl)

/-- A read strobe: RE# is low with both latches at 0, WE# high and the engine off the data lines. -/
theorem staysExclusive_byteIn {ls : Lines} (h : ls.atRest = true) (hd : ls.dqDir = .inp) (v : Byte) :
    staysExclusive (byteIn v) ls = true := by
  obtain ⟨hc, ha, hw, hr⟩ := atRest_latches h
  simp [byteIn, dataIn1, staysExclusive, Lines.exclusive, Lines.contended, Lines.after, Lines.event,
    Lines.setLevel, hc, ha, hw, hr, hd]

theorem staysExclusive_bytesIn {ls : Lines} (h : ls.atRest = true) (hd : ls.dqDir = .inp) (vs : List Byte) :
    staysExclusive (vs.flatMap byteIn) ls = true := by
  obtain ⟨_, _, _, hr⟩ := atRest_latches h
  induction vs with
  | nil => exact exclusive_of_atRest h
  | cons v vs ih =>
    rw [List.flatMap_cons]
    exact staysExclusive_append (staysExclusive_byteIn h hd v) (by rwa [byteIn_lines v ls hr])

theorem staysExclusive_dataIn {ls : Lines} (h : ls.atRest = true) (vs : List Byte) :
    staysExclusive (dataInPhase ls.dqDir vs).prims ls = true := by
  obtain ⟨hc, _, _, hr⟩ := atRest_latches h
  rw [prims_dataInPhase]
  refine staysExclusive_append (staysExclusive_of_holdsLatches (busDir_holdsLatches _ .inp) hr (by rw [hc]; rfl)) ?_
  rw [busDir_lines]
  exact staysExclusive_bytesIn (atRest_turned h .inp) (turned_dqDir ls .inp) vs

theorem staysExclusive_cycleRow {i : Instr} (hi : (encodeWord i).isSome = true) {ls : Lines} (h : ls.atRest = true) :
    staysExclusive (cycleRow ls.dqDir i).prims ls = true := by
  cases i with
  | cmdReadId | cmdReadSetup | cmdReadConfirm | cmdProgSetup | cmdProgConfirm | cmdEraseSetup | cmdEraseConfirm
  | cmdReadStatus => exact staysExclusive_cmd h _
  | idAddr | addr => exact staysExclusive_addr h _
  | dataW d => exact staysExclusive_dataOut h [d]
  | dataR d => exact staysExclusive_dataIn h [d]
  | _ => exact absurd hi Bool.false_ne_true

/-! ## Rows one after the other -/

/-- A row that, from lines at rest with DQDIR = `cur`, stays exclusive and ends with the lines at rest and DQDIR = `d`. -/
structure Exclusive (cur d : Dir) (row : Row) : Prop where
  rest : ∀ ls : Lines, ls.atRest = true → ls.dqDir = cur →
    (ls.afterAll row.prims).atRest = true ∧ (ls.afterAll row.prims).dqDir = d
  stays : ∀ ls : Lines, ls.atRest = true → ls.dqDir = cur → staysExclusive row.prims ls = true

theorem Exclusive.append {c d e : Dir} {a b : Row} (ha : Exclusive c d a) (hb : Exclusive d e b) :
    Exclusive c e (a ++ b) where
  rest ls hr hd := by
    obtain ⟨hr', hd'⟩ := ha.rest ls hr hd
    rw [prims_append, afterAll_append]
    exact hb.rest _ hr' hd'
  stays ls hr hd := by
    obtain ⟨hr', hd'⟩ := ha.rest ls hr hd
    rw [prims_append]
    exact staysExclusive_append (ha.stays ls hr hd) (hb.stays _ hr' hd')

theorem Exclusive.calls {c d : Dir} {row : Row} {q : Proc} {n i : Nat} (h : Exclusive c d row) :
    Exclusive c d (calls q n i row) := by
  refine ⟨?_, ?_⟩ <;> rw [prims_calls]
  exacts [h.rest, h.stays]

theorem exclusive_cmd (cur : Dir) {c : Byte} {i : Instr} (hc : decodeCommandByte c = .ok i) :
    Exclusive cur .out (cmdPhase cur c) :=
  ⟨(clean_cmd cur hc).rest, by rintro ls hr rfl; exact staysExclusive_cmd hr c⟩

theorem exclusive_addr (cur : Dir) (a : List Byte) : Exclusive cur .out (addrPhase cur a) :=
  ⟨(clean_addr cur a).rest, by rintro ls hr rfl; exact staysExclusive_addr hr a⟩

theorem exclusive_dataOut (cur : Dir) (ds : List Byte) : Exclusive cur .out (dataOutPhase cur ds) :=
  ⟨(clean_dataOut cur ds).rest, by rintro ls hr rfl; exact staysExclusive_dataOut hr ds⟩

theorem exclusive_dataIn (cur : Dir) {vs : List Byte} (hv : vs ≠ []) : Exclusive cur .inp (dataInPhase cur vs) :=
  ⟨(clean_dataIn cur hv).rest, by rintro ls hr rfl; exact staysExclusive_dataIn hr vs⟩

/-- A primitive that changes no line: it samples, counts, records or raises. -/
def Prim.still (p : Prim) : Prop := ∀ ls : Lines, ls.after p = ls

theorem still_of_samples {p : Prim} (h : p.samples = true) : p.still := by
  unfold Prim.samples at h
  split at h
  · exact fun _ => rfl
  · exact fun _ => rfl
  · exact fun _ => rfl
  · exact absurd h Bool.false_ne_true

theorem still_of_records {p : Prim} (h : p.records = true) : p.still := by
  cases p with
  | setIdRd | memWrite | setStatus => exact fun _ => rfl
  | _ => exact absurd h Bool.false_ne_true

theorem afterAll_still {ps : List Prim} (h : ∀ p ∈ ps, p.still) (ls : Lines) : ls.afterAll ps = ls := by
  induction ps with
  | nil => rfl
  | cons p ps ih =>
    obtain ⟨hp, hps⟩ := List.forall_mem_cons.1 h
    rw [afterAll_cons, hp ls, ih hps]

theorem staysExclusive_still {ps : List Prim} (h : ∀ p ∈ ps, p.still) {ls : Lines} (hl : ls.exclusive = true) :
    staysExclusive ps ls = true := by
  induction ps with
  | nil => exact hl
  | cons p ps ih =>
    obtain ⟨hp, hps⟩ := List.forall_mem_cons.1 h
    rw [staysExclusive, hp ls, hl, ih hps]
    rfl

theorem exclusive_of_still (cur : Dir) {row : Row} (h : ∀ p ∈ row.prims, p.still) : Exclusive cur cur row where
  rest ls hr hd := by
    rw [afterAll_still h]
    exact ⟨hr, hd⟩
  stays _ hr _ := staysExclusive_still h (exclusive_of_atRest hr)

/-- A wait samples and counts, and may raise. -/
theorem exclusive_wait (cur : Dir) (w : Wait) : Exclusive cur cur (waitReady w) := by
  have hsamples : ∀ {row : Row}, row.prims.all Prim.samples = true → Exclusive cur cur row := fun h =>
    exclusive_of_still cur fun p hp => still_of_samples (List.all_eq_true.1 h p hp)
  by_cases hw : w.fin = .timeout
  · obtain ⟨row, hrow, heq⟩ := waitReady_timeout hw
    rw [heq]
    exact (hsamples hrow).append (exclusive_of_still cur (List.forall_mem_singleton.2 fun _ => rfl))
  · exact hsamples (waitReady_samples hw)

/-- A row after which what was read is recorded. -/
theorem Exclusive.records {c d : Dir} {row : Row} (h : Exclusive c d row) (q : Proc) (n : Nat) {p : Prim}
    (hp : p.records = true) : Exclusive c d (row ++ stmt q n p) :=
  h.append (exclusive_of_still d (List.forall_mem_singleton.2 (still_of_records hp)))

/-- Wherever such a row stops, the lines are exclusive. -/
theorem Exclusive.row_next {s t : State} {d : Dir} {row : Row} {e : Env} (h : Exclusive s.lines.dqDir d row)
    (hr : s.lines.atRest = true) (ht : runRow row { s with env := e } = .next t) : t.lines.exclusive = true :=
  runRow_exclusive (s := { s with env := e }) (h.stays _ hr rfl) ht

/-! ## The five transactions -/

section
variable {s t : State}

theorem drawBytes_ne_nil {n : Nat} (hn : 0 < n) (e : Env) : (drawBytes n e).1 ≠ [] :=
  List.ne_nil_of_length_pos (by rwa [drawBytes_length])

theorem execReadId_exclusive (hr : s.lines.atRest = true) (ht : execReadId s = .next t) : t.lines.exclusive = true :=
  Exclusive.row_next ((((exclusive_cmd _ (i := .cmdReadId) rfl).calls.append (exclusive_addr .out _).calls).append
    (exclusive_dataIn .out (drawBytes_ne_nil (by decide) _)).calls).records _ _ rfl) hr ht

theorem execWritePage_exclusive {p : Nat} (hr : s.lines.atRest = true) (ht : execWritePage p s = .next t) :
    t.lines.exclusive = true :=
  Exclusive.row_next ((((exclusive_cmd _ (i := .cmdProgSetup) rfl).calls.append (exclusive_addr .out _).calls).append
    (exclusive_dataOut .out _).calls).append (exclusive_cmd .out (i := .cmdProgConfirm) rfl).calls) hr ht

theorem execEraseBlock_exclusive {b : Nat} (hr : s.lines.atRest = true) (ht : execEraseBlock b s = .next t) :
    t.lines.exclusive = true :=
  Exclusive.row_next (((exclusive_cmd _ (i := .cmdEraseSetup) rfl).calls.append (exclusive_addr .out _).calls).append
    (exclusive_cmd .out (i := .cmdEraseConfirm) rfl).calls) hr ht

theorem execReadStatus_exclusive (hr : s.lines.atRest = true) (ht : execReadStatus s = .next t) :
    t.lines.exclusive = true :=
  Exclusive.row_next (((exclusive_cmd _ (i := .cmdReadStatus) rfl).calls.append
    (exclusive_dataIn .out (List.cons_ne_nil _ [])).calls).records _ _ rfl) hr ht

theorem exclusive_readPageWait (cur : Dir) (p : Nat) (w : Wait) : Exclusive cur .out (readPageWait cur p w) :=
  (((exclusive_cmd cur (i := .cmdReadSetup) rfl).calls.append (exclusive_addr .out _).calls).append
    (exclusive_cmd .out (i := .cmdReadConfirm) rfl).calls).append (exclusive_wait .out w).calls

theorem execReadPage_exclusive {p : Nat} {x : Buf} (hr : s.lines.atRest = true) (ht : execReadPage p x s = .next t) :
    t.lines.exclusive = true := by
  have hwait := exclusive_readPageWait s.lines.dqDir p (drawWait s.cfg.busyLimit s.env)
  simp only [execReadPage] at ht
  split at ht
  · rw [readPageData, ← List.append_assoc] at ht
    exact ((hwait.append (exclusive_dataIn .out (drawBytes_ne_nil (by decide) _)).calls).records _ _ rfl).row_next hr ht
  · exact hwait.row_next hr ht
  · refine onReturn_keeps (P := fun u => u.lines.exclusive = true) (fun u hu => hwait.row_next hr hu) ?_ ht
    intro u hu hst
    cases hst
    exact hu

end

/-- Settles O52: from lines at rest, every point of a bus cycle's or a transaction's row is exclusive, and the row stops at
one of them. -/
theorem linesStayExclusive : Obligations.LinesStayExclusive := by
  intro i s t hi _ hr ht
  cases i with
  | readIdCmd | readFull | readData | writeFull | eraseBlocks => cases hi
  | readId => exact execReadId_exclusive hr ht
  | readPage p x => exact execReadPage_exclusive hr ht
  | writePage p => exact execWritePage_exclusive hr ht
  | eraseBlock b => exact execEraseBlock_exclusive hr ht
  | readStatus => exact execReadStatus_exclusive hr ht
  | _ =>
    rw [exec_cycle rfl] at ht
    exact runRow_exclusive (staysExclusive_cycleRow rfl hr) ht

end Sys2Proof.Machine
end

/-! PROOF. The write cycles and the transactions run undisturbed (41_transactions): each is a row of phases, and each phase
is used through its effect on a ready state. -/
section
namespace Sys2Proof.Machine

open Statements

/-! ## The words of the write cycles (30_encoding R91) -/

section

variable {ls : Lines} (v : Byte)

theorem writeCycle_command (hc : ls.cle = true) (ha : ls.ale = false) : ls.writeCycle = cmdWord ls.dq := by
  simp only [Lines.writeCycle, hc, ha]; rfl

theorem writeCycle_address (hc : ls.cle = false) (ha : ls.ale = true) : ls.writeCycle = addrWord ls.dq := by
  simp only [Lines.writeCycle, hc, ha]; rfl

theorem writeCycle_data (hc : ls.cle = false) (ha : ls.ale = false) : ls.writeCycle = writeWord ls.dq := by
  simp only [Lines.writeCycle, hc, ha]; rfl

/-! ## Lines driven by the engine -/

/-- The lines after a write phase: the data bus turned out, `v` the last byte driven. -/
def Lines.driven (ls : Lines) (v : Byte) : Lines := { ls.turned .out with dq := v }

@[simp] theorem driven_dqDir : (ls.driven v).dqDir = .out := turned_dqDir ls .out
@[simp] theorem driven_cle : (ls.driven v).cle = ls.cle := turned_cle ls .out
@[simp] theorem driven_ale : (ls.driven v).ale = ls.ale := turned_ale ls .out
@[simp] theorem driven_we : (ls.driven v).we = ls.we := turned_we ls .out
@[simp] theorem driven_re : (ls.driven v).re = ls.re := turned_re ls .out

/-- The bus turns once, and the last byte driven stays. -/
@[simp] theorem driven_driven (w : Byte) : (ls.driven v).driven w = ls.driven w := by
  simp only [Lines.driven, Lines.turned]
  split <;> simp_all

/-- A command phase leaves CLE as idle lines have it. -/
theorem driven_cle_low (hc : ls.cle = false) : { ls.turned .out with dq := v, cle := false } = ls.driven v := by
  rw [Lines.driven, ← hc, ← turned_cle ls .out]

/-- An address phase leaves ALE as idle lines have it. -/
theorem driven_ale_low (ha : ls.ale = false) : { ls.turned .out with dq := v, ale := false } = ls.driven v := by
  rw [Lines.driven, ← ha, ← turned_ale ls .out]

end

/-! ## What a phase leaves of a ready state -/

/-- `s` after write phases that leave `v` on the data lines, with the pin events `evs` and the words `ws`. -/
def State.driving (s : State) (v : Byte) (evs : List PinEvent) (ws : List CycleWord) : State :=
  { s with lines := s.lines.driven v, pinLog := evs.reverse ++ s.pinLog, cycleLog := ws.reverse ++ s.cycleLog }

/-- `s` after the phase DataIn of the bytes `vs`. -/
def State.sampling (s : State) (vs : List Byte) : State :=
  { s with lines := s.lines.turned .inp, din := vs.getLastD s.din, written := { s.written with din := true },
           pinLog := (dataInEvents s.lines.dqDir vs).reverse ++ s.pinLog,
           cycleLog := (vs.map readWord).reverse ++ s.cycleLog }

theorem driving_driving (s : State) (v w : Byte) (es fs : List PinEvent) (vs ws : List CycleWord) :
    (s.driving v es vs).driving w fs ws = s.driving w (es ++ fs) (vs ++ ws) := by
  simp [State.driving]

theorem Ready.driving {s : State} (hs : Ready s) (v : Byte) (evs : List PinEvent) (ws : List CycleWord) :
    Ready (s.driving v evs ws) :=
  ⟨hs.running, hs.calm, hs.undriven, (driven_cle v).trans hs.cle, (driven_ale v).trans hs.ale,
    (driven_we v).trans hs.we, (driven_re v).trans hs.re⟩

theorem Ready.afterCmd_eq {s : State} (hs : Ready s) (c : Byte) :
    afterCmd c s = s.driving c (cmdEvents s.lines.dqDir c) [cmdWord c] := by
  rw [afterCmd, driven_cle_low c hs.cle]
  rfl

theorem Ready.afterAddr_eq {s : State} (hs : Ready s) (a : Byte) :
    afterAddr a s = s.driving a (addrEvents s.lines.dqDir [a]) [addrWord a] := by
  rw [afterAddr, driven_ale_low a hs.ale]
  rfl

/-- DataIn (40_bus_cycles R142): one read word for each byte. -/
theorem Ready.applyAll_dataIn {s : State} (hs : Ready s) {vs : List Byte} (hv : vs ≠ []) :
    applyAll (dataInPhase s.lines.dqDir vs).prims s = s.sampling vs := by
  have hword : s.lines.readCycle = readWord := funext fun v => readCycle_data hs.cle hs.ale v
  rw [applyAll_dataInPhase s vs hs.re hv, hword]
  rfl

/-! ## Rows of write phases -/

/-- A row of write phases from DQDIR = `cur`: on a ready state it turns the bus out, leaves `v` on the data lines, performs
the pin events `evs` and sends the words `ws`, and does nothing else. -/
structure Drives (cur : Dir) (v : Byte) (evs : List PinEvent) (ws : List CycleWord) (row : Row) : Prop where
  quiet : row.prims.all Prim.quiet = true
  turns : Turns cur .out row
  effect : ∀ s : State, Ready s → s.lines.dqDir = cur → applyAll row.prims s = s.driving v evs ws

theorem Drives.append {cur : Dir} {v w : Byte} {es fs : List PinEvent} {vs ws : List CycleWord} {a b : Row}
    (ha : Drives cur v es vs a) (hb : Drives .out w fs ws b) : Drives cur w (es ++ fs) (vs ++ ws) (a ++ b) where
  quiet := by rw [prims_append, List.all_append, ha.quiet, hb.quiet]; rfl
  turns := ha.turns.append hb.turns
  effect s hs hd := by
    rw [prims_append, applyAll_append, ha.effect s hs hd, hb.effect _ (hs.driving v es vs) (driven_dqDir v),
      driving_driving]

theorem Drives.calls {cur : Dir} {v : Byte} {evs : List PinEvent} {ws : List CycleWord} {row : Row} {q : Proc} {n i : Nat}
    (h : Drives cur v evs ws row) : Drives cur v evs ws (calls q n i row) where
  quiet := by rw [prims_calls, h.quiet]
  turns := h.turns.calls
  effect := by rw [prims_calls]; exact h.effect

/-- Cmd(c) (40_bus_cycles R138). -/
theorem drives_cmd (cur : Dir) (c : Byte) : Drives cur c (cmdEvents cur c) [cmdWord c] (cmdPhase cur c) where
  quiet := cmdPhase_quiet cur c
  turns := turns_cmd cur c
  effect := by
    rintro s hs rfl
    have hword : ({ s.lines with dq := c, cle := true } : Lines).writeCycle = cmdWord c := writeCycle_command rfl hs.ale
    rw [applyAll_cmdPhase s c hs.we, hword]
    exact hs.afterCmd_eq c

/-- Addr(a) (40_bus_cycles R139): one address word for each byte, ALE asserted across all of them. -/
theorem drives_addr (cur : Dir) {a : List Byte} {v : Byte} (ha : a.getLast? = some v) :
    Drives cur v (addrEvents cur a) (a.map addrWord) (addrPhase cur a) where
  quiet := addrPhase_quiet cur a
  turns := turns_addr cur a
  effect := by
    rintro s hs rfl
    have hword : (fun b => ({ s.lines with dq := b, ale := true } : Lines).writeCycle) = addrWord :=
      funext fun b => writeCycle_address hs.cle rfl
    rw [applyAll_addrPhase s a hs.we, driven_ale_low _ hs.ale, hword, List.getLastD_eq_getLast?, ha]
    rfl

/-- DataOut (40_bus_cycles R140): one data word for each byte. -/
theorem drives_dataOut (cur : Dir) {ds : List Byte} {v : Byte} (hd : ds.getLast? = some v) :
    Drives cur v (dataOutEvents cur ds) (ds.map writeWord) (dataOutPhase cur ds) where
  quiet := dataOutPhase_quiet cur ds
  turns := turns_dataOut cur ds
  effect := by
    rintro s hs rfl
    have hword : (fun b => ({ s.lines with dq := b } : Lines).writeCycle) = writeWord :=
      funext fun b => writeCycle_data hs.cle hs.ale
    rw [applyAll_dataOutPhase s ds hs.we, hword, List.getLastD_eq_getLast?, hd]
    rfl

theorem Drives.run {s : State} {v : Byte} {evs : List PinEvent} {ws : List CycleWord} {row : Row} (hs : Ready s)
    (h : Drives s.lines.dqDir v evs ws row) : runRow row s = .next (s.driving v evs ws) := by
  rw [hs.row_next h.quiet h.turns, h.effect s hs rfl]

/-! ## The write cycles (41_transactions R170 to R179) -/

theorem runCmd_ready {s : State} (hs : Ready s) (c : Byte) : runCmd c s = .next (afterCmd c s) := by
  rw [runCmd, (drives_cmd _ c).run hs, hs.afterCmd_eq]

theorem runAddr_ready {s : State} (hs : Ready s) (a : Byte) : runAddr a s = .next (afterAddr a s) := by
  rw [runAddr, (drives_addr _ rfl).run hs, hs.afterAddr_eq]
  rfl

/-- Settles O9: each of the eight is the phase Cmd with its byte. -/
theorem commandCyclesSendTheirByte : Obligations.CommandCyclesSendTheirByte := fun _ hs =>
  ⟨runCmd_ready hs _, runCmd_ready hs _, runCmd_ready hs _, runCmd_ready hs _, runCmd_ready hs _, runCmd_ready hs _,
    runCmd_ready hs _, runCmd_ready hs _⟩

/-- Settles O10: Addr with one byte, and DataOut with one byte. -/
theorem addressAndDataCyclesSendTheirByte : Obligations.AddressAndDataCyclesSendTheirByte := fun _ a _ hs =>
  ⟨runAddr_ready hs a, runAddr_ready hs 0x00#8, (drives_dataOut _ rfl).run hs⟩

/-! ## eraseBlock and writePage (41_transactions R190, R192) -/

theorem drives_eraseBlock (cur : Dir) (b : Nat) :
    Drives cur 0xD0#8 (cmdEvents cur 0x60#8 ++ addrEvents .out (blockAddr b) ++ cmdEvents .out 0xD0#8)
      ([cmdWord 0x60#8] ++ (blockAddr b).map addrWord ++ [cmdWord 0xD0#8]) (eraseBlockRow cur b) :=
  ((drives_cmd cur _).calls.append (drives_addr .out rfl).calls).append (drives_cmd .out _).calls

theorem execEraseBlock_alias (b j : Nat) : execEraseBlock (b + 2 ^ 18 * j) = execEraseBlock b := by
  funext s
  rw [execEraseBlock, execEraseBlock, eraseBlockRow, eraseBlockRow, blockAddr_alias]

/-- Settles O19: three write phases, in which the index enters by the three bytes of BlockAddr. -/
theorem eraseBlockSendsFiveCycles : Obligations.EraseBlockSendsFiveCycles := fun s b hs =>
  ⟨(drives_eraseBlock _ b).run hs, fun j => congrFun (execEraseBlock_alias b j) s⟩

theorem drives_writePage (cur : Dir) (p : Nat) {bs : List Byte} (hb : bs ≠ []) :
    Drives cur 0x10#8 (cmdEvents cur 0x80#8 ++ addrEvents .out (pageAddr p) ++ dataOutEvents .out bs ++
      cmdEvents .out 0x10#8) (writePageWords p bs) (writePageRow cur p bs) :=
  (((drives_cmd cur _).calls.append (drives_addr .out rfl).calls).append
    (drives_dataOut .out (List.getLast?_eq_some_getLast hb)).calls).append (drives_cmd .out _).calls

theorem readBytes_getElem? (m : Memory) {n k : Nat} (hk : k < n) (i : Nat) :
    (Memory.readBytes m i n)[k]? = some (Memory.read m (i + k)) := by
  induction n generalizing i k with
  | zero => exact absurd hk (Nat.not_lt_zero k)
  | succ n ih =>
    cases k with
    | zero => rfl
    | succ k =>
      rw [Memory.readBytes, List.getElem?_cons_succ, ih (Nat.lt_of_succ_lt_succ hk), Nat.add_right_comm, Nat.add_assoc]

/-- The command word and the 5 address words come first, then the data words in the order of the bytes. -/
theorem writePageWords_data (p : Nat) {bs : List Byte} {k : Nat} {v : Byte} (h : bs[k]? = some v) :
    (writePageWords p bs)[6 + k]? = some (writeWord v) := by
  have hhead : ([cmdWord 0x80#8] ++ (pageAddr p).map addrWord).length = 6 := rfl
  have hlen : k < bs.length := (List.getElem?_eq_some_iff.1 h).1
  rw [writePageWords, List.append_assoc, List.getElem?_append_right (by omega), hhead, Nat.add_sub_cancel_left,
    List.getElem?_append_left (by rwa [List.length_map]), List.getElem?_map, h]
  rfl

/-- Settles O18: four write phases, the third of which sends the page of BUF_A. -/
theorem writePageSendsBufA : Obligations.WritePageSendsBufA := by
  intro s p hs
  have hne : s.bufA.page ≠ [] := List.ne_nil_of_length_pos (by rw [page_length]; decide)
  refine ⟨(drives_writePage _ p hne).run hs, page_length _, rfl, fun i hi => writePageWords_data p ?_⟩
  rw [Memory.page, readBytes_getElem? _ hi, Nat.zero_add]

end Sys2Proof.Machine
end

/-! PROOF. The reading transactions run undisturbed (41_transactions R180, R185, R195): write phases, in a page read the
wait, then DataIn and the write of one register or buffer. -/
section
namespace Sys2Proof.Machine

open Statements

/-! ## A row taken phase by phase -/

/-- An undisturbed row before another one: all its primitives are applied. -/
theorem Ready.row_append {s : State} {d : Dir} {a b : Row} (hs : Ready s) (hq : a.prims.all Prim.quiet = true)
    (ht : Turns s.lines.dqDir d a) : runRow (a ++ b) s = runRow b (applyAll a.prims s) :=
  runRow_quiet_append hs.running hs.calm hs.undriven hq (ht _ hs.we hs.re rfl).1

theorem Drives.run_append {s : State} {v : Byte} {evs : List PinEvent} {ws : List CycleWord} {a b : Row} (hs : Ready s)
    (h : Drives s.lines.dqDir v evs ws a) : runRow (a ++ b) s = runRow b (s.driving v evs ws) := by
  rw [hs.row_append h.quiet h.turns, h.effect s hs rfl]

/-- A primitive that an undisturbed run performs on any lines: no guard stops it there, and it does not end the run. -/
structure Prim.Unguarded (p : Prim) : Prop where
  quiet : p.quiet = true
  passes : ∀ ls : Lines, primGuard p ls false = none

/-- DataIn from DQDIR = OUT, and then the statement that records what it sampled. -/
theorem Ready.run_dataIn {s : State} (hs : Ready s) (hd : s.lines.dqDir = .out) {vs : List Byte} (hv : vs ≠ []) {p : Prim}
    (hp : p.Unguarded) (q r : Proc) (n i m : Nat) :
    runRow (calls q n i (dataInPhase .out vs) ++ stmt r m p) s = .next (applyPrim p (s.sampling vs)) := by
  have hrun : (applyPrim p (s.sampling vs)).outcome = .running := (quiet_outcome hp.quiet _).trans hs.running
  have hturns : Turns s.lines.dqDir .inp (dataInPhase .out vs) := by rw [hd]; exact turns_dataIn .out vs
  rw [hs.row_append (by rw [prims_calls]; exact dataInPhase_quiet _ _) hturns.calls, prims_calls, ← hd,
    hs.applyAll_dataIn hv]
  exact runRow_cons_calm hs.running hs.calm hs.undriven (hp.passes _) hrun

/-! ## readId and readStatus (41_transactions R180, R195) -/

/-- Settles O14: Cmd and Addr, then DataIn of five bytes, which ID_RD takes in strobe order. -/
theorem readIdSamplesFiveBytes : Obligations.ReadIdSamplesFiveBytes := by
  intro s hs
  have hopen : Drives s.lines.dqDir 0x00#8 (cmdEvents s.lines.dqDir 0x90#8 ++ addrEvents .out [0x00#8])
      ([cmdWord 0x90#8] ++ [addrWord 0x00#8])
      (calls .readId 0 0 (cmdPhase s.lines.dqDir 0x90#8) ++ calls .readId 1 0 (addrPhase .out [0x00#8])) :=
    (drives_cmd _ _).calls.append (drives_addr .out rfl).calls
  change runRow (readIdRow s.lines.dqDir (drawBytes ID_LEN s.env).1) { s with env := (drawBytes ID_LEN s.env).2 } = _
  have hlen := drawBytes_length ID_LEN s.env
  generalize drawBytes ID_LEN s.env = d at hlen ⊢
  obtain ⟨bs, e⟩ := d
  have hne : bs ≠ [] := List.ne_nil_of_length_pos (by rw [hlen]; decide)
  have hs' : Ready { s with env := e } := hs.draws e
  rw [readIdRow, List.append_assoc, hopen.run_append hs',
    (hs'.driving _ _ _).run_dataIn (driven_dqDir _) hne ⟨rfl, fun _ => rfl⟩]
  match bs, hlen with
  | [b0, b1, b2, b3, b4], _ =>
    simp [applyPrim, State.sampling, State.driving, Lines.driven, afterReadId, readIdEvents, readIdWords, DevId.ofBytes]

/-- Settles O20: Cmd, then DataIn of one byte, which STATUS takes whole. -/
theorem readStatusSamplesOneByte : Obligations.ReadStatusSamplesOneByte := by
  refine fun s hs => ⟨?_, rfl⟩
  change runRow (readStatusRow s.lines.dqDir (drawByte s.env).1) { s with env := (drawByte s.env).2 } = _
  have hs' : Ready { s with env := (drawByte s.env).2 } := hs.draws _
  rw [readStatusRow, List.append_assoc, (drives_cmd _ _).calls.run_append hs',
    (hs'.driving _ _ _).run_dataIn (driven_dqDir _) (List.cons_ne_nil _ _) ⟨rfl, fun _ => rfl⟩]
  simp [applyPrim, State.sampling, State.driving, Lines.driven, afterReadStatus]

/-! ## readPage (41_transactions R185) -/

theorem drives_readPageOpen (cur : Dir) (p : Nat) :
    Drives cur 0x30#8 (readPageOpenEvents cur p) (readPageOpenWords p) (readPageOpen cur p) :=
  ((drives_cmd cur _).calls.append (drives_addr .out rfl).calls).append (drives_cmd .out _).calls

/-- `s` after a wait, or the part of it that has run: POLLS is `n`, the pin events are `evs`. -/
def State.waited (s : State) (n : Nat) (evs : List PinEvent) : State :=
  { s with polls := n, pinLog := evs.reverse ++ s.pinLog }

section

variable {s : State} (hs : Ready s) {w : Wait} (q : Proc) (n i : Nat)
include hs

theorem Ready.waited (k : Nat) (evs : List PinEvent) : Ready (s.waited k evs) := hs.congr rfl rfl rfl rfl

/-- A wait called by a procedure that then goes on. -/
theorem Ready.run_wait_ready (hw : w.fin = .ready) (b : Row) : runRow (calls q n i (waitReady w) ++ b) s =
    runRow b (s.waited w.busy (busyEvents w.busy ++ [PinEvent.readLevel .rb true])) := by
  have hnot : w.fin ≠ .timeout := by rw [hw]; exact WaitEnd.noConfusion
  rw [hs.row_append (by rw [prims_calls]; exact quiet_of_samples (waitReady_samples hnot)) (turns_wait _ w).calls,
    prims_calls, applyAll_waitReady_ready hw]
  rfl

/-- A wait that raises BusyTimeout, PC staying at the raise in the procedure called (60_exceptions R265). -/
theorem Ready.run_wait_timeout (hw : w.fin = .timeout) : runRow (calls q n i (waitReady w)) s =
    .next ((raiseFault .busyTimeout (.polls w.busy)
      (s.waited w.busy (busyEvents (w.busy - 1) ++ [PinEvent.readLevel .rb false]))).standing
        [.stmt .waitReady 3 0, .stmt q n i]) := by
  obtain ⟨row, hsamples, hrow⟩ := waitReady_timeout hw
  have hcalls : calls q n i (waitReady w) =
      calls q n i row ++ [(.raise .busyTimeout (.polls w.busy), [.stmt .waitReady 3 0, .stmt q n i])] := by
    rw [hrow, calls, List.map_append]; rfl
  rw [hcalls, hs.row_ends (by rw [prims_calls]; exact quiet_of_samples hsamples) (hcalls ▸ (turns_wait _ w).calls)
    fun _ => RunOutcome.noConfusion, ← hcalls, prims_calls, applyAll_waitReady_timeout hw]
  rfl

/-- The row of a wait that never ends runs to where its loop goes on. -/
theorem Ready.run_wait_forever (hw : w.fin = .forever) : runRow (calls q n i (waitReady w)) s =
    .next (s.waited w.busy (busyEvents w.busy)) := by
  have hnot : w.fin ≠ .timeout := by rw [hw]; exact WaitEnd.noConfusion
  rw [hs.row_next (by rw [prims_calls]; exact quiet_of_samples (waitReady_samples hnot)) (turns_wait _ w).calls,
    prims_calls]
  simp only [waitReady, hw]
  rw [applyAll_polled]
  rfl

end

section

variable {s : State} (hs : Ready s) (p : Nat) (x : Buf)
include hs

theorem execReadPage_ready (hw : (drawWait s.cfg.busyLimit s.env).fin = .ready) : execReadPage p x s =
    .next (afterReadPage p x (drawWait s.cfg.busyLimit s.env).busy
      (drawBytes PAGE_SIZE (drawWait s.cfg.busyLimit s.env).env).1
      { s with env := (drawBytes PAGE_SIZE (drawWait s.cfg.busyLimit s.env).env).2 }) := by
  simp only [execReadPage, hw]
  have hlen := drawBytes_length PAGE_SIZE (drawWait s.cfg.busyLimit s.env).env
  generalize drawBytes PAGE_SIZE (drawWait s.cfg.busyLimit s.env).env = d at hlen ⊢
  obtain ⟨bs, e⟩ := d
  have hne : bs ≠ [] := List.ne_nil_of_length_pos (by rw [hlen]; decide)
  have hs' : Ready { s with env := e } := hs.draws e
  have hfits : (Prim.memWrite x 0 bs).Unguarded := ⟨rfl, fun _ => if_pos (by rw [Nat.zero_add]; exact hlen.le)⟩
  rw [readPageWait, List.append_assoc, (drives_readPageOpen _ p).run_append hs',
    (hs'.driving _ _ _).run_wait_ready _ _ _ hw, readPageData,
    ((hs'.driving _ _ _).waited _ _).run_dataIn (driven_dqDir _) hne hfits]
  cases x <;>
    simp [applyPrim, State.sampling, State.waited, State.driving, Lines.driven, afterReadPage, withPage]

theorem execReadPage_timeout (hw : (drawWait s.cfg.busyLimit s.env).fin = .timeout) : execReadPage p x s =
    .next (afterReadPageTimeout p (drawWait s.cfg.busyLimit s.env).busy
      { s with env := (drawWait s.cfg.busyLimit s.env).env }) := by
  have hs' := hs.draws (drawWait s.cfg.busyLimit s.env).env
  simp only [execReadPage, hw]
  rw [readPageWait, (drives_readPageOpen _ p).run_append hs', (hs'.driving _ _ _).run_wait_timeout _ _ _ hw]
  simp [raiseFault, State.standing, State.waited, State.driving, Lines.driven, afterReadPageTimeout, FatalFault.code]

theorem execReadPage_forever (hw : (drawWait s.cfg.busyLimit s.env).fin = .forever) : execReadPage p x s =
    .next (inReadPageWait p (drawWait s.cfg.busyLimit s.env).busy
      { s with env := (drawWait s.cfg.busyLimit s.env).env }) := by
  have hs' := hs.draws (drawWait s.cfg.busyLimit s.env).env
  simp only [execReadPage, hw]
  rw [readPageWait, (drives_readPageOpen _ p).run_append hs', (hs'.driving _ _ _).run_wait_forever _ _ _ hw,
    onReturn_returned (pc := s.pc) rfl ((hs'.driving _ _ _).waited _ _).running rfl]
  simp [State.standing, waitLoop, State.waited, State.driving, Lines.driven, inReadPageWait]

end

theorem execReadPage_alias (p j : Nat) (x : Buf) : execReadPage (p + 2 ^ 24 * j) x = execReadPage p x := by
  funext s
  simp only [execReadPage, readPageWait, readPageOpen, pageAddr_alias]

/-- Settles O15: the three ways the wait goes on; the index enters by the bytes of PageAddr. -/
theorem readPageFillsItsBuffer : Obligations.ReadPageFillsItsBuffer := fun s p x hs =>
  ⟨execReadPage_ready hs p x, execReadPage_timeout hs p x, execReadPage_forever hs p x,
    fun j => congrFun (execReadPage_alias p j x) s⟩

end Sys2Proof.Machine
end

/-! PROOF. The sequencer's statements in an undisturbed run (42_operations R210 to R256): what each label's function
is in each of its branches, and from it the whole next state of the step at the labels that call no transaction. -/
section
namespace Sys2Proof.Machine

/-! ## What a label's function is, branch by branch -/

section

variable {s : State}

theorem runS1_silent (h : s.cmd = .readId ∨ s.cmd = .eraseBlocks) : runS1 s = doThen [] (toLabel .s2) s := by
  rcases h with h | h <;> simp [runS1, h]

theorem runS1_opensInput (h : s.cmd = .writeFull) (hio : (drawIo s.env).1 = true) :
    runS1 s = doThen [] (toLabel .s2) { s with env := (drawIo s.env).2 } := by simp [runS1, h, hio]

theorem runS1_noInput (h : s.cmd = .writeFull) (hio : (drawIo s.env).1 = false) :
    runS1 s = raiseHostIo [] { s with env := (drawIo s.env).2 } := by simp [runS1, h, hio]

theorem runS1_noOutput (h : s.cmd = .readFull ∨ s.cmd = .readData) (hio : (drawIo s.env).1 = false) :
    runS1 s = raiseHostIo [] { s with env := (drawIo s.env).2 } := by rcases h with h | h <;> simp [runS1, h, hio]

theorem runS1_noBadFile (h : s.cmd = .readFull ∨ s.cmd = .readData) (hio : (drawIo s.env).1 = true)
    (hbad : (drawIo (drawIo s.env).2).1 = false) :
    runS1 s = raiseHostIo [.openSink] { s with env := (drawIo (drawIo s.env).2).2 } := by
  rcases h with h | h <;> simp [runS1, h, hio, hbad]

theorem runS1_opensOutput (h : s.cmd = .readFull ∨ s.cmd = .readData) (hio : (drawIo s.env).1 = true)
    (hbad : (drawIo (drawIo s.env).2).1 = true) :
    runS1 s = doThen [.openSink] (toLabel .s2) { s with env := (drawIo (drawIo s.env).2).2 } := by
  rcases h with h | h <;> simp [runS1, h, hio, hbad]

theorem runS5_continue (h : s.cmd ≠ .readId) (hg : (drawGate s.env).1 = true) :
    runS5 s = doThen [] (toLabel .s6) { s with env := (drawGate s.env).2 } := by simp [runS5, h, hg]

theorem runS5_abort (h : s.cmd ≠ .readId) (hg : (drawGate s.env).1 = false) :
    runS5 s = runPrims [.decline] { s with env := (drawGate s.env).2 } := by simp [runS5, h, hg]

theorem runI3_drift (h : s.idRd ≠ s.idCache) : runI3 s = doThen [] (toLabel .i1) s := by
  have hdrift : conditionAt .i3 s = some .idDrift := if_pos (bne_iff_ne.2 h)
  simp [runI3, hdrift]

theorem runI3_same (h : s.idRd = s.idCache) : runI3 s = doThen [] toCaller s := by
  simp [runI3, conditionAt, (drift_eq_false_iff s).2 h]

theorem runP6_match (h : s.pagesMatch = true) : runP6 s = doThen [] (toLabel .p8) s := by
  simp [runP6, conditionAt, h]

theorem runP6_mismatch (h : ¬s.pagesMatch = true) : runP6 s = doThen [] (toLabel .p7) s := by
  simp [runP6, conditionAt, h]

theorem runP7_retries (h : s.retry < 5) :
    runP7 s = doThen [.setRetry (s.retry + 1), .report (.retry .read s.unit (s.retry + 1))] (toLabel .p2) s := by
  simp [runP7, conditionAt, h]

theorem runP7_logs (h : s.retry = 5) (hio : (drawIo s.env).1 = true) :
    runP7 s = doThen [.logBad s.unit, .report (.giveUp .read s.unit)] (toLabel .p8)
      { s with env := (drawIo s.env).2 } := by
  simp only [runP7, conditionAt, h, hio]
  rfl

theorem runP7_noLog (h : s.retry = 5) (hio : (drawIo s.env).1 = false) :
    runP7 s = raiseHostIo [] { s with env := (drawIo s.env).2 } := by
  simp only [runP7, conditionAt, h, hio]
  rfl

theorem runP8_appends (hio : (drawIo s.env).1 = true) :
    runP8 s = doThen [.sinkAppend (s.bufA.readBytes 0 (recordLen s.includeSpare))] (toLabel .p9)
      { s with env := (drawIo s.env).2 } := by simp [runP8, hio]

theorem runP8_noAppend (hio : (drawIo s.env).1 = false) :
    runP8 s = raiseHostIo [] { s with env := (drawIo s.env).2 } := by simp [runP8, hio]

theorem statusError_retries {here again done : Label} {kind : Kind} (hl : here ∈ [Label.w8, .e7]) (h : s.retry < 5) :
    statusError here kind again done s =
      doThen [.setRetry (s.retry + 1), .report (.retry kind s.unit (s.retry + 1))] (toLabel again) s := by
  simp only [List.mem_cons, List.not_mem_nil, or_false] at hl
  rcases hl with rfl | rfl <;> simp [statusError, conditionAt, h]

theorem statusError_givesUp {here again done : Label} {kind : Kind} (hl : here ∈ [Label.w8, .e7]) (h : s.retry = 5) :
    statusError here kind again done s =
      doThen [.logFail kind s.unit, .report (.giveUp kind s.unit)] (toLabel done) s := by
  simp only [List.mem_cons, List.not_mem_nil, or_false] at hl
  rcases hl with rfl | rfl <;> simp [statusError, conditionAt, h]

theorem runW1_reads (h : s.k < s.count) (hio : (drawIo s.env).1 = true) :
    runW1 s = doThen [.setRecord (some (sourceRead s.source (s.k * PAGE_SIZE) PAGE_SIZE))] (toLabel .w2)
      { s with env := (drawIo s.env).2 } := by simp [runW1, h, hio]

theorem runW1_fails (h : s.k < s.count) (hio : (drawIo s.env).1 = false) :
    runW1 s = doThen [.setRecord none] (toLabel .w2) { s with env := (drawIo s.env).2 } := by simp [runW1, h, hio]

theorem runW2_fills {r : List Byte} (h : s.record = some r) (hr : PAGE_SIZE ≤ r.length) :
    runW2 s = doThen [.memWrite .a 0 r, .setRetry 0] (toLabel .w3) s := by simp [runW2, h, Nat.not_lt.2 hr]

theorem runW2_short {r : List Byte} (h : s.record = some r) (hr : r.length < PAGE_SIZE) :
    runW2 s = raiseHostIo [] s := by simp [runW2, h, hr]

theorem runW2_failed (h : s.record = none) : runW2 s = raiseHostIo [] s := by simp [runW2, h]

end

/-- MATCH is agreement at every offset of the page (42_operations R224). -/
theorem pagesMatch_iff (s : State) :
    s.pagesMatch = true ↔ ∀ a, a < 2112 → Memory.read s.bufA a = Memory.read s.bufB a := by
  rw [State.pagesMatch, beq_iff_eq]
  refine ⟨fun h a ha => ?_, fun h => readBytes_eq_of_read _ _ fun a _ ha => h a (by omega)⟩
  have hread : ∀ m : Memory, m.page[a]? = some (Memory.read m a) := fun m => by
    rw [Memory.page, readBytes_getElem? m ha, Nat.zero_add]
  exact Option.some.inj (by rw [← hread, ← hread, h])

/-- Quiet primitives and then a fatal fault, undisturbed. -/
theorem runPrims_append_raise {pre : List Prim} {s : State} (hr : s.outcome = .running) (hc : s.interruptIn = none)
    (hd : s.driveIn = none) (hq : pre.all Prim.quiet = true) (hg : guardsPass pre s.lines = true) (f : FatalFault)
    (info : FaultInfo) : runPrims (pre ++ [.raise f info]) s = .next (raiseFault f info (applyAll pre s)) := by
  rw [runPrims, List.map_append, runRow_quiet_append hr hc hd (by rwa [prims_own]) (by rwa [prims_own]), prims_own]
  exact runPrims_raise ((applyAll_outcome pre s hq).trans hr) ((applyAll_interruptIn pre s).trans hc)
    ((applyAll_driveIn pre s).trans hd) f info []

end Sys2Proof.Machine

namespace Sys2Proof.Statements

open Machine

/-! ## The step at a label -/

section

variable {s : State} {l : Label} {rest : List Pos}

theorem At.step_eq (ha : At l rest s) : step s = runLabel l s :=
  step_label ha.running ha.owned ha.unplaced ha.pc

/-- A statement that performs the primitives `ps` and then moves PC. -/
theorem At.step_doThen (ha : At l rest s) (hu : Undisturbed s) {ps : List Prim} {next : List Pos → List Pos} {e : Env}
    (h : runLabel l s = doThen ps next { s with env := e }) (hq : ps.all Prim.quiet = true)
    (hg : guardsPass ps s.lines = true) :
    step s = .next { applyAll ps { s with env := e } with pc := next (.lab l :: rest) } := by
  rw [ha.step_eq, h, doThen_next (s := { s with env := e }) ha.running hu.calm hu.undriven hq hg, ← ha.pc]

/-- The same where no answer of the environment is drawn. -/
theorem At.step_own (ha : At l rest s) (hu : Undisturbed s) {ps : List Prim} {next : List Pos → List Pos}
    (h : runLabel l s = doThen ps next s) (hq : ps.all Prim.quiet = true) (hg : guardsPass ps s.lines = true) :
    step s = .next { applyAll ps s with pc := next (.lab l :: rest) } := ha.step_doThen hu (e := s.env) h hq hg

/-- A statement that performs the primitives `pre` and then raises HostIoError (60_exceptions R264). -/
theorem At.step_hostIo (ha : At l rest s) (hu : Undisturbed s) {pre : List Prim} {e : Env}
    (h : runLabel l s = raiseHostIo pre { s with env := e }) (hq : pre.all Prim.quiet = true)
    (hg : guardsPass pre s.lines = true) :
    ∃ text, step s = .next (raiseFault .hostIoError (.message text)
      (applyAll pre { s with env := { e with draws := e.draws + 1 } })) :=
  ⟨Config.hostMessage e.draws, by
    rw [ha.step_eq, h]
    exact runPrims_append_raise (s := { s with env := { e with draws := e.draws + 1 } }) ha.running hu.calm hu.undriven
      hq hg _ _⟩

/-- Past S2 no state at a label has DQ driven while RE# is 0 (10_state R25). -/
theorem At.not_contended (ha : At l rest s) (hl : l ∉ [Label.s1, .s2]) : s.lines.contended = false := by
  have hset : s.linesSet = true := by
    simp only [List.mem_cons, List.not_mem_nil, or_false, not_or] at hl
    simp [State.linesSet, ha.pc, hl.1, hl.2]
  simpa [State.contends, hset] using (Bool.or_eq_false_iff.1 ha.owned).2

/-- A run that goes on past S2 on the same lines stands at the label its PC names. -/
theorem At.move {t : State} {l' : Label} {rest' : List Pos} (ha : At l rest s) (hu : Undisturbed s)
    (hl : l ∉ [Label.s1, .s2]) (hr : t.outcome = s.outcome) (hp : t.placed = s.placed) (hd : t.driveIn = s.driveIn)
    (hlines : t.lines = s.lines) (hpc : t.pc = .lab l' :: rest') : At l' rest' t where
  running := hr.trans ha.running
  unplaced := hp.trans ha.unplaced
  pc := hpc
  owned := by
    simp [State.contends, chipContends_undriven (hd.trans hu.undriven), hlines, ha.not_contended hl]

end

/-! ## S0 (42_operations R210, R212) -/

theorem hostCommand_started {cmd : Cmd} {d f c : Nat} {spare : Bool} {path : Token} {s : State} (hu : Undisturbed s)
    (h : cmd = .readId ∨ 1 ≤ c) :
    ∃ t, hostCommand cmd d f c spare path s = .next t ∧ Started s cmd d f c spare path t :=
  ⟨_, hostCommand_loads hu.calm hu.undriven h,
    ⟨rfl, rfl, rfl, rfl, rfl, rfl⟩, ⟨rfl, rfl, rfl, rfl⟩, ⟨rfl, rfl, rfl⟩, ⟨rfl, rfl, rfl⟩, ⟨rfl, rfl, rfl⟩,
    ⟨rfl, rfl, rfl, rfl, rfl, rfl⟩, ⟨rfl, rfl, rfl, rfl, rfl⟩, rfl⟩

/-- Settles O24: each command is S0 with its own CMD, and its count passes check 4. -/
theorem hostCommandsStartAnInvocation : Obligations.HostCommandsStartAnInvocation := fun _ _ _ _ _ hu =>
  ⟨hostCommand_started hu (.inl rfl), fun hc => ⟨hostCommand_started hu (.inr hc), hostCommand_started hu (.inr hc),
    hostCommand_started hu (.inr hc), hostCommand_started hu (.inr hc)⟩⟩

/-- Settles O26: what `nextWork` selects is the instruction decoded from the placed word, or from the command line. -/
theorem stepRunsTheDecodedInstruction : Obligations.StepRunsTheDecodedInstruction := by
  refine ⟨fun s w i hrun hk hplaced hdec => ?_, fun s line rest i hk hhost hline hdec => ?_⟩
  · simp [step, nextWork, hk, hrun, hplaced, hdec]
  · simp [step, step_host hk hhost, hostWork, hline, hdec]

/-! ## The top level (42_operations R217, R219) -/

/-- Settles O28: S1 by CMD, and by the results of its one or two opens. -/
theorem openStreamsByCommand : Obligations.OpenStreamsByCommand := fun _ _ ha hu =>
  ⟨fun hc => ha.step_own hu (runS1_silent hc) rfl rfl,
    fun hc => ⟨fun h => ha.step_doThen hu (runS1_opensInput hc h) rfl rfl,
      fun h => ha.step_hostIo hu (runS1_noInput hc h) rfl rfl⟩,
    fun hc => ⟨fun h => ha.step_hostIo hu (runS1_noOutput hc h) rfl rfl,
      fun h h' => ha.step_hostIo hu (runS1_noBadFile hc h h') rfl rfl,
      fun h h' => ha.step_doThen hu (runS1_opensOutput hc h h') rfl rfl⟩⟩

/-- Settles O33: S5 by CMD and by the host's answer; Abort is the primitive `decline`, which ends the run at S5. -/
theorem gateBeforeRangeCommands : Obligations.GateBeforeRangeCommands := by
  refine fun s rest ha hu => ⟨fun hc => ha.step_own hu (if_pos hc) rfl rfl,
    fun hc h => ha.step_doThen hu (runS5_continue hc h) rfl rfl, fun hc h => ?_⟩
  rw [ha.step_eq, runLabel, runS5_abort hc h]
  exact runRow_cons_ends ha.running hu.calm hu.undriven rfl RunOutcome.noConfusion

/-! ## IdCheck (42_operations R231 to R233) -/

/-- Settles O34: I3 takes its branch by the condition IdDrift. -/
theorem driftRestartsUncounted : Obligations.DriftRestartsUncounted := fun _ _ ha hu =>
  ⟨fun h => ha.step_own hu (runI3_drift h) rfl rfl, fun h => ha.step_own hu (runI3_same h) rfl rfl⟩

/-- Settles O45: W4 and E3 call IdCheck, P3 does where RETRY is at least 1. -/
theorem attemptsCheckTheId : Obligations.AttemptsCheckTheId := fun _ _ hu =>
  ⟨fun ha => ha.step_own hu rfl rfl rfl, fun ha => ha.step_own hu rfl rfl rfl,
    fun ha hr => ha.step_own hu (if_pos hr) rfl rfl,
    fun ha hr => ha.step_own hu (if_neg (Nat.not_le.2 (Nat.lt_one_iff.2 hr))) rfl rfl⟩

/-! ## Units (42_operations R221, R229, R230, R242, R252) -/

section

variable {s : State} {rest : List Pos}

/-- What P9, W9 and E8 do, their report being `e`. -/
theorem unitEnd_applied (s : State) (e : Report) : applyAll [.report e, .setRetry 0, .setK (s.k + 1)] s =
    { s with k := s.k + 1, retry := 0, reports := s.reports ++ [e] } := rfl

/-- Settles O39: the three are one row of primitives with a report of their own. -/
theorem unitEndsWithProgress : Obligations.UnitEndsWithProgress := by
  refine fun s rest hu => ⟨fun ha => ?_, fun ha => ?_, fun ha => ?_⟩ <;>
  · rw [ha.step_own hu rfl rfl rfl, unitEnd_applied]
    rfl

theorem step_w2_fills (ha : At .w2 rest s) (hu : Undisturbed s) {r : List Byte} (h : s.record = some r)
    (hr : r.length = PAGE_SIZE) :
    step s = .next { s with pc := .lab .w3 :: rest, retry := 0, bufA := s.bufA.writeBytes 0 r,
                            written := { s.written with bufA := true } } :=
  ha.step_own hu (runW2_fills h hr.ge) rfl (by simp [primGuard, hr])

/-- Settles O40: RETRY is written at the head of a unit and at its end; the loop over units ends at its head. -/
theorem unitsStartAndEndWithRetryZero : Obligations.UnitsStartAndEndWithRetryZero := by
  refine fun s rest hu => ⟨fun ha hk => ha.step_own hu (if_pos hk) rfl rfl,
    fun ha hk => ha.step_own hu (if_pos hk) rfl rfl, fun t r ha hr hlen hstep => ?_, fun l hl ha => ?_,
    fun l hl ha hk => ?_⟩
  · rw [step_w2_fills ha hu hr hlen] at hstep
    cases hstep
    exact ⟨rfl, rfl⟩
  · obtain ⟨hp9, hw9, he8⟩ := unitEndsWithProgress s rest hu
    simp only [List.mem_cons, List.not_mem_nil, or_false] at hl
    rcases hl with rfl | rfl | rfl
    · exact ⟨_, hp9 ha, rfl, rfl⟩
    · exact ⟨_, hw9 ha, rfl, rfl⟩
    · exact ⟨_, he8 ha, rfl, rfl⟩
  · simp only [List.mem_cons, List.not_mem_nil, or_false] at hl
    rcases hl with rfl | rfl | rfl <;> exact ha.step_own hu (if_neg hk) rfl rfl

/-- Settles O42: W8 and E7 are one statement with its own labels and kind. -/
theorem statusErrorIsRetriedOrGivenUp : Obligations.StatusErrorIsRetriedOrGivenUp := by
  intro s rest again done here kind hu hlabels ha
  have hhere : here ∈ [Label.w8, .e7] := by
    rcases hlabels with ⟨rfl, _⟩ | ⟨rfl, _⟩ <;> simp
  have hrun : runLabel here s = statusError here kind again done s := by
    rcases hlabels with ⟨rfl, rfl, rfl, rfl⟩ | ⟨rfl, rfl, rfl, rfl⟩ <;> rfl
  exact ⟨fun hr => ha.step_own hu (hrun.trans (statusError_retries hhere hr)) rfl rfl,
    fun hr => ha.step_own hu (hrun.trans (statusError_givesUp hhere hr)) rfl rfl⟩

/-! ## ReadPages (42_operations R222 to R228) -/

theorem step_p2 (ha : At .p2 rest s) (hu : Undisturbed s) : step s = .next { s with pc := .lab .p3 :: rest } :=
  ha.step_own hu rfl rfl rfl

theorem step_p6_match (ha : At .p6 rest s) (hu : Undisturbed s) (h : s.pagesMatch = true) :
    step s = .next { s with pc := .lab .p8 :: rest } := ha.step_own hu (runP6_match h) rfl rfl

theorem step_p6_mismatch (ha : At .p6 rest s) (hu : Undisturbed s) (h : ¬s.pagesMatch = true) :
    step s = .next { s with pc := .lab .p7 :: rest } := ha.step_own hu (runP6_mismatch h) rfl rfl

/-- Settles O35: P6 takes its branch by MATCH. -/
theorem matchAcceptsThePage : Obligations.MatchAcceptsThePage := fun s _ ha hu =>
  ⟨fun h => step_p6_match ha hu ((pagesMatch_iff s).2 h),
    fun ⟨a, hlt, hne⟩ => step_p6_mismatch ha hu fun h => hne ((pagesMatch_iff s).1 h a hlt)⟩

theorem step_p7_retries (ha : At .p7 rest s) (hu : Undisturbed s) (hr : s.retry < 5) :
    step s = .next { s with pc := .lab .p2 :: rest, retry := s.retry + 1,
                            reports := s.reports ++ [.retry .read (s.first + s.k) (s.retry + 1)] } :=
  ha.step_own hu (runP7_retries hr) rfl rfl

theorem step_p7_logs (ha : At .p7 rest s) (hu : Undisturbed s) (hr : s.retry = 5) (hio : (drawIo s.env).1 = true) :
    step s = .next { s with pc := .lab .p8 :: rest, env := (drawIo s.env).2, badLog := s.badLog ++ [s.first + s.k],
                            badFile := s.badFile ++ badLine (s.first + s.k),
                            reports := s.reports ++ [.giveUp .read (s.first + s.k)] } :=
  ha.step_doThen hu (runP7_logs hr hio) rfl rfl

theorem step_p8 (ha : At .p8 rest s) (hu : Undisturbed s) (hio : (drawIo s.env).1 = true) :
    step s = .next { s with pc := .lab .p9 :: rest, env := (drawIo s.env).2,
                            sink := s.sink ++ s.bufA.readBytes 0 (recordLen s.includeSpare) } :=
  ha.step_doThen hu (runP8_appends hio) rfl rfl

/-- Settles O36: P7, P2 and P3, where RETRY is then at least 1. -/
theorem mismatchIsRetried : Obligations.MismatchIsRetried := by
  intro s rest ha hu hr
  let u : State := { s with retry := s.retry + 1,
                            reports := s.reports ++ [.retry .read (s.first + s.k) (s.retry + 1)] }
  have hu' : ∀ pc, Undisturbed { u with pc := pc } := fun _ => ⟨hu.calm, hu.undriven⟩
  have ha' : ∀ l, At l rest { u with pc := .lab l :: rest } := fun _ => ha.move hu (by decide) rfl rfl rfl rfl rfl
  have hp3 := (attemptsCheckTheId _ rest (hu' (.lab .p3 :: rest))).2.2.1 (ha' .p3) (Nat.le_add_left 1 _)
  exact (run_next (step_p7_retries ha hu hr) 2).trans
    ((run_next (step_p2 (ha' .p2) (hu' _)) 1).trans ((run_one _).trans hp3))

/-- Settles O38: the record is read from BUF_A byte by byte. -/
theorem oneRecordIsAppended : Obligations.OneRecordIsAppended := by
  refine fun s rest ha hu => ⟨fun hio => ⟨_, step_p8 ha hu hio, readBytes_length _ _ _, fun a hlt => ?_⟩,
    fun hio => ha.step_hostIo hu (runP8_noAppend hio) rfl rfl⟩
  rw [readBytes_length] at hlt
  rw [List.getD_eq_getElem?_getD, readBytes_getElem? _ hlt, Nat.zero_add, Option.getD_some]

end

/-! ## W1 and W2 (42_operations R239) -/

/-- Settles O44: W1 draws the record, and W2 takes it by its length. -/
theorem sourceRecordFillsBufA : Obligations.SourceRecordFillsBufA := by
  intro s rest ha hu hk
  have hu' : ∀ e r, Undisturbed { s with pc := .lab .w2 :: rest, env := e, record := r } := fun _ _ =>
    ⟨hu.calm, hu.undriven⟩
  have ha' : ∀ e r, At .w2 rest { s with pc := .lab .w2 :: rest, env := e, record := r } := fun _ _ =>
    ha.move hu (by decide) rfl rfl rfl rfl rfl
  have hread : ∀ hio : (drawIo s.env).1 = true, step s = .next { s with
      pc := .lab .w2 :: rest, env := (drawIo s.env).2,
      record := some ((s.source.drop (s.k * 2112)).take 2112) } := fun hio =>
    ha.step_doThen hu (runW1_reads hk hio) rfl rfl
  have hlen : ((s.source.drop (s.k * 2112)).take 2112).length = min 2112 (s.source.length - s.k * 2112) := by simp
  refine ⟨fun hio hsrc => ?_, fun hio hsrc => ?_, fun hio => ?_⟩
  · exact (run_next (hread hio) 1).trans ((run_one _).trans
      (step_w2_fills (ha' _ _) (hu' _ _) rfl (hlen.trans (by simp only [PAGE_SIZE]; omega))))
  · obtain ⟨text, htext⟩ := (ha' _ _).step_hostIo (hu' _ _)
      (runW2_short (r := (s.source.drop (s.k * 2112)).take 2112) rfl (hlen.trans_lt (by simp only [PAGE_SIZE]; omega)))
        rfl rfl
    exact ⟨text, _, (run_next (hread hio) 1).trans ((run_one _).trans htext)⟩
  · obtain ⟨text, htext⟩ := (ha' _ _).step_hostIo (hu' _ _) (runW2_failed rfl) rfl rfl
    exact ⟨text, (run_next (ha.step_doThen hu (runW1_fails hk hio) rfl rfl) 1).trans ((run_one _).trans htext)⟩

end Sys2Proof.Statements
end

/-! PROOF. The sequencer's statements that call a transaction (42_operations R216, R231, R241, R251), and the one
statement that writes BAD_LOG (R227). -/
section
namespace Sys2Proof.Machine

open Statements

theorem Ready.undisturbed {s : State} (hs : Ready s) : Undisturbed s := ⟨hs.calm, hs.undriven⟩

/-- `pc <- s` alone: the host interrupts before it, or a chip that contends stops it, or PC moves. -/
theorem runPrims_setPc {t : State} (pc : List Pos) (hr : t.outcome = .running) :
    (t.interruptIn = some 0 → runPrims [.setPc pc] t = .next (interrupted t)) ∧
    (t.interruptIn ≠ some 0 → t.chipContends = true → runPrims [.setPc pc] t = .fault .busContention) ∧
    (t.interruptIn ≠ some 0 → t.chipContends = false → runPrims [.setPc pc] t = .next { tick t with pc := pc }) :=
  ⟨fun hi => by simp only [runPrims, List.map, runRow, hr, hi, if_true]; rfl,
    fun hi hc => by simp [runPrims, runRow, hr, hi, hc],
    fun hi hc => by simp [runPrims, runRow, hr, hi, hc, primGuard, applyPrim]⟩

theorem conditionAt_status {l : Label} (h : l ∈ [Label.w7, .e6]) (t : State) :
    conditionAt l t = if t.status.getLsbD 0 then some .programOrEraseStatusError else none := by
  simp only [List.mem_cons, List.not_mem_nil, or_false] at h
  rcases h with rfl | rfl <;> rfl

end Sys2Proof.Machine

namespace Sys2Proof.Statements

open Machine

section

variable {s : State} {l l' : Label} {rest : List Pos} {o : Host.Outcome State Fault Refusal}

/-! ## A call and then `pc <- l'` -/

/-- A statement that is a call and then `pc <- l'`. -/
theorem At.stepCalls (ha : At l rest s) (h : runLabel l s = onReturn s.pc o (doThen [] (toLabel l'))) :
    StepCalls s o l' rest := by
  rw [StepCalls, ha.step_eq, h]
  refine ⟨fun t ho => ⟨fun hn => onReturn_stopped ho hn, fun hr hpc => ?_⟩, fun f ho => by rw [ho]; rfl⟩
  have hnext : doThen [] (toLabel l') t = runPrims [.setPc (.lab l' :: rest)] t := by
    rw [doThen, toLabel, hpc, ha.pc]
    rfl
  rw [onReturn_returned ho hr hpc, hnext]
  exact runPrims_setPc _ hr

variable {f : State → Host.Outcome State Fault Refusal} {t : State}

/-- A statement whose call has returned goes on with what comes after it. -/
theorem At.step_returned (ha : At l rest s) (h : runLabel l s = onReturn s.pc o f) (ho : o = .next t)
    (hr : t.outcome = s.outcome) (hpc : t.pc = s.pc) : step s = f t := by
  rw [ha.step_eq, h, onReturn_returned ho (hr.trans ha.running) hpc]

/-- What then performs `ps` and moves PC. -/
theorem At.doThen_returned (ha : At l rest s) (hu : Undisturbed t) (hr : t.outcome = s.outcome) (hpc : t.pc = s.pc)
    {ps : List Prim} {next : List Pos → List Pos} (hq : ps.all Prim.quiet = true) (hg : guardsPass ps t.lines = true) :
    doThen ps next t = .next { applyAll ps t with pc := next (.lab l :: rest) } := by
  rw [doThen_next (hr.trans ha.running) hu.calm hu.undriven hq hg, hpc, ha.pc]

/-- The two together where nothing is left but to move PC. -/
theorem At.step_call (ha : At l rest s) (h : runLabel l s = onReturn s.pc o (doThen [] (toLabel l'))) (ho : o = .next t)
    (hr : t.outcome = s.outcome) (hpc : t.pc = s.pc) (hu : Undisturbed t) :
    step s = .next { t with pc := .lab l' :: rest } :=
  (ha.step_returned h ho hr hpc).trans (ha.doThen_returned hu hr hpc rfl rfl)

/-- Settles O27: each of the five statements is the call of its transaction and then `pc <- s`. -/
theorem stepRunsTheTransactions : Obligations.StepRunsTheTransactions := fun _ _ =>
  ⟨fun ha => ha.stepCalls rfl, fun ha => ha.stepCalls rfl, fun ha => ha.stepCalls rfl, fun ha => ha.stepCalls rfl,
    fun ha => ha.stepCalls rfl⟩

/-! ## S4, CaptureId (42_operations R216) -/

/-- Settles O31: readId returns, and the validity test decides. -/
theorem captureIdOrFault : Obligations.CaptureIdOrFault := by
  intro s rest hs ha
  have hexec := readIdSamplesFiveBytes s hs
  have hstep := ha.step_returned rfl hexec rfl rfl
  have hr : (afterReadId (drawBytes ID_LEN s.env).1 { s with env := (drawBytes ID_LEN s.env).2 }).outcome = .running :=
    hs.running
  have hu : Undisturbed (afterReadId (drawBytes ID_LEN s.env).1 { s with env := (drawBytes ID_LEN s.env).2 }) :=
    ⟨hs.calm, hs.undriven⟩
  exact ⟨_, hexec,
    fun hsame => hstep.trans ((if_pos hsame).trans (runPrims_raise hr hu.calm hu.undriven _ _ [])),
    fun hvalid => hstep.trans ((if_neg (ne_true_of_eq_false hvalid)).trans
      (ha.doThen_returned hu rfl rfl (next := toLabel .s5) rfl rfl))⟩

/-! ## W7 and E6: the status decides (42_operations R241, R251) -/

/-- The statement that calls readStatus goes on by bit 0 of the byte read. -/
theorem At.step_status {pass retry : Label} {v : Byte} {e : Env} (hs : Ready s) (ha : At l rest s)
    (hl : l ∈ [Label.w7, .e6]) (h : runLabel l s = checkStatus l pass retry s) (hv : drawByte s.env = (v, e)) :
    step s = .next { afterReadStatus v { s with env := e } with
      pc := .lab (if v.getLsbD 0 then retry else pass) :: rest } := by
  have hexec := (readStatusSamplesOneByte s hs).1
  rw [hv] at hexec
  have hmove := fun l' => ha.doThen_returned (t := afterReadStatus v { s with env := e }) ⟨hs.calm, hs.undriven⟩ rfl rfl
    (next := toLabel l') (ps := []) rfl rfl
  have htest : conditionAt l (afterReadStatus v { s with env := e }) =
      if v.getLsbD 0 then some .programOrEraseStatusError else none := conditionAt_status hl _
  refine (ha.step_returned h hexec rfl rfl).trans ?_
  rw [htest]
  cases v.getLsbD 0 with
  | true => exact hmove retry
  | false => exact hmove pass

/-- Settles O41: the calls as in O27, the retry as in O42, and the test of W7 and E6. -/
theorem statusDecidesTheAttempt : Obligations.StatusDecidesTheAttempt := by
  refine fun s rest hs => ⟨fun ha => ha.stepCalls rfl, fun ha => ha.stepCalls rfl, fun ha => ha.stepCalls rfl,
    fun ha => ha.stepCalls rfl, fun ha hr => ?_,
    fun ha => ⟨_, (readStatusSamplesOneByte s hs).1, by simp [conditionAt_status],
      ha.step_status hs (by decide) rfl rfl⟩,
    fun ha => ⟨_, (readStatusSamplesOneByte s hs).1, by simp [conditionAt_status],
      ha.step_status hs (by decide) rfl rfl⟩⟩
  rcases ha with ha | ha
  · exact ⟨_, (statusErrorIsRetriedOrGivenUp s rest _ _ _ _ hs.undisturbed (.inl ⟨rfl, rfl, rfl, rfl⟩) ha).1 hr, rfl⟩
  · exact ⟨_, (statusErrorIsRetriedOrGivenUp s rest _ _ _ _ hs.undisturbed (.inr ⟨rfl, rfl, rfl, rfl⟩) ha).1 hr, rfl⟩

end

end Sys2Proof.Statements
end

/-! PROOF. BAD_LOG (10_state R40): the only statement that writes it is P7, where the retries are exhausted. -/
section
namespace Sys2Proof.Machine

open Statements

/-- A primitive that leaves BAD_LOG alone. -/
def Prim.logsNoPage : Prim → Bool
  | .logBad _ => false
  | _ => true

theorem logsNoPage_of_ofCall {p : Prim} (h : p.ofCall = true) : p.logsNoPage = true := by
  cases p with
  | logBad => cases h
  | _ => rfl

theorem stable_badLog (log : List Nat) : Stable (fun p => p.logsNoPage = true) fun u => u.badLog = log where
  tick _ h := h
  interrupted _ h := h
  pc _ _ h := h
  env _ _ h := h
  prim p hp u _ h _ := by
    cases p with
    | logBad => cases hp
    | memWrite x _ _ => cases x <;> exact h
    | _ => exact h

section

variable {s t u : State}

/-- `o` leaves BAD_LOG as it is in `s`. -/
def KeepsBadLog (s : State) (o : Host.Outcome State Fault Refusal) : Prop := ∀ t, o = .next t → t.badLog = s.badLog

theorem keepsBadLog_runPrims {ps : List Prim} (hp : ps.all Prim.logsNoPage = true) (hu : u.badLog = s.badLog) :
    KeepsBadLog s (runPrims ps u) := fun _ h => (stable_badLog s.badLog).runPrims (List.all_eq_true.1 hp) hu h

theorem keepsBadLog_doThen {ps : List Prim} {next : List Pos → List Pos} (hp : ps.all Prim.logsNoPage = true)
    (hu : u.badLog = s.badLog) : KeepsBadLog s (doThen ps next u) :=
  fun _ h => (stable_badLog s.badLog).doThen (List.all_eq_true.1 hp) hu h

theorem keepsBadLog_raiseHostIo {pre : List Prim} (hp : pre.all Prim.logsNoPage = true) (hu : u.badLog = s.badLog) :
    KeepsBadLog s (raiseHostIo pre u) :=
  fun _ h => (stable_badLog s.badLog).raiseHostIo (fun _ _ => rfl) (List.all_eq_true.1 hp) hu h

theorem keepsBadLog_ite {c : Prop} [Decidable c] {o o' : Host.Outcome State Fault Refusal} (h : KeepsBadLog s o)
    (h' : KeepsBadLog s o') : KeepsBadLog s (if c then o else o') := by
  split
  · exact h
  · exact h'

/-- The calls of the transactions and of WaitReady. -/
theorem callsKeep_badLog (s : State) : CallsKeep s fun u => u.badLog = s.badLog :=
  (stable_badLog s.badLog).calls (fun _ => logsNoPage_of_ofCall) rfl

theorem keepsBadLog_onReturn {pc : List Pos} {o : Host.Outcome State Fault Refusal}
    {f : State → Host.Outcome State Fault Refusal} (ho : KeepsBadLog s o)
    (hf : ∀ u, u.badLog = s.badLog → KeepsBadLog s (f u)) : KeepsBadLog s (onReturn pc o f) :=
  fun t h => onReturn_keeps ho (fun u hu => hf u hu t) h

theorem keepsBadLog_call {pc : List Pos} {o : Host.Outcome State Fault Refusal} {next : List Pos → List Pos}
    (ho : KeepsBadLog s o) : KeepsBadLog s (onReturn pc o (doThen [] next)) :=
  keepsBadLog_onReturn ho fun _ => keepsBadLog_doThen rfl

theorem keepsBadLog_checkStatus (here pass retry : Label) : KeepsBadLog s (checkStatus here pass retry s) :=
  keepsBadLog_onReturn (callsKeep_badLog s).readStatus fun u hu => by
    split <;> exact keepsBadLog_doThen rfl hu

theorem keepsBadLog_statusError (here again done : Label) (kind : Kind) :
    KeepsBadLog s (statusError here kind again done s) := by
  unfold statusError
  split <;> exact keepsBadLog_doThen rfl rfl

theorem keepsBadLog_s1_read (hc : s.cmd = .readFull ∨ s.cmd = .readData) : KeepsBadLog s (runS1 s) := by
  cases hio : (drawIo s.env).1 with
  | false => rw [runS1_noOutput hc hio]; exact keepsBadLog_raiseHostIo rfl rfl
  | true =>
    cases hbad : (drawIo (drawIo s.env).2).1 with
    | false => rw [runS1_noBadFile hc hio hbad]; exact keepsBadLog_raiseHostIo rfl rfl
    | true => rw [runS1_opensOutput hc hio hbad]; exact keepsBadLog_doThen rfl rfl

theorem keepsBadLog_s1 : KeepsBadLog s (runS1 s) := by
  cases hc : s.cmd with
  | readId => rw [runS1_silent (.inl hc)]; exact keepsBadLog_doThen rfl rfl
  | eraseBlocks => rw [runS1_silent (.inr hc)]; exact keepsBadLog_doThen rfl rfl
  | readFull => exact keepsBadLog_s1_read (.inl hc)
  | readData => exact keepsBadLog_s1_read (.inr hc)
  | writeFull =>
    cases hio : (drawIo s.env).1 with
    | false => rw [runS1_noInput hc hio]; exact keepsBadLog_raiseHostIo rfl rfl
    | true => rw [runS1_opensInput hc hio]; exact keepsBadLog_doThen rfl rfl

/-- Every label but P7 leaves BAD_LOG alone. -/
theorem keepsBadLog_runLabel {l : Label} (hl : l ≠ .p7) : KeepsBadLog s (runLabel l s) := by
  cases l with
  | p7 => exact absurd rfl hl
  | s1 => exact keepsBadLog_s1
  | s3 => exact keepsBadLog_ite (keepsBadLog_doThen rfl rfl) (keepsBadLog_runPrims rfl rfl)
  | s4 =>
    exact keepsBadLog_onReturn (callsKeep_badLog s).readId fun u hu =>
      keepsBadLog_ite (keepsBadLog_runPrims rfl hu) (keepsBadLog_doThen rfl hu)
  | s5 =>
    exact keepsBadLog_ite (keepsBadLog_doThen rfl rfl)
      (keepsBadLog_ite (keepsBadLog_doThen rfl rfl) (keepsBadLog_runPrims rfl rfl))
  | s6 => simp only [runLabel, runS6]; split <;> exact keepsBadLog_doThen rfl rfl
  | i3 => simp only [runLabel, runI3]; split <;> exact keepsBadLog_doThen rfl rfl
  | p6 => simp only [runLabel, runP6]; split <;> exact keepsBadLog_doThen rfl rfl
  | w2 =>
    simp only [runLabel, runW2]
    split
    · exact keepsBadLog_raiseHostIo rfl rfl
    · exact keepsBadLog_ite (keepsBadLog_raiseHostIo rfl rfl) (keepsBadLog_doThen rfl rfl)
  | s7 => exact keepsBadLog_runPrims rfl rfl
  | s2 | i1 | p2 | p9 | w3 | w4 | w9 | e2 | e3 | e8 => exact keepsBadLog_doThen rfl rfl
  | p1 | p3 | w1 | e1 => exact keepsBadLog_ite (keepsBadLog_doThen rfl rfl) (keepsBadLog_doThen rfl rfl)
  | p8 => exact keepsBadLog_ite (keepsBadLog_doThen rfl rfl) (keepsBadLog_raiseHostIo rfl rfl)
  | i2 => exact keepsBadLog_call (callsKeep_badLog s).readId
  | p4 => exact keepsBadLog_call ((callsKeep_badLog s).readPage .a)
  | p5 => exact keepsBadLog_call ((callsKeep_badLog s).readPage .b)
  | w5 => exact keepsBadLog_call (callsKeep_badLog s).writePage
  | e4 => exact keepsBadLog_call (callsKeep_badLog s).eraseBlock
  | w6 | e5 => exact keepsBadLog_call (callsKeep_badLog s).waitReady
  | w7 | e6 => exact keepsBadLog_checkStatus _ _ _
  | w8 | e7 => exact keepsBadLog_statusError _ _ _ _

/-- A statement that first writes page `p` to BAD_LOG, and then no more: BAD_LOG has grown by `p` or not at all. -/
theorem doThen_logBad {p : Nat} {ps : List Prim} {next : List Pos → List Pos} (hp : ps.all Prim.logsNoPage = true)
    (h : doThen (.logBad p :: ps) next s = .next t) : t.badLog = s.badLog ∨ t.badLog = s.badLog ++ [p] := by
  have hrest : ∀ q ∈ Row.prims ((ps ++ [Prim.setPc (next s.pc)]).map fun p => (p, [])), q.logsNoPage = true := by
    rw [prims_own]
    exact List.all_eq_true.1 (by rw [List.all_append, hp]; rfl)
  have hfirst := runRow_cons_next (p := .logBad p) (q := [])
    (row := (ps ++ [Prim.setPc (next s.pc)]).map fun p => (p, [])) h
  rcases hfirst with ⟨_, rfl⟩ | rfl | ⟨_, hrow⟩ | ⟨_, rfl⟩
  · exact .inl rfl
  · exact .inl rfl
  · exact .inr ((stable_badLog (s.badLog ++ [p])).runRow hrest rfl hrow)
  · exact .inr rfl

/-- P7 adds its page to BAD_LOG or leaves it, and after a page added the run goes on at P8. -/
theorem runP7_badLog (h : runP7 s = .next t) : t.badLog = s.badLog ∨
    (t.badLog = s.badLog ++ [s.unit] ∧ (t.outcome = .running → t.pc = toLabel .p8 s.pc)) := by
  simp only [runP7] at h
  split at h
  · exact .inl (keepsBadLog_doThen rfl rfl t h)
  · split at h
    · exact (doThen_logBad rfl h).imp_right fun hlog => ⟨hlog, fun hr => congrArg State.pc (doThen_running h hr)⟩
    · exact .inl (keepsBadLog_raiseHostIo (s := s) (u := { s with env := (drawIo s.env).2 }) rfl rfl t h)

end

end Sys2Proof.Machine

namespace Sys2Proof.Statements

open Machine

/-- Settles O37: BAD_LOG by the labels, P8 and P9 by what a statement after which the run goes on has done, and P7 at
the limit as its row. -/
theorem exhaustedPageIsLogged : Obligations.ExhaustedPageIsLogged := by
  refine ⟨fun p => by rw [badLine, digitsOf_eq_decimal], fun s t l rest ha h hlog => ?_, fun s t rest ha h hr => ?_,
    fun s t rest ha h hr => ?_, fun s rest ha hu hr => ⟨step_p7_logs ha hu hr,
      fun hio => ha.step_hostIo hu (runP7_noLog hr hio) rfl rfl⟩⟩
  · rw [ha.step_eq] at h
    by_cases hl : l = .p7
    · subst hl
      obtain ⟨hgrown, hpc⟩ := (runP7_badLog h).resolve_left hlog
      exact ⟨rfl, hgrown, fun hr => by rw [hpc hr, ha.pc]; rfl⟩
    · exact absurd (keepsBadLog_runLabel hl t h) hlog
  · rw [ha.step_eq, runLabel] at h
    cases hio : (drawIo s.env).1 with
    | true => rw [congrArg State.pc (doThen_running (runP8_appends hio ▸ h) hr)]; simp [toLabel, ha.pc]
    | false => exact absurd hr (raiseHostIo_ends (runP8_noAppend hio ▸ h))
  · rw [ha.step_eq] at h
    have ht := doThen_running h hr
    exact ⟨by rw [congrArg State.pc ht]; simp [toLabel, ha.pc], congrArg State.k ht⟩

end Sys2Proof.Statements
end

/-! PROOF. Runs of the sequencer between two states at rest (42_operations R210 to R253): what a run leaves but for
the lines, the registers of a transaction and the pin events, and each label's step in these terms. -/
section
namespace Sys2Proof.Machine

open Statements

/-! ## Runs but for scratch registers -/

/-- What the statements about whole invocations do not follow through a run: the lines, the registers that a
transaction or W1 writes for the statement after it, the marks of what has been written, and the pin events. -/
structure Scratch where
  lines : Lines
  idRd : DevId
  status : Byte
  din : Byte
  polls : Nat
  record : Option (List Byte)
  written : Written
  pinLog : List PinEvent

/-- `s` with other scratch. -/
def State.scratched (s : State) (b : Scratch) : State :=
  { s with lines := b.lines, idRd := b.idRd, status := b.status, din := b.din, polls := b.polls, record := b.record,
           written := b.written, pinLog := b.pinLog }

/-- The scratch of `s`. -/
def State.scratch (s : State) : Scratch :=
  { lines := s.lines, idRd := s.idRd, status := s.status, din := s.din, polls := s.polls, record := s.record,
    written := s.written, pinLog := s.pinLog }

/-- Whatever the scratch is, lines at rest, the run from `s` comes to `t` but for the scratch, lines at rest. -/
def Reaches (s t : State) : Prop := ∀ b : Scratch, b.lines.atRest = true →
  ∃ (n : Nat) (b' : Scratch), b'.lines.atRest = true ∧
    Host.Core.run Sys2Proof.core n (s.scratched b) = .next (t.scratched b')

theorem Reaches.refl (s : State) : Reaches s s := fun b hb => ⟨0, b, hb, rfl⟩

theorem Reaches.trans {s t u : State} (h : Reaches s t) (h' : Reaches t u) : Reaches s u := by
  intro b hb
  obtain ⟨m, b', hb', hm⟩ := h b hb
  obtain ⟨n, b'', hb'', hn⟩ := h' b' hb'
  exact ⟨m + n, b'', hb'', by rw [run_add n hm]; exact hn⟩

theorem Reaches.of_step {s t : State} (h : ∀ b : Scratch, b.lines.atRest = true →
    ∃ b' : Scratch, b'.lines.atRest = true ∧ step (s.scratched b) = .next (t.scratched b')) : Reaches s t := by
  intro b hb
  obtain ⟨b', hb', hstep⟩ := h b hb
  exact ⟨1, b', hb', (run_one _).trans hstep⟩

theorem Reaches.runsTo {s t : State} {P : State → Prop} (h : Reaches s t) (hs : s.lines.atRest = true)
    (hP : ∀ b, P (t.scratched b)) : RunsTo s P := by
  obtain ⟨n, b, _, hn⟩ := h s.scratch hs
  exact ⟨n, _, hn, hP b⟩

/-- A run that goes on, that nothing disturbs and in which no bus cycle is placed. -/
def Steady (s : State) : Prop :=
  s.outcome = .running ∧ s.interruptIn = none ∧ s.driveIn = none ∧ s.placed = none

section

variable {s t : State} {l l' : Label} {rest : List Pos} (hs : Steady s)
include hs

theorem Steady.running : s.outcome = .running := hs.1
theorem Steady.calm : s.interruptIn = none := hs.2.1
theorem Steady.undriven : s.driveIn = none := hs.2.2.1
theorem Steady.unplaced : s.placed = none := hs.2.2.2
theorem Steady.undisturbed : Undisturbed s := ⟨hs.calm, hs.undriven⟩

theorem Steady.ready (hl : s.lines.atRest = true) : Ready s := by
  obtain ⟨hcle, hale, hwe, hre⟩ := atRest_latches hl
  exact ⟨hs.running, hs.calm, hs.undriven, hcle, hale, hwe, hre⟩

theorem Steady.at (hl : s.lines.atRest = true) (hpc : s.pc = .lab l :: rest) : At l rest s where
  running := hs.running
  unplaced := hs.unplaced
  pc := hpc
  owned := contends_idle hs.undriven (atRest_latches hl).2.2.2

/-- A label whose statement leaves the scratch alone. -/
theorem Steady.reaches (hpc : s.pc = .lab l :: rest) (h : ∀ b, At l rest (s.scratched b) →
    Undisturbed (s.scratched b) → step (s.scratched b) = .next (t.scratched b)) : Reaches s t :=
  .of_step fun b hb => ⟨b, hb, h b (Steady.at (s := s.scratched b) hs hb hpc)
    (Steady.undisturbed (s := s.scratched b) hs)⟩

/-- A label whose statement is a call that returns with the lines at rest, and then `pc <- l'`. -/
theorem Steady.reaches_call (hpc : s.pc = .lab l :: rest) {o : State → Host.Outcome State Fault Refusal}
    (h : ∀ u, runLabel l u = onReturn u.pc (o u) (doThen [] (toLabel l')))
    (ho : ∀ b : Scratch, b.lines.atRest = true → Ready (s.scratched b) →
      ∃ b' : Scratch, b'.lines.atRest = true ∧ o (s.scratched b) = .next (t.scratched b'))
    (hr : t.outcome = s.outcome) (hpc' : t.pc = s.pc) (hu : Undisturbed t) :
    Reaches s { t with pc := .lab l' :: rest } := .of_step fun b hb => by
  obtain ⟨b', hb', hcall⟩ := ho b hb (Steady.ready (s := s.scratched b) hs hb)
  exact ⟨b', hb', (Steady.at (s := s.scratched b) hs hb hpc).step_call (h _) hcall hr hpc' ⟨hu.calm, hu.undriven⟩⟩

end

/-! ## The transactions, their answers scripted -/

/-- The lines after a writing transaction. -/
theorem atRest_driving {ls : Lines} (h : ls.atRest = true) (v : Byte) :
    ({ ls.turned .out with dq := v } : Lines).atRest = true := atRest_driven (atRest_turned h .out) v

/-- The lines after a reading one. -/
theorem atRest_sampled {ls : Lines} (h : ls.atRest = true) (v : Byte) :
    (({ ls.turned .out with dq := v } : Lines).turned .inp).atRest = true := atRest_turned (atRest_driving h v) .inp

/-- The cycle words of one page read (30_encoding R99). -/
def readPageWords (p : Nat) (bs : List Byte) : List CycleWord := readPageOpenWords p ++ bs.map readWord

theorem readPageWords_length (p : Nat) {bs : List Byte} (h : bs.length = PAGE_SIZE) :
    (readPageWords p bs).length = 2119 := by
  simp [readPageWords, readPageOpenWords, pageAddr, rowBytes, h]

section

variable {s : State} (hs : Ready s)
include hs

theorem execReadId_scripted {x : DevId} {dq : List Byte} (hdq : s.env.dq = x.bytes ++ dq) :
    execReadId s = .next (afterReadId x.bytes { s with env := { s.env with dq := dq } }) := by
  have hdraw : drawBytes ID_LEN s.env = (x.bytes, { s.env with dq := dq }) := drawBytes_script x.bytes dq _ hdq
  have hexec := readIdSamplesFiveBytes s hs
  rwa [hdraw] at hexec

theorem execReadPage_scripted (p : Nat) (x : Buf) {pg dq : List Byte} {rb : List Bool} (hlen : pg.length = PAGE_SIZE)
    (hrb : s.env.rb = true :: rb) (hdq : s.env.dq = pg ++ dq) :
    execReadPage p x s = .next (afterReadPage p x 0 pg { s with env := { s.env with rb := rb, dq := dq } }) := by
  have hwait := drawWait_at_once s.cfg.busyLimit hrb
  have hdraw : drawBytes PAGE_SIZE { s.env with rb := rb } = (pg, { s.env with rb := rb, dq := dq }) := by
    rw [← hlen]
    exact drawBytes_script pg dq _ hdq
  have hexec := execReadPage_ready hs p x (by rw [hwait])
  rwa [hwait, hdraw] at hexec

end

/-! ## The end of an operation (42_operations R210) -/

theorem step_s7 {s : State} {rest : List Pos} (ha : At .s7 rest s) (hu : Undisturbed s) :
    step s = .next { s with outcome := .done } := by
  rw [ha.step_eq]
  exact runRow_cons_ends (p := .finish) ha.running hu.calm hu.undriven rfl RunOutcome.noConfusion

section

variable {s : State} {rest : List Pos} (hs : Steady s)
include hs

/-- After the last unit the operation returns to S7, and the run is done. -/
theorem reaches_done {l : Label} (hl : l ∈ [Label.p1, .w1, .e1]) (hpc : s.pc = [.lab l, .lab .s7])
    (hk : ¬s.k < s.count) : Reaches s { s with pc := [.lab .s7], outcome := .done } := by
  have hreturn : Reaches s { s with pc := [.lab .s7] } :=
    hs.reaches hpc fun _ ha hu => (unitsStartAndEndWithRetryZero _ _ hu).2.2.2.2 l hl ha hk
  exact hreturn.trans (Steady.reaches (s := { s with pc := [.lab .s7] }) hs rfl fun _ ha hu => step_s7 ha hu)

/-! ## IdCheck (42_operations R231) -/

/-- A check that finds the cached ID returns. -/
theorem reaches_idCheck {dq : List Byte} (hpc : s.pc = .lab .i1 :: rest) (hdq : s.env.dq = s.idCache.bytes ++ dq) :
    Reaches s { s with pc := rest, env := { s.env with dq := dq },
                       cycleLog := (readIdWords s.idCache.bytes).reverse ++ s.cycleLog } := by
  have hhead : Reaches s { s with pc := .lab .i2 :: rest } := hs.reaches hpc fun _ ha hu => ha.step_own hu rfl rfl rfl
  refine hhead.trans fun b hb => ?_
  let u : State := { s.scratched b with pc := .lab .i2 :: rest }
  let v : State := { afterReadId s.idCache.bytes { u with env := { s.env with dq := dq } } with pc := .lab .i3 :: rest }
  have hv : v.lines.atRest = true := atRest_sampled hb 0x00#8
  have hi2 : step u = .next v := (Steady.at (s := u) hs hb rfl).step_call rfl
    (execReadId_scripted (Steady.ready (s := u) hs hb) hdq) rfl rfl ⟨hs.calm, hs.undriven⟩
  have hi3 : step v = .next { v with pc := rest } :=
    (driftRestartsUncounted v rest (Steady.at (s := v) hs hv rfl) (Steady.undisturbed (s := v) hs)).2 rfl
  exact ⟨2, v.scratch, hv, (run_next hi2 1).trans ((run_one v).trans hi3)⟩

end

end Sys2Proof.Machine
end

/-! PROOF. One block erased and one page written (42_operations R238 to R253): the run from the head of a unit to the
head of the next, the chip passing it at once. -/
section
namespace Sys2Proof.Machine

open Statements

section

variable {s : State} {rest : List Pos} (hs : Steady s)
include hs

/-! ## The calls of a unit that writes (42_operations R240, R241, R250, R251) -/

theorem reaches_e4 (hpc : s.pc = .lab .e4 :: rest) :
    Reaches s { s with pc := .lab .e5 :: rest,
                       cycleLog := ([cmdWord 0x60#8] ++ (blockAddr s.unit).map addrWord ++ [cmdWord 0xD0#8]).reverse ++
                         s.cycleLog } :=
  hs.reaches_call hpc (t := { s with
      cycleLog := ([cmdWord 0x60#8] ++ (blockAddr s.unit).map addrWord ++ [cmdWord 0xD0#8]).reverse ++ s.cycleLog })
    (o := fun u => execEraseBlock u.unit u) (fun _ => rfl)
    (fun b hb hr => ⟨(afterEraseBlock s.unit (s.scratched b)).scratch, atRest_driving hb 0xD0#8,
      (eraseBlockSendsFiveCycles _ s.unit hr).1⟩) rfl rfl ⟨hs.calm, hs.undriven⟩

theorem reaches_w5 (hpc : s.pc = .lab .w5 :: rest) :
    Reaches s { s with pc := .lab .w6 :: rest,
                       cycleLog := (writePageWords s.unit s.bufA.page).reverse ++ s.cycleLog } :=
  hs.reaches_call hpc (t := { s with cycleLog := (writePageWords s.unit s.bufA.page).reverse ++ s.cycleLog })
    (o := fun u => execWritePage u.unit u) (fun _ => rfl)
    (fun b hb hr => ⟨(afterWritePage s.unit (s.scratched b)).scratch, atRest_driving hb 0x10#8,
      (writePageSendsBufA _ s.unit hr).1⟩) rfl rfl ⟨hs.calm, hs.undriven⟩

/-- W6 and E5, a wait that reads ready at once. -/
theorem reaches_wait {l l' : Label} {rb : List Bool} (hpc : s.pc = .lab l :: rest)
    (h : ∀ u, runLabel l u = onReturn u.pc (runWaitReady u) (doThen [] (toLabel l'))) (hrb : s.env.rb = true :: rb) :
    Reaches s { s with pc := .lab l' :: rest, env := { s.env with rb := rb } } :=
  hs.reaches_call (t := { s with env := { s.env with rb := rb } }) hpc h
    (fun b hb hr => ⟨{ b with polls := 0, pinLog := .readLevel .rb true :: b.pinLog }, hb,
      waitReadyReturnsWhenReady _ 0 rb hr hrb fun _ _ => .inl rfl⟩) rfl rfl ⟨hs.calm, hs.undriven⟩

/-- W7 and E6, a status that passes the unit. -/
theorem reaches_pass {l pass retry : Label} {v : Byte} {dq : List Byte} (hpc : s.pc = .lab l :: rest)
    (hl : l ∈ [Label.w7, .e6]) (h : ∀ u, runLabel l u = checkStatus l pass retry u) (hdq : s.env.dq = v :: dq)
    (hv : v.getLsbD 0 = false) :
    Reaches s { s with pc := .lab pass :: rest, env := { s.env with dq := dq },
                       cycleLog := [cmdWord 0x70#8, readWord v].reverse ++ s.cycleLog } := .of_step fun b hb => by
  have hstep := (Steady.at (s := s.scratched b) hs hb hpc).step_status
    (Steady.ready (s := s.scratched b) hs hb) hl (h _)
    (drawByte_script hdq)
  rw [hv, if_neg Bool.false_ne_true] at hstep
  exact ⟨(afterReadStatus v (s.scratched b)).scratch, atRest_sampled hb 0x70#8, hstep⟩

/-! ## The statements that call nothing -/

theorem reaches_goto {l l' : Label} (hpc : s.pc = .lab l :: rest)
    (h : ∀ b, runLabel l (s.scratched b) = doThen [] (toLabel l') (s.scratched b)) :
    Reaches s { s with pc := .lab l' :: rest } :=
  hs.reaches hpc fun _ ha hu => ha.step_own hu (h _) rfl rfl

theorem reaches_call {l l' r : Label} (hpc : s.pc = .lab l :: rest)
    (h : ∀ b, runLabel l (s.scratched b) = doThen [] (toCall l' r) (s.scratched b)) :
    Reaches s { s with pc := .lab l' :: .lab r :: rest } :=
  hs.reaches hpc fun _ ha hu => ha.step_own hu (h _) rfl rfl

/-- P1 and E1. -/
theorem reaches_unitStart {l l' : Label} (hpc : s.pc = .lab l :: rest)
    (h : ∀ b, runLabel l (s.scratched b) = doThen [.setRetry 0] (toLabel l') (s.scratched b)) :
    Reaches s { s with pc := .lab l' :: rest, retry := 0 } :=
  hs.reaches hpc fun _ ha hu => ha.step_own hu (h _) rfl rfl

/-- P9, W9 and E8. -/
theorem reaches_unitEnd {l l' : Label} {e : Report} (hpc : s.pc = .lab l :: rest)
    (h : ∀ b, runLabel l (s.scratched b) =
      doThen [.report e, .setRetry 0, .setK (s.k + 1)] (toLabel l') (s.scratched b)) :
    Reaches s { s with pc := .lab l' :: rest, k := s.k + 1, retry := 0, reports := s.reports ++ [e] } :=
  hs.reaches hpc fun _ ha hu => ha.step_own hu (h _) rfl rfl

/-! ## A block erased (42_operations R253) -/

/-- E1 to E8, one attempt. -/
theorem reaches_eraseUnit {v : Byte} {rb : List Bool} {dq : List Byte} (hpc : s.pc = .lab .e1 :: rest)
    (hk : s.k < s.count) (hrb : s.env.rb = true :: rb) (hdq : s.env.dq = s.idCache.bytes ++ v :: dq)
    (hv : v.getLsbD 0 = false) :
    Reaches s { s with
      pc := .lab .e1 :: rest, k := s.k + 1, retry := 0, env := { s.env with rb := rb, dq := dq },
      reports := s.reports ++ [.progress (s.unit * PAGES_PER_BLOCK) s.unit s.percent],
      cycleLog := (eraseWords s.idCache s.unit v).reverse ++ s.cycleLog } := by
  have hwords : (eraseWords s.idCache s.unit v).reverse ++ s.cycleLog = [cmdWord 0x70#8, readWord v].reverse ++
      (([cmdWord 0x60#8] ++ (blockAddr s.unit).map addrWord ++ [cmdWord 0xD0#8]).reverse ++
        ((readIdWords s.idCache.bytes).reverse ++ s.cycleLog)) := by
    rw [eraseWords, List.reverse_append, List.reverse_append, List.append_assoc, List.append_assoc]
  rw [hwords]
  refine .trans (reaches_unitStart (l' := .e2) hs hpc fun _ => if_pos hk) ?_
  refine .trans (reaches_goto (l' := .e3) (by exact hs) rfl fun _ => rfl) ?_
  refine .trans (reaches_call (l' := .i1) (r := .e4) (by exact hs) rfl fun _ => rfl) ?_
  refine .trans (reaches_idCheck (by exact hs) rfl hdq) ?_
  refine .trans (reaches_e4 (by exact hs) rfl) ?_
  refine .trans (reaches_wait (l' := .e6) (by exact hs) rfl (fun _ => rfl) hrb) ?_
  refine .trans (reaches_pass (by exact hs) rfl (by decide) (fun _ => rfl) rfl hv) ?_
  exact reaches_unitEnd (by exact hs) rfl fun _ => rfl

/-! ## A page written (42_operations R245) -/

/-- W1 and W2, the input file long enough. -/
theorem reaches_record {io : List Bool} (hpc : s.pc = .lab .w1 :: rest) (hk : s.k < s.count)
    (hio : s.env.io = true :: io) (hsrc : (s.k + 1) * 2112 ≤ s.source.length) :
    Reaches s { s with pc := .lab .w3 :: rest, retry := 0, env := { s.env with io := io },
                       bufA := s.bufA.writeBytes 0 ((s.source.drop (s.k * 2112)).take 2112) } := by
  intro b hb
  have hrun := (sourceRecordFillsBufA (s.scratched b) rest (Steady.at (s := s.scratched b) hs hb hpc)
    (Steady.undisturbed (s := s.scratched b) hs) hk).1
  rw [show drawIo (s.scratched b).env = _ from drawIo_script hio] at hrun
  exact ⟨2, { b with record := some ((s.source.drop (s.k * 2112)).take 2112),
                     written := { b.written with bufA := true } }, hb, hrun rfl hsrc⟩

/-- W1 to W9, one attempt. -/
theorem reaches_writeUnit {v : Byte} {rb io : List Bool} {bs dq : List Byte} (hpc : s.pc = .lab .w1 :: rest)
    (hk : s.k < s.count) (hwf : s.bufA.wf = true) (hio : s.env.io = true :: io)
    (hbs : bs = (s.source.drop (s.k * 2112)).take 2112) (hsrc : (s.k + 1) * 2112 ≤ s.source.length)
    (hrb : s.env.rb = true :: rb) (hdq : s.env.dq = s.idCache.bytes ++ v :: dq) (hv : v.getLsbD 0 = false) :
    Reaches s { s with
      pc := .lab .w1 :: rest, k := s.k + 1, retry := 0, env := { s.env with rb := rb, dq := dq, io := io },
      bufA := s.bufA.writeBytes 0 bs,
      reports := s.reports ++ [.progress s.unit (s.unit / PAGES_PER_BLOCK) s.percent],
      cycleLog := (programWords s.idCache s.unit bs v).reverse ++ s.cycleLog } := by
  have hlen : bs.length = PAGE_SIZE := by
    rw [hbs, List.length_take, List.length_drop]
    simp only [PAGE_SIZE]
    omega
  have hwords : (programWords s.idCache s.unit bs v).reverse ++ s.cycleLog = [cmdWord 0x70#8, readWord v].reverse ++
      ((writePageWords s.unit (s.bufA.writeBytes 0 bs).page).reverse ++
        ((readIdWords s.idCache.bytes).reverse ++ s.cycleLog)) := by
    rw [page_writeBytes hwf hlen, programWords, List.reverse_append, List.reverse_append, List.append_assoc,
      List.append_assoc]
  rw [hwords, hbs]
  refine .trans (reaches_record hs hpc hk hio hsrc) ?_
  refine .trans (reaches_goto (l' := .w4) (by exact hs) rfl fun _ => rfl) ?_
  refine .trans (reaches_call (l' := .i1) (r := .w5) (by exact hs) rfl fun _ => rfl) ?_
  refine .trans (reaches_idCheck (by exact hs) rfl hdq) ?_
  refine .trans (reaches_w5 (by exact hs) rfl) ?_
  refine .trans (reaches_wait (l' := .w7) (by exact hs) rfl (fun _ => rfl) hrb) ?_
  refine .trans (reaches_pass (by exact hs) rfl (by decide) (fun _ => rfl) rfl hv) ?_
  exact reaches_unitEnd (by exact hs) rfl fun _ => rfl

end

end Sys2Proof.Machine
end

/-! PROOF. One page read (42_operations R220 to R230, R236): the run from the head of a unit to the head of the next,
where the two reads agree at once, and where they differ on every attempt. -/
section
namespace Sys2Proof.Machine

open Statements

/-- The first `recordLen spare` bytes of a page written whole are the record (20_memory R71). -/
theorem readBytes_record {m : Memory} (hm : m.wf = true) {pg : List Byte} (h : pg.length = PAGE_SIZE) (spare : Bool) :
    (m.writeBytes 0 pg).readBytes 0 (recordLen spare) = pg.take (recordLen spare) := by
  have hle : recordLen spare ≤ PAGE_SIZE := by cases spare <;> decide
  rw [readBytes_take _ _ _ _ hle]
  exact congrArg (List.take _) (page_writeBytes hm h)

section

variable {s : State} {rest : List Pos} (hs : Steady s)
include hs

/-! ## The two reads of an attempt (42_operations R223 to R225) -/

theorem reaches_p4 {pg dq : List Byte} {rb : List Bool} (hpc : s.pc = .lab .p4 :: rest) (hlen : pg.length = PAGE_SIZE)
    (hrb : s.env.rb = true :: rb) (hdq : s.env.dq = pg ++ dq) :
    Reaches s { s with pc := .lab .p5 :: rest, env := { s.env with rb := rb, dq := dq },
                       bufA := s.bufA.writeBytes 0 pg,
                       cycleLog := (readPageWords s.unit pg).reverse ++ s.cycleLog } :=
  hs.reaches_call hpc (t := { s with
      env := { s.env with rb := rb, dq := dq }, bufA := s.bufA.writeBytes 0 pg,
      cycleLog := (readPageWords s.unit pg).reverse ++ s.cycleLog })
    (o := fun u => execReadPage u.unit .a u) (fun _ => rfl)
    (fun b hb hr => ⟨(afterReadPage s.unit .a 0 pg (s.scratched b)).scratch, atRest_sampled hb 0x30#8,
      execReadPage_scripted hr s.unit .a hlen hrb hdq⟩) rfl rfl ⟨hs.calm, hs.undriven⟩

theorem reaches_p5 {pg dq : List Byte} {rb : List Bool} (hpc : s.pc = .lab .p5 :: rest) (hlen : pg.length = PAGE_SIZE)
    (hrb : s.env.rb = true :: rb) (hdq : s.env.dq = pg ++ dq) :
    Reaches s { s with pc := .lab .p6 :: rest, env := { s.env with rb := rb, dq := dq },
                       bufB := s.bufB.writeBytes 0 pg,
                       cycleLog := (readPageWords s.unit pg).reverse ++ s.cycleLog } :=
  hs.reaches_call hpc (t := { s with
      env := { s.env with rb := rb, dq := dq }, bufB := s.bufB.writeBytes 0 pg,
      cycleLog := (readPageWords s.unit pg).reverse ++ s.cycleLog })
    (o := fun u => execReadPage u.unit .b u) (fun _ => rfl)
    (fun b hb hr => ⟨(afterReadPage s.unit .b 0 pg (s.scratched b)).scratch, atRest_sampled hb 0x30#8,
      execReadPage_scripted hr s.unit .b hlen hrb hdq⟩) rfl rfl ⟨hs.calm, hs.undriven⟩

/-- P4 to P6, and on by MATCH. -/
theorem reaches_compared {x y dq : List Byte} {rb : List Bool} (hpc : s.pc = .lab .p4 :: rest)
    (hA : s.bufA.wf = true) (hB : s.bufB.wf = true) (hx : x.length = PAGE_SIZE) (hy : y.length = PAGE_SIZE)
    (hrb : s.env.rb = true :: true :: rb) (hdq : s.env.dq = x ++ (y ++ dq)) :
    Reaches s { s with pc := .lab (if x = y then .p8 else .p7) :: rest, env := { s.env with rb := rb, dq := dq },
                       bufA := s.bufA.writeBytes 0 x, bufB := s.bufB.writeBytes 0 y,
                       cycleLog := (readPageWords s.unit y).reverse ++
                         ((readPageWords s.unit x).reverse ++ s.cycleLog) } := by
  refine .trans (reaches_p4 hs hpc hx hrb hdq) (.trans (reaches_p5 (by exact hs) rfl hy rfl rfl) ?_)
  have hpages : (s.bufA.writeBytes 0 x).page = (s.bufB.writeBytes 0 y).page ↔ x = y := by
    rw [page_writeBytes hA hx, page_writeBytes hB hy]
  split
  case isTrue h =>
    exact Steady.reaches (by exact hs) rfl fun _ ha hu => step_p6_match ha hu (beq_iff_eq.2 (hpages.2 h))
  case isFalse h =>
    exact Steady.reaches (by exact hs) rfl fun _ ha hu =>
      step_p6_mismatch ha hu fun hm => h (hpages.1 (beq_iff_eq.1 hm))

/-! ## The end of a page (42_operations R228 to R230) -/

/-- P8 and P9. -/
theorem reaches_appended {io : List Bool} (hpc : s.pc = .lab .p8 :: rest) (hio : s.env.io = true :: io) :
    Reaches s { s with
      pc := .lab .p1 :: rest, k := s.k + 1, retry := 0, env := { s.env with io := io },
      sink := s.sink ++ s.bufA.readBytes 0 (recordLen s.includeSpare),
      reports := s.reports ++ [.progress s.unit (s.unit / PAGES_PER_BLOCK) s.percent] } := by
  have hdraw : drawIo s.env = (true, { s.env with io := io }) := drawIo_script hio
  have hp8 : Reaches s { s with pc := .lab .p9 :: rest, env := { s.env with io := io },
                                sink := s.sink ++ s.bufA.readBytes 0 (recordLen s.includeSpare) } :=
    hs.reaches hpc fun b ha hu => by
      have hstep := step_p8 ha hu (congrArg Prod.fst hdraw)
      rw [show drawIo (s.scratched b).env = _ from hdraw] at hstep
      exact hstep
  exact hp8.trans (reaches_unitEnd (by exact hs) rfl fun _ => rfl)

/-! ## A page whose reads agree (42_operations R225) -/

/-- P1 to P9, one attempt. -/
theorem reaches_readUnit {pg dq : List Byte} {rb io : List Bool} (hpc : s.pc = .lab .p1 :: rest) (hk : s.k < s.count)
    (hA : s.bufA.wf = true) (hB : s.bufB.wf = true) (hlen : pg.length = PAGE_SIZE)
    (hrb : s.env.rb = true :: true :: rb) (hdq : s.env.dq = pg ++ (pg ++ dq)) (hio : s.env.io = true :: io) :
    Reaches s { s with
      pc := .lab .p1 :: rest, k := s.k + 1, retry := 0, env := { s.env with rb := rb, dq := dq, io := io },
      bufA := s.bufA.writeBytes 0 pg, bufB := s.bufB.writeBytes 0 pg,
      sink := s.sink ++ pg.take (recordLen s.includeSpare),
      reports := s.reports ++ [.progress s.unit (s.unit / PAGES_PER_BLOCK) s.percent],
      cycleLog := (readPageWords s.unit pg ++ readPageWords s.unit pg).reverse ++ s.cycleLog } := by
  rw [← readBytes_record hA hlen, List.reverse_append, List.append_assoc]
  refine .trans (reaches_unitStart (l' := .p2) hs hpc fun _ => if_pos hk) ?_
  refine .trans (reaches_goto (l' := .p3) (by exact hs) rfl fun _ => rfl) ?_
  refine .trans (reaches_goto (l' := .p4) (by exact hs) rfl fun _ => rfl) ?_
  refine .trans (reaches_compared (by exact hs) rfl hA hB hlen hlen hrb hdq) ?_
  rw [if_pos rfl]
  exact reaches_appended (by exact hs) rfl hio

/-! ## A page whose reads differ (42_operations R226, R227, R236) -/

/-- P7 below the limit and the attempt that follows, which finds a difference again. -/
theorem reaches_retried {x y dq : List Byte} {rb : List Bool} (hpc : s.pc = .lab .p7 :: rest) (hr : s.retry < 5)
    (hA : s.bufA.wf = true) (hB : s.bufB.wf = true) (hx : x.length = PAGE_SIZE) (hy : y.length = PAGE_SIZE)
    (hne : x ≠ y) (hrb : s.env.rb = true :: true :: rb) (hdq : s.env.dq = s.idCache.bytes ++ (x ++ (y ++ dq))) :
    Reaches s { s with
      pc := .lab .p7 :: rest, retry := s.retry + 1, env := { s.env with rb := rb, dq := dq },
      bufA := s.bufA.writeBytes 0 x, bufB := s.bufB.writeBytes 0 y,
      reports := s.reports ++ [.retry .read s.unit (s.retry + 1)],
      cycleLog := (readPageWords s.unit y).reverse ++ ((readPageWords s.unit x).reverse ++
        ((readIdWords s.idCache.bytes).reverse ++ s.cycleLog)) } := by
  have hcall : Reaches s { s with pc := .lab .i1 :: .lab .p4 :: rest, retry := s.retry + 1,
                                  reports := s.reports ++ [.retry .read s.unit (s.retry + 1)] } := fun b hb =>
    ⟨3, b, hb, mismatchIsRetried (s.scratched b) rest (Steady.at (s := s.scratched b) hs hb hpc)
      (Steady.undisturbed (s := s.scratched b) hs) hr⟩
  refine hcall.trans (.trans (reaches_idCheck (by exact hs) rfl hdq) ?_)
  have hcompared := reaches_compared (s := { s with
    pc := .lab .p4 :: rest, retry := s.retry + 1, reports := s.reports ++ [.retry .read s.unit (s.retry + 1)],
    env := { s.env with dq := x ++ (y ++ dq) }, cycleLog := (readIdWords s.idCache.bytes).reverse ++ s.cycleLog })
    hs rfl hA hB hx hy hrb rfl
  rwa [if_neg hne] at hcompared

/-- P7 at the limit: the page is logged. -/
theorem reaches_logged {io : List Bool} (hpc : s.pc = .lab .p7 :: rest) (hr : s.retry = 5)
    (hio : s.env.io = true :: io) :
    Reaches s { s with
      pc := .lab .p8 :: rest, env := { s.env with io := io }, badLog := s.badLog ++ [s.unit],
      badFile := s.badFile ++ badLine s.unit, reports := s.reports ++ [.giveUp .read s.unit] } := by
  have hdraw : drawIo s.env = (true, { s.env with io := io }) := drawIo_script hio
  refine hs.reaches hpc fun b ha hu => ?_
  have hstep := step_p7_logs ha hu hr (congrArg Prod.fst hdraw)
  rw [show drawIo (s.scratched b).env = _ from hdraw] at hstep
  exact hstep

end

end Sys2Proof.Machine
end

/-! PROOF. The preflight of an invocation (42_operations R210 to R218, 70_reset_and_hazards R301): S2 to S4 with their pin
events, from any lines. -/
section
namespace Sys2Proof.Machine

open Statements

/-! ## The preflight (42_operations R210, R215, R216) -/

theorem initLines_dqDir (ls : Lines) : (ls.afterAll initLines).dqDir = .inp := by
  simp [initLines, dqLines, Lines.after, Lines.event, Lines.setDir, Lines.setLevel]

/-- `s` with PC at S5, after S2 to S4 with R/B# ready and the readout `x`, InitLines having left the lines `ls`. -/
def State.captured (s : State) (ls : Lines) (x : DevId) (rb : List Bool) (dq : List Byte) : State :=
  { s with
    pc := [.lab .s5], env := { s.env with rb := rb, dq := dq },
    lines := ({ ls.turned .out with dq := 0x00#8 } : Lines).turned .inp, idRd := x, idCache := x, idValid := true,
    din := x.b4, written := { s.written with idRd := true, din := true }, reports := s.reports ++ [.id x],
    pinLog := (readIdEvents ls.dqDir x.bytes).reverse ++ (.readLevel .rb true :: (initEvents.reverse ++ s.pinLog)),
    cycleLog := (readIdWords x.bytes).reverse ++ s.cycleLog }

section

variable {s : State}

/-- InitLines drives lines and performs its 21 pin events, and nothing else (70_reset_and_hazards R301). -/
theorem applyAll_initLines (s : State) : applyAll initLines s =
    { s with lines := s.lines.afterAll initLines, pinLog := initEvents.reverse ++ s.pinLog } := by
  simp only [initLines, dqLines, List.map_cons, List.map_nil, List.cons_append, List.nil_append, applyAll_cons,
    applyAll_nil, afterAll_cons, afterAll_nil, applyPrim, Lines.after, initEvents, List.reverse_cons, List.reverse_nil]

theorem step_s2 {rest : List Pos} (ha : At .s2 rest s) (hu : Undisturbed s) :
    step s = .next { s with pc := .lab .s3 :: rest, lines := s.lines.afterAll initLines,
                            pinLog := initEvents.reverse ++ s.pinLog } := by
  rw [ha.step_own hu (next := toLabel .s3) rfl initLines_quiet (initLines_guards _), applyAll_initLines]
  rfl

theorem step_s3_ready {rest : List Pos} {rb : List Bool} (ha : At .s3 rest s) (hu : Undisturbed s)
    (hre : s.lines.re = true) (hrb : s.env.rb = true :: rb) :
    step s = .next { s with pc := .lab .s4 :: rest, env := { s.env with rb := rb },
                            pinLog := .readLevel .rb true :: s.pinLog } := by
  have hrun : runLabel .s3 s =
      doThen [.pin (.readLevel .rb true)] (toLabel .s4) { s with env := { s.env with rb := rb } } := by
    simp [runLabel, runS3, drawLevel_script hrb]
  exact ha.step_doThen hu hrun rfl (guardsPass_sample hre true [])

/-- S2 to S4, from any lines. -/
theorem run_preflight {x : DevId} {rb : List Bool} {dq : List Byte} (ha : At .s2 [] s) (hu : Undisturbed s)
    (hx : idSame x = false) (hrb : s.env.rb = true :: rb) (hdq : s.env.dq = x.bytes ++ dq) :
    Host.Core.run Sys2Proof.core 3 s = .next (s.captured (s.lines.afterAll initLines) x rb dq) := by
  have hs : ∀ pc ls e evs, Steady { s with pc := pc, lines := ls, env := e, pinLog := evs } := fun _ _ _ _ =>
    ⟨ha.running, hu.calm, hu.undriven, ha.unplaced⟩
  have hrest := initLines_atRest s.lines
  let u : State := { s with pc := [.lab .s3], lines := s.lines.afterAll initLines,
                            pinLog := initEvents.reverse ++ s.pinLog }
  let v : State := { u with pc := [.lab .s4], env := { s.env with rb := rb },
                            pinLog := .readLevel .rb true :: u.pinLog }
  have hu3 : step u = .next v :=
    step_s3_ready (Steady.at (hs _ _ _ _) hrest rfl) (hs _ _ _ _).undisturbed (atRest_latches hrest).2.2.2 hrb
  have hready : Ready v := (hs _ _ _ _).ready hrest
  obtain ⟨w, hw, _, hvalid⟩ := captureIdOrFault v [] hready (Steady.at (hs _ _ _ _) hrest rfl)
  obtain rfl := Host.Outcome.next.inj
    ((execReadId_scripted hready (show v.env.dq = x.bytes ++ dq from hdq)).symm.trans hw)
  exact (run_next (step_s2 ha hu) 2).trans ((run_next hu3 1).trans ((run_one v).trans (hvalid hx)))

end

end Sys2Proof.Machine
end

/-! PROOF. The host commands run to Done (42_operations R210): read_id by its seven steps, and the range commands by
the loop over units (R220, R238, R248), packaged once. -/
section
namespace Sys2Proof.Machine

open Statements

/-! ## From S0 to the operation (42_operations R210, R217) -/

/-- What S0 leaves (42_operations R212). -/
def State.loaded (s : State) (cmd : Cmd) (delay first count : Nat) (spare : Bool) (path : Token) : State :=
  { startInvocation s with
    cmd := cmd, delay := delay, first := first, count := count, includeSpare := spare, path := path, pc := [.lab .s1] }

/-- The first label of the operation that S6 calls for CMD (42_operations R210). -/
def Cmd.entry : Cmd → Label
  | .readId => .s7
  | .readFull => .p1
  | .readData => .p1
  | .writeFull => .w1
  | .eraseBlocks => .e1

section

variable {s : State}

/-- Before InitLines a state of an undisturbed invocation does not contend, whatever its lines are. -/
theorem at_early {l : Label} (hl : l ∈ [Label.s1, .s2]) (hr : s.outcome = .running) (hw : s.placed = none)
    (hd : s.driveIn = none) (hpc : s.pc = [.lab l]) (hlog : s.pinLog = []) : At l [] s where
  running := hr
  unplaced := hw
  pc := hpc
  owned := by
    have hset : s.linesSet = false := by
      simp only [List.mem_cons, List.not_mem_nil, or_false] at hl
      rcases hl with rfl | rfl <;> simp [State.linesSet, hpc, hlog]
    simp [State.contends, chipContends_undriven hd, hset]

/-- S1 of a write whose input opens. -/
theorem step_s1_write {rest : List Pos} {io : List Bool} (ha : At .s1 rest s) (hu : Undisturbed s)
    (hcmd : s.cmd = .writeFull) (hio : s.env.io = true :: io) :
    step s = .next { s with pc := .lab .s2 :: rest, env := { s.env with io := io } } := by
  have hstep := ((openStreamsByCommand s rest ha hu).2.1 hcmd).1
  rw [drawIo_script hio] at hstep
  exact hstep rfl

/-- S1 of a read whose output and bad.log open. -/
theorem step_s1_read {rest : List Pos} {io : List Bool} (ha : At .s1 rest s) (hu : Undisturbed s)
    (hcmd : s.cmd = .readFull ∨ s.cmd = .readData) (hsink : s.sink = []) (hio : s.env.io = true :: true :: io) :
    step s = .next { s with pc := .lab .s2 :: rest, env := { s.env with io := io } } := by
  have hstep := ((openStreamsByCommand s rest ha hu).2.2 hcmd).2.2
  rw [drawIo_script hio, drawIo_script (e := { s.env with io := true :: io }) rfl, ← hsink] at hstep
  exact hstep rfl rfl

theorem runS6_range (h : s.cmd ≠ .readId) : runS6 s = doThen [] (toCall s.cmd.entry .s7) s := by
  cases hc : s.cmd with
  | readId => exact absurd hc h
  | readFull | readData | writeFull | eraseBlocks => simp [runS6, hc, Cmd.entry]

theorem step_s5_continue {rest : List Pos} {gate : List Bool} (ha : At .s5 rest s) (hu : Undisturbed s)
    (hcmd : s.cmd ≠ .readId) (hgate : s.env.gate = true :: gate) :
    step s = .next { s with pc := .lab .s6 :: rest, env := { s.env with gate := gate } } := by
  have hstep := (gateBeforeRangeCommands s rest ha hu).2.1 hcmd
  rw [drawGate_script hgate] at hstep
  exact hstep rfl

/-- `s` where the operation of CMD begins, but for the scratch. -/
def State.entered (s : State) (x : DevId) (rb : List Bool) (dq : List Byte) (gate io : List Bool) : State :=
  { s with
    pc := [.lab s.cmd.entry, .lab .s7], env := { s.env with rb := rb, dq := dq, gate := gate, io := io },
    idCache := x, idValid := true, reports := s.reports ++ [.id x],
    cycleLog := (readIdWords x.bytes).reverse ++ s.cycleLog }

/-- From S2 into the operation, the host choosing Continue. -/
theorem RunsTo.entered {x : DevId} {rb gate io : List Bool} {dq : List Byte} {t : State} {P : State → Prop}
    (ha : At .s2 [] s) (hu : Undisturbed s) (hx : idSame x = false) (hcmd : s.cmd ≠ .readId)
    (hrb : s.env.rb = true :: rb) (hdq : s.env.dq = x.bytes ++ dq) (hgate : s.env.gate = true :: gate)
    (hio : s.env.io = io) (ht : Reaches (s.entered x rb dq gate io) t) (hP : ∀ b, P (t.scratched b)) : RunsTo s P := by
  let u : State := s.captured (s.lines.afterAll initLines) x rb dq
  have hs : ∀ pc e, Steady { u with pc := pc, env := e } := fun _ _ => ⟨ha.running, hu.calm, hu.undriven, ha.unplaced⟩
  have hrest : u.lines.atRest = true := atRest_sampled (initLines_atRest s.lines) 0x00#8
  have hs5 := step_s5_continue (Steady.at (hs [.lab .s5] u.env) hrest rfl) (hs _ _).undisturbed hcmd hgate
  have hs6 := (Steady.at (hs [.lab .s6] { u.env with gate := gate }) hrest rfl).step_own (hs _ _).undisturbed
    (runS6_range hcmd) rfl rfl
  subst hio
  exact .trans (run_preflight ha hu hx hrb hdq) (.step hs5 (.step hs6 (Reaches.runsTo ht hrest hP)))

end

/-! ## The loop over units (42_operations R220, R238, R248) -/

/-- What the units of an operation take and give, unit by unit: how many ready samples and stream answers each takes,
the bytes the chip drives in it, the cycle words it sends, its report, its record, and the page buffers before it. -/
structure Units where
  samples : Nat
  answers : Nat
  bytes : Nat → List Byte
  words : Nat → List CycleWord
  report : Nat → Report
  record : Nat → List Byte
  bufA : Nat → Memory
  bufB : Nat → Memory

/-- The state between units, `j` done and `m` to come; `s` is the state before them all, with the answers left after
them. -/
def Units.between (w : Units) (s : State) (j m : Nat) : State :=
  { s with
    k := j, retry := 0,
    env := { s.env with rb := List.replicate (w.samples * m) true ++ s.env.rb,
                        io := List.replicate (w.answers * m) true ++ s.env.io,
                        dq := (List.range' j m).flatMap w.bytes ++ s.env.dq },
    bufA := w.bufA j, bufB := w.bufB j, sink := s.sink ++ (List.range j).flatMap w.record,
    reports := s.reports ++ (List.range j).map w.report,
    cycleLog := ((List.range j).flatMap w.words).reverse ++ s.cycleLog }

/-- One unit more. -/
theorem Units.between_succ (w : Units) (s : State) (j m : Nat) : w.between s (j + 1) m =
    { w.between s j (m + 1) with
      k := j + 1,
      env := { s.env with rb := List.replicate (w.samples * m) true ++ s.env.rb,
                          io := List.replicate (w.answers * m) true ++ s.env.io,
                          dq := (List.range' (j + 1) m).flatMap w.bytes ++ s.env.dq },
      bufA := w.bufA (j + 1), bufB := w.bufB (j + 1), sink := (w.between s j (m + 1)).sink ++ w.record j,
      reports := (w.between s j (m + 1)).reports ++ [w.report j],
      cycleLog := (w.words j).reverse ++ (w.between s j (m + 1)).cycleLog } := by
  simp [Units.between, List.range_succ]

theorem Units.reaches_all (w : Units) (s : State) {n : Nat}
    (h : ∀ j m, j + (m + 1) = n → Reaches (w.between s j (m + 1)) (w.between s (j + 1) m)) :
    ∀ m j, j + m = n → Reaches (w.between s j m) (w.between s n 0)
  | 0, j, hj => by
    obtain rfl : j = n := hj
    exact .refl _
  | m + 1, j, hj => (h j m hj).trans (reaches_all w s h m (j + 1) (by omega))

/-- The operation from its entry to Done. -/
theorem Units.reaches_done (w : Units) {s : State} (hs : Steady s) (hpc : s.pc = [.lab s.cmd.entry, .lab .s7])
    (hcmd : s.cmd ≠ .readId)
    (h : ∀ j m, j + (m + 1) = s.count → Reaches (w.between s j (m + 1)) (w.between s (j + 1) m)) :
    Reaches (w.between s 0 s.count) { w.between s s.count 0 with pc := [.lab .s7], outcome := .done } := by
  have hentry : s.cmd.entry ∈ [Label.p1, .w1, .e1] := by
    cases hc : s.cmd with
    | readId => exact absurd hc hcmd
    | readFull | readData | writeFull | eraseBlocks => simp [Cmd.entry]
  exact (w.reaches_all s h s.count 0 (Nat.zero_add _)).trans
    (Machine.reaches_done (s := w.between s s.count 0) hs hentry hpc (Nat.lt_irrefl _))

/-- A range command from S2 to Done: the preflight, and then all its units. -/
theorem Units.runsTo_done (w : Units) {s : State} {x : DevId} {rb gate io : List Bool} {dq : List Byte}
    {P : State → Prop}
    (ha : At .s2 [] s) (hu : Undisturbed s) (hx : idSame x = false) (hcmd : s.cmd ≠ .readId)
    (hrb : s.env.rb = true :: (List.replicate (w.samples * s.count) true ++ rb))
    (hdq : s.env.dq = x.bytes ++ ((List.range' 0 s.count).flatMap w.bytes ++ dq)) (hgate : s.env.gate = true :: gate)
    (hio : s.env.io = List.replicate (w.answers * s.count) true ++ io) (hk : s.k = 0) (hr : s.retry = 0)
    (hA : s.bufA = w.bufA 0) (hB : s.bufB = w.bufB 0)
    (h : ∀ j m, j + (m + 1) = s.count →
      Reaches (w.between (s.entered x rb dq gate io) j (m + 1)) (w.between (s.entered x rb dq gate io) (j + 1) m))
    (hP : ∀ b, P (({ w.between (s.entered x rb dq gate io) s.count 0 with
      pc := [.lab .s7], outcome := .done } : State).scratched b)) : RunsTo s P := by
  refine RunsTo.entered ha hu hx hcmd hrb hdq hgate hio ?_ hP
  have hstart : s.entered x (List.replicate (w.samples * s.count) true ++ rb)
      ((List.range' 0 s.count).flatMap w.bytes ++ dq) gate (List.replicate (w.answers * s.count) true ++ io) =
      w.between (s.entered x rb dq gate io) 0 s.count := by
    simp [State.entered, Units.between, hk, hr, hA, hB]
  rw [hstart]
  exact w.reaches_done (s := s.entered x rb dq gate io) ⟨ha.running, hu.calm, hu.undriven, ha.unplaced⟩ rfl hcmd h

/-! ## read_id (42_operations R218) -/

theorem readIdEvents_length (x : DevId) : (readIdEvents .inp x.bytes).length = 112 := rfl

/-- Settles O56: S1, the preflight, then S5 to S7 without a gate and without an operation. -/
theorem readIdCommandRunsToDone : Obligations.ReadIdCommandRunsToDone := by
  intro s d x rb dq hu hrb hdq hx
  refine ⟨s.loaded .readId d 0 0 false [], hostCommand_loads hu.calm hu.undriven (.inl rfl), ?_⟩
  let u : State := { s.loaded .readId d 0 0 false [] with pc := [.lab .s2] }
  let v : State := u.captured (u.lines.afterAll initLines) x rb dq
  have hu' : ∀ pc, Undisturbed { v with pc := pc } := fun _ => ⟨hu.calm, hu.undriven⟩
  have hrest : v.lines.atRest = true := atRest_sampled (initLines_atRest u.lines) 0x00#8
  have hat : ∀ l, At l [] { v with pc := [.lab l] } := fun l =>
    Steady.at (s := { v with pc := [.lab l] }) ⟨rfl, hu.calm, hu.undriven, rfl⟩ hrest rfl
  have hs1 := (openStreamsByCommand (s.loaded .readId d 0 0 false []) []
    (at_early (by decide) rfl rfl hu.undriven rfl rfl) ⟨hu.calm, hu.undriven⟩).1 (.inl rfl)
  have hpreflight : Host.Core.run Sys2Proof.core 3 u = .next v :=
    run_preflight (at_early (by decide) rfl rfl hu.undriven rfl rfl) ⟨hu.calm, hu.undriven⟩ hx hrb hdq
  have hs5 := (gateBeforeRangeCommands _ [] (hat .s5) (hu' _)).1 rfl
  have hs6 := (hat .s6).step_own (hu' _) (ps := []) (next := toLabel .s7) rfl rfl rfl
  refine .step hs1 (.trans hpreflight (.step hs5 (.step hs6 (.step (step_s7 (hat .s7) (hu' _)) ⟨0, _, rfl, ?_⟩))))
  have hevents : ({ v with pc := [.lab .s7], outcome := .done } : State).events.length = 134 := by
    simp [State.events, v, State.captured, initLines_dqDir, readIdEvents_length, initEvents, u, State.loaded,
      startInvocation, State.reset]
  exact ⟨rfl, rfl, rfl, rfl, rfl, rfl, rfl, hevents, hrest, turned_dqDir _ _⟩

end Sys2Proof.Machine
end

/-! PROOF. The range commands run to Done (42_operations R225, R245, R253). -/
section
namespace Sys2Proof.Machine

open Statements

/-- A list read index by index. -/
theorem flatMap_eq_range {α β : Type} (l : List α) (d : α) (f : α → List β) :
    l.flatMap f = (List.range l.length).flatMap fun k => f (l.getD k d) := by
  have hl : l = (List.range l.length).map (l.getD · d) := List.ext_getElem (by simp) fun k h _ => by simp [h]
  conv_lhs => rw [hl, List.flatMap_map]

theorem length_flatMap_range {α : Type} {n c : Nat} {f : Nat → List α} (h : ∀ k, k < n → (f k).length = c) :
    ((List.range n).flatMap f).length = n * c := by
  have hsum : ((List.range n).map fun k => (f k).length).sum = (List.range n).length • c := by
    rw [← List.length_map (f := fun k => (f k).length)]
    refine List.sum_eq_card_nsmul _ _ fun y hy => ?_
    obtain ⟨k, hk, rfl⟩ := List.mem_map.1 hy
    exact h k (List.mem_range.1 hk)
  rw [List.length_flatMap, hsum, List.length_range, smul_eq_mul]

/-- A page buffer filled again and again, from `m` on with the pages `pg`. -/
def Memory.refilled (m : Memory) (pg : Nat → List Byte) : Nat → Memory
  | 0 => m
  | j + 1 => (Memory.refilled m pg j).writeBytes 0 (pg j)

theorem wf_refilled {m : Memory} (hm : m.wf = true) {pg : Nat → List Byte} :
    ∀ j, (∀ k, k < j → (pg k).length = PAGE_SIZE) → (m.refilled pg j).wf = true
  | 0, _ => hm
  | j + 1, h => wf_writeBytes _ (by rw [h j (Nat.lt_succ_self j), Nat.zero_add])
      (wf_refilled hm j fun k hk => h k (Nat.lt_succ_of_lt hk))

/-- The words of a trace kept newest first. -/
theorem reverse_logged (a b : List CycleWord) : (a.reverse ++ (b.reverse ++ [])).reverse = b ++ a := by simp

/-! ## erase_blocks (42_operations R248, R253) -/

/-- The blocks of an erase from `f` on, `st k` being the status after block `f + k`. -/
def eraseUnits (x : DevId) (f c : Nat) (st : Nat → Byte) : Units where
  samples := 1
  answers := 0
  bytes k := x.bytes ++ [st k]
  words k := eraseWords x (f + k) (st k)
  report k := .progress ((f + k) * 64) (f + k) ((k + 1) * 100 / c)
  record _ := []
  bufA _ := []
  bufB _ := []

/-- Settles O59: one unit after the other, each a single attempt. -/
theorem eraseBlocksRunsToDone : Obligations.EraseBlocksRunsToDone := by
  intro s d f c x sts rb gate dq hu hx hc hlen hpass hrb hdq hgate
  refine ⟨s.loaded .eraseBlocks d f c false [], hostCommand_loads hu.calm hu.undriven (.inr hc), ?_⟩
  let st : Nat → Byte := fun k => sts.getD k 0x00#8
  let w := eraseUnits x f c st
  let u : State := { s.loaded .eraseBlocks d f c false [] with pc := [.lab .s2] }
  let v : State := u.entered x rb dq gate s.env.io
  have hv : ∀ j m, Steady (w.between v j m) := fun _ _ => ⟨rfl, hu.calm, hu.undriven, rfl⟩
  have hs1 := (openStreamsByCommand (s.loaded .eraseBlocks d f c false []) []
    (at_early (by decide) rfl rfl hu.undriven rfl rfl) ⟨hu.calm, hu.undriven⟩).1 (.inr rfl)
  have hst : ∀ j, j < c → (st j).getLsbD 0 = false := fun j hj => hpass _ (by
    have hj' : j < sts.length := hlen ▸ hj
    simp [st, hj'])
  have hunit : ∀ j m, j + (m + 1) = c → Reaches (w.between v j (m + 1)) (w.between v (j + 1) m) := fun j m hj => by
    rw [w.between_succ, show w.record j = [] from rfl, List.append_nil]
    exact reaches_eraseUnit (s := w.between v j (m + 1)) (rest := [.lab .s7]) (hv j (m + 1)) rfl (show j < c by omega)
      rfl rfl (hst j (by omega))
  refine .step hs1 (w.runsTo_done (at_early (by decide) rfl rfl hu.undriven rfl rfl) ⟨hu.calm, hu.undriven⟩ hx
    Cmd.noConfusion (hrb.trans ?_) (hdq.trans ?_) hgate ?_ rfl rfl rfl rfl hunit fun b => ⟨rfl, rfl, rfl, rfl, rfl, ?_⟩)
  · simp [w, eraseUnits, State.loaded]
  · rw [List.append_assoc, flatMap_eq_range sts 0x00#8, hlen, List.range_eq_range']
    rfl
  · simp [w, eraseUnits]
    rfl
  · exact reverse_logged _ _

/-! ## write_full (42_operations R238, R245) -/

/-- The pages of a write from `f` on, `pg k` being record `k` of the input and `st k` the status after it. -/
def writeUnits (x : DevId) (f c : Nat) (pg : Nat → List Byte) (st : Nat → Byte) : Units where
  samples := 1
  answers := 1
  bytes k := x.bytes ++ [st k]
  words k := programWords x (f + k) (pg k) (st k)
  report k := .progress (f + k) ((f + k) / 64) ((k + 1) * 100 / c)
  record _ := []
  bufA := Memory.refilled [] pg
  bufB _ := []

/-- Settles O58: one unit after the other, each a single attempt with its record of the input file. -/
theorem writeFullRunsToDone : Obligations.WriteFullRunsToDone := by
  intro s d f c path x sts rb gate io dq hu hx hc hlen hpass hsrc hrb hdq hgate hio
  refine ⟨s.loaded .writeFull d f c false path, hostCommand_loads hu.calm hu.undriven (.inr hc), ?_⟩
  let st : Nat → Byte := fun k => sts.getD k 0x00#8
  let pg : Nat → List Byte := fun k => (s.source.drop (k * 2112)).take 2112
  let w := writeUnits x f c pg st
  let u : State := { s.loaded .writeFull d f c false path with
    pc := [.lab .s2], env := { s.env with draws := s.env.draws + 1, io := List.replicate c true ++ io } }
  let v : State := u.entered x rb dq gate io
  have hv : ∀ j m, Steady (w.between v j m) := fun _ _ => ⟨rfl, hu.calm, hu.undriven, rfl⟩
  have hs1 : step (s.loaded .writeFull d f c false path) = .next u :=
    step_s1_write (at_early (by decide) rfl rfl hu.undriven rfl rfl) ⟨hu.calm, hu.undriven⟩ rfl hio
  have hst : ∀ j, j < c → (st j).getLsbD 0 = false := fun j hj => hpass _ (by
    have hj' : j < sts.length := hlen ▸ hj
    simp [st, hj'])
  have hpg : ∀ k, k < c → (pg k).length = PAGE_SIZE := fun k hk => by
    simp only [pg, List.length_take, List.length_drop, PAGE_SIZE]
    omega
  have hunit : ∀ j m, j + (m + 1) = c → Reaches (w.between v j (m + 1)) (w.between v (j + 1) m) := fun j m hj => by
    have hwf : (w.bufA j).wf = true := wf_refilled (m := []) rfl j fun k hk => hpg k (by omega)
    have hk : (w.between v j (m + 1)).k = j := rfl
    have hsource : (w.between v j (m + 1)).source = s.source := rfl
    have hlong : (j + 1) * 2112 ≤ s.source.length := (Nat.mul_le_mul_right 2112 (by omega : j + 1 ≤ c)).trans hsrc
    rw [w.between_succ, show w.record j = [] from rfl, List.append_nil]
    exact reaches_writeUnit (s := w.between v j (m + 1)) (bs := pg j) (rest := [.lab .s7]) (hv j (m + 1)) rfl
      (show j < c by omega) hwf rfl (by rw [hk, hsource]) (by rw [hk, hsource]; exact hlong) rfl rfl (hst j (by omega))
  refine .step hs1 (w.runsTo_done (at_early (by decide) rfl rfl hu.undriven rfl rfl) ⟨hu.calm, hu.undriven⟩ hx
    Cmd.noConfusion (hrb.trans ?_) (hdq.trans ?_) hgate ?_ rfl rfl rfl rfl hunit fun b => ⟨rfl, rfl, rfl, rfl, rfl, ?_⟩)
  · simp [w, writeUnits, u, State.loaded]
  · rw [List.append_assoc, flatMap_eq_range sts 0x00#8, hlen, List.range_eq_range']
    rfl
  · simp [w, writeUnits, u, State.loaded]
  · exact reverse_logged _ _

/-! ## read_full and read_data (42_operations R220, R225) -/

/-- The pages `pg k` of a read from `f` on, each read twice the same. -/
def readUnits (f c : Nat) (spare : Bool) (pg : Nat → List Byte) : Units where
  samples := 2
  answers := 1
  bytes k := pg k ++ pg k
  words k := readPageWords (f + k) (pg k) ++ readPageWords (f + k) (pg k)
  report k := .progress (f + k) ((f + k) / 64) ((k + 1) * 100 / c)
  record k := (pg k).take (recordLen spare)
  bufA := Memory.refilled [] pg
  bufB := Memory.refilled [] pg

/-- Either read command, `cmd` and `spare` being those of Validate (42_operations R212). -/
theorem readCommand_runsToDone {s : State} {cmd : Cmd} {spare : Bool} {d f : Nat} {path : Token} {x : DevId}
    {pages : List (List Byte)}
    {rb gate io : List Bool} {dq : List Byte} (hcmd : cmd = .readFull ∨ cmd = .readData) (hu : Undisturbed s)
    (hx : idSame x = false) (hpages : ∀ pg ∈ pages, pageBytes pg)
    (hrb : s.env.rb = true :: List.replicate (2 * pages.length) true ++ rb)
    (hdq : s.env.dq = x.bytes ++ pages.flatMap (fun pg => pg ++ pg) ++ dq) (hgate : s.env.gate = true :: gate)
    (hio : s.env.io = true :: true :: List.replicate pages.length true ++ io) :
    RunsTo (s.loaded cmd d f pages.length spare path) fun t =>
      t.outcome = .done ∧ exitCode t = some 0 ∧ t.sink = pages.flatMap (·.take (recordLen spare)) ∧
      t.badLog = [] ∧ t.badFile = s.badFile ∧
      t.reports = .id x :: (List.range pages.length).map
        (fun k => Report.progress (f + k) ((f + k) / 64) ((k + 1) * 100 / pages.length)) ∧
      t.cycleLog.length = 7 + pages.length * 4238 := by
  let pg : Nat → List Byte := fun k => pages.getD k []
  let w := readUnits f pages.length spare pg
  let u : State := { s.loaded cmd d f pages.length spare path with
    pc := [.lab .s2], env := { s.env with draws := s.env.draws + 1, io := List.replicate pages.length true ++ io } }
  let v : State := u.entered x rb dq gate io
  have hs1 : step (s.loaded cmd d f pages.length spare path) = .next u :=
    step_s1_read (at_early (by decide) rfl rfl hu.undriven rfl rfl) ⟨hu.calm, hu.undriven⟩ hcmd rfl hio
  have hv : ∀ j m, Steady (w.between v j m) := fun _ _ => ⟨rfl, hu.calm, hu.undriven, rfl⟩
  have hpg : ∀ k, k < pages.length → (pg k).length = PAGE_SIZE := fun k hk => hpages _ (by simp [pg, hk])
  have hentry : cmd.entry = .p1 := by rcases hcmd with rfl | rfl <;> rfl
  have hunit : ∀ j m, j + (m + 1) = pages.length → Reaches (w.between v j (m + 1)) (w.between v (j + 1) m) :=
    fun j m hj => by
    have hwf : (Memory.refilled [] pg j).wf = true := wf_refilled rfl j fun k hk => hpg k (by omega)
    have hpc : (w.between v j (m + 1)).pc = [.lab .p1, .lab .s7] := congrArg (fun l => [Pos.lab l, .lab .s7]) hentry
    have hdq : ((pg j ++ pg j) ++ (List.range' (j + 1) m).flatMap w.bytes) ++ dq =
        pg j ++ (pg j ++ ((List.range' (j + 1) m).flatMap w.bytes ++ dq)) := by simp only [List.append_assoc]
    have h := reaches_readUnit (s := w.between v j (m + 1)) (hv j (m + 1)) hpc (show j < pages.length by omega)
      hwf hwf (hpg j (by omega)) rfl hdq rfl
    rw [← hpc] at h
    rw [w.between_succ]
    exact h
  refine .step hs1 (w.runsTo_done (at_early (by decide) rfl rfl hu.undriven rfl rfl) ⟨hu.calm, hu.undriven⟩ hx
    ?_ (hrb.trans ?_) (hdq.trans ?_) hgate ?_ rfl rfl rfl rfl hunit fun b => ⟨rfl, rfl, ?_, rfl, rfl, rfl, ?_⟩)
  · rcases hcmd with rfl | rfl <;> exact Cmd.noConfusion
  · simp [w, readUnits, u, State.loaded]
  · rw [List.append_assoc, flatMap_eq_range pages [], List.range_eq_range']
    rfl
  · simp [w, readUnits, u, State.loaded]
  · exact (flatMap_eq_range pages [] _).symm
  · have hlength : ((List.range pages.length).flatMap w.words).length = pages.length * 4238 :=
      length_flatMap_range fun k hk => by simp [w, readUnits, readPageWords_length _ (hpg k hk)]
    have hwords : (readIdWords x.bytes).length = 7 := rfl
    change (((List.range pages.length).flatMap w.words).reverse ++ ((readIdWords x.bytes).reverse ++ [])).length = _
    simp only [List.length_append, List.length_reverse, hlength, hwords, List.length_nil]
    omega

/-- Settles O57: one unit after the other, each a single attempt. -/
theorem readCommandsRunToDone : Obligations.ReadCommandsRunToDone := by
  intro s d f path x pages rb gate io dq spare hu hx hne hpages hrb hdq hgate hio
  have hcount : 1 ≤ pages.length := List.length_pos_iff.2 hne
  cases spare with
  | true => exact ⟨_, hostCommand_loads hu.calm hu.undriven (.inr hcount),
      readCommand_runsToDone (.inl rfl) hu hx hpages hrb hdq hgate hio⟩
  | false => exact ⟨_, hostCommand_loads hu.calm hu.undriven (.inr hcount),
      readCommand_runsToDone (.inr rfl) hu hx hpages hrb hdq hgate hio⟩

end Sys2Proof.Machine
end

/-! PROOF. A page that no retry makes readable (42_operations R226 to R228, R236): six attempts, each of two reads
that differ. -/
section
namespace Sys2Proof.Machine

open Statements

/-- What the chip drives for the two reads of an attempt that finds a difference. -/
structure Mismatch where
  first : List Byte
  second : List Byte
  differ : first ≠ second
  firstFull : first.length = PAGE_SIZE
  secondFull : second.length = PAGE_SIZE

/-- The bytes of an attempt with its ID check. -/
def Mismatch.bytes (x : DevId) (p : Mismatch) : List Byte := x.bytes ++ (p.first ++ p.second)

/-- The words of such an attempt. -/
def Mismatch.words (x : DevId) (unit : Nat) (p : Mismatch) : List CycleWord :=
  readIdWords x.bytes ++ readPageWords unit p.first ++ readPageWords unit p.second

theorem Mismatch.words_length (x : DevId) (unit : Nat) (p : Mismatch) :
    (p.words x unit).length = 7 + 2119 + 2119 := by
  rw [words, List.length_append, List.length_append, readPageWords_length _ p.firstFull,
    readPageWords_length _ p.secondFull]
  rfl

theorem wf_filled {m : Memory} (hm : m.wf = true) {pg : List Byte} (h : pg.length = PAGE_SIZE) :
    (m.writeBytes 0 pg).wf = true := wf_writeBytes pg (by rw [h, Nat.zero_add]) hm

/-- A page buffer after the first reads, or the second reads, of the attempts `ps`. -/
def Memory.reread (m : Memory) (f : Mismatch → List Byte) (ps : List Mismatch) : Memory :=
  ps.foldl (fun m p => m.writeBytes 0 (f p)) m

theorem wf_reread {f : Mismatch → List Byte} (hf : ∀ p, (f p).length = PAGE_SIZE) :
    ∀ (ps : List Mismatch) {m : Memory}, m.wf = true → (m.reread f ps).wf = true
  | [], _, hm => hm
  | p :: ps, _, hm => wf_reread hf ps (wf_filled hm (hf p))

/-- The retries of a page, one Retry report each, while RETRY is below MAX_RETRIES. -/
theorem reaches_retries {rest : List Pos} {rb : List Bool} {dq : List Byte} :
    ∀ (ps : List Mismatch) {s : State}, Steady s →
    s.pc = .lab .p7 :: rest → s.retry + ps.length ≤ 5 → s.bufA.wf = true → s.bufB.wf = true →
    s.env.rb = List.replicate (2 * ps.length) true ++ rb → s.env.dq = ps.flatMap (Mismatch.bytes s.idCache) ++ dq →
    Reaches s { s with
      retry := s.retry + ps.length, env := { s.env with rb := rb, dq := dq },
      bufA := s.bufA.reread Mismatch.first ps, bufB := s.bufB.reread Mismatch.second ps,
      reports := s.reports ++ (List.range' s.retry ps.length).map fun j => .retry .read s.unit (j + 1),
      cycleLog := (ps.flatMap (Mismatch.words s.idCache s.unit)).reverse ++ s.cycleLog }
  | [], s, _, _, _, _, _, hrb, hdq => by
    have henv : s.env = { s.env with rb := rb, dq := dq } := by
      rw [← show s.env.rb = rb from hrb, ← show s.env.dq = dq from hdq]
    rw [← henv]
    simpa [Memory.reread] using Reaches.refl s
  | p :: ps, s, hs, hpc, hr, hA, hB, hrb, hdq => by
    have hlen : s.retry + (ps.length + 1) ≤ 5 := hr
    have hdq' : s.env.dq =
        s.idCache.bytes ++ (p.first ++ (p.second ++ (ps.flatMap (Mismatch.bytes s.idCache) ++ dq))) := by
      rw [hdq, List.flatMap_cons, Mismatch.bytes]
      simp only [List.append_assoc]
    have hone := reaches_retried hs hpc (by omega) hA hB p.firstFull p.secondFull p.differ hrb hdq'
    refine hone.trans ?_
    have hmore := reaches_retries ps (s := { s with
      pc := .lab .p7 :: rest, retry := s.retry + 1,
      env := { s.env with rb := List.replicate (2 * ps.length) true ++ rb,
                          dq := ps.flatMap (Mismatch.bytes s.idCache) ++ dq },
      bufA := s.bufA.writeBytes 0 p.first, bufB := s.bufB.writeBytes 0 p.second,
      reports := s.reports ++ [.retry .read s.unit (s.retry + 1)],
      cycleLog := (readPageWords s.unit p.second).reverse ++ ((readPageWords s.unit p.first).reverse ++
        ((readIdWords s.idCache.bytes).reverse ++ s.cycleLog)) }) hs rfl (show s.retry + 1 + ps.length ≤ 5 by omega)
      (wf_filled hA p.firstFull) (wf_filled hB p.secondFull) rfl rfl
    have hretry : s.retry + (ps.length + 1) = s.retry + 1 + ps.length := by omega
    have hreports :
        (s.reports ++ (List.range' s.retry (ps.length + 1)).map fun j => Report.retry .read s.unit (j + 1)) =
        s.reports ++ [.retry .read s.unit (s.retry + 1)] ++
          (List.range' (s.retry + 1) ps.length).map fun j => .retry .read s.unit (j + 1) := by
      rw [List.range'_succ, List.map_cons, List.append_assoc, List.singleton_append]
    have hwords : ((p :: ps).flatMap (Mismatch.words s.idCache s.unit)).reverse ++ s.cycleLog =
        (ps.flatMap (Mismatch.words s.idCache s.unit)).reverse ++ ((readPageWords s.unit p.second).reverse ++
          ((readPageWords s.unit p.first).reverse ++ ((readIdWords s.idCache.bytes).reverse ++ s.cycleLog))) := by
      simp [Mismatch.words]
    rw [List.length_cons, hretry, hreports, hwords, hpc]
    exact hmore

/-- P1 to P9 with a first attempt and five retries that all find a difference. -/
theorem reaches_unreadable {s : State} {rest : List Pos} {rb io : List Bool} {dq : List Byte} (p0 : Mismatch)
    (ps : List Mismatch) (hs : Steady s) (hpc : s.pc = .lab .p1 :: rest) (hk : s.k < s.count) (hlen : ps.length = 5)
    (hA : s.bufA.wf = true) (hB : s.bufB.wf = true)
    (hrb : s.env.rb = true :: true :: (List.replicate (2 * ps.length) true ++ rb))
    (hdq : s.env.dq = p0.first ++ (p0.second ++ (ps.flatMap (Mismatch.bytes s.idCache) ++ dq)))
    (hio : s.env.io = true :: true :: io) :
    Reaches s { s with
      pc := .lab .p1 :: rest, k := s.k + 1, retry := 0, env := { s.env with rb := rb, dq := dq, io := io },
      bufA := s.bufA.reread Mismatch.first (p0 :: ps), bufB := s.bufB.reread Mismatch.second (p0 :: ps),
      badLog := s.badLog ++ [s.unit], badFile := s.badFile ++ badLine s.unit,
      sink := s.sink ++ (s.bufA.reread Mismatch.first (p0 :: ps)).readBytes 0 (recordLen s.includeSpare),
      reports := s.reports ++ ((List.range' 0 ps.length).map fun j => .retry .read s.unit (j + 1)) ++
        [.giveUp .read s.unit] ++ [.progress s.unit (s.unit / PAGES_PER_BLOCK) s.percent],
      cycleLog := (ps.flatMap (Mismatch.words s.idCache s.unit)).reverse ++
        ((readPageWords s.unit p0.second).reverse ++ ((readPageWords s.unit p0.first).reverse ++ s.cycleLog)) } := by
  refine .trans (reaches_unitStart (l' := .p2) hs hpc fun _ => if_pos hk) ?_
  refine .trans (reaches_goto (l' := .p3) (by exact hs) rfl fun _ => rfl) ?_
  refine .trans (reaches_goto (l' := .p4) (by exact hs) rfl fun _ => rfl) ?_
  refine .trans (reaches_compared (by exact hs) rfl hA hB p0.firstFull p0.secondFull hrb hdq) ?_
  rw [if_neg p0.differ]
  refine .trans (reaches_retries ps (by exact hs) rfl (by simp [hlen]) (wf_filled hA p0.firstFull)
    (wf_filled hB p0.secondFull) rfl rfl) ?_
  refine .trans (reaches_logged (by exact hs) rfl (by simp [hlen]) hio) ?_
  exact reaches_appended (by exact hs) rfl rfl

/-- Settles O60: six attempts, and what they leave read off the state reached. -/
theorem unreadablePageIsRetriedFiveTimes : Obligations.UnreadablePageIsRetriedFiveTimes := by
  intro s a0 b0 a1 b1 a2 b2 a3 b3 a4 b4 a5 b5 dq rb io hready hrest hA hB ha hk hpages h0 h1 h2 h3 h4 h5 hdq hrb hio
  have hfull : ∀ pg ∈ [a0, b0, a1, b1, a2, b2, a3, b3, a4, b4, a5, b5], pg.length = PAGE_SIZE := hpages
  have hs : Steady s := ⟨hready.running, hready.calm, hready.undriven, ha.unplaced⟩
  let p0 : Mismatch := ⟨a0, b0, h0, hfull _ (by simp), hfull _ (by simp)⟩
  let p1 : Mismatch := ⟨a1, b1, h1, hfull _ (by simp), hfull _ (by simp)⟩
  let p2 : Mismatch := ⟨a2, b2, h2, hfull _ (by simp), hfull _ (by simp)⟩
  let p3 : Mismatch := ⟨a3, b3, h3, hfull _ (by simp), hfull _ (by simp)⟩
  let p4 : Mismatch := ⟨a4, b4, h4, hfull _ (by simp), hfull _ (by simp)⟩
  let p5 : Mismatch := ⟨a5, b5, h5, hfull _ (by simp), hfull _ (by simp)⟩
  have hbytes : s.env.dq =
      p0.first ++ (p0.second ++ ([p1, p2, p3, p4, p5].flatMap (Mismatch.bytes s.idCache) ++ dq)) := by
    rw [hdq]
    simp only [p0, p1, p2, p3, p4, p5, List.flatMap_cons, List.flatMap_nil, Mismatch.bytes, List.append_assoc,
      List.append_nil]
  have hrecord : (s.bufA.reread Mismatch.first [p0, p1, p2, p3, p4, p5]).readBytes 0 (recordLen s.includeSpare) =
      a5.take (recordLen s.includeSpare) :=
    readBytes_record (wf_reread Mismatch.firstFull [p0, p1, p2, p3, p4] hA) p5.firstFull _
  have hreach := reaches_unreadable p0 [p1, p2, p3, p4, p5] hs ha.pc hk rfl hA hB hrb hbytes hio
  rw [hrecord] at hreach
  refine hreach.runsTo hrest fun b => ⟨rfl, hs.running, rfl, rfl, rfl, rfl, rfl, ?_, ?_⟩
  · exact List.append_assoc _ _ _
  · change (([p1, p2, p3, p4, p5].flatMap (Mismatch.words s.idCache s.unit)).reverse ++
      ((readPageWords s.unit b0).reverse ++ ((readPageWords s.unit a0).reverse ++ s.cycleLog))).length = _
    have hfirst : (readPageWords s.unit a0).length = 2119 := readPageWords_length _ p0.firstFull
    have hsecond : (readPageWords s.unit b0).length = 2119 := readPageWords_length _ p0.secondFull
    simp only [List.length_append, List.length_reverse, List.flatMap_cons, List.flatMap_nil, List.length_nil,
      Mismatch.words_length, hfirst, hsecond]
    omega

end Sys2Proof.Machine
end

/-! PROOF. The fatal faults and the recovered conditions (60_exceptions R260 to R268): the fatal abort, the command line that
fails a check, and which label finds which condition. -/
section
namespace Sys2Proof.Statements

open Machine

/-! ## The fatal abort (60_exceptions R268, R270) -/

/-- Settles O46: a raise is the last primitive of its run, whatever follows it in its statement. -/
theorem fatalFaultEndsTheRun : Obligations.FatalFaultEndsTheRun :=
  ⟨fun _ f info ps hr hu => ⟨runPrims_raise hr hu.calm hu.undriven f info ps, rfl⟩, rfl, rfl, rfl, rfl, rfl⟩

/-! ## UsageError (42_operations R212, 60_exceptions R261) -/

/-- At the start of an invocation the lines are unspecified, so that no chip contends (10_state R47). -/
theorem chipContends_startInvocation (s : State) : (startInvocation s).chipContends = false := by
  have hset : (startInvocation s).linesSet = false := rfl
  rw [State.chipContends, hset, Bool.and_false]

/-- A UsageError raised at S0: the chip may drive DQ there, and no interrupt is due. -/
theorem raise_usageError {s : State} (hc : s.interruptIn = none) :
    runPrims [.raise .usageError .none] (startInvocation s) =
      .next (raiseFault .usageError .none (tick (startInvocation s))) := by
  have hdue : (startInvocation s).interruptIn ≠ some 0 := by
    rw [startInvocation_interruptIn, hc]
    exact Option.some_ne_none 0 |>.symm
  simp only [runPrims, List.map, runRow, if_neg hdue, chipContends_startInvocation]
  rfl

theorem usageFault_raised (s : State) (lines : List (List Token)) :
    UsageFault s (raiseFault .usageError .none (tick (startInvocation { s with commands := lines }))) :=
  ⟨⟨rfl, rfl⟩, rfl, rfl, ⟨rfl, rfl, rfl⟩, ⟨rfl, rfl, rfl⟩, rfl⟩

/-- Check 4 of 42_operations R212. -/
theorem hostCommand_noCount (cmd : Cmd) (d f : Nat) (spare : Bool) (path : Token) {s : State} (hc : s.interruptIn = none)
    (hcmd : cmd ≠ .readId) : ∃ t, hostCommand cmd d f 0 spare path s = .next t ∧ UsageFault s t :=
  ⟨_, (if_pos ⟨hcmd, rfl⟩).trans (raise_usageError hc), usageFault_raised s s.commands⟩

/-- Settles O25: checks 1 to 3 are the decoder's, check 4 is the host command's, and both raise the same fault. -/
theorem failedChecksAreUsageErrors : Obligations.FailedChecksAreUsageErrors := by
  refine ⟨fun s line rest r hc hk hhost hline hdec => ?_, fun s d f path i hc hi => ?_⟩
  · have hstep : step s = rejectCommand { s with commands := rest } := by
      simp only [step, step_host hk hhost, hostWork, hline, hdec]
    exact ⟨_, hstep.trans (raise_usageError (s := { s with commands := rest }) hc),
      usageFault_raised s rest, rfl⟩
  · simp only [List.mem_cons, List.not_mem_nil, or_false] at hi
    rcases hi with rfl | rfl | rfl | rfl
    · exact hostCommand_noCount .readFull d f true path hc Cmd.noConfusion
    · exact hostCommand_noCount .readData d f false path hc Cmd.noConfusion
    · exact hostCommand_noCount .writeFull d f false path hc Cmd.noConfusion
    · exact hostCommand_noCount .eraseBlocks d f false [] hc Cmd.noConfusion

/-! ## The recovered conditions (60_exceptions R260, R266, R267) -/

section

variable {s : State} {l : Label} {c : Condition}

/-- A condition found under a test. -/
theorem found_iff {p : Prop} [Decidable p] {x : Condition} : (if p then some x else none) = some c ↔ c = x ∧ p := by
  rw [Option.ite_none_right_eq_some, Option.some_inj, and_comm, eq_comm]

theorem conditionAt_i3_iff : conditionAt .i3 s = some c ↔ c = .idDrift ∧ s.idRd ≠ s.idCache :=
  found_iff.trans (and_congr_right fun _ => bne_iff_ne)

theorem conditionAt_p6_iff : conditionAt .p6 s = some c ↔
    c = .contentMismatch ∧ ∃ a, a < 2112 ∧ Memory.read s.bufA a ≠ Memory.read s.bufB a := by
  have hdiffer : ¬s.pagesMatch = true ↔ ∃ a, a < 2112 ∧ Memory.read s.bufA a ≠ Memory.read s.bufB a := by
    simp [pagesMatch_iff]
  rw [← hdiffer, ← found_iff, ite_not]
  rfl

theorem conditionAt_status_iff (hl : l ∈ [Label.w7, .e6]) :
    conditionAt l s = some c ↔ c = .programOrEraseStatusError ∧ s.status.getLsbD 0 = true := by
  rw [conditionAt_status hl, found_iff]

/-- Where a failed attempt is taken up again, one more retry is made while RETRY is below the limit. -/
theorem conditionAt_retry_iff (hl : l ∈ [Label.p7, .w8, .e7]) :
    conditionAt l s = some c ↔ c = .unitExhausted ∧ 5 ≤ s.retry := by
  have hif : conditionAt l s = if s.retry < 5 then none else some .unitExhausted := by
    simp only [List.mem_cons, List.not_mem_nil, or_false] at hl
    rcases hl with rfl | rfl | rfl <;> rfl
  rw [hif, ← Nat.not_lt, ← found_iff, ite_not]

/-- WHICH LABEL FINDS WHICH CONDITION, and in which states. -/
theorem conditionAt_eq_some_iff : conditionAt l s = some c ↔
    (c = .idDrift ∧ l = .i3 ∧ s.idRd ≠ s.idCache) ∨
    (c = .contentMismatch ∧ l = .p6 ∧ ∃ a, a < 2112 ∧ Memory.read s.bufA a ≠ Memory.read s.bufB a) ∨
    (c = .programOrEraseStatusError ∧ l ∈ [Label.w7, .e6] ∧ s.status.getLsbD 0 = true) ∨
    (c = .unitExhausted ∧ l ∈ [Label.p7, .w8, .e7] ∧ 5 ≤ s.retry) := by
  cases l with
  | i3 => rw [conditionAt_i3_iff]; simp
  | p6 => rw [conditionAt_p6_iff]; simp
  | w7 | e6 => rw [conditionAt_status_iff (by decide)]; simp
  | p7 | w8 | e7 => rw [conditionAt_retry_iff (by decide)]; simp
  | _ => simp [conditionAt]

/-- W8 and E7 with no attempt left, whatever RETRY is beyond the limit. -/
theorem statusError_exhausted {here again done : Label} {kind : Kind} (h : conditionAt here s = some c) :
    statusError here kind again done s =
      doThen [.logFail kind s.unit, .report (.giveUp kind s.unit)] (toLabel done) s := by
  simp only [statusError, h]

variable {rest : List Pos}

/-- One more attempt at P7, W8 or E7: RETRY counts it, and no log is written. -/
theorem step_retries (ha : At l rest s) (hu : Undisturbed s) (hl : l ∈ [Label.p7, .w8, .e7]) (hr : s.retry < 5) :
    ∃ t, step s = .next t ∧ t.outcome = .running ∧ t.retry = s.retry + 1 ∧ t.badLog = s.badLog ∧
      t.failLog = s.failLog := by
  simp only [List.mem_cons, List.not_mem_nil, or_false] at hl
  rcases hl with rfl | rfl | rfl
  · exact ⟨_, step_p7_retries ha hu hr, ha.running, rfl, rfl, rfl⟩
  · exact ⟨_, (statusErrorIsRetriedOrGivenUp s rest _ _ _ _ hu (.inl ⟨rfl, rfl, rfl, rfl⟩) ha).1 hr, ha.running, rfl, rfl,
      rfl⟩
  · exact ⟨_, (statusErrorIsRetriedOrGivenUp s rest _ _ _ _ hu (.inr ⟨rfl, rfl, rfl, rfl⟩) ha).1 hr, ha.running, rfl, rfl,
      rfl⟩

/-- No attempt left at W8 or E7: the unit goes to FAIL_LOG, and the run goes on. -/
theorem step_exhausted (ha : At l rest s) (hu : Undisturbed s) (hl : l ∈ [Label.w8, .e7]) (hc : conditionAt l s = some c) :
    ∃ t, step s = .next t ∧ t.outcome = .running ∧ t.retry = s.retry ∧ t.failLog.length = s.failLog.length + 1 := by
  simp only [List.mem_cons, List.not_mem_nil, or_false] at hl
  rcases hl with rfl | rfl
  · exact ⟨_, ha.step_own hu (statusError_exhausted hc) rfl rfl, ha.running, rfl, List.length_append⟩
  · exact ⟨_, ha.step_own hu (statusError_exhausted hc) rfl rfl, ha.running, rfl, List.length_append⟩

end

/-- Settles O43: the table of conditions and labels, and then the step at each of these labels. -/
theorem recoveredConditions : Obligations.RecoveredConditions := by
  refine ⟨⟨rfl, rfl, rfl, rfl⟩, fun l s c => conditionAt_eq_some_iff, fun s l rest ha hu =>
    ⟨fun hc => ?_, fun hc => ?_, fun hl hc => ?_, fun hl hc => step_exhausted ha hu hl hc⟩⟩
  · obtain ⟨rfl, hne⟩ : l = .i3 ∧ s.idRd ≠ s.idCache := by simpa using conditionAt_eq_some_iff.1 hc
    exact (driftRestartsUncounted s rest ha hu).1 hne
  · obtain ⟨rfl, hdiffer⟩ : l = .p6 ∧ ∃ a, a < 2112 ∧ Memory.read s.bufA a ≠ Memory.read s.bufB a := by
      simpa using conditionAt_eq_some_iff.1 hc
    exact (matchAcceptsThePage s rest ha hu).2 hdiffer
  · exact step_retries ha hu hl (retry_lt_of_conditionAt hl hc)

end Sys2Proof.Statements
end

/-! PROOF. The host interrupt (60_exceptions R275) and the ready check (R262): a row stopped before one of its primitives, and
the form every sequencer statement but S3 has, from which both what a due interrupt does to it and that it never raises
PowerOrWiringFault are read off. -/
section
namespace Sys2Proof.Machine

/-! ## A row stopped by the host -/

/-- A row that the run outlives has passed its first primitive: nothing was due, no guard stopped it, and it went on. -/
theorem runRow_cons_running {p : Prim} {q : List Pos} {row : Row} {s t : State} (h : runRow ((p, q) :: row) s = .next t)
    (ht : t.outcome = .running) : s.outcome = .running ∧ s.chipContends = false ∧
      primGuard p s.lines (decide (s.driveIn = some 0)) = none ∧ (applyPrim p (tick s)).outcome = .running ∧
      runRow row (applyPrim p (tick s)) = .next t := by
  have hr : s.outcome = .running := by
    by_contra hr
    rw [runRow_ended hr, Host.Outcome.next.injEq] at h
    exact hr (h ▸ ht)
  have hi : s.interruptIn ≠ some 0 := by
    intro hi
    simp only [runRow, hr, hi, if_true, Host.Outcome.next.injEq] at h
    exact absurd (h ▸ ht) RunOutcome.noConfusion
  simp only [runRow, hr, hi, if_true, if_false] at h
  cases hc : s.chipContends with
  | true => simp [hc] at h
  | false =>
    cases hg : primGuard p s.lines (decide (s.driveIn = some 0)) with
    | some f => simp [hc, hg] at h
    | none =>
      by_cases ho : (applyPrim p (tick s)).outcome = .running
      · exact ⟨hr, rfl, rfl, ho, by simpa [hc, hg, ho] using h⟩
      · simp only [hc, hg, ho, Bool.false_eq_true, if_false, Host.Outcome.next.injEq] at h
        cases h
        exact absurd ht ho

/-- A primitive that nothing stops and that does not end the run. -/
theorem runRow_cons_passes {p : Prim} {q : List Pos} {row : Row} {s : State} (hr : s.outcome = .running)
    (hi : s.interruptIn ≠ some 0) (hc : s.chipContends = false)
    (hg : primGuard p s.lines (decide (s.driveIn = some 0)) = none) (ho : (applyPrim p (tick s)).outcome = .running) :
    runRow ((p, q) :: row) s = runRow row (applyPrim p (tick s)) := by
  simp [runRow, hr, hi, hc, hg, ho]

/-- No primitive looks at the host's countdown. -/
theorem applyPrim_countdown (p : Prim) (s : State) (i : Option Nat) :
    applyPrim p { s with interruptIn := i } = { applyPrim p s with interruptIn := i } := by
  cases p with
  | memWrite x _ _ => cases x <;> rfl
  | _ => rfl

/-- THE HOST STOPS A ROW before its primitive `n`: the first `n` are done, and PC is at the statement of primitive `n`. -/
theorem runRow_interruptedAt {row : Row} {s t : State} {n : Nat} (h : n < row.length)
    (hn : runRow (row.take n) { s with interruptIn := none } = .next t) (ht : t.outcome = .running) :
    runRow row { s with interruptIn := some n } = .next { t with outcome := .aborted, pc := row[n].2 ++ t.pc } := by
  induction row generalizing s n with
  | nil => exact absurd h (Nat.not_lt_zero n)
  | cons e row ih =>
    cases n with
    | zero =>
      cases hn
      have hr : s.outcome = .running := ht
      simp only [runRow, hr, if_true]
      rfl
    | succ n =>
      obtain ⟨hr, hc, hg, ho, hrow⟩ := runRow_cons_running hn ht
      have hsame : ∀ i, applyPrim e.1 { tick s with interruptIn := i } = { applyPrim e.1 (tick s) with interruptIn := i } :=
        applyPrim_countdown e.1 (tick s)
      have hnone : applyPrim e.1 (tick { s with interruptIn := none }) =
          { applyPrim e.1 (tick s) with interruptIn := none } := hsame none
      have hsome : applyPrim e.1 (tick { s with interruptIn := some (n + 1) }) =
          { applyPrim e.1 (tick s) with interruptIn := some n } := hsame (some n)
      have hpass : runRow (e :: row) { s with interruptIn := some (n + 1) } =
          runRow row { applyPrim e.1 (tick s) with interruptIn := some n } := by
        rw [← hsome]
        refine runRow_cons_passes hr (by simp) hc hg ?_
        rw [hnone] at ho
        rw [hsome]
        exact ho
      rw [hpass]
      exact ih (Nat.lt_of_succ_lt_succ h) (hnone ▸ hrow)

/-- A due interrupt is taken before the first primitive of a row. -/
theorem runRow_due {row : Row} {s : State} (hne : row ≠ []) (hr : s.outcome = .running) (hi : s.interruptIn = some 0) :
    ∃ e ∈ row, runRow row s = .next ((interrupted s).standing e.2) := by
  obtain ⟨e, row, rfl⟩ := List.exists_cons_of_ne_nil hne
  exact ⟨e, List.mem_cons_self, by simp only [runRow, hr, hi, if_true]⟩

theorem runPrims_due {ps : List Prim} {s : State} (hne : ps ≠ []) (hr : s.outcome = .running)
    (hi : s.interruptIn = some 0) : runPrims ps s = .next (interrupted s) := by
  obtain ⟨e, he, hrow⟩ := runRow_due (row := ps.map fun p => (p, [])) (by simpa using hne) hr hi
  obtain ⟨p, _, rfl⟩ := List.mem_map.1 he
  exact hrow

/-! ## The byte index in the data phases (10_state R33) -/

/-- A loop over bytes whose body is `m` primitives long: its primitive `m * i + j` is primitive `j` of byte `i`. -/
theorem byteLoop_getElem? {body : Byte → Nat → Row} {m j i : Nat} (hlen : ∀ v i, (body v i).length = m) (hj : j < m)
    {vs : List Byte} (hi : i < vs.length) (start : Nat) :
    (byteLoop body vs start)[m * i + j]? = (body vs[i] (start + i))[j]? := by
  induction vs generalizing i start with
  | nil => exact absurd hi (Nat.not_lt_zero i)
  | cons v vs ih =>
    cases i with
    | zero =>
      rw [byteLoop, Nat.mul_zero, Nat.zero_add, List.getElem?_append_left (by rw [hlen]; exact hj)]
      rfl
    | succ i =>
      have hoff : m * (i + 1) + j - m = m * i + j := by rw [Nat.mul_succ]; omega
      rw [byteLoop, List.getElem?_append_right (by rw [hlen, Nat.mul_succ]; omega), hlen, hoff,
        ih (Nat.lt_of_succ_lt_succ hi) (start + 1), Nat.add_right_comm, Nat.add_assoc start]
      rfl

/-- Where PC stands in a byte of DataOut: 8 lines and a Pause of DriveByte, and then WeStrobe. -/
theorem writeByte_position (v : Byte) (i : Nat) {j : Nat} (hj : j < 13) :
    ((writeByte .dataOut 1 v i)[j]?).map (·.2) = some
      (if j < 8 then [.stmt .driveByte 0 j, .stmt .dataOut 1 i]
       else if j = 8 then [.stmt .driveByte 1 0, .stmt .dataOut 1 i]
       else [.stmt .weStrobe (j - 9) 0, .stmt .dataOut 2 i]) := by
  interval_cases j <;> rfl

/-- Where PC stands in a byte of DataIn: RE# and a Pause, the 8 samples, and then DIN, RE# and a Pause. -/
theorem readByte_position (v : Byte) (i : Nat) {j : Nat} (hj : j < 13) :
    ((calls .dataIn 1 i (dataIn1 v))[j]?).map (·.2) = some
      (if j < 2 then [.stmt .dataIn1 j 0, .stmt .dataIn 1 i]
       else if j < 10 then [.stmt .dataIn1 3 (j - 2), .stmt .dataIn 1 i]
       else [.stmt .dataIn1 (j - 6) 0, .stmt .dataIn 1 i]) := by
  interval_cases j <;> rfl

/-! ## The form of a sequencer statement (42_operations R211) -/

/-- A primitive that does not raise PowerOrWiringFault. -/
def Prim.noWiringFault : Prim → Bool
  | .raise .powerOrWiringFault _ => false
  | _ => true

/-- A row of such primitives, each at statements of the procedures called (10_state R33). -/
def CalledRow (row : Row) : Prop := ∀ e ∈ row, e.1.noWiringFault = true ∧ ∀ q ∈ e.2, q.isStmt = true

/-- `o` is a transaction or a WaitReady called from `s`: a row with at least one primitive, after answers drawn, and where
the wait never ends PC put in its loop. -/
inductive CalledFrom (s : State) : Host.Outcome State Fault Refusal → Prop
  | row (e : Env) {row : Row} (hne : row ≠ []) (hrow : CalledRow row) : CalledFrom s (runRow row { s with env := e })
  | waits (e : Env) {row : Row} (inner : List Pos) (hne : row ≠ []) (hrow : CalledRow row) :
    CalledFrom s (onReturn s.pc (runRow row { s with env := e }) fun t => .next (t.standing inner))

/-- `o` is a row of the statement's own primitives, at least one and none that raises PowerOrWiringFault, after answers
drawn. -/
def OwnRow (s : State) (o : Host.Outcome State Fault Refusal) : Prop :=
  ∃ (e : Env) (ps : List Prim), ps ≠ [] ∧ ps.all Prim.noWiringFault = true ∧ o = runPrims ps { s with env := e }

/-- THE TWO FORMS of a sequencer statement: its own primitives, or a call and, once it has returned, its own primitives. -/
inductive StatementOf (s : State) : Host.Outcome State Fault Refusal → Prop
  | own {o : Host.Outcome State Fault Refusal} (h : OwnRow s o) : StatementOf s o
  | call {o : Host.Outcome State Fault Refusal} {f : State → Host.Outcome State Fault Refusal} (ho : CalledFrom s o)
    (hf : ∀ u, OwnRow u (f u)) : StatementOf s (onReturn s.pc o f)

/-! ## The rows called -/

theorem PhaseRow.called {reads : Bool} {row : Row} (h : PhaseRow reads row) : CalledRow row := by
  refine fun e he => ⟨?_, (h e he).2⟩
  have hp := (h e he).1
  cases hc : e.1 with
  | raise f i => rw [hc] at hp; cases hp
  | _ => rfl

@[simp] theorem calledRow_append {a b : Row} : CalledRow (a ++ b) ↔ CalledRow a ∧ CalledRow b := List.forall_mem_append

@[simp] theorem calledRow_stmt {q : Proc} {n : Nat} {p : Prim} : CalledRow (stmt q n p) ↔ p.noWiringFault = true := by
  simp [CalledRow, stmt, Pos.isStmt]

@[simp] theorem calledRow_calls {q : Proc} {n i : Nat} {row : Row} : CalledRow (calls q n i row) ↔ CalledRow row := by
  simp only [CalledRow, calls, List.forall_mem_map, List.forall_mem_append, List.forall_mem_singleton, Pos.isStmt,
    and_true]

@[simp] theorem calledRow_cmd (cur : Dir) (c : Byte) : CalledRow (cmdPhase cur c) := (phaseRow_cmd cur c).called
@[simp] theorem calledRow_addr (cur : Dir) (a : List Byte) : CalledRow (addrPhase cur a) := (phaseRow_addr cur a).called
@[simp] theorem calledRow_dataOut (cur : Dir) (ds : List Byte) : CalledRow (dataOutPhase cur ds) :=
  (phaseRow_dataOut cur ds).called
@[simp] theorem calledRow_dataIn (cur : Dir) (vs : List Byte) : CalledRow (dataInPhase cur vs) :=
  (phaseRow_dataIn cur vs).called

@[simp] theorem calledRow_busySamples (start n : Nat) : CalledRow (busySamples start n) := by
  induction n generalizing start with
  | zero => exact List.forall_mem_nil _
  | succ n ih => simp [busySamples, busySample, ih, Prim.noWiringFault]

@[simp] theorem calledRow_waitReady (w : Wait) : CalledRow (waitReady w) := by
  unfold waitReady timeoutSample
  split <;> simp [Prim.noWiringFault]

theorem waitReady_ne_nil (w : Wait) : waitReady w ≠ [] := by
  unfold waitReady
  split <;> exact List.cons_ne_nil _ _

section

variable (s : State)

theorem calledFrom_readId : CalledFrom s (execReadId s) :=
  .row _ (by simp [readIdRow, stmt]) (by simp [readIdRow, Prim.noWiringFault])

theorem calledFrom_readStatus : CalledFrom s (execReadStatus s) :=
  .row _ (by simp [readStatusRow, stmt]) (by simp [readStatusRow, Prim.noWiringFault])

theorem calledFrom_writePage (p : Nat) : CalledFrom s (execWritePage p s) :=
  .row s.env (by simp [writePageRow, calls, cmdPhase, stmt]) (by simp [writePageRow])

theorem calledFrom_eraseBlock (b : Nat) : CalledFrom s (execEraseBlock b s) :=
  .row s.env (by simp [eraseBlockRow, calls, cmdPhase, stmt]) (by simp [eraseBlockRow])

theorem calledFrom_waitReady : CalledFrom s (runWaitReady s) := by
  simp only [runWaitReady]
  split
  · exact .row _ (waitReady_ne_nil _) (calledRow_waitReady _)
  · exact .row _ (waitReady_ne_nil _) (calledRow_waitReady _)
  · exact .waits _ _ (waitReady_ne_nil _) (calledRow_waitReady _)

theorem calledFrom_readPage (p : Nat) (x : Buf) : CalledFrom s (execReadPage p x s) := by
  have hne : ∀ w, readPageWait s.lines.dqDir p w ≠ [] := fun w => by
    simp [readPageWait, readPageOpen, calls, cmdPhase, stmt]
  have hrow : ∀ w, CalledRow (readPageWait s.lines.dqDir p w) := fun w => by simp [readPageWait, readPageOpen]
  simp only [execReadPage]
  split
  · exact .row _ (List.append_ne_nil_of_left_ne_nil (hne _) _)
      (calledRow_append.2 ⟨hrow _, by simp [readPageData, Prim.noWiringFault]⟩)
  · exact .row _ (hne _) (hrow _)
  · exact .waits _ _ (hne _) (hrow _)

theorem calledFrom_waitLoop : CalledFrom s (runWaitLoop s) := by
  unfold runWaitLoop
  split
  · exact .row s.env (List.cons_ne_nil _ _) (by simp [timeoutSample, Prim.noWiringFault])
  · exact .waits s.env _ (List.cons_ne_nil _ _) (by simp [busySample, Prim.noWiringFault])

end

/-! ## Each label's statement -/

section

variable {s : State}

theorem ownRow_runPrims (e : Env) {ps : List Prim} (hne : ps ≠ []) (h : ps.all Prim.noWiringFault = true) :
    OwnRow s (runPrims ps { s with env := e }) := ⟨e, ps, hne, h, rfl⟩

theorem ownRow_doThen (e : Env) {ps : List Prim} {next : List Pos → List Pos} (h : ps.all Prim.noWiringFault = true) :
    OwnRow s (doThen ps next { s with env := e }) :=
  ownRow_runPrims e (by simp) (by rw [List.all_append, h]; rfl)

theorem ownRow_goto (u : State) (next : List Pos → List Pos) : OwnRow u (doThen [] next u) := ownRow_doThen u.env rfl

theorem ownRow_raiseHostIo (e : Env) {pre : List Prim} (h : pre.all Prim.noWiringFault = true) :
    OwnRow s (raiseHostIo pre { s with env := e }) :=
  ownRow_runPrims { e with draws := e.draws + 1 } (by simp) (by rw [List.all_append, h]; rfl)

theorem ownRow_ite {c : Prop} [Decidable c] {o o' : Host.Outcome State Fault Refusal} (h : OwnRow s o)
    (h' : OwnRow s o') : OwnRow s (if c then o else o') := by
  split
  · exact h
  · exact h'

/-- S1 opens what CMD asks for, or raises HostIoError. -/
theorem ownRow_s1 : OwnRow s (runS1 s) := by
  unfold runS1
  split
  case h_1 | h_2 =>
    exact ownRow_ite (ownRow_ite (ownRow_doThen _ rfl) (ownRow_raiseHostIo _ rfl)) (ownRow_raiseHostIo _ rfl)
  case h_3 => exact ownRow_ite (ownRow_doThen _ rfl) (ownRow_raiseHostIo _ rfl)
  case h_4 | h_5 => exact ownRow_goto s _

theorem ownRow_p7 : OwnRow s (runP7 s) := by
  unfold runP7
  split
  · exact ownRow_doThen s.env rfl
  · exact ownRow_ite (ownRow_doThen _ rfl) (ownRow_raiseHostIo _ rfl)

theorem ownRow_w2 : OwnRow s (runW2 s) := by
  unfold runW2
  split
  · exact ownRow_raiseHostIo s.env rfl
  · exact ownRow_ite (ownRow_raiseHostIo s.env rfl) (ownRow_doThen s.env rfl)

theorem ownRow_statusError (here again done : Label) (kind : Kind) : OwnRow s (statusError here kind again done s) := by
  unfold statusError
  split <;> exact ownRow_doThen s.env rfl

theorem statementOf_checkStatus (here pass retry : Label) : StatementOf s (checkStatus here pass retry s) :=
  .call (calledFrom_readStatus s) fun u => by
    split <;> exact ownRow_goto u _

/-- EVERY STATEMENT BUT S3 has one of the two forms. -/
theorem statementOf_runLabel {l : Label} (hl : l ≠ .s3) (s : State) : StatementOf s (runLabel l s) := by
  cases l with
  | s3 => exact absurd rfl hl
  | s1 => exact .own ownRow_s1
  | s2 => exact .own (ownRow_doThen s.env rfl)
  | s4 =>
    exact .call (calledFrom_readId s) fun u =>
      ownRow_ite (ownRow_runPrims u.env (List.cons_ne_nil _ _) rfl) (ownRow_doThen u.env rfl)
  | s5 =>
    exact .own (ownRow_ite (ownRow_goto s _)
      (ownRow_ite (ownRow_doThen _ rfl) (ownRow_runPrims _ (List.cons_ne_nil _ _) rfl)))
  | s6 => simp only [runLabel, runS6]; split <;> exact .own (ownRow_goto s _)
  | s7 => exact .own (ownRow_runPrims s.env (List.cons_ne_nil _ _) rfl)
  | i3 => simp only [runLabel, runI3]; split <;> exact .own (ownRow_goto s _)
  | p6 => simp only [runLabel, runP6]; split <;> exact .own (ownRow_goto s _)
  | p7 => exact .own ownRow_p7
  | w2 => exact .own ownRow_w2
  | i1 | p2 | w3 | w4 | e2 | e3 => exact .own (ownRow_goto s _)
  | p9 | w9 | e8 => exact .own (ownRow_doThen s.env rfl)
  | p1 | e1 => exact .own (ownRow_ite (ownRow_doThen s.env rfl) (ownRow_goto s _))
  | p3 => exact .own (ownRow_ite (ownRow_goto s _) (ownRow_goto s _))
  | p8 => exact .own (ownRow_ite (ownRow_doThen _ rfl) (ownRow_raiseHostIo _ rfl))
  | w1 => exact .own (ownRow_ite (ownRow_doThen _ rfl) (ownRow_goto s _))
  | i2 => exact .call (calledFrom_readId s) fun u => ownRow_goto u _
  | p4 => exact .call (calledFrom_readPage s _ .a) fun u => ownRow_goto u _
  | p5 => exact .call (calledFrom_readPage s _ .b) fun u => ownRow_goto u _
  | w5 => exact .call (calledFrom_writePage s _) fun u => ownRow_goto u _
  | e4 => exact .call (calledFrom_eraseBlock s _) fun u => ownRow_goto u _
  | w6 | e5 => exact .call (calledFrom_waitReady s) fun u => ownRow_goto u _
  | w7 | e6 => exact statementOf_checkStatus _ _ _
  | w8 | e7 => exact .own (ownRow_statusError _ _ _ _)

end

/-! ## A due interrupt (60_exceptions R275) -/

/-- `o` is `s` aborted: nothing else has changed but the answers drawn, and PC, which may have gone to the first statement
called. -/
def AbortedAt (s : State) (o : Host.Outcome State Fault Refusal) : Prop :=
  ∃ (inner : List Pos) (env : Env),
    o = .next { s with outcome := .aborted, interruptIn := none, env := env, pc := inner ++ s.pc } ∧
      ∀ q ∈ inner, q.isStmt = true

section

variable {s : State} {o : Host.Outcome State Fault Refusal} (hr : s.outcome = .running) (hi : s.interruptIn = some 0)

theorem abortedAt_interrupted (s : State) : AbortedAt s (.next (interrupted s)) := ⟨[], s.env, rfl, List.forall_mem_nil _⟩

/-- A call that the host has stopped does not return. -/
theorem AbortedAt.onReturn {f : State → Host.Outcome State Fault Refusal} (h : AbortedAt s o) :
    AbortedAt s (onReturn s.pc o f) := by
  obtain ⟨inner, e, rfl, hinner⟩ := h
  exact ⟨inner, e, onReturn_stopped rfl fun h => RunOutcome.noConfusion h.1, hinner⟩

include hr hi

theorem abortedAt_runPrims {e : Env} {ps : List Prim} (hne : ps ≠ []) : AbortedAt s (runPrims ps { s with env := e }) :=
  ⟨[], e, runPrims_due hne hr hi, List.forall_mem_nil _⟩

theorem OwnRow.abortedAt (h : OwnRow s o) : AbortedAt s o := by
  obtain ⟨e, ps, hne, _, rfl⟩ := h
  exact abortedAt_runPrims hr hi hne

theorem abortedAt_runRow {e : Env} {row : Row} (hne : row ≠ []) (hrow : CalledRow row) :
    AbortedAt s (runRow row { s with env := e }) := by
  obtain ⟨x, hx, heq⟩ := runRow_due (s := { s with env := e }) hne hr hi
  exact ⟨x.2, e, heq, (hrow x hx).2⟩

theorem CalledFrom.abortedAt (h : CalledFrom s o) : AbortedAt s o := by
  cases h with
  | row e hne hrow => exact abortedAt_runRow hr hi hne hrow
  | waits e inner hne hrow => exact (abortedAt_runRow hr hi hne hrow).onReturn

theorem StatementOf.abortedAt (h : StatementOf s o) : AbortedAt s o := by
  cases h with
  | own h => exact h.abortedAt hr hi
  | call ho hf => exact (ho.abortedAt hr hi).onReturn

/-- At every label. -/
theorem abortedAt_runLabel (l : Label) : AbortedAt s (runLabel l s) := by
  by_cases hl : l = .s3
  · subst hl
    simp only [runLabel, runS3]
    split
    · exact abortedAt_runPrims hr hi (by simp)
    · exact abortedAt_runPrims hr hi (List.cons_ne_nil _ _)
  · exact (statementOf_runLabel hl s).abortedAt hr hi

/-- In a wait's loop PC stays at the sample. -/
theorem runWaitLoop_due : runWaitLoop s = .next ((interrupted s).standing [waitLoop]) := by
  unfold runWaitLoop
  split
  · simp only [timeoutSample, stmt, List.cons_append, runRow, hr, hi, if_true]
    rfl
  · refine onReturn_stopped ?_ fun h => RunOutcome.noConfusion h.1
    simp only [busySample, stmt, List.cons_append, runRow, hr, hi, if_true]
    rfl

/-- A step with nothing to do. -/
theorem step_idle_due (h : nextWork s = .idle) : AbortedAt s (step s) := by
  have hstep : step s = .next (interrupted s) := by simp [step, h, stayIdle, hr, hi]
  rw [hstep]
  exact abortedAt_interrupted s

/-- A STEP TAKES A DUE INTERRUPT at any PC, there being no command line to take. -/
theorem step_due (hw : s.placed = none) (hk : s.contends = false) (hc : s.pc.head? = some .s0 → s.commands = []) :
    AbortedAt s (step s) := by
  have hseq : nextWork s = seqWork s := by simp [nextWork, hk, hr, hw]
  match hp : s.pc with
  | [] => exact step_idle_due hr hi (by simp [hseq, seqWork, hp])
  | .s0 :: rest =>
    have hnone : s.commands = [] := hc (by rw [hp]; rfl)
    exact step_idle_due hr hi (by simp [hseq, seqWork, hp, hostWork, hnone])
  | .lab l :: rest =>
    rw [step_label hr hk hw hp]
    exact abortedAt_runLabel hr hi l
  | .stmt q n i :: rest =>
    by_cases hl : Pos.stmt q n i = waitLoop
    · rw [hl] at hp
      rw [step_wait hr hk hw hp, runWaitLoop_due (s := { s with pc := rest }) hr hi]
      exact ⟨[], s.env, by rw [hp]; rfl, List.forall_mem_nil _⟩
    · exact step_idle_due hr hi (by simp [hseq, seqWork, hp, hl])

end

/-- A command line that is taken, whatever it says, is one primitive of an invocation that starts. -/
theorem step_takesLine {s : State} {line : List Token} {rest : List (List Token)} (hk : s.contends = false)
    (h : s.outcome ≠ .running ∨ (s.pc = [.s0] ∧ s.placed = none)) (hline : s.commands = line :: rest) :
    ∃ p, hostPrim p ∧ step s = runPrims [p] (startInvocation { s with commands := rest }) := by
  cases hdec : decodeCommand line with
  | ok i =>
    obtain ⟨p, hp, hexec⟩ := exec_command (decodeCommand_isCommand hdec) { s with commands := rest }
    exact ⟨p, hp, by simp only [step, step_host hk h, hostWork, hline, hdec, hexec]⟩
  | error r => exact ⟨_, .inl rfl, by simp only [step, step_host hk h, hostWork, hline, hdec, rejectCommand]⟩

/-- Settles O47: rows by `runRow_interruptedAt`, steps by the form of the statement PC names, and the byte index by the
length of a byte's row. -/
theorem interruptStopsBetweenPrimitives : Obligations.InterruptStopsBetweenPrimitives := by
  refine ⟨fun row s t n h => runRow_interruptedAt h, fun s hr hw hk hi hc => step_due hr hi hw hk hc,
    fun s line rest hr hw hk hi hpc hline => ?_, fun ds i j hi hj => ?_, fun vs i j hi hj => ?_⟩
  · obtain ⟨p, _, hstep⟩ := step_takesLine hk (.inr ⟨hpc, hw⟩) hline
    exact ⟨_, hstep.trans (runPrims_due (s := startInvocation { s with commands := rest }) (List.cons_ne_nil _ _) rfl hi),
      rfl, rfl, rfl, rfl, rfl, rfl, rfl⟩
  · have hrow : dataOutPhase .out ds = byteLoop (writeByte .dataOut 1) ds 0 := rfl
    rw [hrow, byteLoop_getElem? (m := 13) (body := writeByte .dataOut 1) (fun _ _ => rfl) hj hi, Nat.zero_add]
    exact writeByte_position _ _ hj
  · have hrow : dataInPhase .inp vs = byteLoop (fun v i => calls .dataIn 1 i (dataIn1 v)) vs 0 := rfl
    rw [hrow, byteLoop_getElem? (m := 13) (body := fun v i => calls .dataIn 1 i (dataIn1 v)) (fun _ _ => rfl) hj hi,
      Nat.zero_add]
    exact readByte_position _ _ hj

/-! ## The ready check (42_operations R215, 60_exceptions R262) -/

/-- That the run has not ended with PowerOrWiringFault is kept by every primitive that does not raise it. -/
theorem stable_noWiringFault : Stable (fun p => p.noWiringFault = true)
    fun u => u.outcome ≠ .fatal .powerOrWiringFault where
  tick _ h := h
  interrupted _ _ := RunOutcome.noConfusion
  pc _ _ h := h
  env _ _ h := h
  prim p hp u _ h _ := by
    cases p with
    | raise f i =>
      cases f with
      | powerOrWiringFault => cases hp
      | _ => simp [applyPrim]
    | finish | decline => exact RunOutcome.noConfusion
    | memWrite x _ _ => cases x <;> exact h
    | _ => exact h

section

variable {s t : State} {o : Host.Outcome State Fault Refusal} (hs : s.outcome ≠ .fatal .powerOrWiringFault)

include hs

theorem CalledRow.noWiringFault {e : Env} {row : Row} (hrow : CalledRow row) (h : runRow row { s with env := e } = .next t) :
    t.outcome ≠ .fatal .powerOrWiringFault := by
  refine stable_noWiringFault.runRow (fun p hp => ?_) (stable_noWiringFault.env s e hs) h
  obtain ⟨x, hx, rfl⟩ := List.mem_map.1 hp
  exact (hrow x hx).1

theorem OwnRow.noWiringFault (ho : OwnRow s o) (h : o = .next t) : t.outcome ≠ .fatal .powerOrWiringFault := by
  obtain ⟨e, ps, _, hps, rfl⟩ := ho
  exact stable_noWiringFault.runPrims (List.all_eq_true.1 hps) (stable_noWiringFault.env s e hs) h

theorem CalledFrom.noWiringFault (ho : CalledFrom s o) (h : o = .next t) : t.outcome ≠ .fatal .powerOrWiringFault := by
  cases ho with
  | row e _ hrow => exact hrow.noWiringFault hs h
  | waits e inner _ hrow =>
    refine onReturn_keeps (P := fun u => u.outcome ≠ .fatal .powerOrWiringFault) (fun u => hrow.noWiringFault hs)
      (fun u hu hst => ?_) h
    cases hst
    exact hu

theorem StatementOf.noWiringFault (ho : StatementOf s o) (h : o = .next t) :
    t.outcome ≠ .fatal .powerOrWiringFault := by
  cases ho with
  | own ho => exact ho.noWiringFault hs h
  | call ho hf =>
    exact onReturn_keeps (P := fun u => u.outcome ≠ .fatal .powerOrWiringFault) (fun u => ho.noWiringFault hs)
      (fun u hu => (hf u).noWiringFault hu) h

end

theorem noWiringFault_of_hostPrim {p : Prim} (h : hostPrim p) : p.noWiringFault = true := by
  obtain rfl | ⟨_, _, _, _, _, rfl⟩ := h <;> rfl

/-- Only the statement at S3 ends a run with PowerOrWiringFault. -/
theorem step_wiringFault {s t : State} (hr : s.outcome = .running) (h : step s = .next t)
    (ht : t.outcome = .fatal .powerOrWiringFault) : ∃ rest, s.pc = .lab .s3 :: rest := by
  have hs : s.outcome ≠ .fatal .powerOrWiringFault := by rw [hr]; exact RunOutcome.noConfusion
  cases stepIs s with
  | contention _ he | reject _ he => rw [he] at h; cases h
  | idle he =>
    rw [he, Host.Outcome.next.injEq, stayIdle] at h
    subst h
    split at ht
    · exact absurd ht RunOutcome.noConfusion
    · exact absurd ht hs
  | host rest p hp he =>
    have hstart : (startInvocation { s with commands := rest }).outcome ≠ .fatal .powerOrWiringFault :=
      RunOutcome.noConfusion
    refine absurd ht (stable_noWiringFault.runPrims (fun q hq => ?_) hstart (he.symm.trans h))
    rw [List.mem_singleton.1 hq]
    exact noWiringFault_of_hostPrim hp
  | cycle w i _ _ hi he =>
    rw [he, exec_cycle hi] at h
    exact absurd ht ((phaseRow_cycleRow hi _).called.noWiringFault (s := { s with placed := none }) (e := s.env) hs h)
  | label l rest _ _ hp he =>
    by_cases hl : l = .s3
    · exact ⟨rest, by rw [hp, hl]⟩
    · exact absurd ht ((statementOf_runLabel hl s).noWiringFault hs (he.symm.trans h))
  | wait rest _ _ _ he =>
    exact absurd ht ((calledFrom_waitLoop _).noWiringFault (s := { s with pc := rest }) hs (he.symm.trans h))

/-- Settles O30: S3 by its sample, and every other step by the primitives it performs. -/
theorem readyCheckAtRest : Obligations.ReadyCheckAtRest := by
  refine ⟨fun s rest hs ha => ⟨fun hsample => ?_, fun hsample => ?_⟩, fun s t hr h ht => step_wiringFault hr h ht⟩
  · have hrun : runLabel .s3 s =
        doThen [.pin (.readLevel .rb true)] (toLabel .s4) { s with env := (drawLevel s.env).2 } := if_pos hsample
    exact ha.step_doThen hs.undisturbed hrun rfl (guardsPass_sample hs.re true [])
  · have hrun : runLabel .s3 s = runPrims ([.pin (.readLevel .rb false)] ++ [.raise .powerOrWiringFault .none])
        { s with env := (drawLevel s.env).2 } := if_neg (ne_true_of_eq_false hsample)
    exact ⟨_, ha.step_eq.trans (hrun.trans (runPrims_append_raise (s := { s with env := (drawLevel s.env).2 }) hs.running
      hs.calm hs.undriven rfl (guardsPass_sample hs.re false []) _ _)), rfl, rfl⟩

end Sys2Proof.Machine
end

/-! PROOF. Bus contention (10_state R25, 60_exceptions R277): where the first primitive of a bus cycle is stopped by its
guard, and that a read cycle under a chip that drives DQ is stopped where it ends at the latest. -/
section
namespace Sys2Proof.Machine

/-! ## A row stopped at its first primitive -/

/-- The guard of the row's first primitive stops it on the lines `ls`; `driven` says that the chip drives DQ. -/
def StopsFirst (row : Row) (ls : Lines) (driven : Bool) : Prop :=
  ∃ (p : Prim) (q : List Pos) (rest : Row), row = (p, q) :: rest ∧ primGuard p ls driven = some .busContention

section

variable {ls : Lines} {driven : Bool} {a b : Row}

theorem StopsFirst.append (h : StopsFirst a ls driven) : StopsFirst (a ++ b) ls driven := by
  obtain ⟨p, q, rest, rfl, hg⟩ := h
  exact ⟨p, q, rest ++ b, rfl, hg⟩

theorem StopsFirst.calls {q : Proc} {n i : Nat} (h : StopsFirst a ls driven) : StopsFirst (calls q n i a) ls driven := by
  obtain ⟨p, q', rest, rfl, hg⟩ := h
  exact ⟨p, _, _, rfl, hg⟩

/-- A statement whose primitive is stopped. -/
theorem stopsFirst_stmt {q : Proc} {n : Nat} {p : Prim} (h : primGuard p ls driven = some .busContention) :
    StopsFirst (stmt q n p) ls driven := ⟨p, _, [], rfl, h⟩

/-- Such a row is a fault of the model, no interrupt being due; so it is where the chip's drive comes before the guard. -/
theorem StopsFirst.fault {row : Row} {s : State} (hr : s.outcome = .running) (hi : s.interruptIn = none)
    (h : StopsFirst row s.lines (decide (s.driveIn = some 0))) : runRow row s = .fault .busContention := by
  obtain ⟨p, q, rest, rfl, hg⟩ := h
  cases hc : s.chipContends with
  | true => simp [runRow, hr, hi, hc]
  | false => simp [runRow, hr, hi, hc, hg]

/-- BusDir that must turn the bus (40_bus_cycles R135), a strobe being 0 or DQ contended. -/
theorem stopsFirst_busDir {cur d : Dir} (hne : cur ≠ d) (h : (ls.strobeLow || ls.contested driven) = true) :
    StopsFirst (busDir cur d) ls driven := by
  rw [busDir, if_neg hne]
  exact ⟨_, _, _, rfl, if_pos h⟩

/-! ## The write cycles -/

/-- The lines on which a write phase is stopped before it does anything: RE# is 0, or the chip drives DQ, or WE# is 0 and the
bus must be turned. -/
def WriteStops (ls : Lines) (driven : Bool) : Prop :=
  ls.re = false ∨ driven = true ∨ (ls.dqDir = .inp ∧ ls.we = false)

theorem contested_of_driving (hd : ls.dqDir = .out) (h : ls.re = false ∨ driven = true) :
    ls.contested driven = true := by
  rcases h with h | h <;> simp [Lines.contested, Lines.contended, hd, h]

/-- A write phase is stopped where it turns the bus, or, DQDIR being OUT already, at its first pin event. -/
theorem stopsFirst_turned {q : Proc} {n i : Nat} (h : WriteStops ls driven)
    (hrow : ls.contested driven = true → StopsFirst b ls driven) :
    StopsFirst (Machine.calls q n i (busDir ls.dqDir .out) ++ b) ls driven := by
  cases hd : ls.dqDir with
  | inp =>
    refine ((stopsFirst_busDir Dir.noConfusion ?_).calls).append
    obtain hre | hdrv | ⟨_, hwe⟩ := h
    · simp [Lines.strobeLow, hre]
    · cases hre : ls.re <;> simp [Lines.strobeLow, Lines.contested, hre, hdrv]
    · simp [Lines.strobeLow, hwe]
  | out =>
    rw [busDir_same]
    refine hrow (contested_of_driving hd ?_)
    obtain hre | hdrv | ⟨hinp, _⟩ := h
    · exact .inl hre
    · exact .inr hdrv
    · rw [hd] at hinp; cases hinp

theorem primGuard_driveLine_contested (v : Byte) (i : Fin 8) (h : ls.contested driven = true) :
    primGuard (driveLine v i) ls driven = some .busContention := by
  unfold driveLine
  split <;> exact if_pos h

theorem stopsFirst_cmd (c : Byte) (h : WriteStops ls driven) : StopsFirst (cmdPhase ls.dqDir c) ls driven := by
  simp only [cmdPhase, List.append_assoc]
  exact stopsFirst_turned h fun hc => (stopsFirst_stmt (p := .pin (.setHigh .cle)) (if_pos hc)).append

theorem stopsFirst_addr (bs : List Byte) (h : WriteStops ls driven) : StopsFirst (addrPhase ls.dqDir bs) ls driven := by
  simp only [addrPhase, List.append_assoc]
  exact stopsFirst_turned h fun hc => (stopsFirst_stmt (p := .pin (.setHigh .ale)) (if_pos hc)).append

theorem stopsFirst_dataOut (d : Byte) (h : WriteStops ls driven) : StopsFirst (dataOutPhase ls.dqDir [d]) ls driven :=
  stopsFirst_turned h fun hc => ⟨_, _, _, rfl, primGuard_driveLine_contested d 0 hc⟩

/-- Every bus cycle but the read cycle. -/
theorem stopsFirst_cycleRow {i : Instr} (hi : (encodeWord i).isSome = true) (hw : ∀ d, i ≠ .dataR d)
    (h : WriteStops ls driven) : StopsFirst (cycleRow ls.dqDir i) ls driven := by
  cases i with
  | cmdReadId | cmdReadSetup | cmdReadConfirm | cmdProgSetup | cmdProgConfirm | cmdEraseSetup | cmdEraseConfirm
  | cmdReadStatus => exact stopsFirst_cmd _ h
  | idAddr | addr => exact stopsFirst_addr _ h
  | dataW d => exact stopsFirst_dataOut d h
  | dataR d => exact absurd rfl (hw d)
  | _ => exact absurd hi Bool.false_ne_true

/-! ## The read cycle -/

/-- A read cycle that must turn the bus while a strobe is 0. -/
theorem stopsFirst_dataIn {vs : List Byte} (hd : ls.dqDir = .out) (h : ls.strobeLow = true) :
    StopsFirst (dataInPhase ls.dqDir vs) ls driven := by
  rw [hd]
  exact ((stopsFirst_busDir Dir.noConfusion (by rw [h, Bool.true_or])).calls).append

/-- The guards of the bus know one fault only. -/
theorem busContention_of_onBus {p : Prim} {f : Fault} (hp : p.onBus = true) (h : primGuard p ls driven = some f) :
    f = .busContention := by
  have honly : ∀ {c : Prop} [Decidable c], (if c then some Fault.busContention else none) = some f → f = .busContention :=
    fun h => (Option.some.inj (Option.ite_none_right_eq_some.1 h).2).symm
  unfold primGuard at h
  split at h
  case h_1 | h_2 | h_3 | h_4 | h_5 => exact honly h
  case h_6 => cases hp
  case h_7 => cases h

/-- A row of bus primitives with a rise of RE#, under a chip that drives DQ: it is stopped at that rise at the latest. -/
theorem runRow_driven {row : Row} {s : State} (hb : row.prims.all Prim.onBus = true) (hmem : Prim.reRise ∈ row.prims)
    (hr : s.outcome = .running) (hi : s.interruptIn = none) (hd : s.driveIn = some 0) :
    runRow row s = .fault .busContention := by
  induction row generalizing s with
  | nil => cases hmem
  | cons e row ih =>
    obtain ⟨p, q⟩ := e
    obtain ⟨hp, hrow⟩ : p.onBus = true ∧ (Row.prims row).all Prim.onBus = true := by
      rwa [prims_cons, List.all_cons, Bool.and_eq_true] at hb
    cases hg : primGuard p s.lines (decide (s.driveIn = some 0)) with
    | some f =>
      rw [busContention_of_onBus hp hg] at hg
      exact StopsFirst.fault hr hi ⟨p, q, row, rfl, hg⟩
    | none =>
      have hlater : Prim.reRise ∈ Row.prims row := by
        refine (List.mem_cons.1 hmem).resolve_left fun hrise => ?_
        subst hrise
        simp [primGuard, hd] at hg
      cases hc : s.chipContends with
      | true => simp [runRow, hr, hi, hc]
      | false =>
        have hgoes : (applyPrim p (tick s)).outcome = .running := (quiet_outcome (quiet_of_onBus hp) _).trans hr
        have hdue : s.interruptIn ≠ some 0 := by rw [hi]; exact (Option.some_ne_none 0).symm
        rw [runRow_cons_passes hr hdue hc hg hgoes]
        refine ih hrow hlater hgoes ?_ ?_
        · rw [applyPrim_interruptIn, tick_interruptIn, hi]; rfl
        · rw [applyPrim_driveIn, tick_driveIn, hd]; rfl

theorem reRise_mem_dataIn (cur : Dir) (d : Byte) : Prim.reRise ∈ (dataInPhase cur [d]).prims := by
  rw [prims_dataInPhase]
  exact List.mem_append_right _ (by simp [byteIn, dataIn1])

end

/-! ## States that break R25 -/

/-- A state that breaks R25 is a fault at every step. -/
theorem step_contends {s : State} (hk : s.contends = true) : step s = .fault .busContention := by
  simp [step, nextWork, hk]

theorem linesSet_of {s : State} (h : s.pc ∉ earlyPcs ∨ PinEvent.setHigh .re ∈ s.pinLog) : s.linesSet = true := by
  rcases h with h | h
  · rw [State.linesSet, decide_eq_false h]; rfl
  · rw [State.linesSet, List.contains_iff_mem.2 h, Bool.or_true]

/-- Settles O13: a contended state by the tests that come before any primitive, and a bus cycle by the guards of its row. -/
theorem contentionIsAFault : Obligations.ContentionIsAFault := by
  refine ⟨fun s hset => ⟨fun ⟨hout, hre⟩ => step_contends ?_, fun hdrv hre => ?_⟩, fun s hr hi => ?_⟩
  · simp [State.contends, Lines.contended, hout, hre, linesSet_of hset]
  · have hchip : s.chipContends = true := by simp [State.chipContends, hdrv, hre, linesSet_of hset]
    refine ⟨step_contends (by rw [State.contends, hchip, Bool.true_or]), fun e row hr hi => ?_⟩
    simp [runRow, hr, hi, hchip]
  · have hwrite : WriteStops s.lines (decide (s.driveIn = some 0)) → ∀ i : Instr, (encodeWord i).isSome = true →
        (∀ d, i ≠ .dataR d) → exec i s = .fault .busContention := fun h i hcyc hw =>
      (exec_cycle hcyc s).trans ((stopsFirst_cycleRow hcyc hw h).fault hr hi)
    have hread : s.lines.strobeLow = true → ∀ d, s.lines.dqDir = .out → exec (.dataR d) s = .fault .busContention :=
      fun h d hd => (stopsFirst_dataIn hd h).fault hr hi
    refine ⟨fun hre => ⟨hwrite (.inl hre), hread (by simp [Lines.strobeLow, hre])⟩,
      fun hwe => ⟨fun i hcyc hw hd => hwrite (.inr (.inr ⟨hd, hwe⟩)) i hcyc hw, hread (by simp [Lines.strobeLow, hwe])⟩,
      fun hdrv i hcyc => ?_⟩
    by_cases hw : ∃ d, i = .dataR d
    · obtain ⟨d, rfl⟩ := hw
      exact runRow_driven (dataInPhase_onBus _ _) (reRise_mem_dataIn _ _) hr hi hdrv
    · exact hwrite (.inr (.inl (decide_eq_true hdrv))) i hcyc fun d h => hw ⟨d, h⟩

end Sys2Proof.Machine
end

/-! PROOF. Reset and hazards (70_reset_and_hazards R301, R321): InitLines from any lines, and how many pin events the
transactions perform. -/
section
namespace Sys2Proof.Machine

open Statements

/-! ## InitLines (R301) -/

/-- InitLines drives no data line, so the byte the engine drives stays. -/
theorem initLines_dq (ls : Lines) : (ls.afterAll initLines).dq = ls.dq := by
  simp [initLines, dqLines, Lines.after, Lines.event, Lines.setDir, Lines.setLevel]

/-- Settles O29: the step at S2 puts the lines through InitLines, which fixes every line but the driven byte. -/
theorem initLinesFromAnyLines : Obligations.InitLinesFromAnyLines := fun s _ ha hu =>
  ⟨s.lines.afterAll initLines, step_s2 ha hu, initLines_atRest _, initLines_dqDir _, initLines_dq _⟩

/-! ## The pin events of the phases, counted (40_bus_cycles R135 to R145) -/

/-- What a run adds to the pin trace is added at its end. -/
theorem events_length_of_pinLog {s t : State} {evs : List PinEvent} (h : t.pinLog = evs.reverse ++ s.pinLog) :
    t.events.length = s.events.length + evs.length := by
  rw [State.events, State.events, h, List.reverse_append, List.reverse_reverse, List.length_append]

/-- Eight direction changes and one Pause, where the bus turns. -/
@[simp] theorem turnEvents_length (cur d : Dir) : (turnEvents cur d).length = if cur = d then 0 else 9 := by
  unfold turnEvents
  split <;> rfl

/-- The eight lines and a Pause, then the strobe's two edges and two Pauses. -/
@[simp] theorem writeEvents_length (v : Byte) : (writeEvents v).length = 13 := rfl

/-- The strobe's two edges and two Pauses, and the eight samples between them. -/
@[simp] theorem dataIn1Events_length (v : Byte) : (dataIn1Events v).length = 12 := rfl

theorem length_flatMap_const {α β : Type} {f : α → List β} {c : Nat} (h : ∀ a, (f a).length = c) (l : List α) :
    (l.flatMap f).length = c * l.length := by
  simp [List.length_flatMap, h, Nat.mul_comm]

@[simp] theorem cmdEvents_length (cur : Dir) (c : Byte) :
    (cmdEvents cur c).length = (turnEvents cur .out).length + 17 := by
  simp [cmdEvents]

@[simp] theorem addrEvents_length (cur : Dir) (a : List Byte) :
    (addrEvents cur a).length = (turnEvents cur .out).length + (13 * a.length + 4) := by
  simp +arith [addrEvents, length_flatMap_const writeEvents_length]

@[simp] theorem dataOutEvents_length (cur : Dir) (ds : List Byte) :
    (dataOutEvents cur ds).length = (turnEvents cur .out).length + 13 * ds.length := by
  rw [dataOutEvents, List.length_append, length_flatMap_const writeEvents_length]

@[simp] theorem dataInEvents_length (cur : Dir) (vs : List Byte) :
    (dataInEvents cur vs).length = (turnEvents cur .inp).length + 12 * vs.length := by
  rw [dataInEvents, List.length_append, length_flatMap_const dataIn1Events_length]

/-- A sample and a Pause for each busy sample. -/
@[simp] theorem busyEvents_length (n : Nat) : (busyEvents n).length = 2 * n := by
  simp [busyEvents, Nat.mul_comm]

/-! ## The pin events of the transactions, counted (R321) -/

/-- The pin trace after a transaction of `n` events, and 9 more where its first command must turn the bus out. -/
theorem events_length_of_turn {s t : State} {evs : List PinEvent} {n m : Nat} (h : t.pinLog = evs.reverse ++ s.pinLog)
    (hn : evs.length = (turnEvents s.lines.dqDir .out).length + n + m) :
    t.events.length = s.events.length + (if s.lines.dqDir = .inp then n + 9 else n) + m := by
  rw [events_length_of_pinLog h, hn]
  cases s.lines.dqDir <;> simp +arith

section

variable (cur : Dir) (p b : Nat)

theorem readIdEvents_turn {bs : List Byte} (hb : bs.length = ID_LEN) :
    (readIdEvents cur bs).length = (turnEvents cur .out).length + 103 := by
  simp [readIdEvents, hb, ID_LEN, Nat.add_assoc]

/-- The two commands, five address bytes and a page read, with `n` busy samples and the ready one between them. -/
theorem readPageEvents_turn (n : Nat) {bs : List Byte} (hb : bs.length = PAGE_SIZE) :
    (readPageOpenEvents cur p ++ busyEvents n ++ [PinEvent.readLevel .rb true] ++ dataInEvents .out bs).length =
      (turnEvents cur .out).length + 25456 + (2 * n + 1) := by
  simp +arith [readPageOpenEvents, hb, PAGE_SIZE]

theorem writePageEvents_turn {bs : List Byte} (hb : bs.length = PAGE_SIZE) :
    (cmdEvents cur 0x80#8 ++ addrEvents .out (pageAddr p) ++ dataOutEvents .out bs ++ cmdEvents .out 0x10#8).length =
      (turnEvents cur .out).length + 27559 := by
  simp [hb, PAGE_SIZE, Nat.add_assoc]

theorem eraseBlockEvents_turn :
    (cmdEvents cur 0x60#8 ++ addrEvents .out (blockAddr b) ++ cmdEvents .out 0xD0#8).length =
      (turnEvents cur .out).length + 77 := by
  simp [Nat.add_assoc]

theorem readStatusEvents_turn (v : Byte) :
    (cmdEvents cur 0x70#8 ++ dataInEvents .out [v]).length = (turnEvents cur .out).length + 38 := by
  simp [Nat.add_assoc]

end

theorem withPage_pinLog (x : Buf) (bs : List Byte) (s : State) : (withPage x bs s).pinLog = s.pinLog := by
  cases x <;> rfl

/-- Settles O21: each transaction's next state has its pin events written out, which are counted phase by phase. -/
theorem transactionPinEventCounts : Obligations.TransactionPinEventCounts := fun s p x hs =>
  ⟨⟨_, readIdSamplesFiveBytes s hs, events_length_of_turn (m := 0) rfl (readIdEvents_turn _ (drawBytes_length _ _))⟩,
    fun hw => ⟨_, execReadPage_ready hs p x hw, events_length_of_turn (withPage_pinLog ..)
      (readPageEvents_turn _ p _ (drawBytes_length _ _))⟩,
    ⟨_, (writePageSendsBufA s p hs).1, events_length_of_turn (m := 0) rfl (writePageEvents_turn _ p (page_length _))⟩,
    ⟨_, (eraseBlockSendsFiveCycles s p hs).1, events_length_of_turn (m := 0) rfl (eraseBlockEvents_turn _ p)⟩,
    ⟨_, (readStatusSamplesOneByte s hs).1, events_length_of_turn (m := 0) rfl (readStatusEvents_turn _ _)⟩⟩

end Sys2Proof.Machine
end
